-- ==== Sys2Proof/Word.lean ====
section
/-! DEFINITION. The word types of the block: bytes, 64-bit CSR words, 72-bit weights, 9-bit node indices. -/

namespace Sys2Proof

/-- One symbol, one byte of IN or OUT (00_scope.md R12, NSYM = 256). -/
abbrev Byte := BitVec 8

/-- One CSR, and one command word (00_scope.md R12, CSR_W = 64). -/
abbrev Word := BitVec 64

/-- A node's weight, unsigned and exact (00_scope.md R12, WEIGHT_W = 72). -/
abbrev Weight := BitVec 72

/-- A node index as the NODE window and TREE_INFO hold it (10_state.md R48, R52). -/
abbrev NodeIx := BitVec 9

end Sys2Proof
end

