-- ==== Sys2Proof/Syntax.lean ====
section
/-! DEFINITION. The commands: one constructor for each row of the opcode map (30_encoding.md R111). -/

namespace Sys2Proof

/-- A decoded command. WRBIT alone carries an operand, BITVAL (30_encoding.md R114). -/
inductive Instr where
  | nop
  | count
  | build
  | gencode
  | wrbit (bit : Bool)
  | flush
  | rdbit
  | canrd
  | cwrite
  | cread
  | compress
  | decompress
  | clear
  deriving DecidableEq, Repr

end Sys2Proof
end

