-- ==== Sys2Proof/Decode.lean ====
section
/-! DEFINITION. Decoding the command word (30_encoding.md R110-R114), and after it the encoder. -/

namespace Sys2Proof

/-- Why a command word decodes ILLEGAL (30_encoding.md R112, R113). -/
inductive Illegal where
  /-- A bit of RSVD, [63:9], is set. -/
  | reservedBits
  /-- The opcode is 0x0C, 0x0D, 0x0E or 0x10 to 0xFF. -/
  | reservedOpcode
  /-- BITVAL is 1 with an opcode other than WRBIT. -/
  | bitvalSet
  deriving DecidableEq, Repr

/-- CMD[7:0] (30_encoding.md R110). -/
def opcodeField (v : Word) : BitVec 8 := v.extractLsb' 0 8

/-- CMD[8] (30_encoding.md R110, R114). -/
def bitvalField (v : Word) : Bool := v.getLsbD 8

/-- CMD[63:9] (30_encoding.md R110). -/
def reservedField (v : Word) : BitVec 55 := v.extractLsb' 9 55

/-- The opcode map of 30_encoding.md R111; `none` is a reserved opcode (R113). -/
def opcodeMap (op : BitVec 8) (bit : Bool) : Option Instr :=
  match op.toNat with
  | 0x00 => some .nop
  | 0x01 => some .count
  | 0x02 => some .build
  | 0x03 => some .gencode
  | 0x04 => some (.wrbit bit)
  | 0x05 => some .flush
  | 0x06 => some .rdbit
  | 0x07 => some .canrd
  | 0x08 => some .cwrite
  | 0x09 => some .cread
  | 0x0A => some .compress
  | 0x0B => some .decompress
  | 0x0F => some .clear
  | _ => none

/-- Decoding is total (30_encoding.md R112), its checks in the rule's order. -/
def decode (v : Word) : Except Illegal Instr :=
  if reservedField v ≠ 0 then .error .reservedBits
  else
    match opcodeMap (opcodeField v) (bitvalField v) with
    | none => .error .reservedOpcode
    | some i => if opcodeField v ≠ 0x04 ∧ bitvalField v = true then .error .bitvalSet else .ok i

/-- The command word of a row of spec/opcode_table.json, whose bits are numbered as CMD's are. -/
def tableWord (nbits w : Nat) : Word := BitVec.ofNat 64 (w % 2 ^ nbits)

/-- What the decoder reads from a row's word of the opcode table. -/
def decodeTableWord (nbits w : Nat) : Option Instr :=
  match decode (tableWord nbits w) with
  | .ok i => some i
  | .error _ => none

/-- OPCODE of each command (30_encoding.md R111). -/
def opcodeOf : Instr → BitVec 8
  | .nop => 0x00
  | .count => 0x01
  | .build => 0x02
  | .gencode => 0x03
  | .wrbit _ => 0x04
  | .flush => 0x05
  | .rdbit => 0x06
  | .canrd => 0x07
  | .cwrite => 0x08
  | .cread => 0x09
  | .compress => 0x0A
  | .decompress => 0x0B
  | .clear => 0x0F

/-- BITVAL of each command: WRBIT's operand, 0 for every other (30_encoding.md R110). -/
def bitvalOf : Instr → Bool
  | .wrbit bit => bit
  | .nop | .count | .build | .gencode | .flush | .rdbit | .canrd | .cwrite | .cread | .compress | .decompress
  | .clear => false

/-- The command word: RSVD = 0, then BITVAL, then OPCODE (30_encoding.md R110, R117). -/
def encode (i : Instr) : Word := (0 : BitVec 55) ++ BitVec.ofBool (bitvalOf i) ++ opcodeOf i

end Sys2Proof
end

