-- ==== Sys2Proof/Config.lean ====
section
/-! DEFINITION. What an implementation fixes (the OPEN parameters of 00_scope.md R12) and the free values the spec leaves open. -/

namespace Sys2Proof

/-- The OPEN parameters of 00_scope.md R12. A State carries them (`State.params`), no step changes them, and a
statement about every state is a statement about every choice of them (92_eei_decisions.md D29). -/
structure Params where
  /-- IN_SIZE: bytes of the IN buffer. -/
  inSize : Nat
  /-- OUT_SIZE: bytes of the OUT buffer. -/
  outSize : Nat
  /-- CSR_BASE: host address of the CSR space. -/
  csrBase : Nat
  /-- IN_BASE: host address of the IN buffer. -/
  inBase : Nat
  /-- OUT_BASE: host address of the OUT buffer. -/
  outBase : Nat
  deriving DecidableEq, Repr

/-- Bytes of the CSR space (10_state.md R30). -/
def csrSpaceSize : Nat := 0x7000

/-- DESIGN CHOICE (log 2): the parameters `State.reset` carries. The spec leaves them OPEN; its test vectors ask for
buffers of at least 4096 bytes (95_test_vectors.md). -/
def Params.default : Params :=
  { inSize := 4096, outSize := 4096, csrBase := 0, inBase := 0x10000, outBase := 0x20000 }

/-- FREE VALUE (log 3): the value of a byte the spec leaves at any value, by the draw that made it free and its offset. -/
opaque Config.freeByte : Nat → Nat → Byte

/-- FREE VALUE (log 4): what a CSR read returns while BUSY = 1 (10_state.md R57), by draw. -/
opaque Config.freeWord : Nat → Word

/-- FREE VALUE (log 4): PROG_PEND as read while BUSY = 1 (10_state.md R57), by draw. -/
opaque Config.freeBit : Nat → Bool

/-- FREE VALUE (log 5): which of its old and new values a CORE read of a raced IN byte returns (20_memory.md R93), by
draw, pass over IN and offset: one free choice per read. -/
opaque Config.freePick : Nat → Nat → Nat → Nat

end Sys2Proof
end

