-- ==== Sys2Proof/Machine/State.lean ====
section
/-! DEFINITION. The state of the block, as 10_state.md gives it, with what HOST has still to do, and the reset state. -/

namespace Sys2Proof.Machine

/-- Failure causes (60_exceptions.md R321). NONE is `none` of `Option Cause`. The two host causes are reserved codes
the block never writes (R322). -/
inductive Cause where
  | hostInvalidInput
  | hostUnsupportedType
  | truncated
  | hdrShort
  | hdrEntryCount
  | hdrBadCount
  | hdrSymbolOrder
  | hdrNegOrigLen
  | hdrPayloadLen
  | noTree
  | badCode
  | readEmpty
  | outCapacity
  | payloadTooLarge
  | badArg
  | illegalCmd
  deriving DecidableEq, Repr

/-- Why the machine stops with a fault. No command faults (93_implementation_defined.md section 1); only HOST does. -/
inductive Fault where
  /-- Raised by a HOST access whose host address lies in none of the three spaces (20_memory.md R80). Safe. -/
  | unmappedHostAddress
  /-- Raised by a HOST access that runs past the end of IN or OUT (20_memory.md R81, R82). Safe. -/
  | pastBufferEnd
  deriving DecidableEq, Repr

/-- Why the machine refuses. -/
inductive Refusal where
  /-- Raised by `exec` for a command that has no meaning yet; no arm raises it. Safe. -/
  | notModelled (mnemonic : String)
  /-- Raised by a HOST access to the CSR space that is not 64 bits wide at an 8-byte-aligned offset, which the spec
  gives no meaning (20_memory.md R87, 60_exceptions.md R341). Safe. -/
  | csrAccessForm
  deriving DecidableEq, Repr

/-- CTRL (10_state.md R32). -/
structure Ctrl where
  /-- Single-symbol mode: false is EMPTY, true is ONE_BIT. -/
  ssm : Bool
  ieDone : Bool
  ieErr : Bool
  ieProg : Bool
  deriving DecidableEq, Repr

/-- STATUS (10_state.md R34) but for BUSY, which is 1 exactly while a command is accepted and not completed
(`State.pending`). -/
structure Status where
  done : Bool
  err : Bool
  progPend : Bool
  overrun : Bool
  deriving DecidableEq, Repr

/-- PROGRESS (10_state.md R42). -/
structure Progress where
  pct : Byte
  pvalid : Bool
  deriving DecidableEq, Repr

/-- The bit writer: BW_POS and BW_STATE (10_state.md R43, R44). -/
structure BitWriter where
  pos : Word
  acc : Byte
  /-- CNT, 0 to 7. -/
  cnt : Fin 8
  deriving DecidableEq, Repr

/-- The bit reader: BR_POS, BR_END and BR_STATE (10_state.md R45 to R47). -/
structure BitReader where
  pos : Word
  endPos : Word
  cur : Byte
  /-- REM, 0 to 8. -/
  rem : Fin 9
  lastBit : Bool
  can : Bool
  deriving DecidableEq, Repr

/-- TREE_INFO (10_state.md R48). -/
structure TreeInfo where
  nodeCount : BitVec 10
  root : NodeIx
  rootValid : Bool
  deriving DecidableEq, Repr

/-- A node of the pool (10_state.md R52). -/
structure Node where
  isLeaf : Bool
  symbol : Byte
  weight : Weight
  left : NodeIx
  right : NodeIx
  deriving DecidableEq, Repr

/-- An entry of the code table (10_state.md R55). -/
structure Code where
  valid : Bool
  len : BitVec 8
  bits : BitVec 256
  deriving DecidableEq, Repr

/-- A table indexed by symbol (10_state.md R50, R55). -/
abbrev SymTable (α : Type) := Vector α 256

/-- The node pool (10_state.md R52): NODE[0 .. NODE_COUNT-1]. The nodes from NODE_COUNT to 510 are all-zero and not
listed; no BUILD makes more than 511. -/
abbrev Pool := List Node

/-- The bytes below `limit` that nothing has written since took any value, by draw `draw`. -/
structure Fill where
  limit : Nat
  draw : Nat
  deriving DecidableEq, Repr

/-- The bytes of a buffer. `cells` lists the bytes written, addresses strictly rising. An address not listed has no
written value: it holds the free value of the newest fill that covers it, else of `base`, the draw of the buffer's
unspecified contents at reset (10_state.md R62, 60_exceptions.md R328; log 3). Newer fills stand first, limits
strictly rising. -/
structure Memory where
  cells : List Host.Cell
  fills : List Fill
  base : Nat
  deriving DecidableEq, Repr

/-- An entry of the event history (10_state.md R63). -/
inductive Event where
  /-- Accept(v): the value of the CMD write. -/
  | accept (v : Word)
  /-- Progress(p). -/
  | progress (pct : Nat)
  /-- Complete: `none` is success, else the cause in ERR. -/
  | complete (outcome : Option Cause)
  deriving DecidableEq, Repr

/-- The two buffers (20_memory.md R80). -/
inductive Buffer where
  | input
  | output
  deriving DecidableEq, Repr

/-- The three address spaces (20_memory.md R80). -/
inductive Space where
  | csr
  | buf (b : Buffer)
  deriving DecidableEq, Repr

/-- An access HOST issues (30_encoding.md R116). Widths are in bytes. -/
inductive HostAction where
  | read (addr width : Nat)
  | write (addr width value : Nat)
  deriving DecidableEq, Repr

/-- A buffer access under way: it is the byte accesses of its offsets, lowest first, and not atomic as a whole
(20_memory.md R85, R88). -/
inductive Access where
  /-- A read issued at `addr`: `got` are the bytes read, `left` how many are still to be read, from offset `off` on. -/
  | reading (addr : Nat) (b : Buffer) (off left : Nat) (got : List Byte)
  /-- A write: `bytes` are still to be written, from offset `off` on. -/
  | writing (b : Buffer) (off : Nat) (bytes : List Byte)
  deriving DecidableEq, Repr

/-- Who moves (00_scope.md R5). -/
inductive Turn where
  /-- HOST issues an access: all of a CSR access, the first byte access of a buffer access. -/
  | host (a : HostAction)
  /-- HOST makes the next byte access of the access under way. -/
  | byte
  /-- The next progress event of the running command sets PROG_PEND, while the command goes on. -/
  | event
  /-- CORE runs the accepted command. -/
  | core
  /-- The reset input (70_reset_and_hazards.md R360). -/
  | reset
  deriving DecidableEq, Repr

/-- What a HOST read returned. -/
structure Observation where
  addr : Nat
  width : Nat
  value : Nat
  deriving DecidableEq, Repr

/-- The state of the block. ENTRY_COUNT, BUSY, the IRQ line and ID are computed from it (10_state.md R31, R34, R41;
60_exceptions.md R330). -/
structure State where
  /-- The OPEN parameters (00_scope.md R12): fixed, no step changes them. -/
  params : Params
  ctrl : Ctrl
  status : Status
  /-- ERR: `none` while no failure is recorded (10_state.md R35). -/
  err : Option Cause
  inLen : Word
  outCap : Word
  outLen : Word
  origLen : Word
  payloadLen : Word
  progress : Progress
  bw : BitWriter
  br : BitReader
  treeInfo : TreeInfo
  freq : SymTable Word
  pool : Pool
  codes : SymTable Code
  inMem : Memory
  outMem : Memory
  history : List Event
  /-- The accepted command that has not completed, at most one (46_control.md R300, R306). -/
  pending : Option Word
  /-- IN bytes HOST wrote while BUSY = 1, each with a value it held before (20_memory.md R93). -/
  inRaces : List Host.Cell
  /-- Offsets of the OUT bytes HOST wrote while BUSY = 1 (20_memory.md R93). -/
  outTouched : List Nat
  /-- MODEL: how many progress events of the running COMPRESS have set PROG_PEND already (log 19). -/
  eventsSeen : Nat
  /-- MODEL: how many free values have been drawn (log 3, 4, 5). -/
  draws : Nat
  /-- MODEL: the turns still to be taken, in order: HOST's accesses, and where CORE and reset come among them (log 7). -/
  agenda : List Turn
  /-- MODEL: HOST's buffer access that is under way between two of its byte accesses (log 13). -/
  access : Option Access
  /-- MODEL: what HOST's reads returned, in order (log 7). -/
  reads : List Observation
  deriving DecidableEq, Repr

/-- The all-zero node (10_state.md R52). -/
def Node.zero : Node := { isLeaf := false, symbol := 0, weight := 0, left := 0, right := 0 }

/-- The entry of a symbol without a code (10_state.md R55). -/
def Code.absent : Code := { valid := false, len := 0, bits := 0 }

/-- A buffer whose bytes are all unspecified. -/
def Memory.unspecified (draw : Nat) : Memory := { cells := [], fills := [], base := draw }

/-- The state just after reset (10_state.md R62), for given parameters, with the free values of IN and OUT taken from
the draws `d` and `d + 1`. -/
def State.atReset (p : Params) (d : Nat) : State :=
  { params := p
    ctrl := { ssm := false, ieDone := false, ieErr := false, ieProg := false }
    status := { done := false, err := false, progPend := false, overrun := false }
    err := none
    inLen := 0
    outCap := 0
    outLen := 0
    origLen := 0
    payloadLen := 0
    progress := { pct := 0, pvalid := false }
    bw := { pos := 0, acc := 0, cnt := 0 }
    br := { pos := 0, endPos := 0, cur := 0, rem := 0, lastBit := false, can := false }
    treeInfo := { nodeCount := 0, root := 0, rootValid := false }
    freq := Vector.replicate 256 0
    pool := []
    codes := Vector.replicate 256 Code.absent
    inMem := Memory.unspecified d
    outMem := Memory.unspecified (d + 1)
    history := []
    pending := none
    inRaces := []
    outTouched := []
    eventsSeen := 0
    draws := d + 2
    agenda := []
    access := none
    reads := [] }

/-- The machine right after reset (10_state.md R62, 70_reset_and_hazards.md R360). -/
def State.reset : State := State.atReset Params.default 0

end Sys2Proof.Machine
end

