-- ==== Sys2Proof/Machine/Operands.lean ====
section
/-! DEFINITION. What a command's operands are and how they are read: buffers, tables, codes, little-endian fields, CORE's
view of IN. -/

namespace Sys2Proof.Machine

/-! ## Buffers -/

/-- The byte listed at an offset. -/
def cellAt : List Host.Cell → Nat → Option Byte
  | [], _ => none
  | (x, b) :: r, a => if x = a then some b else cellAt r a

/-- The draw whose free value an unlisted offset holds: that of the newest fill above it, else the reset contents'. -/
def drawAt (base : Nat) : List Fill → Nat → Nat
  | [], _ => base
  | f :: r, a => if a < f.limit then f.draw else drawAt base r a

/-- What an unlisted offset holds: a free value (log 3). -/
def Memory.unlisted (m : Memory) (a : Nat) : Byte := Config.freeByte (drawAt m.base m.fills a) a

/-- The byte at an offset. -/
def Memory.read (m : Memory) (a : Nat) : Byte := (cellAt m.cells a).getD (m.unlisted a)

/-- The first number is below every address of the list. -/
def cellsAbove : Nat → List Host.Cell → Bool
  | _, [] => true
  | lo, (x, _) :: r => decide (lo < x) && cellsAbove x r

/-- Addresses strictly rise. -/
def cellsRise : List Host.Cell → Bool
  | [] => true
  | (x, _) :: r => cellsAbove x r

/-- Limits strictly rise from the bound on. -/
def fillsAbove : Nat → List Fill → Bool
  | _, [] => true
  | lo, f :: r => decide (lo < f.limit) && fillsAbove f.limit r

/-- The canonical form of a buffer: addresses strictly rising, fills strictly rising and none empty. An unlisted offset
holds no written value, so no entry can equal it (log 3). -/
def Memory.wf (m : Memory) : Bool := cellsRise m.cells && fillsAbove 0 m.fills

/-- Every listed byte lies below the buffer's size. -/
def Memory.within (m : Memory) (size : Nat) : Bool := m.cells.all fun c => decide (c.1 < size)

/-! ## Integers in bytes, little-endian (00_scope.md R16, 30_encoding.md R138) -/

/-- The k-byte unsigned value at offset a, byte a lowest: MemRead. -/
def leNat (view : Nat → Byte) (a : Nat) : Nat → Nat
  | 0 => 0
  | k + 1 => (view a).toNat + 256 * leNat view (a + 1) k

/-- The k bytes of a value, lowest first: what MemWrite stores. -/
def leBytes : Nat → Nat → List Byte
  | 0, _ => []
  | k + 1, v => BitVec.ofNat 8 v :: leBytes k (v / 256)

/-- The unsigned value of a list of bytes, lowest first. -/
def leValue : List Byte → Nat
  | [] => 0
  | b :: bs => b.toNat + 256 * leValue bs

/-- `as_signed_(8k)(MemRead(IN, a, k))` (30_encoding.md R138). -/
def leInt (view : Nat → Byte) (a k : Nat) : Int := (BitVec.ofNat (8 * k) (leNat view a k)).toInt

/-- `ceil8(x)` (00_scope.md R14). -/
def ceil8 (x : Nat) : Nat := (x + 7) / 8

/-! ## Tables indexed by symbol -/

/-- Entry s of a table. -/
def symGet {α : Type} (t : SymTable α) (s : Byte) : α := t[s.toNat]'s.isLt

/-- The table with entry s replaced. -/
def symSet {α : Type} (t : SymTable α) (s : Byte) (x : α) : SymTable α := t.set s.toNat x s.isLt

/-- A table with one value in every entry. -/
def symFill {α : Type} (x : α) : SymTable α := Vector.replicate 256 x

/-- The symbols, ascending (10_state.md R50). -/
def allSymbols : List Byte := (List.range 256).map (BitVec.ofNat 8)

/-- The entries of the frequency table, each a symbol with its count, in the table's order, ascending symbol value: the
symbols whose count is not 0 (10_state.md R50). -/
def entries (freq : SymTable Word) : List (Byte × Word) := (allSymbols.zip freq.toList).filter fun e => decide (e.2 ≠ 0)

/-- ENTRY_COUNT (10_state.md R41). -/
def entryCount (freq : SymTable Word) : Nat := (entries freq).length

/-! ## The node pool -/

/-- NODE[i]: all-zero at NODE_COUNT and above (10_state.md R52). -/
def nodeAt (p : Pool) (i : Nat) : Node := p.getD i Node.zero

/-! ## Codes as bit strings, first bit first (00_scope.md R15, 10_state.md R55) -/

/-- The table entry of the code c: LEN = |c|, BITS[k] = c[k] for k < LEN, 0 above. -/
def Code.ofBits (c : List Bool) : Code :=
  { valid := true, len := BitVec.ofNat 8 c.length, bits := (BitVec.ofBoolListLE c).setWidth 256 }

/-- The bits of an entry's code, in code order: BITS[0] first, LEN of them. -/
def Code.toBits (c : Code) : List Bool := (List.range c.len.toNat).map c.bits.getLsbD

/-! ## CORE's view of IN -/

/-- The passes a command makes over IN, each reading a byte at most once (log 5). COMPRESS reads IN to count it and
again to encode it; every other command makes one pass. -/
def firstPass : Nat := 0

/-- The second pass, COMPRESS's encode loop. -/
def encodePass : Nat := 1

/-- The values an IN byte held before HOST's writes to it during the running command. -/
def olderValues (races : List Host.Cell) (a : Nat) : List Byte :=
  (races.filter fun c => c.1 = a).map Prod.snd

/-- CORE's read of IN[a]: the byte, or, for a byte HOST wrote while BUSY = 1, its old or its new value, chosen freely
per read (20_memory.md R93; log 5). -/
def coreRead (s : State) (pass a : Nat) : Byte :=
  match olderValues s.inRaces a with
  | [] => s.inMem.read a
  | old => (s.inMem.read a :: old).getD (Config.freePick s.draws pass a % (old.length + 1)) (s.inMem.read a)

/-- BUSY (10_state.md R34, 46_control.md R300, R302). -/
def State.busy (s : State) : Bool := s.pending.isSome

/-- `IN_LEN > IN_SIZE` (10_state.md R36). -/
def inLenBad (s : State) : Bool := decide (s.inLen.toNat > s.params.inSize)

/-- `OUT_CAP > OUT_SIZE` (10_state.md R37). -/
def outCapBad (s : State) : Bool := decide (s.outCap.toNat > s.params.outSize)

/-- `canRead()` (43_bitio.md R214). -/
def canRead (s : State) : Bool := decide (0 < s.br.rem.val ∨ s.br.pos.toNat < s.br.endPos.toNat)

/-- The bits left to the bit reader: those of CUR, then 8 for each byte from BR_POS to BR_END. -/
def unreadBits (s : State) : Nat := s.br.rem.val + 8 * (s.br.endPos.toNat - s.br.pos.toNat)

end Sys2Proof.Machine
end

