-- ==== Sys2Proof/Machine/Flags.lean ====
section
/-! DEFINITION. The register words HOST reads (10_state.md R31-R56), error codes (60_exceptions.md R321, R323), W1C of
STATUS, progress events and the IRQ line. -/

namespace Sys2Proof.Machine

/-- ERR.CAUSE of each cause (60_exceptions.md R321). -/
def Cause.code : Cause → BitVec 8
  | .hostInvalidInput => 0x01
  | .hostUnsupportedType => 0x02
  | .truncated => 0x10
  | .hdrShort => 0x11
  | .hdrEntryCount => 0x12
  | .hdrBadCount => 0x13
  | .hdrSymbolOrder => 0x14
  | .hdrNegOrigLen => 0x15
  | .hdrPayloadLen => 0x16
  | .noTree => 0x17
  | .badCode => 0x18
  | .readEmpty => 0x19
  | .outCapacity => 0x20
  | .payloadTooLarge => 0x21
  | .badArg => 0x22
  | .illegalCmd => 0x23

/-- ERR.KIND of each cause (60_exceptions.md R321, R323). -/
def Cause.kind : Cause → BitVec 4
  | .hostInvalidInput => 1
  | .hostUnsupportedType => 2
  | .truncated | .hdrShort | .hdrEntryCount | .hdrBadCount | .hdrSymbolOrder | .hdrNegOrigLen | .hdrPayloadLen
  | .noTree | .badCode | .readEmpty => 3
  | .outCapacity | .payloadTooLarge | .badArg | .illegalCmd => 4

/-- A cause the block may write: all but the two reserved for the host wrapper (60_exceptions.md R322). -/
def Cause.byBlock : Cause → Bool
  | .hostInvalidInput | .hostUnsupportedType => false
  | .truncated | .hdrShort | .hdrEntryCount | .hdrBadCount | .hdrSymbolOrder | .hdrNegOrigLen | .hdrPayloadLen
  | .noTree | .badCode | .readEmpty | .outCapacity | .payloadTooLarge | .badArg | .illegalCmd => true

/-- ID (10_state.md R31). -/
def idWord : Word := 0x0000_0001_4855_4643

/-- CTRL, its reserved bits reading 0 (10_state.md R32). -/
def Ctrl.word (c : Ctrl) : Word :=
  (0 : BitVec 60) ++ BitVec.ofBool c.ieProg ++ BitVec.ofBool c.ieErr ++ BitVec.ofBool c.ieDone ++ BitVec.ofBool c.ssm

/-- CTRL as a written word sets it; writes to the reserved bits are ignored (10_state.md R32). -/
def Ctrl.ofWord (v : Word) : Ctrl :=
  { ssm := v.getLsbD 0, ieDone := v.getLsbD 1, ieErr := v.getLsbD 2, ieProg := v.getLsbD 3 }

/-- The STATUS word made of its five fields (10_state.md R34). -/
def statusBits (busy done err progPend overrun : Bool) : Word :=
  (0 : BitVec 59) ++ BitVec.ofBool overrun ++ BitVec.ofBool progPend ++ BitVec.ofBool err ++ BitVec.ofBool done
    ++ BitVec.ofBool busy

/-- STATUS (10_state.md R34). -/
def statusWord (s : State) : Word :=
  statusBits s.busy s.status.done s.status.err s.status.progPend s.status.overrun

/-- ERR: CAUSE in [15:8], KIND in [3:0], 0 while no failure is recorded (10_state.md R35). -/
def errWord : Option Cause → Word
  | none => 0
  | some c => (0 : BitVec 48) ++ c.code ++ (0 : BitVec 4) ++ c.kind

/-- PROGRESS (10_state.md R42). -/
def Progress.word (p : Progress) : Word := (0 : BitVec 55) ++ BitVec.ofBool p.pvalid ++ p.pct

/-- BW_STATE (10_state.md R44). -/
def BitWriter.stateWord (w : BitWriter) : Word := (0 : BitVec 52) ++ BitVec.ofNat 4 w.cnt.val ++ w.acc

/-- BR_STATE (10_state.md R47). -/
def BitReader.stateWord (r : BitReader) : Word :=
  (0 : BitVec 46) ++ BitVec.ofBool r.can ++ BitVec.ofBool r.lastBit ++ (0 : BitVec 4) ++ BitVec.ofNat 4 r.rem.val
    ++ r.cur

/-- TREE_INFO (10_state.md R48). -/
def TreeInfo.word (t : TreeInfo) : Word :=
  (0 : BitVec 32) ++ BitVec.ofBool t.rootValid ++ (0 : BitVec 6) ++ t.root ++ (0 : BitVec 6) ++ t.nodeCount

/-- The word at +0x0 of a node (10_state.md R53). -/
def Node.lowWord (n : Node) : Word := n.weight.extractLsb' 0 64

/-- The word at +0x8 of a node (10_state.md R53). -/
def Node.highWord (n : Node) : Word :=
  (0 : BitVec 7) ++ n.right ++ (0 : BitVec 7) ++ n.left ++ (0 : BitVec 8) ++ n.symbol ++ (0 : BitVec 7)
    ++ BitVec.ofBool n.isLeaf ++ n.weight.extractLsb' 64 8

/-- The k-th word of a code entry (10_state.md R56). -/
def Code.word (c : Code) : Nat → Word
  | 0 => (0 : BitVec 55) ++ BitVec.ofBool c.valid ++ c.len
  | 1 => c.bits.extractLsb' 0 64
  | 2 => c.bits.extractLsb' 64 64
  | 3 => c.bits.extractLsb' 128 64
  | 4 => c.bits.extractLsb' 192 64
  | _ => 0

/-- The interrupt line (60_exceptions.md R330). -/
def irq (s : State) : Bool :=
  (s.status.done && s.ctrl.ieDone) || (s.status.err && s.ctrl.ieErr) || (s.status.progPend && s.ctrl.ieProg)

/-- A HOST write of v to STATUS: writing 1 clears DONE, ERR, PROG_PEND or OVERRUN, and a clear of ERR zeroes the ERR
register (10_state.md R34, R35). -/
def w1cStatus (v : Word) (s : State) : State :=
  { s with
    status :=
      { done := s.status.done && !v.getLsbD 1
        err := s.status.err && !v.getLsbD 2
        progPend := s.status.progPend && !v.getLsbD 3
        overrun := s.status.overrun && !v.getLsbD 4 }
    err := if v.getLsbD 2 then none else s.err }

/-- `emit Progress(p)` (00_scope.md R18, 45_engine.md R276). An event that has set PROG_PEND already does not set it
again (log 19). -/
def emitProgress (p : Nat) (s : State) : State :=
  { s with
    history := s.history ++ [.progress p]
    progress := { pct := BitVec.ofNat 8 p, pvalid := true }
    status := { s.status with progPend := s.status.progPend || decide (s.eventsSeen = 0) }
    eventsSeen := s.eventsSeen - 1 }

/-- A dropped HOST write (10_state.md R61, 46_control.md R304). -/
def setOverrun (s : State) : State := { s with status := { s.status with overrun := true } }

end Sys2Proof.Machine
end

