-- ==== Sys2Proof/Machine/Ops.lean ====
section
/-! DEFINITION. The shared operations: storing to buffers, accepting a command, failing, completing, and reset. -/

namespace Sys2Proof.Machine

/-! ## Storing bytes -/

/-- The list with the byte at offset a, addresses kept rising. -/
def insertCell (a : Nat) (b : Byte) : List Host.Cell → List Host.Cell
  | [] => [(a, b)]
  | (x, y) :: r =>
    if a < x then (a, b) :: (x, y) :: r
    else if a = x then (a, b) :: r
    else (x, y) :: insertCell a b r

/-- Store one byte. -/
def Memory.write (m : Memory) (a : Nat) (b : Byte) : Memory := { m with cells := insertCell a b m.cells }

/-- Store bytes at consecutive offsets from a. -/
def Memory.writeList (m : Memory) (a : Nat) : List Byte → Memory
  | [] => m
  | b :: bs => Memory.writeList (m.write a b) (a + 1) bs

/-- Every byte below the limit takes any value, by draw d (60_exceptions.md R328; log 3). -/
def Memory.scramble (m : Memory) (limit d : Nat) : Memory :=
  if limit = 0 then m
  else
    { m with
      cells := m.cells.filter fun c => decide (limit ≤ c.1)
      fills := ⟨limit, d⟩ :: m.fills.filter fun f => decide (limit < f.limit) }

/-- The bytes at the given offsets take any value, by draw d (20_memory.md R93; log 3). -/
def Memory.scrambleAt (m : Memory) (d : Nat) : List Nat → Memory
  | [] => m
  | a :: as => Memory.scrambleAt (m.write a (Config.freeByte d a)) d as

/-- OUT[a] <- b. -/
def storeOut (a : Nat) (b : Byte) (s : State) : State := { s with outMem := s.outMem.write a b }

/-- OUT[a], OUT[a+1], ... <- the bytes. -/
def storeOutList (a : Nat) (bs : List Byte) (s : State) : State := { s with outMem := s.outMem.writeList a bs }

/-! ## A command's body: it returns or raises (00_scope.md R18) -/

/-- How a command's pseudocode ends, with the state its steps left. -/
inductive CmdResult where
  | done (s : State)
  /-- `raise Error(c)`. -/
  | failed (c : Cause) (s : State)
  deriving DecidableEq, Repr

/-- Run the next step where the first returned. -/
def CmdResult.bind (r : CmdResult) (f : State → CmdResult) : CmdResult :=
  match r with
  | .done s => f s
  | .failed c s => .failed c s

/-- The state a body leaves, whether it returned or raised. -/
def CmdResult.final : CmdResult → State
  | .done s => s
  | .failed _ s => s

/-! ## Acceptance, failure, completion (46_control.md R300, R302; 60_exceptions.md R326-R328) -/

/-- Acceptance of a CMD write of v (46_control.md R300): BUSY becomes 1, and DONE, ERR, PROG_PEND and the ERR register
0. OVERRUN is not changed. -/
def accept (v : Word) (s : State) : State :=
  { s with
    pending := some v
    status := { s.status with done := false, err := false, progPend := false }
    err := none
    eventsSeen := 0
    history := s.history ++ [.accept v] }

/-- What HOST's accesses during the command leave once it has completed: an OUT byte HOST wrote holds any value, and no
IN byte races any more (20_memory.md R93). No event is left to be seen. -/
def settleRaces (s : State) : State :=
  { s with
    outMem := s.outMem.scrambleAt s.draws s.outTouched
    outTouched := []
    inRaces := []
    eventsSeen := 0
    draws := s.draws + 1 }

/-- Completion without a failure (46_control.md R302). -/
def completeOk (s : State) : State :=
  settleRaces
    { s with
      status := { s.status with done := true }
      pending := none
      history := s.history ++ [.complete none] }

/-- Taking a failure: STATUS.ERR and DONE become 1, BUSY 0 and ERR the cause (46_control.md R302, 60_exceptions.md
R320, R326). Nothing is saved and CORE jumps nowhere, so there is no return from it: HOST acknowledges it by W1C
(`w1cStatus`) or by the next command (`accept`), 60_exceptions.md R331. -/
def completeFailed (c : Cause) (s : State) : State :=
  settleRaces
    { s with
      status := { s.status with done := true, err := true }
      err := some c
      pending := none
      history := s.history ++ [.complete (some c)] }

/-- The failure rule of a component command (60_exceptions.md R327): nothing more changes. -/
def failComponent (s : State) : State := s

/-- The failure rule of CWRITE (60_exceptions.md R327). -/
def failCwrite (s : State) : State := { s with outLen := 0 }

/-- The failure rule of COMPRESS and DECOMPRESS (60_exceptions.md R328): OUT_LEN <- 0 and every OUT byte below OUT_CAP
any value. -/
def failEngine (s : State) : State :=
  { s with outLen := 0, outMem := s.outMem.scramble s.outCap.toNat s.draws }

/-- Complete a command with its body's result and its failure rule (46_control.md R302). -/
def complete (onFail : State → State) : CmdResult → State
  | .done s => completeOk s
  | .failed c s => completeFailed c (onFail s)

/-- An ILLEGAL command fails at once with ILLEGAL_CMD (30_encoding.md R112, 60_exceptions.md R327). -/
def runIllegal (s : State) : State := complete failComponent (.failed .illegalCmd s)

/-! ## Reset -/

/-- The reset input (70_reset_and_hazards.md R360): every piece of state takes its reset value, a running command is
abandoned, and the bytes of IN and OUT become unspecified anew. The parameters stay, as does what is HOST's: its turns
still to be taken, its access under way, and what it has read. -/
def hardReset (s : State) : State :=
  { State.atReset s.params s.draws with agenda := s.agenda, access := s.access, reads := s.reads }

end Sys2Proof.Machine
end

