-- ==== Sys2Proof/Machine/Control.lean ====
section
/-! DEFINITION. Command control: NOP, CLEAR (46_control.md). -/

namespace Sys2Proof.Machine

/-- CLEAR's pseudocode (46_control.md R303). -/
def clearBody (s : State) : State :=
  { s with
    freq := symFill 0
    pool := []
    treeInfo := { nodeCount := 0, root := 0, rootValid := false }
    codes := symFill Code.absent
    origLen := 0
    payloadLen := 0
    outLen := 0
    progress := { pct := 0, pvalid := false }
    bw := { pos := 0, acc := 0, cnt := 0 }
    br := { pos := 0, endPos := 0, cur := 0, rem := 0, lastBit := false, can := false } }

/-- NOP (46_control.md R301): completion only. -/
def execNop (s : State) : Host.Outcome State Fault Refusal := .next (complete failComponent (.done s))

/-- CLEAR (46_control.md R303). -/
def execClear (s : State) : Host.Outcome State Fault Refusal := .next (complete failComponent (.done (clearBody s)))

end Sys2Proof.Machine
end

