-- ==== Sys2Proof/Machine/BitIO.lean ====
section
/-! DEFINITION. Bit-level stream I/O: WRBIT, FLUSH, RDBIT, CANRD (43_bitio.md). -/

namespace Sys2Proof.Machine

/-- ((ACC << 1) | b)[7:0] (43_bitio.md R211). -/
def shiftIn (acc : Byte) (b : Bool) : Byte := (acc <<< 1) ||| (BitVec.ofBool b).setWidth 8

/-- WRBIT's pseudocode (43_bitio.md R211). -/
def wrbitBody (b : Bool) (s : State) : CmdResult :=
  if outCapBad s then .failed .badArg s
  else if s.bw.cnt = 7 ∧ s.bw.pos.toNat ≥ s.outCap.toNat then .failed .outCapacity s
  else if s.bw.cnt = 7 then
    .done
      { storeOut s.bw.pos.toNat (shiftIn s.bw.acc b) s with bw := { pos := s.bw.pos + 1, acc := 0, cnt := 0 } }
  else .done { s with bw := { pos := s.bw.pos, acc := shiftIn s.bw.acc b, cnt := s.bw.cnt + 1 } }

/-- (ACC << (8 - CNT))[7:0]: the partial byte, its unused low bits 0 (43_bitio.md R212). -/
def padByte (w : BitWriter) : Byte := w.acc <<< (8 - w.cnt.val)

/-- FLUSH's pseudocode (43_bitio.md R212). -/
def flushBody (s : State) : CmdResult :=
  if outCapBad s then .failed .badArg s
  else if s.bw.cnt = 0 then .done s
  else if s.bw.pos.toNat ≥ s.outCap.toNat then .failed .outCapacity s
  else .done { storeOut s.bw.pos.toNat (padByte s.bw) s with bw := { pos := s.bw.pos + 1, acc := 0, cnt := 0 } }

/-- The bit reader after it takes the most significant unread bit of `cur`, whose `k + 1` low bits are unread
(43_bitio.md R215). -/
def takeBit (r : BitReader) (pos : Word) (cur : Byte) (k : Fin 8) : BitReader :=
  { r with pos := pos, cur := cur, rem := k.castSucc, lastBit := cur.getLsbD k.val }

/-- RDBIT's pseudocode (43_bitio.md R215). -/
def rdbitBody (s : State) : CmdResult :=
  match s.br.rem with
  | ⟨0, _⟩ =>
    if s.br.pos.toNat ≥ s.br.endPos.toNat then .failed .readEmpty s
    else if inLenBad s ∨ s.br.pos.toNat ≥ s.inLen.toNat then .failed .badArg s
    else .done { s with br := takeBit s.br (s.br.pos + 1) (coreRead s firstPass s.br.pos.toNat) 7 }
  | ⟨k + 1, h⟩ => .done { s with br := takeBit s.br s.br.pos s.br.cur ⟨k, by omega⟩ }

/-- CANRD's pseudocode (43_bitio.md R216). -/
def canrdBody (s : State) : State := { s with br := { s.br with can := canRead s } }

/-- WRBIT b (43_bitio.md R211). -/
def execWrbit (b : Bool) (s : State) : Host.Outcome State Fault Refusal :=
  .next (complete failComponent (wrbitBody b s))

/-- FLUSH (43_bitio.md R212). -/
def execFlush (s : State) : Host.Outcome State Fault Refusal := .next (complete failComponent (flushBody s))

/-- RDBIT (43_bitio.md R215). -/
def execRdbit (s : State) : Host.Outcome State Fault Refusal := .next (complete failComponent (rdbitBody s))

/-- CANRD (43_bitio.md R216). -/
def execCanrd (s : State) : Host.Outcome State Fault Refusal := .next (complete failComponent (.done (canrdBody s)))

end Sys2Proof.Machine
end

