-- ==== Sys2Proof/Machine/CodeGen.lean ====
section
/-! DEFINITION. Code-table generation: GENCODE (42_codegen.md). -/

namespace Sys2Proof.Machine

/-- `walk(i, p)` (42_codegen.md R190): each leaf's symbol gets its path, `0` for a left edge and `1` for a right edge.
No path of a tree is longer than 255 bits; the bound on the depth ends the walk in states no run reaches (log 8). -/
def walk (p : Pool) : Nat → Nat → List Bool → SymTable Code → SymTable Code
  | 0, _, _, codes => codes
  | fuel + 1, i, path, codes =>
    if (nodeAt p i).isLeaf then symSet codes (nodeAt p i).symbol (Code.ofBits path)
    else
      walk p fuel (nodeAt p i).right.toNat (path ++ [true])
        (walk p fuel (nodeAt p i).left.toNat (path ++ [false]) codes)

/-- The depth a walk may reach: paths of 0 to 255 bits (00_scope.md R12, MAX_CODE_LEN). -/
def walkDepth : Nat := 256

/-- The code of the symbol of a single-leaf tree: the empty code in mode EMPTY, `0` in mode ONE_BIT (42_codegen.md
R192). -/
def singleCode (ssm : Bool) : Code := if ssm then Code.ofBits [false] else Code.ofBits []

/-- The code table of a tree (42_codegen.md R190, R192, R193). -/
def genCodes (p : Pool) (t : TreeInfo) (ssm : Bool) : SymTable Code :=
  if t.rootValid then
    if (nodeAt p t.root.toNat).isLeaf then
      symSet (symFill Code.absent) (nodeAt p t.root.toNat).symbol (singleCode ssm)
    else walk p walkDepth t.root.toNat [] (symFill Code.absent)
  else symFill Code.absent

/-- GENCODE's pseudocode (42_codegen.md R190). -/
def gencodeBody (s : State) : State := { s with codes := genCodes s.pool s.treeInfo s.ctrl.ssm }

/-- GENCODE (42_codegen.md R190). -/
def execGencode (s : State) : Host.Outcome State Fault Refusal := .next (complete failComponent (.done (gencodeBody s)))

end Sys2Proof.Machine
end

