-- ==== Sys2Proof/Machine/Container.lean ====
section
/-! DEFINITION. Container formatting: CWRITE, CREAD (44_container.md; layout 30_encoding.md R130-R138). -/

namespace Sys2Proof.Machine

/-- The header length of a table with n entries (30_encoding.md R136). -/
def headerLen (n : Nat) : Nat := 16 + 9 * n

/-- The 9 bytes of one entry: symbol, then count (30_encoding.md R130, field 2). -/
def entryBytes (e : Byte × Word) : List Byte := e.1 :: leBytes 8 e.2.toNat

/-- Fields 1 to 4 (30_encoding.md R130-R134, R138), entries in ascending symbol order (R132). -/
def headerBytes (freq : SymTable Word) (origLen payloadLen : Nat) : List Byte :=
  leBytes 4 (entryCount freq) ++ (entries freq).flatMap entryBytes ++ leBytes 8 origLen ++ leBytes 4 payloadLen

/-- A value CWRITE would store does not fit its signed field (44_container.md R240). -/
def cwriteUnfit (s : State) : Bool :=
  decide (s.origLen.toNat > 2 ^ 63 - 1) || decide (s.payloadLen.toNat > 2 ^ 31 - 1)
    || s.freq.toList.any fun count => decide (count.toNat > 2 ^ 63 - 1)

/-- CWRITE's pseudocode (44_container.md R240). -/
def cwriteBody (s : State) : CmdResult :=
  if outCapBad s then .failed .badArg s
  else if cwriteUnfit s then .failed .badArg s
  else if headerLen (entryCount s.freq) > s.outCap.toNat then .failed .outCapacity s
  else
    .done
      { storeOutList 0 (headerBytes s.freq s.origLen.toNat s.payloadLen.toNat) s with
        bw := { pos := BitVec.ofNat 64 (headerLen (entryCount s.freq)), acc := 0, cnt := 0 }
        outLen := BitVec.ofNat 64 (headerLen (entryCount s.freq)) }

/-- What CREAD has read once every check has passed (44_container.md R241). -/
structure Header where
  freq : SymTable Word
  origLen : Nat
  payloadLen : Nat
  /-- Where the payload starts. -/
  pos : Nat
  deriving DecidableEq, Repr

/-- Field 2 (44_container.md R241): the given number of entries from offset p on, `prev` the symbol before (-1 at
first). Answers the temporaries F and the offset after the field. -/
def readEntries (view : Nat → Byte) (inLen : Nat) :
    Nat → Nat → Int → SymTable Word → Except Cause (SymTable Word × Nat)
  | 0, p, _, f => .ok (f, p)
  | left + 1, p, prev, f =>
    if p + 1 > inLen then .error .hdrShort
    else if p + 1 + 8 > inLen then .error .hdrShort
    else if leInt view (p + 1) 8 ≤ 0 then .error .hdrBadCount
    else if ((view p).toNat : Int) ≤ prev then .error .hdrSymbolOrder
    else
      readEntries view inLen left (p + 9) (view p).toNat
        (symSet f (view p) (BitVec.ofNat 64 (leNat view (p + 1) 8)))

/-- Fields 3 and 4, and the check of field 5, from offset p on (44_container.md R241). -/
def readLengths (view : Nat → Byte) (inLen : Nat) (f : SymTable Word) (p : Nat) : Except Cause Header :=
  if p + 8 > inLen then .error .hdrShort
  else if leInt view p 8 < 0 then .error .hdrNegOrigLen
  else if p + 8 + 4 > inLen then .error .hdrShort
  else if leInt view (p + 8) 4 < 0 then .error .hdrPayloadLen
  else if p + 12 + leNat view (p + 8) 4 > inLen then .error .hdrShort
  else .ok { freq := f, origLen := leNat view p 8, payloadLen := leNat view (p + 8) 4, pos := p + 12 }

/-- The header of the container in the first inLen bytes of a view, or the first check it fails (44_container.md R241). -/
def readHeader (view : Nat → Byte) (inLen : Nat) : Except Cause Header :=
  if 4 > inLen then .error .hdrShort
  else if leInt view 0 4 < 0 ∨ leInt view 0 4 > 256 then .error .hdrEntryCount
  else
    match readEntries view inLen (leNat view 0 4) 4 (-1) (symFill 0) with
    | .error c => .error c
    | .ok (f, p) => readLengths view inLen f p

/-- CREAD's pseudocode (44_container.md R241): it commits only when every check has passed. -/
def creadBody (s : State) : CmdResult :=
  if inLenBad s then .failed .badArg s
  else
    match readHeader (coreRead s firstPass) s.inLen.toNat with
    | .error c => .failed c s
    | .ok h =>
      .done
        { s with
          freq := h.freq
          origLen := BitVec.ofNat 64 h.origLen
          payloadLen := BitVec.ofNat 64 h.payloadLen
          br :=
            { pos := BitVec.ofNat 64 h.pos, endPos := BitVec.ofNat 64 (h.pos + h.payloadLen), cur := 0, rem := 0,
              lastBit := false, can := false } }

/-- CWRITE (44_container.md R240). -/
def execCwrite (s : State) : Host.Outcome State Fault Refusal := .next (complete failCwrite (cwriteBody s))

/-- CREAD (44_container.md R241). -/
def execCread (s : State) : Host.Outcome State Fault Refusal := .next (complete failComponent (creadBody s))

end Sys2Proof.Machine
end

