-- ==== Sys2Proof/Machine/Frequency.lean ====
section
/-! DEFINITION. Frequency analysis: COUNT (40_frequency.md). -/

namespace Sys2Proof.Machine

/-- One more occurrence of s in the temporaries F (40_frequency.md R150). -/
def bump (f : SymTable Word) (s : Byte) : SymTable Word := symSet f s (symGet f s + 1)

/-- The counts of the first n bytes of a view (40_frequency.md R150). -/
def countBytes (view : Nat → Byte) (n : Nat) : SymTable Word :=
  (List.range n).foldl (fun f a => bump f (view a)) (symFill 0)

/-- COUNT's pseudocode (40_frequency.md R150). -/
def countBody (s : State) : CmdResult :=
  if inLenBad s then .failed .badArg s
  else .done { s with freq := countBytes (coreRead s firstPass) s.inLen.toNat, origLen := s.inLen }

/-- COUNT (40_frequency.md R150). -/
def execCount (s : State) : Host.Outcome State Fault Refusal := .next (complete failComponent (countBody s))

end Sys2Proof.Machine
end

