-- ==== Sys2Proof/Machine/Tree.lean ====
section
/-! DEFINITION. Tree construction: BUILD (41_tree.md). -/

namespace Sys2Proof.Machine

/-- The leaf of an entry (10_state.md R52, 41_tree.md R170). -/
def leafNode (e : Byte × Word) : Node :=
  { isLeaf := true, symbol := e.1, weight := e.2.setWidth 72, left := 0, right := 0 }

/-- The internal node over a and b, its weight the 72-bit sum of theirs (41_tree.md R170, R174). -/
def joinNodes (p : Pool) (a b : Nat) : Node :=
  { isLeaf := false, symbol := 0, weight := (nodeAt p a).weight + (nodeAt p b).weight,
    left := BitVec.ofNat 9 a, right := BitVec.ofNat 9 b }

/-- (NODE[i].WEIGHT, i) is lexicographically below (NODE[j].WEIGHT, j) (41_tree.md R173). -/
def before (p : Pool) (i j : Nat) : Bool :=
  decide ((nodeAt p i).weight < (nodeAt p j).weight ∨ (nodeAt p i).weight = (nodeAt p j).weight ∧ i < j)

/-- The element of Q with the least (weight, index) (41_tree.md R170, R173). -/
def leastOf (p : Pool) : List Nat → Option Nat
  | [] => none
  | i :: q =>
    match leastOf p q with
    | none => some i
    | some j => if before p j i then some j else some i

/-- The pool and the priority structure Q during a BUILD (41_tree.md R170, 10_state.md R58). The next unused index is
the number of nodes made so far. -/
structure Forest where
  pool : Pool
  queue : List Nat
  deriving DecidableEq, Repr

/-- One merge: take the least a, then the least b of the rest, make the next node (a, b) and put it into Q (41_tree.md
R173, R174). `none` where Q has fewer than two elements. -/
def mergeOnce (f : Forest) : Option Forest :=
  match leastOf f.pool f.queue with
  | none => none
  | some a =>
    match leastOf f.pool (f.queue.erase a) with
    | none => none
    | some b =>
      some
        { pool := f.pool ++ [joinNodes f.pool a b]
          queue := (f.queue.erase a).erase b ++ [f.pool.length] }

/-- Merge while Q has two elements or more, at most the given number of times (41_tree.md R175). -/
def mergeAll : Nat → Forest → Forest
  | 0, f => f
  | fuel + 1, f =>
    match mergeOnce f with
    | none => f
    | some g => mergeAll fuel g

/-- Seeding: the leaf of the j-th entry in ascending symbol order is NODE[j], and Q holds every leaf (41_tree.md R170,
R172). -/
def seededForest (freq : SymTable Word) : Forest :=
  { pool := (entries freq).map leafNode, queue := List.range (entryCount freq) }

/-- The forest once merging has ended (41_tree.md R170, R175). Each merge shortens Q by one, so as many merges as there
are entries are never too few. -/
def mergedForest (freq : SymTable Word) : Forest := mergeAll (entryCount freq) (seededForest freq)

/-- TREE_INFO for a merged forest: no tree if it has no node, else the one element of Q is the root (41_tree.md R170). -/
def treeInfoOf (f : Forest) : TreeInfo :=
  match f.queue with
  | [] => { nodeCount := 0, root := 0, rootValid := false }
  | root :: _ => { nodeCount := BitVec.ofNat 10 f.pool.length, root := BitVec.ofNat 9 root, rootValid := true }

/-- BUILD's pseudocode (41_tree.md R170): it clears the code table and builds the tree of FREQ. -/
def buildBody (s : State) : State :=
  { s with
    codes := symFill Code.absent
    pool := (mergedForest s.freq).pool
    treeInfo := treeInfoOf (mergedForest s.freq) }

/-- BUILD (41_tree.md R170). -/
def execBuild (s : State) : Host.Outcome State Fault Refusal := .next (complete failComponent (.done (buildBody s)))

end Sys2Proof.Machine
end

