-- ==== Sys2Proof/Machine/Engine.lean ====
section
/-! DEFINITION. Compress and decompress sequencing: COMPRESS, DECOMPRESS (45_engine.md). -/

namespace Sys2Proof.Machine

/-- B, the payload's bits: the sum over s of FREQ[s] * CODE[s].LEN, exact (45_engine.md R270, R271). -/
def payloadBits (freq : SymTable Word) (codes : SymTable Code) : Nat :=
  (List.zipWith (fun count code => count.toNat * code.len.toNat) freq.toList codes.toList).sum

/-- WRBIT's body for each bit in turn (45_engine.md R270). -/
def writeBits : List Bool → State → CmdResult
  | [], s => .done s
  | b :: bs, s => (wrbitBody b s).bind (writeBits bs)

/-- The percentage after i of n bytes (45_engine.md R276). -/
def percent (i n : Nat) : Nat := 100 * i / n

/-- `if pct > last: emit Progress(pct)` (45_engine.md R270, R276). -/
def emitIfGreater (pct last : Nat) (s : State) : State := if pct > last then emitProgress pct s else s

/-- The encode loop (45_engine.md R270, R272): the given number of bytes from offset i on, of n in all; `last` is the
percentage emitted last. -/
def encodeFrom (n : Nat) : Nat → Nat → Nat → State → CmdResult
  | 0, _, _, s => .done s
  | left + 1, i, last, s =>
    (writeBits (symGet s.codes (coreRead s encodePass i)).toBits s).bind fun t =>
      encodeFrom n left (i + 1) (max (percent (i + 1) n) last) (emitIfGreater (percent (i + 1) n) last t)

/-- `if N > 0: emit Progress(0)` (45_engine.md R270). -/
def startProgress (n : Nat) (s : State) : State := if n > 0 then emitProgress 0 s else s

/-- COMPRESS from the code table on: the size checks, the header, the encode loop and FLUSH (45_engine.md R270). -/
def compressTail (s : State) : CmdResult :=
  let n := entryCount s.freq
  let p := ceil8 (payloadBits s.freq s.codes)
  if p > 2 ^ 31 - 1 then .failed .payloadTooLarge s
  else
    let s := { s with payloadLen := BitVec.ofNat 64 p }
    if headerLen n + p > s.outCap.toNat then .failed .outCapacity s
    else
      (cwriteBody s).bind fun s =>
        (encodeFrom s.inLen.toNat s.inLen.toNat 0 0 (startProgress s.inLen.toNat s)).bind fun s =>
          (flushBody s).bind fun s => .done { s with outLen := BitVec.ofNat 64 (headerLen n + p) }

/-- COMPRESS's pseudocode (45_engine.md R270). -/
def compressBody (s : State) : CmdResult :=
  let s := { s with progress := { pct := 0, pvalid := false } }
  if inLenBad s ∨ outCapBad s then .failed .badArg s
  else (countBody s).bind fun s => compressTail (gencodeBody (buildBody s))

/-- How many progress events a COMPRESS of this state emits (45_engine.md R276). -/
def compressEvents (s : State) : Nat := (compressBody s).final.history.length - s.history.length

/-- The next progress event of a running COMPRESS sets PROG_PEND before the command completes (10_state.md R34,
45_engine.md R276; log 19). No other command has one, and none comes after the last. -/
def nextEvent (s : State) : State :=
  if s.pending = some (encode .compress) ∧ s.eventsSeen < compressEvents s then
    { s with status := { s.status with progPend := true }, eventsSeen := s.eventsSeen + 1 }
  else s

/-- `decode_walk(r, L)` (45_engine.md R274), as far as the given number of bits: `out` symbols are out and the walk
stands at `node`. The number never runs out before the bits do. -/
def decodeWalk (root total : Nat) : Nat → Nat → Nat → State → CmdResult
  | 0, out, _, s => if out < total then .failed .truncated s else .done s
  | fuel + 1, out, node, s =>
    if out < total then
      if canRead s then
        (rdbitBody s).bind fun t =>
          let child := if t.br.lastBit then (nodeAt t.pool node).right.toNat else (nodeAt t.pool node).left.toNat
          if (nodeAt t.pool child).isLeaf then
            decodeWalk root total fuel (out + 1) root (storeOut out (nodeAt t.pool child).symbol t)
          else decodeWalk root total fuel out child t
      else .failed .truncated s
    else .done s

/-- `decode_single` in mode EMPTY (45_engine.md R275): the given number of symbols from offset out on, no bit read. -/
def repeatSymbol (sym : Byte) : Nat → Nat → State → State
  | 0, _, s => s
  | left + 1, out, s => repeatSymbol sym left (out + 1) (storeOut out sym s)

/-- `decode_single` in mode ONE_BIT (45_engine.md R275): one `0` read for each symbol. -/
def decodeOneBit (sym : Byte) : Nat → Nat → State → CmdResult
  | 0, _, s => .done s
  | left + 1, out, s =>
    if canRead s then
      (rdbitBody s).bind fun t =>
        if t.br.lastBit then .failed .badCode t else decodeOneBit sym left (out + 1) (storeOut out sym t)
    else .failed .truncated s

/-- The decoding of L > 0 symbols (45_engine.md R273-R275). -/
def decodeSymbols (total : Nat) (s : State) : CmdResult :=
  let root := s.treeInfo.root.toNat
  if s.treeInfo.rootValid then
    if (nodeAt s.pool root).isLeaf then
      if s.ctrl.ssm then decodeOneBit (nodeAt s.pool root).symbol total 0 s
      else .done (repeatSymbol (nodeAt s.pool root).symbol total 0 s)
    else decodeWalk root total (unreadBits s + 1) 0 root s
  else .failed .noTree s

/-- DECOMPRESS after CREAD and BUILD (45_engine.md R273). -/
def decompressTail (s : State) : CmdResult :=
  let total := s.origLen.toNat
  if total > s.outCap.toNat then .failed .outCapacity s
  else if total = 0 then .done { s with outLen := 0 }
  else (decodeSymbols total s).bind fun t => .done { t with outLen := BitVec.ofNat 64 total }

/-- DECOMPRESS's pseudocode (45_engine.md R273). -/
def decompressBody (s : State) : CmdResult :=
  if inLenBad s ∨ outCapBad s then .failed .badArg s
  else (creadBody s).bind fun s => decompressTail (buildBody s)

/-- COMPRESS (45_engine.md R270). -/
def execCompress (s : State) : Host.Outcome State Fault Refusal := .next (complete failEngine (compressBody s))

/-- DECOMPRESS (45_engine.md R273). -/
def execDecompress (s : State) : Host.Outcome State Fault Refusal := .next (complete failEngine (decompressBody s))

end Sys2Proof.Machine
end

