-- ==== Sys2Proof/Machine/Dispatch.lean ====
section
/-! DEFINITION. One arm for each command. -/

namespace Sys2Proof.Machine

def exec (i : Instr) (s : State) : Host.Outcome State Fault Refusal :=
  match i with
  | .nop => Sys2Proof.Machine.execNop s
  | .count => Sys2Proof.Machine.execCount s
  | .build => Sys2Proof.Machine.execBuild s
  | .gencode => Sys2Proof.Machine.execGencode s
  | .wrbit bit => Sys2Proof.Machine.execWrbit bit s
  | .flush => Sys2Proof.Machine.execFlush s
  | .rdbit => Sys2Proof.Machine.execRdbit s
  | .canrd => Sys2Proof.Machine.execCanrd s
  | .cwrite => Sys2Proof.Machine.execCwrite s
  | .cread => Sys2Proof.Machine.execCread s
  | .compress => Sys2Proof.Machine.execCompress s
  | .decompress => Sys2Proof.Machine.execDecompress s
  | .clear => Sys2Proof.Machine.execClear s

end Sys2Proof.Machine
end

