-- ==== Sys2Proof/Machine/HostPort.lean ====
section
/-! DEFINITION. HOST's accesses: the CSR map (10_state.md R30), reads and writes of CSRs and of the buffers, and what they
do while BUSY = 1 (10_state.md R57, R61; 20_memory.md R93; 46_control.md R304). -/

namespace Sys2Proof.Machine

/-- A register of the CSR map (10_state.md R30). -/
inductive Csr where
  | id | ctrl | cmd | status | err | inLen | outCap | outLen | origLen | payloadLen | entryCount | progress
  | bwPos | bwState | brPos | brEnd | brState | treeInfo
  | freq (sym : Byte)
  /-- NODE[i], the word at +0x0 or, if high, at +0x8. -/
  | node (i : Nat) (high : Bool)
  /-- The k-th word of CODE[sym]. -/
  | code (sym : Byte) (k : Nat)
  /-- A reserved offset (10_state.md R49). -/
  | reserved
  deriving DecidableEq, Repr

/-- The register at an 8-byte-aligned offset below 0x800 (10_state.md R30). -/
def csrLow (off : Nat) : Csr :=
  match off with
  | 0x000 => .id
  | 0x008 => .ctrl
  | 0x010 => .cmd
  | 0x018 => .status
  | 0x020 => .err
  | 0x028 => .inLen
  | 0x030 => .outCap
  | 0x038 => .outLen
  | 0x040 => .origLen
  | 0x048 => .payloadLen
  | 0x050 => .entryCount
  | 0x058 => .progress
  | 0x060 => .bwPos
  | 0x068 => .bwState
  | 0x070 => .brPos
  | 0x078 => .brEnd
  | 0x080 => .brState
  | 0x088 => .treeInfo
  | _ => .reserved

/-- The register at an 8-byte-aligned offset of the CSR space (10_state.md R30, R51, R53, R56). -/
def csrAt (off : Nat) : Csr :=
  if off < 0x800 then csrLow off
  else if off < 0x1000 then .freq (BitVec.ofNat 8 ((off - 0x800) / 8))
  else if off < 0x2FF0 then .node ((off - 0x1000) / 16) (decide ((off - 0x1000) % 16 = 8))
  else if off < 0x3000 then .reserved
  else if off < 0x7000 then .code (BitVec.ofNat 8 ((off - 0x3000) / 64)) ((off - 0x3000) % 64 / 8)
  else .reserved

/-- The value of a register between commands (10_state.md R31-R56). CMD and reserved offsets read 0 (R33, R49). -/
def csrValue (s : State) : Csr → Word
  | .id => idWord
  | .ctrl => s.ctrl.word
  | .cmd => 0
  | .status => statusWord s
  | .err => errWord s.err
  | .inLen => s.inLen
  | .outCap => s.outCap
  | .outLen => s.outLen
  | .origLen => s.origLen
  | .payloadLen => s.payloadLen
  | .entryCount => BitVec.ofNat 64 (entryCount s.freq)
  | .progress => s.progress.word
  | .bwPos => s.bw.pos
  | .bwState => s.bw.stateWord
  | .brPos => s.br.pos
  | .brEnd => s.br.endPos
  | .brState => s.br.stateWord
  | .treeInfo => s.treeInfo.word
  | .freq sym => symGet s.freq sym
  | .node i high => if high then (nodeAt s.pool i).highWord else (nodeAt s.pool i).lowWord
  | .code sym k => (symGet s.codes sym).word k
  | .reserved => 0

/-- What a read of a register returns while BUSY = 1 (10_state.md R57, 20_memory.md R93): ID and CTRL their values,
STATUS with PROG_PEND any value, a reserved offset 0 (R49), every other register any value. -/
def csrValueBusy (s : State) : Csr → Word
  | .id => idWord
  | .ctrl => s.ctrl.word
  | .status => statusBits true false false (Config.freeBit s.draws) s.status.overrun
  | .reserved => 0
  | .cmd | .err | .inLen | .outCap | .outLen | .origLen | .payloadLen | .entryCount | .progress | .bwPos | .bwState
  | .brPos | .brEnd | .brState | .treeInfo => Config.freeWord s.draws
  | .freq _ => Config.freeWord s.draws
  | .node _ _ => Config.freeWord s.draws
  | .code _ _ => Config.freeWord s.draws

/-- A HOST write to a read-write register: dropped, with OVERRUN set, while BUSY = 1 (10_state.md R61). -/
def writeIdle (s t : State) : State := if s.busy then setOverrun s else t

/-- A HOST write of v to a register (10_state.md R30-R51, R61; 20_memory.md R89; 46_control.md R300, R304). -/
def csrWrite (r : Csr) (v : Word) (s : State) : State :=
  match r with
  | .ctrl => writeIdle s { s with ctrl := Ctrl.ofWord v }
  | .cmd => writeIdle s (accept v s)
  | .status => w1cStatus v s
  | .inLen => writeIdle s { s with inLen := v }
  | .outCap => writeIdle s { s with outCap := v }
  | .origLen => writeIdle s { s with origLen := v }
  | .payloadLen => writeIdle s { s with payloadLen := v }
  | .bwPos => writeIdle s { s with bw := { pos := v, acc := 0, cnt := 0 } }
  | .brPos => writeIdle s { s with br := { s.br with pos := v, cur := 0, rem := 0 } }
  | .brEnd => writeIdle s { s with br := { s.br with endPos := v } }
  | .freq sym => writeIdle s { s with freq := symSet s.freq sym v }
  | .id | .err | .outLen | .entryCount | .progress | .bwState | .brState | .treeInfo | .reserved => s
  | .node _ _ => s
  | .code _ _ => s

/-- HOST writes one IN byte; while BUSY = 1 CORE may still read a value it held before (20_memory.md R93). -/
def hostWriteIn (a : Nat) (b : Byte) (s : State) : State :=
  { s with
    inMem := s.inMem.write a b
    inRaces := if s.busy then (a, s.inMem.read a) :: s.inRaces else s.inRaces }

/-- HOST writes one OUT byte; while BUSY = 1 the byte holds any value after completion (20_memory.md R93). -/
def hostWriteOut (a : Nat) (b : Byte) (s : State) : State :=
  if s.busy then { s with outTouched := a :: s.outTouched } else storeOut a b s

/-- What HOST reads at an OUT offset: the byte, or any value while BUSY = 1 (20_memory.md R93). -/
def hostOutByte (s : State) (a : Nat) : Byte := if s.busy then Config.freeByte s.draws a else s.outMem.read a

/-- Bytes of a buffer (00_scope.md R12). -/
def bufSize (p : Params) : Buffer → Nat
  | .input => p.inSize
  | .output => p.outSize

/-- Host address of a buffer (00_scope.md R12). -/
def bufBase (p : Params) : Buffer → Nat
  | .input => p.inBase
  | .output => p.outBase

/-- The space a host address lies in, and its offset there (20_memory.md R80, R90). -/
def locate (p : Params) (addr : Nat) : Option (Space × Nat) :=
  if p.csrBase ≤ addr ∧ addr < p.csrBase + csrSpaceSize then some (.csr, addr - p.csrBase)
  else if p.inBase ≤ addr ∧ addr < p.inBase + p.inSize then some (.buf .input, addr - p.inBase)
  else if p.outBase ≤ addr ∧ addr < p.outBase + p.outSize then some (.buf .output, addr - p.outBase)
  else none

/-- A CSR access of the only form with a meaning: 64 bits at an 8-byte-aligned offset (20_memory.md R87). -/
def csrFormOk (off width : Nat) : Bool := decide (width = 8 ∧ off % 8 = 0)

/-- HOST takes note of a value it read. -/
def note (addr width value : Nat) (s : State) : State := { s with reads := s.reads ++ [⟨addr, width, value⟩] }

/-- What is read while BUSY = 1 is a free value, a new one for each read (log 4). -/
def drawIfBusy (s : State) : State := { s with draws := if s.busy then s.draws + 1 else s.draws }

/-! ### Byte accesses to the buffers (20_memory.md R85, R88) -/

/-- The byte a HOST byte access reads. -/
def hostReadByte (s : State) : Buffer → Nat → Byte
  | .input, a => s.inMem.read a
  | .output, a => hostOutByte s a

/-- A byte read of OUT while BUSY = 1 draws a free value. -/
def drawForByte : Buffer → State → State
  | .input, s => s
  | .output, s => drawIfBusy s

/-- A HOST byte access writes a byte. -/
def hostWriteByte : Buffer → Nat → Byte → State → State
  | .input, a, b, s => hostWriteIn a b s
  | .output, a, b, s => hostWriteOut a b s

/-- A read with the given bytes got and others left, from offset off on: HOST notes the whole value once none is left. -/
def readGoesOn (addr : Nat) (b : Buffer) (off : Nat) : Nat → List Byte → State → State
  | 0, got, s => note addr got.length (leValue got) { s with access := none }
  | left + 1, got, s => { s with access := some (.reading addr b off (left + 1) got) }

/-- A write with the given bytes left, from offset off on. -/
def writeGoesOn (b : Buffer) (off : Nat) : List Byte → State → State
  | [], s => { s with access := none }
  | v :: vs, s => { s with access := some (.writing b off (v :: vs)) }

/-- The next byte access of a buffer access, lowest offset first, byte a in bits [7:0] of the value (20_memory.md
R85). -/
def byteAccess (x : Access) (s : State) : State :=
  match x with
  | .reading addr b off 0 got => readGoesOn addr b off 0 got s
  | .reading addr b off (left + 1) got => readGoesOn addr b (off + 1) left (got ++ [hostReadByte s b off]) (drawForByte b s)
  | .writing b off [] => writeGoesOn b off [] s
  | .writing b off (v :: vs) => writeGoesOn b (off + 1) vs (hostWriteByte b off v s)

/-! ### Accesses as HOST issues them -/

/-- A HOST read (20_memory.md R85, R87, R89, R93). No read has a side effect on the block. -/
def hostRead (addr width : Nat) (s : State) : Host.Outcome State Fault Refusal :=
  match locate s.params addr with
  | none => .fault .unmappedHostAddress
  | some (.csr, off) =>
    if csrFormOk off width then
      .next
        (note addr width (if s.busy then csrValueBusy s (csrAt off) else csrValue s (csrAt off)).toNat (drawIfBusy s))
    else .refused .csrAccessForm
  | some (.buf b, off) =>
    if off + width ≤ bufSize s.params b then .next (byteAccess (.reading addr b off width []) s)
    else .fault .pastBufferEnd

/-- A HOST write (20_memory.md R85, R87, R89, R93). -/
def hostWrite (addr width value : Nat) (s : State) : Host.Outcome State Fault Refusal :=
  match locate s.params addr with
  | none => .fault .unmappedHostAddress
  | some (.csr, off) =>
    if csrFormOk off width then .next (csrWrite (csrAt off) (BitVec.ofNat 64 value) s)
    else .refused .csrAccessForm
  | some (.buf b, off) =>
    if off + width ≤ bufSize s.params b then .next (byteAccess (.writing b off (leBytes width value)) s)
    else .fault .pastBufferEnd

/-- HOST issues an access. -/
def hostAct (a : HostAction) (s : State) : Host.Outcome State Fault Refusal :=
  match a with
  | .read addr width => hostRead addr width s
  | .write addr width value => hostWrite addr width value s

/-- HOST goes on with its access under way; no change where there is none. -/
def hostGoesOn (s : State) : State :=
  match s.access with
  | none => s
  | some x => byteAccess x s

/-! ## Host program notation (30_encoding.md R116, R117), as turns -/

/-- `WR <csr>, v` at a CSR offset. -/
def turnWr (p : Params) (off : Nat) (v : Word) : Turn := .host (.write (p.csrBase + off) 8 v.toNat)

/-- `RD <csr>` at a CSR offset. -/
def turnRd (p : Params) (off : Nat) : Turn := .host (.read (p.csrBase + off) 8)

/-- `WRB IN[a], b0 b1 ...`: byte writes at consecutive offsets. -/
def turnsWrb (p : Params) (off : Nat) : List Byte → List Turn
  | [] => []
  | b :: bs => .host (.write (p.inBase + off) 1 b.toNat) :: turnsWrb p (off + 1) bs

/-- `RDB OUT[a..b]`: byte reads of the given number of offsets from off on. -/
def turnsRdb (p : Params) (off count : Nat) : List Turn :=
  (List.range count).map fun k => .host (.read (p.outBase + off + k) 1)

/-- `CMD <mnemonic>`: the write of a command's word to CMD. -/
def turnCmd (p : Params) (i : Instr) : Turn := turnWr p 0x010 (encode i)

/-- `RUN <mnemonic>`: the CMD write, then CORE moves, then a read of STATUS that finds BUSY = 0. -/
def turnsRun (p : Params) (i : Instr) : List Turn := [turnCmd p i, .core, turnRd p 0x018]

/-- `ACK`: W1C of DONE, ERR, PROG_PEND and OVERRUN. -/
def turnAck (p : Params) : Turn := turnWr p 0x018 0x1E

/-! ## The result records HOST builds (45_engine.md R277, R278), but for the fields that are HOST's own (00_scope.md R10) -/

/-- isSuccess, originalSize, and compressedSize or decompressedSize. -/
structure ResultRecord where
  isSuccess : Bool
  originalSize : Nat
  producedSize : Nat
  deriving DecidableEq, Repr

/-- CompressionResult after a COMPRESS (45_engine.md R277). -/
def compressionResult (s : State) : ResultRecord :=
  { isSuccess := !s.status.err, originalSize := s.inLen.toNat, producedSize := s.outLen.toNat }

/-- DecompressionResult after a DECOMPRESS (45_engine.md R278). -/
def decompressionResult (s : State) : ResultRecord :=
  { isSuccess := !s.status.err, originalSize := s.origLen.toNat, producedSize := s.outLen.toNat }

end Sys2Proof.Machine
end

