-- ==== Sys2Proof/Machine/Step.lean ====
section
/-! DEFINITION. One step: the turn the agenda names, HOST's access, CORE's command or reset (00_scope.md R5, R6). -/

namespace Sys2Proof.Machine

/-- CORE's turn: run the accepted command to completion (00_scope.md R6); an ILLEGAL one fails at once (30_encoding.md
R112). With no command CORE is idle and every state survives (60_exceptions.md R340). -/
def coreStep (s : State) : Host.Outcome State Fault Refusal :=
  match s.pending with
  | none => .next s
  | some v =>
    match decode v with
    | .ok i => exec i s
    | .error _ => .next (runIllegal s)

/-- One step. HOST's accesses are one at a time in program order (20_memory.md R92), so an access under way goes on
before HOST issues another; CORE, the events of its command and reset may come between two of its bytes (R88). When HOST has nothing more to do CORE
moves, so that an accepted command completes (70_reset_and_hazards.md R365). -/
def step (s : State) : Host.Outcome State Fault Refusal :=
  match s.agenda with
  | .core :: rest => coreStep { s with agenda := rest }
  | .reset :: rest => .next (hardReset { s with agenda := rest })
  | .event :: rest => .next (nextEvent { s with agenda := rest })
  | .byte :: rest => .next (hostGoesOn { s with agenda := rest })
  | .host a :: rest => if s.access.isSome then .next (hostGoesOn s) else hostAct a { s with agenda := rest }
  | [] => if s.access.isSome then .next (hostGoesOn s) else coreStep s

/-- s with a command word accepted, as a CMD write of it accepts it, and CORE to move next: the next step runs it
(log 9). -/
def State.withFetchWord (s : State) (nbits w : Nat) : State :=
  { accept (tableWord nbits w) s with agenda := .core :: s.agenda }

end Sys2Proof.Machine
end

