-- ==== Sys2Proof/WellFormed.lean ====
section
/-! DEFINITION. Well-formedness: of commands (every term of `Instr` is one), and of the OPEN parameters (00_scope.md R12). -/

namespace Sys2Proof

/-- Every `Instr` is well formed: the only operand is one bit, and its type admits nothing else (30_encoding.md R110, R114). -/
def Instr.wellFormed : Instr → Bool
  | .nop => true
  | .count => true
  | .build => true
  | .gencode => true
  | .wrbit _ => true
  | .flush => true
  | .rdbit => true
  | .canrd => true
  | .cwrite => true
  | .cread => true
  | .compress => true
  | .decompress => true
  | .clear => true

/-- 00_scope.md R12: 1 ≤ IN_SIZE ≤ 2^63-1. -/
def Params.inSizeLegal (p : Params) : Bool := decide (1 ≤ p.inSize ∧ p.inSize ≤ 2 ^ 63 - 1)

/-- 00_scope.md R12: 16 ≤ OUT_SIZE ≤ 2^63-1. -/
def Params.outSizeLegal (p : Params) : Bool := decide (16 ≤ p.outSize ∧ p.outSize ≤ 2 ^ 63 - 1)

/-- Two address ranges, each a base and a size, share no address. -/
def rangesApart (a n b m : Nat) : Bool := decide (a + n ≤ b ∨ b + m ≤ a)

/-- DEDUCED (log 6): the platform gives the three spaces host addresses of their own. -/
def Params.windowsApart (p : Params) : Bool :=
  rangesApart p.csrBase csrSpaceSize p.inBase p.inSize
    && rangesApart p.csrBase csrSpaceSize p.outBase p.outSize
    && rangesApart p.inBase p.inSize p.outBase p.outSize

/-- Parameters an implementation may have. -/
def Params.wellFormed (p : Params) : Bool := p.inSizeLegal && p.outSizeLegal && p.windowsApart

end Sys2Proof
end

