-- ==== Sys2Proof/Safety.lean ====
section
/-! DEFINITION. What the block's states look like on every run, when a run is safe, and where it ends. -/

namespace Sys2Proof.Machine

/-! ## Invariants -/

/-- What is left of a buffer access lies inside the buffer (20_memory.md R81, R82). -/
def Access.within (p : Params) : Access → Prop
  | .reading _ b off left _ => off + left ≤ bufSize p b
  | .writing b off bytes => off + bytes.length ≤ bufSize p b

/-- The buffers are canonical, and no byte is listed, marked or still to be accessed at or past a buffer's size
(20_memory.md R81, R82). -/
def State.MemoryOk (s : State) : Prop :=
  s.inMem.wf = true ∧ s.outMem.wf = true ∧ s.inMem.within s.params.inSize = true
    ∧ s.outMem.within s.params.outSize = true ∧ (∀ a ∈ s.outTouched, a < s.params.outSize)
    ∧ ∀ x, s.access = some x → x.within s.params

/-- 10_state.md R44: ACC holds CNT bits in its low bits, and zeros above. -/
def BitWriter.Ok (w : BitWriter) : Prop := w.acc.toNat < 2 ^ w.cnt.val

/-- 10_state.md R55: without VALID the entry is all 0, and BITS[k] = 0 for k ≥ LEN. -/
def Code.Ok (c : Code) : Prop := (c.valid = false → c = Code.absent) ∧ ∀ k, c.len.toNat ≤ k → c.bits.getLsbD k = false

/-- 10_state.md R42: PCT is 0 to 100, and 0 where no progress event has come. -/
def Progress.Ok (p : Progress) : Prop := p.pct.toNat ≤ 100 ∧ (p.pvalid = false → p.pct = 0)

/-- 10_state.md R34, R35; 45_engine.md R276; 46_control.md R300; 60_exceptions.md R322: STATUS.ERR is 1 exactly while ERR holds a cause, which is never a
host cause; while BUSY = 1, DONE and ERR are 0, and PROG_PEND is 0 unless the command is a COMPRESS; and only while
BUSY = 1 can a byte race or an event have come. -/
def State.StatusOk (s : State) : Prop :=
  (s.status.err = s.err.isSome) ∧ (∀ c, s.err = some c → c.byBlock = true)
    ∧ (s.busy = true → s.status.done = false ∧ s.status.err = false)
    ∧ (s.busy = true → s.pending ≠ some (encode .compress) → s.status.progPend = false ∧ s.eventsSeen = 0)
    ∧ (s.busy = false → s.inRaces = [] ∧ s.outTouched = [] ∧ s.eventsSeen = 0)

/-- Every register holds a value its rule admits. -/
def State.RegistersOk (s : State) : Prop :=
  s.StatusOk ∧ s.bw.Ok ∧ s.progress.Ok ∧ ∀ sym, (symGet s.codes sym).Ok

/-- 10_state.md R52: a leaf has LEFT = RIGHT = 0 and a positive 64-bit weight; an internal node has SYMBOL = 0, two
different earlier nodes as children, and the exact sum of their weights. -/
def nodeShape (p : Pool) (i : Nat) : Prop :=
  if (nodeAt p i).isLeaf then
    (nodeAt p i).left = 0 ∧ (nodeAt p i).right = 0 ∧ 0 < (nodeAt p i).weight.toNat ∧ (nodeAt p i).weight.toNat < 2 ^ 64
  else
    (nodeAt p i).symbol = 0 ∧ (nodeAt p i).left.toNat < i ∧ (nodeAt p i).right.toNat < i
      ∧ (nodeAt p i).left ≠ (nodeAt p i).right
      ∧ (nodeAt p i).weight.toNat
          = (nodeAt p (nodeAt p i).left.toNat).weight.toNat + (nodeAt p (nodeAt p i).right.toNat).weight.toNat

/-- Node j is the parent of node i. -/
def isParent (p : Pool) (j i : Nat) : Prop :=
  j < p.length ∧ (nodeAt p j).isLeaf = false ∧ ((nodeAt p j).left.toNat = i ∨ (nodeAt p j).right.toNat = i)

/-- 10_state.md R54: every node but the last has exactly one parent, and no two leaves have one symbol. -/
def strictTree (p : Pool) : Prop :=
  (∀ i, i + 1 < p.length → ∃! j, isParent p j i)
    ∧ ∀ i j, i < p.length → j < p.length → (nodeAt p i).isLeaf = true → (nodeAt p j).isLeaf = true →
        (nodeAt p i).symbol = (nodeAt p j).symbol → i = j

/-- 10_state.md R48, R52, R54: no tree and an empty pool, or a strict tree whose root is the last node. -/
def treeOk (p : Pool) (t : TreeInfo) : Prop :=
  t.nodeCount.toNat = p.length ∧ p.length ≤ 511
    ∧ if t.rootValid then
        t.root.toNat + 1 = p.length ∧ (∀ i, i < p.length → nodeShape p i) ∧ strictTree p
      else p = [] ∧ t.root = 0

/-- The node pool and TREE_INFO are a tree or no tree. -/
def State.TreeOk (s : State) : Prop := treeOk s.pool s.treeInfo

/-! ## Runs -/

/-- A run that no fault and no refusal ends. No command ends one (93_implementation_defined.md section 1), so HOST's
accesses alone decide it. -/
def State.Safe (s : State) : Prop := ∀ k, ∃ t, Host.Core.run Sys2Proof.core k s = .next t

/-- A write to CMD. -/
def HostAction.writesCmd (p : Params) : HostAction → Bool
  | .write addr width _ => decide (locate p addr = some (.csr, 0x010) ∧ width = 8)
  | .read _ _ => false

/-- A read of STATUS. -/
def HostAction.readsStatus (p : Params) : HostAction → Bool
  | .read addr width => decide (locate p addr = some (.csr, 0x018) ∧ width = 8)
  | .write _ _ _ => false

/-- HOST still writes CMD. -/
def issuesCommands (p : Params) : List Turn → Bool
  | [] => false
  | .host a :: rest => a.writesCmd p || issuesCommands p rest
  | .byte :: rest | .event :: rest | .core :: rest | .reset :: rest => issuesCommands p rest

/-- HOST's next access is a read of STATUS that returns BUSY = 0 after the CMD write of its last command: a command has
been accepted, and no CMD write comes after the read. DESIGN CHOICE (log 20): a command counts as accepted where the
history, which the reset input empties, has its acceptance. -/
def State.atEndRead (s : State) : Bool :=
  match s.agenda with
  | .host a :: rest =>
    s.access.isNone && !s.busy && a.readsStatus s.params && !issuesCommands s.params rest
      && s.history.any fun e => match e with | .accept _ => true | .progress _ | .complete _ => false
  | .byte :: _ | .event :: _ | .core :: _ | .reset :: _ | [] => false

/-- 70_reset_and_hazards.md R366: the run from s ends with the step after the k-th, the first read of STATUS that returns
BUSY = 0 after the CMD write of HOST's last command; t is the state at that read. DESIGN CHOICE (log 20): R366 says
nothing about a run that reset interrupts; here it ends as the run after the reset does, and has no end where no command
is accepted after it. DEDUCED (log 21): of several such reads the first ends the run, by R366's words, though the end
states of P1 and P5 in 95_test_vectors.md are those at a later one, after a W1C. -/
def State.EndsAt (s : State) (k : Nat) (t : State) : Prop :=
  ∃ u, Host.Core.run Sys2Proof.core k s = .next u ∧ u.atEndRead = true ∧ step u = .next t
    ∧ ∀ j < k, ∀ v, Host.Core.run Sys2Proof.core j s = .next v → v.atEndRead = false

/-- 70_reset_and_hazards.md R366: two states are one end state: the CSRs and tables, the OUT bytes below OUT_LEN and the
event history agree. -/
def State.sameEnd (t u : State) : Prop :=
  (∀ off, off < csrSpaceSize → off % 8 = 0 → csrValue t (csrAt off) = csrValue u (csrAt off))
    ∧ (∀ a, a < t.outLen.toNat → t.outMem.read a = u.outMem.read a) ∧ t.history = u.history

/-- A CSR access of a form the spec gives a meaning, or an access inside a buffer (20_memory.md R81, R82, R87): what a
HOST that never stops the machine does. -/
def HostAction.allowed (p : Params) : HostAction → Bool
  | .read addr width | .write addr width _ =>
    match locate p addr with
    | none => false
    | some (.csr, off) => csrFormOk off width
    | some (.buf b, off) => decide (off + width ≤ bufSize p b)

end Sys2Proof.Machine
end

