-- ==== Sys2Proof/Certificates/Slice0/Obligations.lean ====
section
/-! DEFINITION. The statements for the provers, and the words they are written in. Statements about a command hold for every
state: IN is what CORE reads (`coreRead`), and an OUT byte HOST wrote while BUSY = 1 is left out, since it holds any value
after completion (20_memory.md R93). -/

namespace Sys2Proof.Spec

open Sys2Proof.Machine

/-! ## How a command ends, and what it leaves alone -/

/-- Nothing CORE may not write has changed: the parameters, HOST's registers, OVERRUN, and what HOST does and has read. -/
def SameHost (s t : State) : Prop :=
  t.params = s.params ∧ t.ctrl = s.ctrl ∧ t.inLen = s.inLen ∧ t.outCap = s.outCap
    ∧ t.status.overrun = s.status.overrun ∧ t.agenda = s.agenda ∧ t.access = s.access ∧ t.reads = s.reads

/-- Every IN byte reads as before. -/
def SameIn (s t : State) : Prop := ∀ a, t.inMem.read a = s.inMem.read a

/-- Every OUT byte outside the stored offsets, less those HOST wrote while BUSY = 1, reads as before. -/
def SameOutBut (stored : Nat → Prop) (s t : State) : Prop :=
  ∀ a, ¬ stored a → a ∉ s.outTouched → t.outMem.read a = s.outMem.read a

/-- No OUT byte is stored to. -/
def SameOut (s t : State) : Prop := SameOutBut (fun _ => False) s t

/-- FREQ is as before. -/
def SameFreq (s t : State) : Prop := t.freq = s.freq

/-- The node pool and TREE_INFO are as before. -/
def SameTree (s t : State) : Prop := t.pool = s.pool ∧ t.treeInfo = s.treeInfo

/-- The code table is as before. -/
def SameCodes (s t : State) : Prop := t.codes = s.codes

/-- BW_POS and BW_STATE are as before. -/
def SameWriter (s t : State) : Prop := t.bw = s.bw

/-- BR_POS, BR_END and BR_STATE are as before. -/
def SameReader (s t : State) : Prop := t.br = s.br

/-- PROGRESS and PROG_PEND are as before. -/
def SameProgress (s t : State) : Prop := t.progress = s.progress ∧ t.status.progPend = s.status.progPend

/-- The command completed without a failure, after the given progress events: DONE is 1, BUSY 0, STATUS.ERR and ERR as
acceptance left them (46_control.md R302). -/
def Success (ps : List Nat) (s t : State) : Prop :=
  t.busy = false ∧ t.status.done = true ∧ t.status.err = s.status.err ∧ t.err = s.err
    ∧ t.history = s.history ++ ps.map Event.progress ++ [Event.complete none]

/-- The command failed with cause c, after the given progress events (60_exceptions.md R326). -/
def Failure (c : Cause) (ps : List Nat) (s t : State) : Prop :=
  t.busy = false ∧ t.status.done = true ∧ t.status.err = true ∧ t.err = some c
    ∧ t.history = s.history ++ ps.map Event.progress ++ [Event.complete (some c)]

/-- The codec state but for OUT_LEN is as before. -/
def SameCodecButOutLen (s t : State) : Prop :=
  SameFreq s t ∧ SameTree s t ∧ SameCodes s t ∧ SameWriter s t ∧ SameReader s t ∧ SameProgress s t
    ∧ t.origLen = s.origLen ∧ t.payloadLen = s.payloadLen

/-- All the codec state is as before. -/
def SameCodec (s t : State) : Prop := SameCodecButOutLen s t ∧ t.outLen = s.outLen

/-- Run commands one after another. -/
def execAll : List Instr → State → Option State
  | [], s => some s
  | i :: is, s =>
    match exec i s with
    | .next t => execAll is t
    | .fault _ => none
    | .refused _ => none

/-! ## Whose move it is -/

/-- A 64-bit HOST write of v to a CSR offset. -/
def csrWr (s : State) (off : Nat) (v : Word) : HostAction := .write (s.params.csrBase + off) 8 v.toNat

/-- A 64-bit HOST read of a CSR offset. -/
def csrRd (s : State) (off : Nat) : HostAction := .read (s.params.csrBase + off) 8

/-- HOST issues the access next: it is the first turn, and no access of HOST's is under way (20_memory.md R92). -/
def issues (s : State) (a : HostAction) (rest : List Turn) : Prop := s.access = none ∧ s.agenda = .host a :: rest

/-- CORE moves next: it is its turn, or HOST has nothing more to do. -/
def coreMoves (s : State) (rest : List Turn) : Prop :=
  s.agenda = .core :: rest ∨ s.agenda = [] ∧ s.access = none ∧ rest = []

/-- A buffer access with nothing between its bytes. -/
def inOnePiece (a : HostAction) (width : Nat) (rest : List Turn) : List Turn :=
  .host a :: (List.replicate (width - 1) .byte ++ rest)

/-- The CSR offsets whose writes are dropped while BUSY = 1 (10_state.md R61, 46_control.md R304). -/
def droppedWhileBusy (off : Nat) : Prop :=
  off ∈ [0x008, 0x010, 0x028, 0x030, 0x040, 0x048, 0x060, 0x070, 0x078] ∨ ∃ k < 256, off = 0x800 + 8 * k

/-- HOST's next access, where it is a read of the CSR offset, returns the value. -/
def readsAs (s : State) (off value : Nat) : Prop :=
  ∀ rest, issues s (csrRd s off) rest →
    ∃ t, step s = .next t ∧ t.reads = s.reads ++ [⟨s.params.csrBase + off, 8, value⟩]

/-- CAUSE * 256 + KIND of each cause (60_exceptions.md R321). -/
def errorTable : List (Cause × Nat) :=
  [(.hostInvalidInput, 0x0101), (.hostUnsupportedType, 0x0202), (.truncated, 0x1003), (.hdrShort, 0x1103),
    (.hdrEntryCount, 0x1203), (.hdrBadCount, 0x1303), (.hdrSymbolOrder, 0x1403), (.hdrNegOrigLen, 0x1503),
    (.hdrPayloadLen, 0x1603), (.noTree, 0x1703), (.badCode, 0x1803), (.readEmpty, 0x1903), (.outCapacity, 0x2004),
    (.payloadTooLarge, 0x2104), (.badArg, 0x2204), (.illegalCmd, 0x2304)]

/-! ## Tables, trees and codes, said apart from how the model computes them -/

/-- How many of the first n bytes of a view are sym. -/
def occurrences (view : Nat → Byte) (n : Nat) (sym : Byte) : Nat :=
  ((List.range n).filter fun a => view a = sym).length

/-- A view holds the container header of a table, an original length and a payload length (30_encoding.md R130): n in
field 1, entry j at 4 + 9j, L at 4 + 9n, P at 12 + 9n. -/
def holdsHeader (view : Nat → Byte) (freq : SymTable Word) (origLen payloadLen : Nat) : Prop :=
  leNat view 0 4 = entryCount freq
    ∧ (∀ j sym count, (entries freq)[j]? = some (sym, count) →
        view (4 + 9 * j) = sym ∧ leNat view (5 + 9 * j) 8 = count.toNat)
    ∧ leNat view (4 + 9 * entryCount freq) 8 = origLen
    ∧ leNat view (12 + 9 * entryCount freq) 4 = payloadLen

/-- The first k entries of field 2 pass every check of CREAD: each lies inside the container, its count is 1 to 2^63 - 1
and its symbol above the ones before (44_container.md R241). -/
def goodEntries (view : Nat → Byte) (inLen k : Nat) : Prop :=
  ∀ j, j < k →
    13 + 9 * j ≤ inLen ∧ 0 < leNat view (5 + 9 * j) 8 ∧ leNat view (5 + 9 * j) 8 < 2 ^ 63
      ∧ ∀ i, i < j → (view (4 + 9 * i)).toNat < (view (4 + 9 * j)).toNat

/-- A CREAD of the state fails with the cause. -/
def creadFails (s : State) (c : Cause) : Prop := ∃ t, exec .cread s = .next t ∧ Failure c [] s t

/-- The tables and lengths a DECOMPRESS of a container with this header leaves from its CREAD and BUILD on, and what it
leaves alone (45_engine.md R273). -/
def Loaded (h : Header) (s t : State) : Prop :=
  t.freq = h.freq ∧ t.pool = (mergedForest h.freq).pool ∧ t.treeInfo = treeInfoOf (mergedForest h.freq)
    ∧ (∀ sym, symGet t.codes sym = Code.absent) ∧ t.origLen.toNat = h.origLen ∧ t.payloadLen.toNat = h.payloadLen
    ∧ t.br.endPos.toNat = h.pos + h.payloadLen ∧ t.br.can = false
    ∧ SameWriter s t ∧ SameProgress s t ∧ SameHost s t ∧ SameIn s t

/-- The bit reader is as CREAD left it: no bit is read. -/
def UnreadPayload (h : Header) (t : State) : Prop :=
  t.br.pos.toNat = h.pos ∧ t.br.cur = 0 ∧ t.br.rem = 0 ∧ t.br.lastBit = false

/-- The bits of the given number of bytes from pos on, most significant bit of each byte first (20_memory.md R83). -/
def bitsOf (view : Nat → Byte) (pos len : Nat) : List Bool :=
  (List.range (8 * len)).map fun k => (view (pos + k / 8)).getLsbD (7 - k % 8)

/-- (weight, index) of node i lies below that of node j, weights as exact integers (41_tree.md R173). -/
def lexBelow (p : Pool) (i j : Nat) : Prop :=
  (nodeAt p i).weight.toNat < (nodeAt p j).weight.toNat
    ∨ (nodeAt p i).weight.toNat = (nodeAt p j).weight.toNat ∧ i < j

/-- Node i waits in the priority structure when node k is made: it exists, and no node before k took it. -/
def waiting (p : Pool) (k i : Nat) : Prop := i < k ∧ ∀ j, j < k → ¬ isParent p j i

/-- Node k joins the two waiting nodes that are least, the least as LEFT, and weighs their exact sum (41_tree.md R173,
R174). -/
def joinsLeast (p : Pool) (k : Nat) : Prop :=
  let a := (nodeAt p k).left.toNat
  let b := (nodeAt p k).right.toNat
  (nodeAt p k).isLeaf = false ∧ (nodeAt p k).symbol = 0 ∧ waiting p k a ∧ waiting p k b ∧ a ≠ b
    ∧ (∀ i, waiting p k i → i ≠ a → lexBelow p a i)
    ∧ (∀ i, waiting p k i → i ≠ a → i ≠ b → lexBelow p b i)
    ∧ (nodeAt p k).weight.toNat = (nodeAt p a).weight.toNat + (nodeAt p b).weight.toNat

/-- The node reached from node i along edges, false for LEFT and true for RIGHT (42_codegen.md R191). -/
def descend (p : Pool) : Nat → List Bool → Nat
  | i, [] => i
  | i, b :: bs => descend p (if b then (nodeAt p i).right.toNat else (nodeAt p i).left.toNat) bs

/-- The code is the path from the root to a leaf of the symbol: it ends at one, and passes none before (42_codegen.md
R190, R191). -/
def isPathTo (p : Pool) (root : Nat) (c : Code) (sym : Byte) : Prop :=
  c.valid = true ∧ (nodeAt p (descend p root c.toBits)).isLeaf = true
    ∧ (nodeAt p (descend p root c.toBits)).symbol = sym
    ∧ descend p root c.toBits < p.length
    ∧ ∀ k < c.toBits.length, (nodeAt p (descend p root (c.toBits.take k))).isLeaf = false

/-- Symbol sym is at some leaf of the tree. -/
def hasLeaf (p : Pool) (sym : Byte) : Prop :=
  ∃ i, i < p.length ∧ (nodeAt p i).isLeaf = true ∧ (nodeAt p i).symbol = sym

/-- Decoding n symbols from bits by walking the tree from a node (45_engine.md R274): `none` if the bits run out. -/
def decodeSyms (p : Pool) (root : Nat) : List Bool → Nat → Nat → Option (List Byte)
  | _, _, 0 => some []
  | [], _, _ + 1 => none
  | b :: bs, node, n + 1 =>
    let child := if b then (nodeAt p node).right.toNat else (nodeAt p node).left.toNat
    if (nodeAt p child).isLeaf then (decodeSyms p root bs root n).map fun out => (nodeAt p child).symbol :: out
    else decodeSyms p root bs child (n + 1)

/-- The percentages of 45_engine.md R276 for N bytes: strictly increasing, and exactly the values (100 * i) div N for i
from 0 to N; none for N = 0. -/
def isProgressList (n : Nat) (ps : List Nat) : Prop :=
  ps.Pairwise (· < ·) ∧ ∀ p, p ∈ ps ↔ 0 < n ∧ ∃ i, i ≤ n ∧ p = 100 * i / n

/-- HOST wrote no buffer byte while the command was pending (20_memory.md R93): its reads of IN return the bytes HOST
wrote, and every OUT byte holds what the command leaves. -/
def NoRaces (s : State) : Prop := s.inRaces = [] ∧ s.outTouched = []

/-- The causes each command can report (60_exceptions.md R324). -/
def causesOf : Instr → List Cause
  | .nop | .gencode | .build | .canrd | .clear => []
  | .count => [.badArg]
  | .wrbit _ | .flush => [.badArg, .outCapacity]
  | .rdbit => [.readEmpty, .badArg]
  | .cwrite => [.badArg, .outCapacity]
  | .cread =>
    [.badArg, .hdrShort, .hdrEntryCount, .hdrBadCount, .hdrSymbolOrder, .hdrNegOrigLen, .hdrPayloadLen]
  | .compress => [.badArg, .payloadTooLarge, .outCapacity]
  | .decompress =>
    [.badArg, .hdrShort, .hdrEntryCount, .hdrBadCount, .hdrSymbolOrder, .hdrNegOrigLen, .hdrPayloadLen,
      .outCapacity, .noTree, .truncated, .badCode]

/-- The tables a COMPRESS of the IN bytes makes (45_engine.md R270): the counts of the bytes, the tree of the counts, the
codes of the tree, and the payload's bytes. -/
def compressFreq (s : State) : SymTable Word := countBytes s.inMem.read s.inLen.toNat

/-- The codes of the tree of a table. -/
def codesOf (freq : SymTable Word) (ssm : Bool) : SymTable Code :=
  genCodes (mergedForest freq).pool (treeInfoOf (mergedForest freq)) ssm

/-- P = ceil8(B) (45_engine.md R271). -/
def compressPayload (s : State) : Nat := ceil8 (payloadBits (compressFreq s) (codesOf (compressFreq s) s.ctrl.ssm))

/-- 16 + 9n + P, the container's bytes (30_encoding.md R136). -/
def containerLen (s : State) : Nat := 16 + 9 * entryCount (compressFreq s) + compressPayload s

end Sys2Proof.Spec

open Sys2Proof Sys2Proof.Machine Sys2Proof.Spec

/-! ## Encoding -/

/-- Words written out bit by bit from 30_encoding.md R110, R111, R117: [63:9] RSVD, [8] BITVAL, [7:0] OPCODE; and
illegal words of 95_test_vectors.md V-CTL-2, V-CTL-4, V-CTL-5. -/
def Obligations.ListedWordsDecode : Prop :=
  decode (0x000 : Word) = .ok .nop ∧ decode (0x001 : Word) = .ok .count ∧ decode (0x002 : Word) = .ok .build
    ∧ decode (0x003 : Word) = .ok .gencode ∧ decode (0x004 : Word) = .ok (.wrbit false)
    ∧ decode (0x104 : Word) = .ok (.wrbit true) ∧ decode (0x005 : Word) = .ok .flush
    ∧ decode (0x006 : Word) = .ok .rdbit ∧ decode (0x007 : Word) = .ok .canrd ∧ decode (0x008 : Word) = .ok .cwrite
    ∧ decode (0x009 : Word) = .ok .cread ∧ decode (0x00A : Word) = .ok .compress
    ∧ decode (0x00B : Word) = .ok .decompress ∧ decode (0x00F : Word) = .ok .clear
    ∧ ∀ v ∈ ([0x00C, 0x00D, 0x00E, 0x010, 0x0FF, 0x105, 0x100, 0x201, 0x8000000000000001] : List Word),
        ∀ i, decode v ≠ .ok i

/-- 30_encoding.md R110-R112: a word is legal exactly when it is the word of a command, and then decodes to it. No bit is
dropped either way. -/
def Obligations.DecodeInvertsEncode : Prop := ∀ (v : Word) (i : Instr), decode v = .ok i ↔ v = encode i

/-- 30_encoding.md R113: what decodes ILLEGAL, and that nothing else does. -/
def Obligations.ReservedEncodingsDecodeIllegal : Prop :=
  ∀ v : Word,
    (∃ e, decode v = .error e) ↔
      (v >>> 9 ≠ 0 ∨ v.extractLsb' 0 8 ∈ ([0x0C, 0x0D, 0x0E] : List (BitVec 8)) ∨ 0x10 ≤ (v.extractLsb' 0 8).toNat
        ∨ (v.getLsbD 8 = true ∧ v.extractLsb' 0 8 ≠ 0x04))

/-! ## Steps -/

/-- A step runs the accepted command: when CORE moves and the accepted word decodes to i, step is exec of i, the turn
taken. The same of a word placed by `withFetchWord`.
The agenda and withFetchWord are the model's (log 7, log 9). -/
def Obligations.StepRunsDecodedCommand : Prop :=
  ∀ (s : State) (v : Word) (i : Instr), decode v = .ok i →
    (∀ rest, s.pending = some v → coreMoves s rest → step s = exec i { s with agenda := rest })
      ∧ step (s.withFetchWord 64 v.toNat) = exec i (accept v s)

/-- 30_encoding.md R112, 60_exceptions.md R320, R327: an illegal word fails at once with ILLEGAL_CMD, changing nothing but STATUS and
ERR.
The agenda is the model's (log 7). -/
def Obligations.IllegalCommandFails : Prop :=
  ∀ (s : State) (v : Word) (e : Illegal) (rest : List Turn), s.pending = some v → decode v = .error e →
    coreMoves s rest →
    ∃ t, step s = .next t ∧ Failure .illegalCmd [] s t ∧ SameCodec s t ∧ SameHost { s with agenda := rest } t
      ∧ SameIn s t ∧ SameOut s t

/-- 60_exceptions.md R340: with no command accepted and CORE to move, all state survives.
The agenda is the model's (log 7). -/
def Obligations.IdleStateSurvives : Prop :=
  ∀ (s : State) (rest : List Turn), s.busy = false → coreMoves s rest → step s = .next { s with agenda := rest }

/-- 46_control.md R302: every command of every state completes, with exactly one Complete event, after progress events
alone; a failure sets STATUS.ERR and ERR; DONE is 1 and BUSY 0. -/
def Obligations.EveryCommandCompletesOnce : Prop :=
  ∀ (i : Instr) (s : State), ∃ t ps, exec i s = .next t ∧ (Success ps s t ∨ ∃ c, Failure c ps s t)

/-- 60_exceptions.md R324: the only causes each command reports, an ILLEGAL word's among them. -/
def Obligations.CausesPerCommand : Prop :=
  (∀ (i : Instr) (s t : State) (c : Cause), exec i s = .next t →
      t.history.getLast? = some (.complete (some c)) → c ∈ causesOf i)
    ∧ ∀ (s : State) (c : Cause), (runIllegal s).history.getLast? = some (.complete (some c)) → c = .illegalCmd

/-- 60_exceptions.md R327: a failed component command, or an ILLEGAL one, changes STATUS and ERR alone; a failed CWRITE
also sets OUT_LEN to 0. -/
def Obligations.FailedComponentChangesNothing : Prop :=
  (∀ (i : Instr) (s t : State) (c : Cause),
      i ∈ [Instr.count, .flush, .rdbit, .cread] ∨ (∃ b, i = .wrbit b) → exec i s = .next t →
      t.history.getLast? = some (.complete (some c)) →
      Failure c [] s t ∧ SameCodec s t ∧ SameHost s t ∧ SameIn s t ∧ SameOut s t)
    ∧ (∀ (s t : State) (c : Cause), exec .cwrite s = .next t → t.history.getLast? = some (.complete (some c)) →
      Failure c [] s t ∧ SameCodecButOutLen s t ∧ t.outLen = 0 ∧ SameHost s t ∧ SameIn s t ∧ SameOut s t)
    ∧ ∀ s : State, Failure .illegalCmd [] s (runIllegal s) ∧ SameCodec s (runIllegal s) ∧ SameHost s (runIllegal s)
      ∧ SameIn s (runIllegal s) ∧ SameOut s (runIllegal s)

/-- 60_exceptions.md R328: a failed COMPRESS or DECOMPRESS leaves OUT_LEN = 0, and no OUT byte at or past OUT_CAP is
touched; what its finished steps wrote stays. Nothing is said of OUT bytes below OUT_CAP. -/
def Obligations.FailedEngineDiscardsOutput : Prop :=
  ∀ (i : Instr) (s t : State) (c : Cause), i ∈ [Instr.compress, .decompress] → exec i s = .next t →
    t.history.getLast? = some (.complete (some c)) →
    t.outLen = 0 ∧ t.err = some c ∧ t.status.err = true ∧ SameHost s t ∧ SameIn s t
      ∧ SameOutBut (fun a => a < s.outCap.toNat) s t

/-- 20_memory.md R80, 10_state.md R61: no command writes an IN byte, HOST's registers, or OVERRUN.
The parameters' place, the agenda and the reads are the model's (log 1, log 7). -/
def Obligations.CommandsNeverWriteHostState : Prop :=
  ∀ (i : Instr) (s t : State), exec i s = .next t → SameHost s t ∧ SameIn s t

/-! ## HOST -/

/-- 46_control.md R300: acceptance of a CMD write while BUSY = 0.
That the command runs in a later turn, and the count of its events seen, are the model's form (log 7, log 19). -/
def Obligations.CmdWriteAccepted : Prop :=
  ∀ (s : State) (v : Word) (rest : List Turn), s.busy = false → issues s (csrWr s 0x010 v) rest →
    step s =
      .next
        { s with
          agenda := rest
          pending := some v
          status := { done := false, err := false, progPend := false, overrun := s.status.overrun }
          err := none
          eventsSeen := 0
          history := s.history ++ [.accept v] }

/-- 10_state.md R61, 46_control.md R304: while BUSY = 1 a write to CMD or to a read-write register is dropped and sets
OVERRUN, and nothing else changes. -/
def Obligations.WritesWhileBusyAreDropped : Prop :=
  ∀ (s : State) (off : Nat) (v : Word) (rest : List Turn), s.busy = true → droppedWhileBusy off →
    issues s (csrWr s off v) rest →
    step s = .next { s with agenda := rest, status := { s.status with overrun := true } }

/-- 10_state.md R34, R35: a write to STATUS acts whatever BUSY is: a 1 clears DONE, ERR, PROG_PEND or OVERRUN, a 0
leaves it, BUSY stays, and clearing ERR zeroes the ERR register. -/
def Obligations.StatusIsWriteOneToClear : Prop :=
  ∀ (s : State) (v : Word) (rest : List Turn), issues s (csrWr s 0x018 v) rest →
    ∃ t, step s = .next t ∧ statusWord t = statusWord s &&& ~~~(v &&& 0x1E)
      ∧ (v.getLsbD 2 = true → errWord t.err = 0) ∧ (v.getLsbD 2 = false → t.err = s.err)
      ∧ t = { s with agenda := rest, status := t.status, err := t.err }

/-- 10_state.md R32, R36, R37, R39, R40, R43, R45, R46, R51: while BUSY = 0 every read-write register holds what HOST
writes, CTRL in its four fields alone; BW_POS also zeroes BW_STATE, BR_POS also zeroes CUR and REM. -/
def Obligations.RegisterWritesAreHeld : Prop :=
  ∀ (s : State) (v : Word) (rest : List Turn), s.busy = false →
    (issues s (csrWr s 0x008 v) rest →
        ∃ c, step s = .next { s with agenda := rest, ctrl := c } ∧ c.word = v &&& 0xF)
      ∧ (issues s (csrWr s 0x028 v) rest → step s = .next { s with agenda := rest, inLen := v })
      ∧ (issues s (csrWr s 0x030 v) rest → step s = .next { s with agenda := rest, outCap := v })
      ∧ (issues s (csrWr s 0x040 v) rest → step s = .next { s with agenda := rest, origLen := v })
      ∧ (issues s (csrWr s 0x048 v) rest → step s = .next { s with agenda := rest, payloadLen := v })
      ∧ (issues s (csrWr s 0x060 v) rest →
        step s = .next { s with agenda := rest, bw := { pos := v, acc := 0, cnt := 0 } })
      ∧ (issues s (csrWr s 0x070 v) rest →
        step s = .next { s with agenda := rest, br := { s.br with pos := v, cur := 0, rem := 0 } })
      ∧ (issues s (csrWr s 0x078 v) rest →
        step s = .next { s with agenda := rest, br := { s.br with endPos := v } })
      ∧ ∀ sym : Byte, issues s (csrWr s (0x800 + 8 * sym.toNat) v) rest →
        ∃ f, step s = .next { s with agenda := rest, freq := f } ∧ symGet f sym = v
          ∧ ∀ other, other ≠ sym → symGet f other = symGet s.freq other

/-- 10_state.md R30-R56, 60_exceptions.md R321: what HOST reads of each register and window while BUSY = 0, every field
in its place. -/
def Obligations.RegistersReadAsLaidOut : Prop :=
  ∀ s : State, s.busy = false →
    readsAs s 0x000 0x148554643
      ∧ readsAs s 0x008 (s.ctrl.ssm.toNat + 2 * s.ctrl.ieDone.toNat + 4 * s.ctrl.ieErr.toNat + 8 * s.ctrl.ieProg.toNat)
      ∧ readsAs s 0x010 0
      ∧ readsAs s 0x018 (2 * s.status.done.toNat + 4 * s.status.err.toNat + 8 * s.status.progPend.toNat
          + 16 * s.status.overrun.toNat)
      ∧ (s.err = none → readsAs s 0x020 0) ∧ (∀ c w, s.err = some c → (c, w) ∈ errorTable → readsAs s 0x020 w)
      ∧ readsAs s 0x028 s.inLen.toNat ∧ readsAs s 0x030 s.outCap.toNat ∧ readsAs s 0x038 s.outLen.toNat
      ∧ readsAs s 0x040 s.origLen.toNat ∧ readsAs s 0x048 s.payloadLen.toNat ∧ readsAs s 0x050 (entryCount s.freq)
      ∧ readsAs s 0x058 (s.progress.pct.toNat + 2 ^ 8 * s.progress.pvalid.toNat)
      ∧ readsAs s 0x060 s.bw.pos.toNat ∧ readsAs s 0x068 (s.bw.acc.toNat + 2 ^ 8 * s.bw.cnt.val)
      ∧ readsAs s 0x070 s.br.pos.toNat ∧ readsAs s 0x078 s.br.endPos.toNat
      ∧ readsAs s 0x080 (s.br.cur.toNat + 2 ^ 8 * s.br.rem.val + 2 ^ 16 * s.br.lastBit.toNat + 2 ^ 17 * s.br.can.toNat)
      ∧ readsAs s 0x088 (s.treeInfo.nodeCount.toNat + 2 ^ 16 * s.treeInfo.root.toNat
          + 2 ^ 31 * s.treeInfo.rootValid.toNat)
      ∧ (∀ sym : Byte, readsAs s (0x800 + 8 * sym.toNat) (symGet s.freq sym).toNat)
      ∧ (∀ i, i < 511 →
          readsAs s (0x1000 + 16 * i) ((nodeAt s.pool i).weight.toNat % 2 ^ 64)
            ∧ readsAs s (0x1008 + 16 * i) ((nodeAt s.pool i).weight.toNat / 2 ^ 64
                + 2 ^ 8 * (nodeAt s.pool i).isLeaf.toNat + 2 ^ 16 * (nodeAt s.pool i).symbol.toNat
                + 2 ^ 32 * (nodeAt s.pool i).left.toNat + 2 ^ 48 * (nodeAt s.pool i).right.toNat))
      ∧ ∀ sym : Byte,
          readsAs s (0x3000 + 64 * sym.toNat) ((symGet s.codes sym).len.toNat + 2 ^ 8 * (symGet s.codes sym).valid.toNat)
            ∧ ∀ k, k < 7 →
              readsAs s (0x3008 + 64 * sym.toNat + 8 * k)
                (if k < 4 then (symGet s.codes sym).bits.toNat / 2 ^ (64 * k) % 2 ^ 64 else 0)

/-- 20_memory.md R89, 10_state.md R49: writes to read-only registers, to the NODE and CODE windows and to reserved
offsets are ignored and set no flag, and reserved offsets read 0, whatever BUSY is.
That a reserved offset reads 0 while BUSY = 1 too is deduced (log 10). -/
def Obligations.ReadOnlyAndReservedWritesIgnored : Prop :=
  ∀ (s : State) (off : Nat) (v : Word) (rest : List Turn), off % 8 = 0 → off < 0x7000 →
    (off ∈ [0x000, 0x020, 0x038, 0x050, 0x058, 0x068, 0x080, 0x088] ∨ 0x090 ≤ off ∧ off < 0x800 ∨ 0x1000 ≤ off →
      issues s (csrWr s off v) rest → step s = .next { s with agenda := rest })
    ∧ (0x090 ≤ off ∧ off < 0x800 ∨ 0x2FF0 ≤ off ∧ off < 0x3000 → issues s (csrRd s off) rest →
      ∃ t, step s = .next t ∧ t.reads = s.reads ++ [⟨s.params.csrBase + off, 8, 0⟩])

/-- 20_memory.md R87: a CSR access that is not 64 bits wide at an 8-byte-aligned offset is refused. -/
def Obligations.OddCsrAccessRefused : Prop :=
  ∀ (s : State) (off width value : Nat) (rest : List Turn), off < 0x7000 → (width ≠ 8 ∨ off % 8 ≠ 0) →
    (issues s (.read (s.params.csrBase + off) width) rest → step s = .refused .csrAccessForm)
    ∧ (issues s (.write (s.params.csrBase + off) width value) rest → step s = .refused .csrAccessForm)

/-- 10_state.md R57: while BUSY = 1, ID and CTRL read as they are, and STATUS reads BUSY = 1, DONE = 0, ERR = 0, OVERRUN
as it is and PROG_PEND as either value. -/
def Obligations.ReadsWhileBusy : Prop :=
  ∀ (s : State) (rest : List Turn), s.busy = true →
    (issues s (csrRd s 0x000) rest →
        ∃ t, step s = .next t ∧ t.reads = s.reads ++ [⟨s.params.csrBase, 8, 0x0000000148554643⟩])
      ∧ (issues s (csrRd s 0x008) rest →
        ∃ t, step s = .next t ∧ t.reads = s.reads ++ [⟨s.params.csrBase + 0x008, 8, s.ctrl.word.toNat⟩])
      ∧ (issues s (csrRd s 0x018) rest →
        ∃ t v, step s = .next t ∧ t.reads = s.reads ++ [⟨s.params.csrBase + 0x018, 8, v⟩]
          ∧ (v = 0x01 ∨ v = 0x09 ∨ v = 0x11 ∨ v = 0x19) ∧ (v / 16 = 1 ↔ s.status.overrun = true))

/-- 20_memory.md R89: a HOST read changes nothing in the block, whether it is issued or goes on: the model alone draws the
free values that reads while BUSY = 1 need (log 4), keeps the access under way with the bytes read so far (log 13), and
notes a read's value once all its bytes are read, and not before (log 7). -/
def Obligations.HostReadsHaveNoSideEffect : Prop :=
  ∀ (s t : State) (addr : Nat) (rest : List Turn), step s = .next t →
    (∀ width, issues s (.read addr width) rest →
      ∃ draws access reads, t = { s with agenda := rest, draws := draws, access := access, reads := reads }
        ∧ ((∃ value, reads = s.reads ++ [⟨addr, width, value⟩] ∧ access = none)
          ∨ reads = s.reads ∧ 1 < width ∧ ∃ b off v, access = some (.reading addr b off (width - 1) [v])))
    ∧ ∀ b off left got, s.access = some (.reading addr b off left got) →
      s.agenda = .byte :: rest ∨ s.agenda = rest ∧ (rest = [] ∨ ∃ a later, rest = .host a :: later) →
      ∃ draws access reads, t = { s with agenda := rest, draws := draws, access := access, reads := reads }
        ∧ (left = 0 → reads = s.reads ++ [⟨addr, got.length, leValue got⟩] ∧ access = none)
        ∧ (0 < left → ∃ v, (b = .input → v = s.inMem.read off)
            ∧ (b = .output → s.busy = false → v = s.outMem.read off)
            ∧ (left = 1 → reads = s.reads ++ [⟨addr, got.length + 1, leValue (got ++ [v])⟩] ∧ access = none)
            ∧ (1 < left → reads = s.reads ∧ access = some (.reading addr b (off + 1) (left - 1) (got ++ [v]))))

/-- 20_memory.md R81, R82, R85, R88, R92, R93: HOST's accesses to IN and OUT, of any width, with nothing between their bytes. A
write stores byte k of the value, bits [8k+7:8k], at offset a + k, and no other byte, but a write to OUT while BUSY = 1
stores none: it leaves exactly its bytes at any value once the command has completed. A read returns the bytes, lowest
offset in bits [7:0], but a read of OUT while BUSY = 1 any value for each. CORE may move between two bytes, and the
access then stays under way; HOST goes on with it before it issues another.
The model's choices: a wide access is one step for each byte (log 13), free values are constants applied to draws (log
3, log 4), IN bytes written while BUSY = 1 are noted (log 5), and the spaces lie apart (log 6). -/
def Obligations.HostWritesInLittleEndian : Prop :=
  (∀ (s : State) (off width value : Nat) (rest : List Turn), s.params.wellFormed = true → 0 < width → s.access = none →
    (off + width ≤ s.params.inSize →
      (s.agenda = inOnePiece (.write (s.params.inBase + off) width value) width rest →
        ∃ t, Host.Core.run Sys2Proof.core width s = .next t
          ∧ (∀ k, k < width → t.inMem.read (off + k) = BitVec.ofNat 8 (value / 256 ^ k))
          ∧ (∀ a, a < off ∨ off + width ≤ a → t.inMem.read a = s.inMem.read a)
          ∧ t = { s with agenda := rest, inMem := t.inMem, inRaces := t.inRaces }
          ∧ (s.busy = false → t.inRaces = s.inRaces))
      ∧ (s.agenda = inOnePiece (.read (s.params.inBase + off) width) width rest →
        Host.Core.run Sys2Proof.core width s =
          .next
            { s with
              agenda := rest
              reads := s.reads ++ [⟨s.params.inBase + off, width, leNat s.inMem.read off width⟩] }))
    ∧ (off + width ≤ s.params.outSize →
      (s.agenda = inOnePiece (.write (s.params.outBase + off) width value) width rest →
        ∃ t, Host.Core.run Sys2Proof.core width s = .next t
          ∧ t = { s with agenda := rest, outMem := t.outMem, outTouched := t.outTouched }
          ∧ (s.busy = false → t.outTouched = s.outTouched
              ∧ (∀ k, k < width → t.outMem.read (off + k) = BitVec.ofNat 8 (value / 256 ^ k))
              ∧ ∀ a, a < off ∨ off + width ≤ a → t.outMem.read a = s.outMem.read a)
          ∧ (s.busy = true → t.outMem = s.outMem
              ∧ ∀ a, a ∈ t.outTouched ↔ a ∈ s.outTouched ∨ off ≤ a ∧ a < off + width))
      ∧ (s.agenda = inOnePiece (.read (s.params.outBase + off) width) width rest →
        ∃ draws bytes, Host.Core.run Sys2Proof.core width s =
            .next
              { s with
                agenda := rest
                draws := draws
                reads := s.reads ++ [⟨s.params.outBase + off, width, leValue bytes⟩] }
          ∧ (s.busy = false → draws = s.draws ∧ bytes = (List.range width).map fun k => s.outMem.read (off + k))
          ∧ (s.busy = true →
            bytes = (List.range width).map fun k => Config.freeByte (s.draws + k) (off + k)))))
  ∧ (∀ (i : Instr) (s t : State) (a : Nat), exec i s = .next t → a ∈ s.outTouched →
      t.outMem.read a = Config.freeByte s.draws a)
  ∧ (∀ (s : State) (x : Access) (rest : List Turn), s.access = some x → s.agenda = .core :: rest →
      ∃ t, step s = .next t ∧ t.access = some x ∧ t.agenda = rest)
  ∧ ∀ (s : State) (x : Access), s.access = some x → s.agenda = [] ∨ (∃ a rest, s.agenda = .host a :: rest) →
      step s = step { s with agenda := .byte :: s.agenda }

/-- 20_memory.md R93: CORE's reads of an IN byte HOST wrote while BUSY = 1 return its old or its new value, one free
choice per read; every other byte is read as before. -/
def Obligations.RacedInReadsOldOrNew : Prop :=
  ∀ (s : State) (a : Nat) (b : Byte), s.busy = true → olderValues s.inRaces a = [] →
    (∀ pass, coreRead (hostWriteIn a b s) pass a = s.inMem.read a ∨ coreRead (hostWriteIn a b s) pass a = b)
      ∧ ∀ pass x, x ≠ a → coreRead (hostWriteIn a b s) pass x = coreRead s pass x

/-- 70_reset_and_hazards.md R360, R361; 10_state.md R62: reset, taken at any time, gives every piece of state its reset
value and abandons the command; IN and OUT list no byte, so each holds an unspecified value.
What is kept beside is the model's choice (log 1, log 11). -/
def Obligations.ResetInputGivesResetValues : Prop :=
  ∀ (s : State) (rest : List Turn), s.agenda = .reset :: rest →
    ∃ t, step s = .next t
      ∧ (∀ off, off < 0x7000 → off % 8 = 0 → off ≠ 0 → csrValue t (csrAt off) = 0)
      ∧ csrValue t (csrAt 0) = 0x0000000148554643 ∧ t.busy = false ∧ irq t = false ∧ t.history = []
      ∧ t.inMem.cells = [] ∧ t.outMem.cells = [] ∧ t.params = s.params ∧ t.agenda = rest ∧ t.access = s.access
      ∧ t.reads = s.reads

/-- 10_state.md R62, 95_test_vectors.md V-RST-1: the machine right after reset. -/
def Obligations.ResetStateReadsAsListed : Prop :=
  csrValue State.reset .id = 0x0000000148554643
    ∧ (∀ r ∈ [Csr.ctrl, .status, .err, .inLen, .outCap, .outLen, .origLen, .payloadLen, .entryCount, .progress, .bwPos,
        .bwState, .brPos, .brEnd, .brState, .treeInfo], csrValue State.reset r = 0)
    ∧ (∀ sym : Byte, csrValue State.reset (.freq sym) = 0) ∧ (∀ i high, csrValue State.reset (.node i high) = 0)
    ∧ (∀ (sym : Byte) (k : Nat), csrValue State.reset (.code sym k) = 0) ∧ irq State.reset = false
    ∧ State.reset.history = []

/-- 60_exceptions.md R330, 10_state.md R34, 46_control.md R300, 45_engine.md R276: the IRQ line, by the bits of the STATUS
and CTRL words, whatever BUSY is. A W1C of its three sources and every acceptance deassert it; while BUSY = 1 only a
COMPRESS can assert it, with IE_PROG = 1, and does at each of its progress events: an event sets PROG_PEND and nothing
else, no other command has one, and none comes after the last.
The turns at which events come, and the count of them, are the model's (log 7, log 19). -/
def Obligations.IrqFollowsStatusAndCtrl : Prop :=
  (∀ s : State,
    (irq s = true ↔
      ((statusWord s).getLsbD 1 = true ∧ s.ctrl.word.getLsbD 1 = true)
        ∨ ((statusWord s).getLsbD 2 = true ∧ s.ctrl.word.getLsbD 2 = true)
        ∨ ((statusWord s).getLsbD 3 = true ∧ s.ctrl.word.getLsbD 3 = true))
      ∧ irq (w1cStatus 0xE s) = false ∧ (∀ v, irq (accept v s) = false)
      ∧ (s.StatusOk → s.busy = true → irq s = true →
          s.pending = some (encode .compress) ∧ s.status.progPend = true ∧ s.ctrl.ieProg = true))
  ∧ ∀ (s : State) (rest : List Turn), s.agenda = .event :: rest →
      (s.pending ≠ some (encode .compress) → step s = .next { s with agenda := rest })
      ∧ ∀ u ps, s.pending = some (encode .compress) → exec .compress { s with agenda := rest } = .next u →
          (Success ps { s with agenda := rest } u ∨ ∃ c, Failure c ps { s with agenda := rest } u) →
          (s.eventsSeen < ps.length →
            step s = .next
              { s with
                agenda := rest
                status := { s.status with progPend := true }
                eventsSeen := s.eventsSeen + 1 })
          ∧ (ps.length ≤ s.eventsSeen → step s = .next { s with agenda := rest })

/-- 10_state.md R41, R50: ENTRY_COUNT is the number of symbols whose count is not 0, 0 to 256. -/
def Obligations.EntryCountCountsNonzero : Prop :=
  ∀ s : State,
    (csrValue s .entryCount).toNat = (Finset.univ.filter fun sym : Fin 256 => symGet s.freq (BitVec.ofFin sym) ≠ 0).card
      ∧ (csrValue s .entryCount).toNat ≤ 256

/-! ## NOP, CLEAR -/

/-- 46_control.md R301: NOP completes, and changes nothing else. -/
def Obligations.NopOnlyCompletes : Prop :=
  ∀ s : State, ∃ t, exec .nop s = .next t ∧ Success [] s t ∧ SameCodec s t ∧ SameHost s t ∧ SameIn s t ∧ SameOut s t

/-- 46_control.md R303: CLEAR gives the codec state its reset values, and leaves CTRL, IN_LEN, OUT_CAP, OVERRUN and the
bytes of IN and OUT. -/
def Obligations.ClearResetsCodecState : Prop :=
  ∀ s : State, ∃ t, exec .clear s = .next t ∧ Success [] s t ∧ SameHost s t ∧ SameIn s t ∧ SameOut s t
    ∧ t.freq = State.reset.freq ∧ t.pool = State.reset.pool ∧ t.treeInfo = State.reset.treeInfo
    ∧ t.codes = State.reset.codes ∧ t.origLen = State.reset.origLen ∧ t.payloadLen = State.reset.payloadLen
    ∧ t.outLen = State.reset.outLen ∧ t.progress = State.reset.progress ∧ t.bw = State.reset.bw
    ∧ t.br = State.reset.br ∧ t.status.progPend = s.status.progPend

/-! ## COUNT -/

/-- 40_frequency.md R150: COUNT of IN_LEN ≤ IN_SIZE bytes; BAD_ARG otherwise. -/
def Obligations.CountCountsOccurrences : Prop :=
  ∀ s : State,
    (s.inLen.toNat ≤ s.params.inSize →
      ∃ t, exec .count s = .next t ∧ Success [] s t
        ∧ (∀ sym, (symGet t.freq sym).toNat = occurrences (coreRead s firstPass) s.inLen.toNat sym)
        ∧ t.origLen = s.inLen ∧ SameTree s t ∧ SameCodes s t ∧ SameWriter s t ∧ SameReader s t ∧ SameProgress s t
        ∧ t.outLen = s.outLen ∧ t.payloadLen = s.payloadLen ∧ SameHost s t ∧ SameIn s t ∧ SameOut s t)
    ∧ (s.params.inSize < s.inLen.toNat → ∃ t, exec .count s = .next t ∧ Failure .badArg [] s t ∧ SameCodec s t)

/-- 40_frequency.md R151: after a successful COUNT the entries are exactly the distinct bytes of IN[0 .. IN_LEN-1],
ENTRY_COUNT is their number, and the counts sum to IN_LEN. -/
def Obligations.CountEntriesAreTheDistinctBytes : Prop :=
  ∀ s : State, s.inLen.toNat ≤ s.params.inSize →
    ∃ t, exec .count s = .next t
      ∧ (∀ sym, symGet t.freq sym ≠ 0 ↔ ∃ a, a < s.inLen.toNat ∧ coreRead s firstPass a = sym)
      ∧ entryCount t.freq = ((List.range s.inLen.toNat).map (coreRead s firstPass)).dedup.length
      ∧ (t.freq.toList.map BitVec.toNat).sum = s.inLen.toNat

/-- 40_frequency.md R152: COUNT's table depends on the multiset of the IN bytes alone, whatever the state before. -/
def Obligations.CountIgnoresOrder : Prop :=
  ∀ s s' t t' : State, s.inLen.toNat ≤ s.params.inSize → s'.inLen.toNat ≤ s'.params.inSize →
    ((List.range s.inLen.toNat).map (coreRead s firstPass)).Perm
      ((List.range s'.inLen.toNat).map (coreRead s' firstPass)) →
    exec .count s = .next t → exec .count s' = .next t' → t.freq = t'.freq

/-! ## BUILD -/

/-- 41_tree.md R170, R176: BUILD completes in every state and leaves a tree, or none, of FREQ; every code entry is
cleared, and nothing else changes. -/
def Obligations.BuildMakesATree : Prop :=
  ∀ s : State, ∃ t, exec .build s = .next t ∧ Success [] s t ∧ t.TreeOk
    ∧ (t.treeInfo.rootValid = true ↔ ∃ sym, symGet s.freq sym ≠ 0)
    ∧ (∀ sym, symGet t.codes sym = Code.absent)
    ∧ SameFreq s t ∧ SameWriter s t ∧ SameReader s t ∧ SameProgress s t ∧ t.outLen = s.outLen ∧ t.origLen = s.origLen
    ∧ t.payloadLen = s.payloadLen ∧ SameHost s t ∧ SameIn s t ∧ SameOut s t

/-- 41_tree.md R171: no tree for n = 0; one leaf for n = 1; for n ≥ 2, n leaves NODE[0..n-1] and n - 1 internal nodes,
NODE_COUNT = 2n - 1 and ROOT = 2n - 2. -/
def Obligations.BuildCardinality : Prop :=
  ∀ s : State, ∃ t, exec .build s = .next t
    ∧ (entryCount s.freq = 0 → t.pool = [] ∧ t.treeInfo = { nodeCount := 0, root := 0, rootValid := false })
    ∧ (0 < entryCount s.freq →
        t.treeInfo.rootValid = true ∧ t.treeInfo.nodeCount.toNat = 2 * entryCount s.freq - 1
          ∧ t.pool.length = 2 * entryCount s.freq - 1 ∧ t.treeInfo.root.toNat = 2 * entryCount s.freq - 2
          ∧ ∀ i, i < t.pool.length → ((nodeAt t.pool i).isLeaf = true ↔ i < entryCount s.freq))

/-- 41_tree.md R172: the leaf of the j-th smallest present symbol is NODE[j], with that symbol's count as its weight. -/
def Obligations.BuildSeedsLeavesInSymbolOrder : Prop :=
  ∀ (s : State) (sym : Byte), symGet s.freq sym ≠ 0 →
    ∃ t, exec .build s = .next t
      ∧ ∃ j, j = (Finset.univ.filter fun x : Fin 256 => x.val < sym.toNat ∧ symGet s.freq (BitVec.ofFin x) ≠ 0).card
        ∧ (nodeAt t.pool j).isLeaf = true ∧ (nodeAt t.pool j).symbol = sym
        ∧ (nodeAt t.pool j).weight.toNat = (symGet s.freq sym).toNat
        ∧ (nodeAt t.pool j).left = 0 ∧ (nodeAt t.pool j).right = 0

/-- 41_tree.md R173, R174: every internal node joins the two least waiting nodes, by exact weight and then by index, the
first removed as LEFT, and weighs their exact sum. -/
def Obligations.BuildJoinsTheTwoLeast : Prop :=
  ∀ s : State, ∃ t, exec .build s = .next t
    ∧ ∀ k, entryCount s.freq ≤ k → k < t.pool.length → joinsLeast t.pool k

/-- 41_tree.md R177: BUILD's result is a function of FREQ alone. -/
def Obligations.BuildDependsOnFreqAlone : Prop :=
  ∀ s s' t t' : State, s.freq = s'.freq → exec .build s = .next t → exec .build s' = .next t' →
    t.pool = t'.pool ∧ t.treeInfo = t'.treeInfo ∧ t.codes = t'.codes

/-! ## GENCODE -/

/-- 42_codegen.md R192, R193: with no tree GENCODE leaves no code; a single leaf gets the empty code in mode EMPTY and
`0` in mode ONE_BIT, and no other symbol has one; it changes the code table alone. -/
def Obligations.GencodeWithoutInternalNodes : Prop :=
  ∀ s : State,
    s.treeInfo.rootValid = false
      ∨ s.treeInfo.rootValid = true ∧ (nodeAt s.pool s.treeInfo.root.toNat).isLeaf = true →
    ∃ t, exec .gencode s = .next t ∧ Success [] s t
      ∧ (s.treeInfo.rootValid = false → ∀ sym, symGet t.codes sym = Code.absent)
      ∧ (s.treeInfo.rootValid = true →
          (∀ sym, sym ≠ (nodeAt s.pool s.treeInfo.root.toNat).symbol → symGet t.codes sym = Code.absent)
            ∧ symGet t.codes (nodeAt s.pool s.treeInfo.root.toNat).symbol
                = { valid := true, len := if s.ctrl.ssm then 1 else 0, bits := 0 })
      ∧ SameTree s t ∧ SameFreq s t ∧ SameWriter s t ∧ SameReader s t ∧ SameProgress s t ∧ t.outLen = s.outLen
      ∧ t.origLen = s.origLen ∧ t.payloadLen = s.payloadLen ∧ SameHost s t ∧ SameIn s t ∧ SameOut s t

/-- 42_codegen.md R190, R191: on a tree with an internal root, GENCODE completes and gives every symbol of a leaf the path
from the root to its leaf, `0` for a left and `1` for a right edge, and no other symbol a code; it changes the code
table alone. -/
def Obligations.GencodeCodesAreLeafPaths : Prop :=
  ∀ s : State, s.TreeOk → s.treeInfo.rootValid = true → (nodeAt s.pool s.treeInfo.root.toNat).isLeaf = false →
    ∃ t, exec .gencode s = .next t ∧ Success [] s t
      ∧ (∀ sym, hasLeaf s.pool sym → isPathTo s.pool s.treeInfo.root.toNat (symGet t.codes sym) sym)
      ∧ (∀ sym, ¬ hasLeaf s.pool sym → symGet t.codes sym = Code.absent)
      ∧ SameTree s t ∧ SameFreq s t ∧ SameWriter s t ∧ SameReader s t ∧ SameProgress s t ∧ t.outLen = s.outLen
      ∧ t.origLen = s.origLen ∧ t.payloadLen = s.payloadLen ∧ SameHost s t ∧ SameIn s t ∧ SameOut s t

/-- 42_codegen.md R194: on a tree with two leaves or more, no valid code is a prefix of another symbol's, every valid code
has a bit, and the code is full: the sum of 2^(255 - LEN) over the valid symbols is 2^255. -/
def Obligations.GencodeIsPrefixFreeAndFull : Prop :=
  ∀ s : State, s.TreeOk → s.treeInfo.rootValid = true → (nodeAt s.pool s.treeInfo.root.toNat).isLeaf = false →
    ∃ t, exec .gencode s = .next t
      ∧ (∀ x y, x ≠ y → (symGet t.codes x).valid = true → (symGet t.codes y).valid = true →
          ¬ (symGet t.codes x).toBits <+: (symGet t.codes y).toBits)
      ∧ (∀ x, (symGet t.codes x).valid = true → 1 ≤ (symGet t.codes x).len.toNat)
      ∧ ((t.codes.toList.filter Code.valid).map fun c => 2 ^ (255 - c.len.toNat)).sum = 2 ^ 255

/-! ## Bit-level stream I/O -/

/-- 43_bitio.md R211: WRBIT in each of its cases. -/
def Obligations.WrbitShiftsInOneBit : Prop :=
  ∀ (s : State) (b : Bool),
    (s.params.outSize < s.outCap.toNat → ∃ t, exec (.wrbit b) s = .next t ∧ Failure .badArg [] s t)
    ∧ (s.outCap.toNat ≤ s.params.outSize → s.bw.cnt = 7 → s.outCap.toNat ≤ s.bw.pos.toNat →
      ∃ t, exec (.wrbit b) s = .next t ∧ Failure .outCapacity [] s t)
    ∧ (s.outCap.toNat ≤ s.params.outSize → s.bw.cnt = 7 → s.bw.pos.toNat < s.outCap.toNat →
      ∃ t, exec (.wrbit b) s = .next t ∧ Success [] s t
        ∧ (s.bw.pos.toNat ∉ s.outTouched →
            (t.outMem.read s.bw.pos.toNat).toNat = (2 * s.bw.acc.toNat + b.toNat) % 256)
        ∧ t.bw.pos.toNat = s.bw.pos.toNat + 1 ∧ t.bw.acc = 0 ∧ t.bw.cnt = 0
        ∧ SameOutBut (fun a => a = s.bw.pos.toNat) s t ∧ SameFreq s t ∧ SameTree s t ∧ SameCodes s t ∧ SameReader s t
        ∧ SameProgress s t ∧ t.outLen = s.outLen ∧ t.origLen = s.origLen ∧ t.payloadLen = s.payloadLen ∧ SameHost s t
        ∧ SameIn s t)
    ∧ (s.outCap.toNat ≤ s.params.outSize → s.bw.cnt ≠ 7 →
      ∃ t, exec (.wrbit b) s = .next t ∧ Success [] s t ∧ t.bw.pos = s.bw.pos
        ∧ t.bw.acc.toNat = (2 * s.bw.acc.toNat + b.toNat) % 256 ∧ t.bw.cnt.val = s.bw.cnt.val + 1
        ∧ SameOut s t ∧ SameFreq s t ∧ SameTree s t ∧ SameCodes s t ∧ SameReader s t ∧ SameProgress s t
        ∧ t.outLen = s.outLen ∧ t.origLen = s.origLen ∧ t.payloadLen = s.payloadLen ∧ SameHost s t ∧ SameIn s t)

/-- 43_bitio.md R212: FLUSH in each of its cases. -/
def Obligations.FlushStoresThePartialByte : Prop :=
  ∀ s : State,
    (s.params.outSize < s.outCap.toNat → ∃ t, exec .flush s = .next t ∧ Failure .badArg [] s t)
    ∧ (s.outCap.toNat ≤ s.params.outSize → s.bw.cnt = 0 →
      ∃ t, exec .flush s = .next t ∧ Success [] s t ∧ SameCodec s t ∧ SameHost s t ∧ SameIn s t ∧ SameOut s t)
    ∧ (s.outCap.toNat ≤ s.params.outSize → s.bw.cnt ≠ 0 → s.outCap.toNat ≤ s.bw.pos.toNat →
      ∃ t, exec .flush s = .next t ∧ Failure .outCapacity [] s t)
    ∧ (s.outCap.toNat ≤ s.params.outSize → s.bw.cnt ≠ 0 → s.bw.pos.toNat < s.outCap.toNat →
      ∃ t, exec .flush s = .next t ∧ Success [] s t
        ∧ (s.bw.pos.toNat ∉ s.outTouched →
            (t.outMem.read s.bw.pos.toNat).toNat = s.bw.acc.toNat * 2 ^ (8 - s.bw.cnt.val) % 256)
        ∧ t.bw.pos.toNat = s.bw.pos.toNat + 1 ∧ t.bw.acc = 0 ∧ t.bw.cnt = 0
        ∧ SameOutBut (fun a => a = s.bw.pos.toNat) s t ∧ SameFreq s t ∧ SameTree s t ∧ SameCodes s t ∧ SameReader s t
        ∧ SameProgress s t ∧ t.outLen = s.outLen ∧ t.origLen = s.origLen ∧ t.payloadLen = s.payloadLen ∧ SameHost s t
        ∧ SameIn s t)

/-- 43_bitio.md R213: the bit-stream law of the writer. -/
def Obligations.WriterBitStreamLaw : Prop :=
  ∀ (s t : State) (bits : List Bool), s.bw.acc = 0 → s.bw.cnt = 0 → s.outTouched = [] →
    execAll (bits.map Instr.wrbit ++ [.flush]) s = some t →
    t.history = s.history ++ List.replicate (bits.length + 1) (.complete none) →
    (∀ k, k < bits.length →
        (t.outMem.read (s.bw.pos.toNat + k / 8)).getLsbD (7 - k % 8) = bits.getD k false)
      ∧ (∀ k, bits.length ≤ k → k < 8 * ceil8 bits.length →
        (t.outMem.read (s.bw.pos.toNat + k / 8)).getLsbD (7 - k % 8) = false)
      ∧ t.bw.pos.toNat = s.bw.pos.toNat + ceil8 bits.length ∧ t.bw.cnt = 0
      ∧ ∀ a, a < s.bw.pos.toNat ∨ s.bw.pos.toNat + ceil8 bits.length ≤ a → t.outMem.read a = s.outMem.read a

/-- 43_bitio.md R215: RDBIT in each of its cases. -/
def Obligations.RdbitReadsTheNextBit : Prop :=
  ∀ s : State,
    (s.br.rem = 0 → s.br.endPos.toNat ≤ s.br.pos.toNat → ∃ t, exec .rdbit s = .next t ∧ Failure .readEmpty [] s t)
    ∧ (s.br.rem = 0 → s.br.pos.toNat < s.br.endPos.toNat →
        s.params.inSize < s.inLen.toNat ∨ s.inLen.toNat ≤ s.br.pos.toNat →
      ∃ t, exec .rdbit s = .next t ∧ Failure .badArg [] s t)
    ∧ (s.br.rem = 0 → s.br.pos.toNat < s.br.endPos.toNat → s.inLen.toNat ≤ s.params.inSize →
        s.br.pos.toNat < s.inLen.toNat →
      ∃ t, exec .rdbit s = .next t ∧ Success [] s t ∧ t.br.pos.toNat = s.br.pos.toNat + 1
        ∧ t.br.cur = coreRead s firstPass s.br.pos.toNat ∧ t.br.rem.val = 7 ∧ t.br.lastBit = t.br.cur.getLsbD 7
        ∧ t.br.can = s.br.can ∧ t.br.endPos = s.br.endPos
        ∧ SameFreq s t ∧ SameTree s t ∧ SameCodes s t ∧ SameWriter s t ∧ SameProgress s t ∧ t.outLen = s.outLen
        ∧ t.origLen = s.origLen ∧ t.payloadLen = s.payloadLen ∧ SameHost s t ∧ SameIn s t ∧ SameOut s t)
    ∧ (s.br.rem ≠ 0 →
      ∃ t, exec .rdbit s = .next t ∧ Success [] s t ∧ t.br.pos = s.br.pos ∧ t.br.cur = s.br.cur
        ∧ t.br.rem.val + 1 = s.br.rem.val ∧ t.br.lastBit = s.br.cur.getLsbD (s.br.rem.val - 1)
        ∧ t.br.can = s.br.can ∧ t.br.endPos = s.br.endPos
        ∧ SameFreq s t ∧ SameTree s t ∧ SameCodes s t ∧ SameWriter s t ∧ SameProgress s t ∧ t.outLen = s.outLen
        ∧ t.origLen = s.origLen ∧ t.payloadLen = s.payloadLen ∧ SameHost s t ∧ SameIn s t ∧ SameOut s t)

/-- 43_bitio.md R214, R216: CANRD sets CAN exactly when a bit is available, and changes nothing else. -/
def Obligations.CanrdAsksForABit : Prop :=
  ∀ s : State, ∃ t, exec .canrd s = .next t ∧ Success [] s t
    ∧ (t.br.can = true ↔ 0 < s.br.rem.val ∨ s.br.pos.toNat < s.br.endPos.toNat)
    ∧ t.br = { s.br with can := t.br.can }
    ∧ SameFreq s t ∧ SameTree s t ∧ SameCodes s t ∧ SameWriter s t ∧ SameProgress s t ∧ t.outLen = s.outLen
    ∧ t.origLen = s.origLen ∧ t.payloadLen = s.payloadLen ∧ SameHost s t ∧ SameIn s t ∧ SameOut s t

/-- 43_bitio.md R217: the bit-stream law of the reader: the k-th RDBIT from BR_POS = p, BR_END = q ≤ IN_LEN and REM = 0
returns bit 7 - (k mod 8) of IN[p + k div 8] for k < 8(q - p), and the next RDBIT fails with READ_EMPTY. -/
def Obligations.ReaderBitStreamLaw : Prop :=
  ∀ (s : State) (m : Nat), s.br.rem = 0 → s.br.endPos.toNat ≤ s.inLen.toNat → s.inLen.toNat ≤ s.params.inSize →
    s.inRaces = [] → m ≤ 8 * (s.br.endPos.toNat - s.br.pos.toNat) →
    ∃ t, execAll (List.replicate m .rdbit) s = some t
      ∧ t.history = s.history ++ List.replicate m (.complete none)
      ∧ (∀ k, k + 1 = m → t.br.lastBit = (s.inMem.read (s.br.pos.toNat + k / 8)).getLsbD (7 - k % 8))
      ∧ (m = 8 * (s.br.endPos.toNat - s.br.pos.toNat) → ∃ u, exec .rdbit t = .next u ∧ Failure .readEmpty [] t u)

/-! ## Container -/

/-- 44_container.md R240: CWRITE of a header that fits writes fields 1 to 4 in order, points the bit writer behind them
and sets OUT_LEN; and each failure, in the rule's order. -/
def Obligations.CwriteWritesTheHeader : Prop :=
  ∀ s : State,
    (s.params.outSize < s.outCap.toNat → ∃ t, exec .cwrite s = .next t ∧ Failure .badArg [] s t ∧ t.outLen = 0)
    ∧ (s.outCap.toNat ≤ s.params.outSize →
        2 ^ 63 ≤ s.origLen.toNat ∨ 2 ^ 31 ≤ s.payloadLen.toNat ∨ (∃ sym, 2 ^ 63 ≤ (symGet s.freq sym).toNat) →
      ∃ t, exec .cwrite s = .next t ∧ Failure .badArg [] s t ∧ t.outLen = 0)
    ∧ (s.outCap.toNat ≤ s.params.outSize → s.origLen.toNat < 2 ^ 63 → s.payloadLen.toNat < 2 ^ 31 →
        (∀ sym, (symGet s.freq sym).toNat < 2 ^ 63) →
      (s.outCap.toNat < 16 + 9 * entryCount s.freq →
        ∃ t, exec .cwrite s = .next t ∧ Failure .outCapacity [] s t ∧ t.outLen = 0)
      ∧ (16 + 9 * entryCount s.freq ≤ s.outCap.toNat →
        ∃ t, exec .cwrite s = .next t ∧ Success [] s t
          ∧ (s.outTouched = [] → holdsHeader t.outMem.read s.freq s.origLen.toNat s.payloadLen.toNat)
          ∧ t.bw.pos.toNat = 16 + 9 * entryCount s.freq ∧ t.bw.acc = 0 ∧ t.bw.cnt = 0
          ∧ t.outLen.toNat = 16 + 9 * entryCount s.freq
          ∧ SameOutBut (fun a => a < 16 + 9 * entryCount s.freq) s t ∧ SameFreq s t ∧ SameTree s t ∧ SameCodes s t
          ∧ SameReader s t ∧ SameProgress s t ∧ t.origLen = s.origLen ∧ t.payloadLen = s.payloadLen ∧ SameHost s t
          ∧ SameIn s t))

/-- 44_container.md R241, R242, R244: CREAD succeeds on exactly the containers whose header, as CORE reads it, is that of some
table of positive signed counts with its payload inside IN_LEN, and loads that table and both lengths; what follows the
payload does not matter (R243). -/
def Obligations.CreadLoadsExactlyHeaders : Prop :=
  ∀ s : State, s.inLen.toNat ≤ s.params.inSize →
    (∀ (f : SymTable Word) (len pay : Nat), holdsHeader (coreRead s firstPass) f len pay →
        (∀ sym, (symGet f sym).toNat < 2 ^ 63) → len < 2 ^ 63 → pay < 2 ^ 31 →
        16 + 9 * entryCount f + pay ≤ s.inLen.toNat →
      ∃ t, exec .cread s = .next t ∧ Success [] s t ∧ t.freq = f ∧ t.origLen.toNat = len ∧ t.payloadLen.toNat = pay
        ∧ t.br.pos.toNat = 16 + 9 * entryCount f ∧ t.br.endPos.toNat = 16 + 9 * entryCount f + pay ∧ t.br.cur = 0
        ∧ t.br.rem = 0 ∧ t.br.lastBit = false ∧ t.br.can = false
        ∧ SameTree s t ∧ SameCodes s t ∧ SameWriter s t ∧ SameProgress s t ∧ t.outLen = s.outLen ∧ SameHost s t
        ∧ SameIn s t ∧ SameOut s t)
    ∧ ∀ t, exec .cread s = .next t → t.history.getLast? = some (.complete none) →
      holdsHeader (coreRead s firstPass) t.freq t.origLen.toNat t.payloadLen.toNat
        ∧ (∀ sym, (symGet t.freq sym).toNat < 2 ^ 63) ∧ t.origLen.toNat < 2 ^ 63 ∧ t.payloadLen.toNat < 2 ^ 31
        ∧ 16 + 9 * entryCount t.freq + t.payloadLen.toNat ≤ s.inLen.toNat

/-- 44_container.md R241: the checks of CREAD, in order: IN_LEN; field 1; then each entry of field 2: its length, its
count, its symbol; then field 3, field 4 and field 5. Each is reported where it is the first to fail. -/
def Obligations.CreadChecksFieldsInOrder : Prop :=
  ∀ (s : State) (view : Nat → Byte) (len n : Nat), view = coreRead s firstPass → len = s.inLen.toNat →
    n = leNat view 0 4 →
    (s.params.inSize < len → creadFails s .badArg)
    ∧ (len ≤ s.params.inSize →
      (len < 4 → creadFails s .hdrShort)
      ∧ (4 ≤ len → 256 < n → creadFails s .hdrEntryCount)
      ∧ (4 ≤ len → n ≤ 256 →
        (∀ k, k < n → goodEntries view len k →
          (len < 13 + 9 * k → creadFails s .hdrShort)
          ∧ (13 + 9 * k ≤ len →
            (leNat view (5 + 9 * k) 8 = 0 ∨ 2 ^ 63 ≤ leNat view (5 + 9 * k) 8 → creadFails s .hdrBadCount)
            ∧ (0 < leNat view (5 + 9 * k) 8 → leNat view (5 + 9 * k) 8 < 2 ^ 63 →
                (∃ i, i < k ∧ (view (4 + 9 * k)).toNat ≤ (view (4 + 9 * i)).toNat) →
              creadFails s .hdrSymbolOrder)))
        ∧ (goodEntries view len n →
          (len < 12 + 9 * n → creadFails s .hdrShort)
          ∧ (12 + 9 * n ≤ len → 2 ^ 63 ≤ leNat view (4 + 9 * n) 8 → creadFails s .hdrNegOrigLen)
          ∧ (12 + 9 * n ≤ len → leNat view (4 + 9 * n) 8 < 2 ^ 63 →
            (len < 16 + 9 * n → creadFails s .hdrShort)
            ∧ (16 + 9 * n ≤ len → 2 ^ 31 ≤ leNat view (12 + 9 * n) 4 → creadFails s .hdrPayloadLen)
            ∧ (16 + 9 * n ≤ len → leNat view (12 + 9 * n) 4 < 2 ^ 31 →
                len < 16 + 9 * n + leNat view (12 + 9 * n) 4 →
              creadFails s .hdrShort)))))

/-! ## Engine -/

/-- 45_engine.md R270, R271, R272: a COMPRESS whose container fits writes the header and then the codes of IN[0], IN[1],
..., most significant bit first, zero-padded, and nothing behind them. -/
def Obligations.CompressWritesTheContainer : Prop :=
  ∀ s : State, NoRaces s → s.inLen.toNat ≤ s.params.inSize → s.params.inSize < 2 ^ 63 →
    s.outCap.toNat ≤ s.params.outSize → compressPayload s < 2 ^ 31 → containerLen s ≤ s.outCap.toNat →
    ∃ t ps bits, exec .compress s = .next t ∧ Success ps s t
      ∧ bits = (List.range s.inLen.toNat).flatMap (fun i => (symGet t.codes (s.inMem.read i)).toBits)
      ∧ bits.length = payloadBits t.freq t.codes
      ∧ t.freq = compressFreq s ∧ t.codes = codesOf t.freq s.ctrl.ssm ∧ t.pool = (mergedForest t.freq).pool
      ∧ t.treeInfo = treeInfoOf (mergedForest t.freq)
      ∧ t.origLen = s.inLen ∧ t.payloadLen.toNat = ceil8 bits.length
      ∧ t.outLen.toNat = 16 + 9 * entryCount t.freq + ceil8 bits.length ∧ t.bw.pos = t.outLen ∧ t.bw.acc = 0
      ∧ t.bw.cnt = 0 ∧ holdsHeader t.outMem.read t.freq t.origLen.toNat t.payloadLen.toNat
      ∧ (∀ k, k < 8 * ceil8 bits.length →
          (t.outMem.read (16 + 9 * entryCount t.freq + k / 8)).getLsbD (7 - k % 8) = bits.getD k false)
      ∧ SameOutBut (fun a => a < t.outLen.toNat) s t ∧ SameReader s t ∧ SameHost s t ∧ SameIn s t

/-- 45_engine.md R276, 40_frequency.md: a successful COMPRESS emits, in order, exactly the distinct values of
(100 * i) div N for i = 0 .. N, and leaves PROGRESS at 100 with PROG_PEND = 1; for N = 0 it emits none.
Where events have set PROG_PEND already, in turns before CORE's move (log 19), those do not set it again. -/
def Obligations.CompressEmitsEachPercentageOnce : Prop :=
  ∀ (s t : State) (ps : List Nat), exec .compress s = .next t → Success ps s t →
    isProgressList s.inLen.toNat ps
      ∧ (0 < s.inLen.toNat →
          ps.head? = some 0 ∧ ps.getLast? = some 100 ∧ t.progress = { pct := 100, pvalid := true }
            ∧ (t.status.progPend = true ↔ s.status.progPend = true ∨ s.eventsSeen < ps.length)
            ∧ (s.eventsSeen = 0 → t.status.progPend = true))
      ∧ (s.inLen.toNat = 0 → ps = [] ∧ t.progress = { pct := 0, pvalid := false }
          ∧ t.status.progPend = s.status.progPend)
      ∧ ps.length ≤ 101

/-- 45_engine.md R270: the failures of COMPRESS, in the order checked, and what the steps before each left. -/
def Obligations.CompressFailuresInOrder : Prop :=
  ∀ s : State,
    (s.params.inSize < s.inLen.toNat ∨ s.params.outSize < s.outCap.toNat →
      ∃ t, exec .compress s = .next t ∧ Failure .badArg [] s t ∧ t.outLen = 0
        ∧ t.progress = { pct := 0, pvalid := false } ∧ t.status.progPend = s.status.progPend ∧ SameFreq s t
        ∧ SameTree s t ∧ SameCodes s t ∧ SameWriter s t ∧ SameReader s t ∧ t.origLen = s.origLen
        ∧ t.payloadLen = s.payloadLen ∧ SameHost s t ∧ SameIn s t)
    ∧ (s.inRaces = [] → s.inLen.toNat ≤ s.params.inSize → s.outCap.toNat ≤ s.params.outSize →
        2 ^ 31 ≤ compressPayload s ∨ s.outCap.toNat < containerLen s →
      ∃ t c, exec .compress s = .next t ∧ Failure c [] s t ∧ t.outLen = 0
        ∧ (2 ^ 31 ≤ compressPayload s → c = .payloadTooLarge ∧ t.payloadLen = s.payloadLen)
        ∧ (compressPayload s < 2 ^ 31 → c = .outCapacity ∧ t.payloadLen.toNat = compressPayload s)
        ∧ t.freq = compressFreq s ∧ t.pool = (mergedForest t.freq).pool ∧ t.treeInfo = treeInfoOf (mergedForest t.freq)
        ∧ t.codes = codesOf t.freq s.ctrl.ssm ∧ t.origLen = s.inLen ∧ t.progress = { pct := 0, pvalid := false }
        ∧ t.status.progPend = s.status.progPend ∧ SameWriter s t ∧ SameReader s t ∧ SameHost s t ∧ SameIn s t)

/-- 45_engine.md R280: COMPRESS is a function of the IN bytes, IN_LEN, OUT_CAP and CTRL.SSM: the same container, the same
events and the same outcome, whatever the states before. -/
def Obligations.CompressIsDeterministic : Prop :=
  ∀ s s' t t' : State, NoRaces s → NoRaces s' → s.params = s'.params → s.inLen = s'.inLen → s.outCap = s'.outCap →
    s.ctrl.ssm = s'.ctrl.ssm → (∀ a, a < s.inLen.toNat → s.inMem.read a = s'.inMem.read a) →
    exec .compress s = .next t → exec .compress s' = .next t' →
    t.outLen = t'.outLen ∧ (∀ a, a < t.outLen.toNat → t.outMem.read a = t'.outMem.read a)
      ∧ ∃ events, t.history = s.history ++ events ∧ t'.history = s'.history ++ events

/-- 45_engine.md R273, R274: for a readable container of two symbols or more and 0 < L ≤ OUT_CAP, DECOMPRESS walks the tree
of the stored table by the payload's bits: it writes the L symbols they spell, or fails TRUNCATED if they run out
first. -/
def Obligations.DecompressWalksTheTree : Prop :=
  ∀ (s : State) (h : Header) (f : Forest) (r : Option (List Byte)), s.inLen.toNat ≤ s.params.inSize →
    s.outCap.toNat ≤ s.params.outSize → readHeader (coreRead s firstPass) s.inLen.toNat = .ok h →
    f = mergedForest h.freq → 2 ≤ entryCount h.freq → 0 < h.origLen → h.origLen ≤ s.outCap.toNat →
    r = decodeSyms f.pool (treeInfoOf f).root.toNat (bitsOf (coreRead s firstPass) h.pos h.payloadLen)
        (treeInfoOf f).root.toNat h.origLen →
    ∃ t, exec .decompress s = .next t ∧ t.freq = h.freq ∧ t.pool = f.pool ∧ t.treeInfo = treeInfoOf f
      ∧ (∀ sym, symGet t.codes sym = Code.absent) ∧ t.origLen.toNat = h.origLen ∧ t.payloadLen.toNat = h.payloadLen
      ∧ SameWriter s t ∧ SameProgress s t ∧ SameHost s t ∧ SameIn s t
      ∧ (∀ out, r = some out →
          Success [] s t ∧ t.outLen.toNat = h.origLen
            ∧ (∀ k, k < h.origLen → k ∉ s.outTouched → some (t.outMem.read k) = out[k]?)
            ∧ SameOutBut (fun a => a < h.origLen) s t)
      ∧ (r = none → Failure .truncated [] s t ∧ t.outLen = 0 ∧ t.br.rem = 0 ∧ t.br.pos = t.br.endPos)

/-- 45_engine.md R273, R275: DECOMPRESS of illegal lengths and of a container CREAD cannot read, which fails as CREAD does;
and of a readable container whose table is empty or has one symbol, or whose original length is 0 or past OUT_CAP:
what it writes, the tables, lengths and bit reader it leaves, and what it leaves alone. -/
def Obligations.DecompressOfSmallTables : Prop :=
  ∀ s : State,
    (s.params.inSize < s.inLen.toNat ∨ s.params.outSize < s.outCap.toNat →
      ∃ t, exec .decompress s = .next t ∧ Failure .badArg [] s t ∧ t.outLen = 0 ∧ SameCodecButOutLen s t
        ∧ SameHost s t ∧ SameIn s t)
    ∧ (s.outCap.toNat ≤ s.params.outSize → ∀ c, creadFails s c →
      ∃ t, exec .decompress s = .next t ∧ Failure c [] s t ∧ t.outLen = 0 ∧ SameCodecButOutLen s t ∧ SameHost s t
        ∧ SameIn s t)
    ∧ ∀ h, s.inLen.toNat ≤ s.params.inSize → s.outCap.toNat ≤ s.params.outSize →
        readHeader (coreRead s firstPass) s.inLen.toNat = .ok h →
      (s.outCap.toNat < h.origLen →
        ∃ t, exec .decompress s = .next t ∧ Failure .outCapacity [] s t ∧ t.outLen = 0 ∧ Loaded h s t
          ∧ UnreadPayload h t)
      ∧ (h.origLen = 0 →
        ∃ t, exec .decompress s = .next t ∧ Success [] s t ∧ t.outLen = 0 ∧ Loaded h s t ∧ UnreadPayload h t
          ∧ SameOut s t)
      ∧ (0 < h.origLen → h.origLen ≤ s.outCap.toNat → entryCount h.freq = 0 →
        ∃ t, exec .decompress s = .next t ∧ Failure .noTree [] s t ∧ t.outLen = 0 ∧ Loaded h s t ∧ UnreadPayload h t)
      ∧ ∀ sym count, 0 < h.origLen → h.origLen ≤ s.outCap.toNat → entries h.freq = [(sym, count)] →
        (s.ctrl.ssm = false →
          ∃ t, exec .decompress s = .next t ∧ Success [] s t ∧ t.outLen.toNat = h.origLen ∧ Loaded h s t
            ∧ UnreadPayload h t ∧ (∀ k, k < h.origLen → k ∉ s.outTouched → t.outMem.read k = sym)
            ∧ SameOutBut (fun a => a < h.origLen) s t)
        ∧ (s.ctrl.ssm = true → h.origLen ≤ 8 * h.payloadLen →
            (∀ k, k < h.origLen → (bitsOf (coreRead s firstPass) h.pos h.payloadLen)[k]? = some false) →
          ∃ t, exec .decompress s = .next t ∧ Success [] s t ∧ t.outLen.toNat = h.origLen ∧ Loaded h s t
            ∧ t.br.pos.toNat = h.pos + ceil8 h.origLen ∧ t.br.rem.val = 8 * ceil8 h.origLen - h.origLen
            ∧ t.br.lastBit = false ∧ (∀ k, k < h.origLen → k ∉ s.outTouched → t.outMem.read k = sym)
            ∧ SameOutBut (fun a => a < h.origLen) s t)
        ∧ (s.ctrl.ssm = true → 8 * h.payloadLen < h.origLen →
            (∀ k, k < 8 * h.payloadLen → (bitsOf (coreRead s firstPass) h.pos h.payloadLen)[k]? = some false) →
          ∃ t, exec .decompress s = .next t ∧ Failure .truncated [] s t ∧ t.outLen = 0 ∧ Loaded h s t
            ∧ t.br.pos = t.br.endPos ∧ t.br.rem = 0)
        ∧ (s.ctrl.ssm = true →
            ∀ k, k < h.origLen → (bitsOf (coreRead s firstPass) h.pos h.payloadLen)[k]? = some true →
            (∀ j, j < k → (bitsOf (coreRead s firstPass) h.pos h.payloadLen)[j]? = some false) →
          ∃ t, exec .decompress s = .next t ∧ Failure .badCode [] s t ∧ t.outLen = 0 ∧ Loaded h s t
            ∧ t.br.pos.toNat = h.pos + k / 8 + 1 ∧ t.br.rem.val = 7 - k % 8 ∧ t.br.lastBit = true)

/-- 45_engine.md R279: whatever COMPRESS makes of an input, DECOMPRESS in the same mode gives the input back. s is a state
before a COMPRESS and t the one after it; u is any state whose IN holds t's container. -/
def Obligations.CompressThenDecompressRoundTrips : Prop :=
  ∀ s t u : State, ∀ ps : List Nat, NoRaces s → s.params.inSize < 2 ^ 63 → exec .compress s = .next t → Success ps s t →
    NoRaces u → u.ctrl.ssm = s.ctrl.ssm → u.inLen = t.outLen → u.inLen.toNat ≤ u.params.inSize →
    u.outCap.toNat ≤ u.params.outSize → s.inLen.toNat ≤ u.outCap.toNat →
    (∀ a, a < t.outLen.toNat → u.inMem.read a = t.outMem.read a) →
    ∃ w, exec .decompress u = .next w ∧ Success [] u w ∧ w.outLen = s.inLen ∧ w.freq = t.freq ∧ w.origLen = s.inLen
      ∧ w.payloadLen = t.payloadLen ∧ ∀ a, a < s.inLen.toNat → w.outMem.read a = s.inMem.read a

/-! ## Invariants and whole runs -/

/-- The buffers keep their canonical form and their bounds, whatever step is taken (20_memory.md R81, R82).
The form is the model's (log 3). -/
def Obligations.StepKeepsMemoryOk : Prop := ∀ s t : State, s.MemoryOk → step s = .next t → t.MemoryOk

/-- Every register keeps a value its rule admits, whatever step is taken (10_state.md R34, R35, R42, R44, R55).
That PROG_PEND is 0 while a command other than COMPRESS runs is of 46_control.md R300 and 45_engine.md R276. The clauses
on the model's own fields are its choices, not the rules': that no byte is noted as raced while BUSY = 0 (inRaces and
outTouched, log 5 and log 3), and that no event is counted as seen then, or while another command runs (eventsSeen, log
19). -/
def Obligations.StepKeepsRegistersOk : Prop := ∀ s t : State, s.RegistersOk → step s = .next t → t.RegistersOk

/-- The node pool is a strict tree or empty, whatever step is taken: HOST cannot write it, and only BUILD and CLEAR do
(10_state.md R48, R52, R54). -/
def Obligations.StepKeepsTreeOk : Prop := ∀ s t : State, s.TreeOk → step s = .next t → t.TreeOk

/-- The invariants hold right after reset.
The parameters are the model's choice (log 2). -/
def Obligations.ResetMeetsInvariants : Prop :=
  State.reset.MemoryOk ∧ State.reset.RegistersOk ∧ State.reset.TreeOk ∧ State.reset.params.wellFormed = true

/-- 93_implementation_defined.md section 1, 60_exceptions.md R341: no command ends a run: where HOST makes only accesses the
spec gives a meaning, no fault and no refusal ever comes. -/
def Obligations.AllowedHostNeverStops : Prop :=
  ∀ s : State, (∀ a, Turn.host a ∈ s.agenda → a.allowed s.params = true) → s.Safe
end

