-- ==== Sys2Proof/Laws/Memory.lean ====
section
/-! SUPPORT. The laws of buffers: read after write, what each operation leaves alone, and that each keeps the canonical form
and the bound. -/

namespace Sys2Proof.Machine

/-! ## Read after write -/

theorem cellAt_insertCell (a : Nat) (b : Byte) (l : List Host.Cell) (x : Nat) :
    cellAt (insertCell a b l) x = if x = a then some b else cellAt l x := by
  induction l with
  | nil => simp [insertCell, cellAt, eq_comm]
  | cons c r ih =>
    obtain ⟨y, d⟩ := c
    by_cases hlt : a < y
    · simp [insertCell, hlt, cellAt, eq_comm]
    · by_cases heq : a = y
      · subst heq
        by_cases hx : x = a
        · simp [insertCell, cellAt, hx]
        · simp [insertCell, cellAt, hx, Ne.symm hx]
      · by_cases hx : x = a
        · subst hx; simp [insertCell, hlt, heq, cellAt, ih, Ne.symm heq]
        · simp [insertCell, hlt, heq, cellAt, ih, hx]

@[simp] theorem Memory.write_unlisted (m : Memory) (a : Nat) (b : Byte) (x : Nat) :
    (m.write a b).unlisted x = m.unlisted x := rfl

/-- Reading after writing one byte. -/
theorem Memory.read_write (m : Memory) (a : Nat) (b : Byte) (x : Nat) :
    (m.write a b).read x = if x = a then b else m.read x := by
  unfold Memory.read
  rw [Memory.write_unlisted]
  simp only [Memory.write, cellAt_insertCell]
  split <;> simp

@[simp] theorem Memory.read_write_same (m : Memory) (a : Nat) (b : Byte) : (m.write a b).read a = b := by
  simp [Memory.read_write]

theorem Memory.read_write_other (m : Memory) {a x : Nat} (b : Byte) (h : x ≠ a) : (m.write a b).read x = m.read x := by
  simp [Memory.read_write, h]

/-- Reading after writing consecutive bytes. -/
theorem Memory.read_writeList (bs : List Byte) (m : Memory) (a x : Nat) :
    (m.writeList a bs).read x = if h : a ≤ x ∧ x - a < bs.length then bs[x - a]'h.2 else m.read x := by
  induction bs generalizing m a with
  | nil => simp [Memory.writeList]
  | cons b bs ih =>
    rw [Memory.writeList, ih, Memory.read_write]
    by_cases h1 : x = a
    · subst h1; simp
    · by_cases h2 : a + 1 ≤ x ∧ x - (a + 1) < bs.length
      · have h3 : a ≤ x ∧ x - a < (b :: bs).length := by simp only [List.length_cons]; omega
        have h4 : x - a = (x - (a + 1)) + 1 := by omega
        rw [dif_pos h2, dif_pos h3]
        simp only [h4, List.getElem_cons_succ]
      · have h3 : ¬ (a ≤ x ∧ x - a < (b :: bs).length) := by simp only [List.length_cons]; omega
        rw [dif_neg h2, dif_neg h3, if_neg h1]

theorem Memory.read_writeList_outside (bs : List Byte) (m : Memory) {a x : Nat} (h : x < a ∨ a + bs.length ≤ x) :
    (m.writeList a bs).read x = m.read x := by
  rw [Memory.read_writeList, dif_neg (by omega)]

/-! ## Bytes that take any value -/

theorem cellAt_filter_ge (l : List Host.Cell) (limit a : Nat) (h : limit ≤ a) :
    cellAt (l.filter fun c => decide (limit ≤ c.1)) a = cellAt l a := by
  induction l with
  | nil => rfl
  | cons c r ih =>
    obtain ⟨y, d⟩ := c
    by_cases hy : limit ≤ y
    · simp [hy, cellAt, ih]
    · have : y ≠ a := by omega
      simp [hy, cellAt, ih, this]

theorem drawAt_filter_lt (base : Nat) (l : List Fill) (limit a : Nat) (h : limit ≤ a) :
    drawAt base (l.filter fun f => decide (limit < f.limit)) a = drawAt base l a := by
  induction l with
  | nil => rfl
  | cons f r ih =>
    by_cases hf : limit < f.limit
    · simp [hf, drawAt, ih]
    · have : ¬ a < f.limit := by omega
      simp [hf, drawAt, ih, this]

/-- Scrambling below a limit leaves every byte at or above it. -/
theorem Memory.read_scramble (m : Memory) (limit d a : Nat) (h : limit ≤ a) :
    (m.scramble limit d).read a = m.read a := by
  unfold Memory.scramble
  split
  · rfl
  · have h2 : ¬ a < limit := by omega
    simp [Memory.read, Memory.unlisted, drawAt, cellAt_filter_ge _ _ _ h, drawAt_filter_lt _ _ _ _ h, h2]

/-- Scrambling some offsets leaves every other byte. -/
theorem Memory.read_scrambleAt (as : List Nat) (m : Memory) (d a : Nat) (h : a ∉ as) :
    (m.scrambleAt d as).read a = m.read a := by
  induction as generalizing m with
  | nil => rfl
  | cons x as ih =>
    rw [Memory.scrambleAt, ih _ (by simp_all), Memory.read_write_other _ _ (by simp_all)]

/-- A byte of a scrambled list holds the free value of the draw. -/
theorem Memory.read_scrambleAt_mem (as : List Nat) (m : Memory) (d a : Nat) (h : a ∈ as) :
    (m.scrambleAt d as).read a = Config.freeByte d a := by
  induction as generalizing m with
  | nil => simp at h
  | cons x as ih =>
    rw [Memory.scrambleAt]
    by_cases hm : a ∈ as
    · exact ih _ hm
    · obtain rfl : a = x := by simpa [hm] using h
      rw [Memory.read_scrambleAt _ _ _ _ hm, Memory.read_write_same]

/-! ## The canonical form -/

theorem cellsAbove_mono {lo lo' : Nat} (h : lo' ≤ lo) : ∀ l, cellsAbove lo l = true → cellsAbove lo' l = true
  | [], _ => rfl
  | (x, _) :: r, hl => by
    simp only [cellsAbove, Bool.and_eq_true, decide_eq_true_eq] at hl ⊢
    exact ⟨by omega, hl.2⟩

theorem cellsRise_of_above {lo : Nat} : ∀ l, cellsAbove lo l = true → cellsRise l = true
  | [], _ => rfl
  | (_, _) :: _, hl => by
    simp only [cellsAbove, Bool.and_eq_true] at hl
    exact hl.2

theorem cellsAbove_insertCell (a : Nat) (b : Byte) {lo : Nat} (hlo : lo < a) :
    ∀ l, cellsAbove lo l = true → cellsAbove lo (insertCell a b l) = true := by
  intro l
  induction l generalizing lo with
  | nil => intro _; simp [insertCell, cellsAbove, hlo]
  | cons c r ih =>
    obtain ⟨x, y⟩ := c
    intro hl
    simp only [cellsAbove, Bool.and_eq_true, decide_eq_true_eq] at hl
    simp only [insertCell]
    split
    · simp [cellsAbove, hl.2, *]
    · split
      · simp only [cellsAbove, Bool.and_eq_true, decide_eq_true_eq]
        exact ⟨hlo, by simp [*]⟩
      · simp only [cellsAbove, Bool.and_eq_true, decide_eq_true_eq]
        exact ⟨hl.1, ih (by omega) hl.2⟩

theorem cellsRise_insertCell (a : Nat) (b : Byte) (l : List Host.Cell) (h : cellsRise l = true) :
    cellsRise (insertCell a b l) = true := by
  cases l with
  | nil => simp [insertCell, cellsRise, cellsAbove]
  | cons c r =>
    obtain ⟨x, y⟩ := c
    simp only [cellsRise] at h
    simp only [insertCell]
    split
    · simp [cellsRise, cellsAbove, *]
    · split
      · subst_vars; simpa [cellsRise] using h
      · simp only [cellsRise]
        exact cellsAbove_insertCell a b (by omega) r h

theorem cellsAbove_filter (p : Host.Cell → Bool) (lo : Nat) (l : List Host.Cell) (h : cellsAbove lo l = true) :
    cellsAbove lo (l.filter p) = true := by
  induction l generalizing lo with
  | nil => rfl
  | cons c r ih =>
    obtain ⟨x, y⟩ := c
    simp only [cellsAbove, Bool.and_eq_true, decide_eq_true_eq] at h
    rw [List.filter_cons]
    split
    · simp [cellsAbove, h.1, ih x h.2]
    · exact cellsAbove_mono (by omega) _ (ih x h.2)

theorem cellsRise_filter (p : Host.Cell → Bool) (l : List Host.Cell) (h : cellsRise l = true) :
    cellsRise (l.filter p) = true := by
  cases l with
  | nil => rfl
  | cons c r =>
    obtain ⟨x, y⟩ := c
    simp only [cellsRise] at h
    rw [List.filter_cons]
    split
    · simpa [cellsRise] using cellsAbove_filter p x r h
    · exact cellsRise_of_above _ (cellsAbove_filter p x r h)

theorem fillsAbove_mono {lo lo' : Nat} (h : lo' ≤ lo) : ∀ l, fillsAbove lo l = true → fillsAbove lo' l = true
  | [], _ => rfl
  | f :: r, hl => by
    simp only [fillsAbove, Bool.and_eq_true, decide_eq_true_eq] at hl ⊢
    exact ⟨by omega, hl.2⟩

theorem fillsAbove_filter (limit lo : Nat) (l : List Fill) (h : fillsAbove lo l = true) :
    fillsAbove (max lo limit) (l.filter fun f => decide (limit < f.limit)) = true := by
  induction l generalizing lo with
  | nil => rfl
  | cons f r ih =>
    simp only [fillsAbove, Bool.and_eq_true, decide_eq_true_eq] at h
    rw [List.filter_cons]
    split
    · rename_i hf
      simp only [decide_eq_true_eq] at hf
      have := ih f.limit h.2
      rw [Nat.max_eq_left (by omega)] at this
      simp [fillsAbove, this, hf, h.1]
    · exact fillsAbove_mono (by omega) _ (ih f.limit h.2)

theorem Memory.wf_write (m : Memory) (a : Nat) (b : Byte) (h : m.wf = true) : (m.write a b).wf = true := by
  simp only [Memory.wf, Memory.write, Bool.and_eq_true] at h ⊢
  exact ⟨cellsRise_insertCell a b _ h.1, h.2⟩

theorem Memory.wf_writeList (bs : List Byte) (m : Memory) (a : Nat) (h : m.wf = true) : (m.writeList a bs).wf = true := by
  induction bs generalizing m a with
  | nil => exact h
  | cons b bs ih => exact ih _ _ (Memory.wf_write m a b h)

theorem Memory.wf_scramble (m : Memory) (limit d : Nat) (h : m.wf = true) : (m.scramble limit d).wf = true := by
  unfold Memory.scramble
  split
  · exact h
  · simp only [Memory.wf, Bool.and_eq_true] at h ⊢
    refine ⟨cellsRise_filter _ _ h.1, ?_⟩
    have := fillsAbove_filter limit 0 m.fills h.2
    rw [Nat.max_eq_right (by omega)] at this
    simp only [fillsAbove, this, Bool.and_true, decide_eq_true_eq]
    omega

theorem Memory.wf_scrambleAt (as : List Nat) (m : Memory) (d : Nat) (h : m.wf = true) : (m.scrambleAt d as).wf = true := by
  induction as generalizing m with
  | nil => exact h
  | cons a as ih => exact ih _ (Memory.wf_write m a _ h)

@[simp] theorem Memory.wf_unspecified (d : Nat) : (Memory.unspecified d).wf = true := rfl

/-! ## The bound -/

theorem all_insertCell (p : Host.Cell → Bool) (a : Nat) (b : Byte) (h : p (a, b) = true) :
    ∀ l : List Host.Cell, l.all p = true → (insertCell a b l).all p = true := by
  intro l
  induction l with
  | nil => intro _; simp [insertCell, h]
  | cons c r ih =>
    obtain ⟨x, y⟩ := c
    intro hl
    simp only [List.all_cons, Bool.and_eq_true] at hl
    simp only [insertCell]
    split
    · simp [h, hl.1, hl.2]
    · split
      · simp [h, hl.2]
      · simp [hl.1, ih hl.2]

theorem Memory.within_write (m : Memory) (size a : Nat) (b : Byte) (ha : a < size) (h : m.within size = true) :
    (m.write a b).within size = true := all_insertCell _ a b (by simpa using ha) _ h

theorem Memory.within_writeList (bs : List Byte) (m : Memory) (size a : Nat) (ha : a + bs.length ≤ size)
    (h : m.within size = true) : (m.writeList a bs).within size = true := by
  induction bs generalizing m a with
  | nil => exact h
  | cons b bs ih =>
    simp only [List.length_cons] at ha
    exact ih _ _ (by omega) (Memory.within_write m size a b (by omega) h)

theorem Memory.within_scramble (m : Memory) (size limit d : Nat) (h : m.within size = true) :
    (m.scramble limit d).within size = true := by
  unfold Memory.scramble
  split
  · exact h
  · simp only [Memory.within, List.all_eq_true, List.mem_filter] at h ⊢
    exact fun c hc => h c hc.1

theorem Memory.within_scrambleAt (as : List Nat) (m : Memory) (size d : Nat) (ha : ∀ a ∈ as, a < size)
    (h : m.within size = true) : (m.scrambleAt d as).within size = true := by
  induction as generalizing m with
  | nil => exact h
  | cons a as ih =>
    exact ih _ (fun x hx => ha x (by simp [hx])) (Memory.within_write m size a _ (ha a (by simp)) h)

@[simp] theorem Memory.within_unspecified (size d : Nat) : (Memory.unspecified d).within size = true := rfl

end Sys2Proof.Machine
end

