-- ==== Sys2Proof/Laws/Operands.lean ====
section
/-! SUPPORT. The laws of tables, codes and little-endian fields. -/

namespace Sys2Proof.Machine

/-! ## Tables indexed by symbol -/

theorem symGet_symSet {α : Type} (t : SymTable α) (s : Byte) (x : α) (y : Byte) :
    symGet (symSet t s x) y = if y = s then x else symGet t y := by
  unfold symGet symSet
  rw [Vector.getElem_set]
  by_cases h : y = s
  · simp [h]
  · have : ¬ s.toNat = y.toNat := fun e => h (BitVec.eq_of_toNat_eq e.symm)
    simp [h, this]

@[simp] theorem symGet_symSet_same {α : Type} (t : SymTable α) (s : Byte) (x : α) : symGet (symSet t s x) s = x := by
  simp [symGet_symSet]

theorem symGet_symSet_other {α : Type} (t : SymTable α) {s y : Byte} (x : α) (h : y ≠ s) :
    symGet (symSet t s x) y = symGet t y := by
  simp [symGet_symSet, h]

@[simp] theorem symGet_symFill {α : Type} (x : α) (s : Byte) : symGet (symFill x) s = x := by
  simp [symGet, symFill]

/-- Two tables are equal where every entry is. -/
theorem symTable_ext {α : Type} {t u : SymTable α} (h : ∀ s, symGet t s = symGet u s) : t = u := by
  apply Vector.ext
  intro i hi
  have := h (BitVec.ofNat 8 i)
  simpa [symGet, Nat.mod_eq_of_lt hi] using this

@[simp] theorem length_allSymbols : allSymbols.length = 256 := by simp [allSymbols]

theorem getElem_allSymbols {i : Nat} (h : i < allSymbols.length) : allSymbols[i] = BitVec.ofNat 8 i := by
  simp [allSymbols]

theorem mem_allSymbols (s : Byte) : s ∈ allSymbols := by
  simp only [allSymbols, List.mem_map, List.mem_range]
  exact ⟨s.toNat, s.isLt, by simp⟩

/-- The entries of a table are its symbols of non-zero count. -/
theorem mem_entries (freq : SymTable Word) (s : Byte) (c : Word) :
    (s, c) ∈ entries freq ↔ symGet freq s = c ∧ c ≠ 0 := by
  simp only [entries, List.mem_filter, decide_eq_true_eq]
  constructor
  · rintro ⟨hm, hc⟩
    refine ⟨?_, hc⟩
    obtain ⟨i, hi, he⟩ := List.mem_iff_getElem.mp hm
    rw [List.getElem_zip] at he
    simp only [List.length_zip, length_allSymbols, Vector.length_toList, Nat.min_self] at hi
    obtain ⟨hs, hv⟩ := Prod.mk.inj he
    rw [getElem_allSymbols] at hs
    subst hs
    simpa [symGet, Nat.mod_eq_of_lt hi] using hv
  · rintro ⟨hg, hc⟩
    refine ⟨?_, hc⟩
    rw [List.mem_iff_getElem]
    refine ⟨s.toNat, by simpa using s.isLt, ?_⟩
    rw [List.getElem_zip, getElem_allSymbols]
    simp [← hg, symGet]

theorem entryCount_le (freq : SymTable Word) : entryCount freq ≤ 256 := by
  unfold entryCount entries
  refine (List.length_filter_le _ _).trans ?_
  simp

/-! ## Little-endian fields -/

@[simp] theorem length_leBytes (k v : Nat) : (leBytes k v).length = k := by
  induction k generalizing v with
  | zero => rfl
  | succ k ih => simp [leBytes, ih]

theorem leNat_lt (view : Nat → Byte) (a k : Nat) : leNat view a k < 256 ^ k := by
  induction k generalizing a with
  | zero => simp [leNat]
  | succ k ih =>
    have h1 := ih (a + 1)
    have h2 := (view a).isLt
    simp only [leNat, Nat.pow_succ]
    omega

/-- A view that holds a value's bytes reads as the value. -/
theorem leNat_eq_of_bytes (view : Nat → Byte) (a k v : Nat)
    (h : ∀ i, (hi : i < k) → view (a + i) = (leBytes k v)[i]'(by simpa using hi)) : leNat view a k = v % 256 ^ k := by
  induction k generalizing a v with
  | zero => simp [leNat, Nat.mod_one]
  | succ k ih =>
    have h0 : view a = BitVec.ofNat 8 v := by simpa [leBytes] using h 0 (by omega)
    have hr := ih (a + 1) (v / 256) fun i hi => by
      have := h (i + 1) (by omega)
      rw [show a + 1 + i = a + (i + 1) by omega, this]
      simp [leBytes]
    rw [leNat, h0, hr, Nat.pow_succ, Nat.mul_comm (256 ^ k) 256, Nat.mod_mul]
    simp

/-- Byte k of a value, bits [8k+7:8k]. -/
theorem getElem?_leBytes (n v k : Nat) (h : k < n) : (leBytes n v)[k]? = some (BitVec.ofNat 8 (v / 256 ^ k)) := by
  induction n generalizing v k with
  | zero => omega
  | succ n ih =>
    match k with
    | 0 => simp [leBytes]
    | k + 1 =>
      rw [leBytes, List.getElem?_cons_succ, ih (v / 256) k (by omega), Nat.div_div_eq_div_mul, Nat.pow_succ,
        Nat.mul_comm 256]

/-- The bytes of a view, one after another, have the value of its little-endian field. -/
theorem leValue_map_view (view : Nat → Byte) (a k : Nat) :
    leValue ((List.range k).map fun i => view (a + i)) = leNat view a k := by
  induction k generalizing a with
  | zero => rfl
  | succ k ih =>
    rw [List.range_succ_eq_map, List.map_cons, List.map_map, leValue, leNat, ← ih (a + 1)]
    congr 4
    funext i
    simp only [Function.comp_apply]
    congr 1
    omega

/-! ## Codes -/

@[simp] theorem length_toBits (c : Code) : c.toBits.length = c.len.toNat := by simp [Code.toBits]

/-- The code of a bit string of at most 255 bits is that bit string. -/
theorem toBits_ofBits (c : List Bool) (h : c.length ≤ 255) : (Code.ofBits c).toBits = c := by
  apply List.ext_getElem
  · simp [Code.ofBits]; omega
  · intro i h1 h2
    have : i < 256 := by omega
    have hb := BitVec.getLsbD_ofBoolListLE (bs := c) (i := i)
    rw [BitVec.getLsbD_eq_getElem h2] at hb
    simp [Code.toBits, Code.ofBits, this, h2, hb]

/-! ## CORE's view of IN -/

/-- Where HOST wrote no byte of it, CORE reads the byte IN holds. -/
theorem coreRead_of_no_race (s : State) (pass a : Nat) (h : olderValues s.inRaces a = []) :
    coreRead s pass a = s.inMem.read a := by
  simp [coreRead, h]

theorem coreRead_no_races (s : State) (pass : Nat) (h : s.inRaces = []) : coreRead s pass = s.inMem.read := by
  funext a
  exact coreRead_of_no_race s pass a (by simp [olderValues, h])

end Sys2Proof.Machine
end

