-- ==== Sys2Proof/Laws/State.lean ====
section
/-! SUPPORT. What each named update does to each field of the state, so that no later proof unfolds a record update. -/

namespace Sys2Proof.Machine

section
variable (s : State)

/-! ### accept -/

@[simp] theorem accept_params (v : Word) : (accept v s).params = s.params := rfl
@[simp] theorem accept_ctrl (v : Word) : (accept v s).ctrl = s.ctrl := rfl
@[simp] theorem accept_status (v : Word) :
    (accept v s).status = { s.status with done := false, err := false, progPend := false } := rfl
@[simp] theorem accept_err (v : Word) : (accept v s).err = none := rfl
@[simp] theorem accept_inLen (v : Word) : (accept v s).inLen = s.inLen := rfl
@[simp] theorem accept_outCap (v : Word) : (accept v s).outCap = s.outCap := rfl
@[simp] theorem accept_outLen (v : Word) : (accept v s).outLen = s.outLen := rfl
@[simp] theorem accept_origLen (v : Word) : (accept v s).origLen = s.origLen := rfl
@[simp] theorem accept_payloadLen (v : Word) : (accept v s).payloadLen = s.payloadLen := rfl
@[simp] theorem accept_progress (v : Word) : (accept v s).progress = s.progress := rfl
@[simp] theorem accept_bw (v : Word) : (accept v s).bw = s.bw := rfl
@[simp] theorem accept_br (v : Word) : (accept v s).br = s.br := rfl
@[simp] theorem accept_treeInfo (v : Word) : (accept v s).treeInfo = s.treeInfo := rfl
@[simp] theorem accept_freq (v : Word) : (accept v s).freq = s.freq := rfl
@[simp] theorem accept_pool (v : Word) : (accept v s).pool = s.pool := rfl
@[simp] theorem accept_codes (v : Word) : (accept v s).codes = s.codes := rfl
@[simp] theorem accept_inMem (v : Word) : (accept v s).inMem = s.inMem := rfl
@[simp] theorem accept_outMem (v : Word) : (accept v s).outMem = s.outMem := rfl
@[simp] theorem accept_history (v : Word) : (accept v s).history = s.history ++ [.accept v] := rfl
@[simp] theorem accept_pending (v : Word) : (accept v s).pending = some v := rfl
@[simp] theorem accept_inRaces (v : Word) : (accept v s).inRaces = s.inRaces := rfl
@[simp] theorem accept_outTouched (v : Word) : (accept v s).outTouched = s.outTouched := rfl
@[simp] theorem accept_eventsSeen (v : Word) : (accept v s).eventsSeen = 0 := rfl
@[simp] theorem accept_draws (v : Word) : (accept v s).draws = s.draws := rfl
@[simp] theorem accept_agenda (v : Word) : (accept v s).agenda = s.agenda := rfl
@[simp] theorem accept_access (v : Word) : (accept v s).access = s.access := rfl
@[simp] theorem accept_reads (v : Word) : (accept v s).reads = s.reads := rfl

/-! ### settleRaces -/

@[simp] theorem settleRaces_params : (settleRaces s).params = s.params := rfl
@[simp] theorem settleRaces_ctrl : (settleRaces s).ctrl = s.ctrl := rfl
@[simp] theorem settleRaces_status : (settleRaces s).status = s.status := rfl
@[simp] theorem settleRaces_err : (settleRaces s).err = s.err := rfl
@[simp] theorem settleRaces_inLen : (settleRaces s).inLen = s.inLen := rfl
@[simp] theorem settleRaces_outCap : (settleRaces s).outCap = s.outCap := rfl
@[simp] theorem settleRaces_outLen : (settleRaces s).outLen = s.outLen := rfl
@[simp] theorem settleRaces_origLen : (settleRaces s).origLen = s.origLen := rfl
@[simp] theorem settleRaces_payloadLen : (settleRaces s).payloadLen = s.payloadLen := rfl
@[simp] theorem settleRaces_progress : (settleRaces s).progress = s.progress := rfl
@[simp] theorem settleRaces_bw : (settleRaces s).bw = s.bw := rfl
@[simp] theorem settleRaces_br : (settleRaces s).br = s.br := rfl
@[simp] theorem settleRaces_treeInfo : (settleRaces s).treeInfo = s.treeInfo := rfl
@[simp] theorem settleRaces_freq : (settleRaces s).freq = s.freq := rfl
@[simp] theorem settleRaces_pool : (settleRaces s).pool = s.pool := rfl
@[simp] theorem settleRaces_codes : (settleRaces s).codes = s.codes := rfl
@[simp] theorem settleRaces_inMem : (settleRaces s).inMem = s.inMem := rfl
@[simp] theorem settleRaces_outMem : (settleRaces s).outMem = s.outMem.scrambleAt s.draws s.outTouched := rfl
@[simp] theorem settleRaces_history : (settleRaces s).history = s.history := rfl
@[simp] theorem settleRaces_pending : (settleRaces s).pending = s.pending := rfl
@[simp] theorem settleRaces_inRaces : (settleRaces s).inRaces = [] := rfl
@[simp] theorem settleRaces_outTouched : (settleRaces s).outTouched = [] := rfl
@[simp] theorem settleRaces_eventsSeen : (settleRaces s).eventsSeen = 0 := rfl
@[simp] theorem settleRaces_draws : (settleRaces s).draws = s.draws + 1 := rfl
@[simp] theorem settleRaces_agenda : (settleRaces s).agenda = s.agenda := rfl
@[simp] theorem settleRaces_access : (settleRaces s).access = s.access := rfl
@[simp] theorem settleRaces_reads : (settleRaces s).reads = s.reads := rfl

/-! ### completeOk -/

@[simp] theorem completeOk_params : (completeOk s).params = s.params := rfl
@[simp] theorem completeOk_ctrl : (completeOk s).ctrl = s.ctrl := rfl
@[simp] theorem completeOk_status : (completeOk s).status = { s.status with done := true } := rfl
@[simp] theorem completeOk_err : (completeOk s).err = s.err := rfl
@[simp] theorem completeOk_inLen : (completeOk s).inLen = s.inLen := rfl
@[simp] theorem completeOk_outCap : (completeOk s).outCap = s.outCap := rfl
@[simp] theorem completeOk_outLen : (completeOk s).outLen = s.outLen := rfl
@[simp] theorem completeOk_origLen : (completeOk s).origLen = s.origLen := rfl
@[simp] theorem completeOk_payloadLen : (completeOk s).payloadLen = s.payloadLen := rfl
@[simp] theorem completeOk_progress : (completeOk s).progress = s.progress := rfl
@[simp] theorem completeOk_bw : (completeOk s).bw = s.bw := rfl
@[simp] theorem completeOk_br : (completeOk s).br = s.br := rfl
@[simp] theorem completeOk_treeInfo : (completeOk s).treeInfo = s.treeInfo := rfl
@[simp] theorem completeOk_freq : (completeOk s).freq = s.freq := rfl
@[simp] theorem completeOk_pool : (completeOk s).pool = s.pool := rfl
@[simp] theorem completeOk_codes : (completeOk s).codes = s.codes := rfl
@[simp] theorem completeOk_inMem : (completeOk s).inMem = s.inMem := rfl
@[simp] theorem completeOk_outMem : (completeOk s).outMem = s.outMem.scrambleAt s.draws s.outTouched := rfl
@[simp] theorem completeOk_history : (completeOk s).history = s.history ++ [.complete none] := rfl
@[simp] theorem completeOk_pending : (completeOk s).pending = none := rfl
@[simp] theorem completeOk_inRaces : (completeOk s).inRaces = [] := rfl
@[simp] theorem completeOk_outTouched : (completeOk s).outTouched = [] := rfl
@[simp] theorem completeOk_eventsSeen : (completeOk s).eventsSeen = 0 := rfl
@[simp] theorem completeOk_draws : (completeOk s).draws = s.draws + 1 := rfl
@[simp] theorem completeOk_agenda : (completeOk s).agenda = s.agenda := rfl
@[simp] theorem completeOk_access : (completeOk s).access = s.access := rfl
@[simp] theorem completeOk_reads : (completeOk s).reads = s.reads := rfl

/-! ### completeFailed -/

@[simp] theorem completeFailed_params (c : Cause) : (completeFailed c s).params = s.params := rfl
@[simp] theorem completeFailed_ctrl (c : Cause) : (completeFailed c s).ctrl = s.ctrl := rfl
@[simp] theorem completeFailed_status (c : Cause) :
    (completeFailed c s).status = { s.status with done := true, err := true } := rfl
@[simp] theorem completeFailed_err (c : Cause) : (completeFailed c s).err = some c := rfl
@[simp] theorem completeFailed_inLen (c : Cause) : (completeFailed c s).inLen = s.inLen := rfl
@[simp] theorem completeFailed_outCap (c : Cause) : (completeFailed c s).outCap = s.outCap := rfl
@[simp] theorem completeFailed_outLen (c : Cause) : (completeFailed c s).outLen = s.outLen := rfl
@[simp] theorem completeFailed_origLen (c : Cause) : (completeFailed c s).origLen = s.origLen := rfl
@[simp] theorem completeFailed_payloadLen (c : Cause) : (completeFailed c s).payloadLen = s.payloadLen := rfl
@[simp] theorem completeFailed_progress (c : Cause) : (completeFailed c s).progress = s.progress := rfl
@[simp] theorem completeFailed_bw (c : Cause) : (completeFailed c s).bw = s.bw := rfl
@[simp] theorem completeFailed_br (c : Cause) : (completeFailed c s).br = s.br := rfl
@[simp] theorem completeFailed_treeInfo (c : Cause) : (completeFailed c s).treeInfo = s.treeInfo := rfl
@[simp] theorem completeFailed_freq (c : Cause) : (completeFailed c s).freq = s.freq := rfl
@[simp] theorem completeFailed_pool (c : Cause) : (completeFailed c s).pool = s.pool := rfl
@[simp] theorem completeFailed_codes (c : Cause) : (completeFailed c s).codes = s.codes := rfl
@[simp] theorem completeFailed_inMem (c : Cause) : (completeFailed c s).inMem = s.inMem := rfl
@[simp] theorem completeFailed_outMem (c : Cause) :
    (completeFailed c s).outMem = s.outMem.scrambleAt s.draws s.outTouched := rfl
@[simp] theorem completeFailed_history (c : Cause) :
    (completeFailed c s).history = s.history ++ [.complete (some c)] := rfl
@[simp] theorem completeFailed_pending (c : Cause) : (completeFailed c s).pending = none := rfl
@[simp] theorem completeFailed_inRaces (c : Cause) : (completeFailed c s).inRaces = [] := rfl
@[simp] theorem completeFailed_outTouched (c : Cause) : (completeFailed c s).outTouched = [] := rfl
@[simp] theorem completeFailed_eventsSeen (c : Cause) : (completeFailed c s).eventsSeen = 0 := rfl
@[simp] theorem completeFailed_draws (c : Cause) : (completeFailed c s).draws = s.draws + 1 := rfl
@[simp] theorem completeFailed_agenda (c : Cause) : (completeFailed c s).agenda = s.agenda := rfl
@[simp] theorem completeFailed_access (c : Cause) : (completeFailed c s).access = s.access := rfl
@[simp] theorem completeFailed_reads (c : Cause) : (completeFailed c s).reads = s.reads := rfl

/-! ### failCwrite -/

@[simp] theorem failCwrite_params : (failCwrite s).params = s.params := rfl
@[simp] theorem failCwrite_ctrl : (failCwrite s).ctrl = s.ctrl := rfl
@[simp] theorem failCwrite_status : (failCwrite s).status = s.status := rfl
@[simp] theorem failCwrite_err : (failCwrite s).err = s.err := rfl
@[simp] theorem failCwrite_inLen : (failCwrite s).inLen = s.inLen := rfl
@[simp] theorem failCwrite_outCap : (failCwrite s).outCap = s.outCap := rfl
@[simp] theorem failCwrite_outLen : (failCwrite s).outLen = 0 := rfl
@[simp] theorem failCwrite_origLen : (failCwrite s).origLen = s.origLen := rfl
@[simp] theorem failCwrite_payloadLen : (failCwrite s).payloadLen = s.payloadLen := rfl
@[simp] theorem failCwrite_progress : (failCwrite s).progress = s.progress := rfl
@[simp] theorem failCwrite_bw : (failCwrite s).bw = s.bw := rfl
@[simp] theorem failCwrite_br : (failCwrite s).br = s.br := rfl
@[simp] theorem failCwrite_treeInfo : (failCwrite s).treeInfo = s.treeInfo := rfl
@[simp] theorem failCwrite_freq : (failCwrite s).freq = s.freq := rfl
@[simp] theorem failCwrite_pool : (failCwrite s).pool = s.pool := rfl
@[simp] theorem failCwrite_codes : (failCwrite s).codes = s.codes := rfl
@[simp] theorem failCwrite_inMem : (failCwrite s).inMem = s.inMem := rfl
@[simp] theorem failCwrite_outMem : (failCwrite s).outMem = s.outMem := rfl
@[simp] theorem failCwrite_history : (failCwrite s).history = s.history := rfl
@[simp] theorem failCwrite_pending : (failCwrite s).pending = s.pending := rfl
@[simp] theorem failCwrite_inRaces : (failCwrite s).inRaces = s.inRaces := rfl
@[simp] theorem failCwrite_outTouched : (failCwrite s).outTouched = s.outTouched := rfl
@[simp] theorem failCwrite_eventsSeen : (failCwrite s).eventsSeen = s.eventsSeen := rfl
@[simp] theorem failCwrite_draws : (failCwrite s).draws = s.draws := rfl
@[simp] theorem failCwrite_agenda : (failCwrite s).agenda = s.agenda := rfl
@[simp] theorem failCwrite_access : (failCwrite s).access = s.access := rfl
@[simp] theorem failCwrite_reads : (failCwrite s).reads = s.reads := rfl

/-! ### failEngine -/

@[simp] theorem failEngine_params : (failEngine s).params = s.params := rfl
@[simp] theorem failEngine_ctrl : (failEngine s).ctrl = s.ctrl := rfl
@[simp] theorem failEngine_status : (failEngine s).status = s.status := rfl
@[simp] theorem failEngine_err : (failEngine s).err = s.err := rfl
@[simp] theorem failEngine_inLen : (failEngine s).inLen = s.inLen := rfl
@[simp] theorem failEngine_outCap : (failEngine s).outCap = s.outCap := rfl
@[simp] theorem failEngine_outLen : (failEngine s).outLen = 0 := rfl
@[simp] theorem failEngine_origLen : (failEngine s).origLen = s.origLen := rfl
@[simp] theorem failEngine_payloadLen : (failEngine s).payloadLen = s.payloadLen := rfl
@[simp] theorem failEngine_progress : (failEngine s).progress = s.progress := rfl
@[simp] theorem failEngine_bw : (failEngine s).bw = s.bw := rfl
@[simp] theorem failEngine_br : (failEngine s).br = s.br := rfl
@[simp] theorem failEngine_treeInfo : (failEngine s).treeInfo = s.treeInfo := rfl
@[simp] theorem failEngine_freq : (failEngine s).freq = s.freq := rfl
@[simp] theorem failEngine_pool : (failEngine s).pool = s.pool := rfl
@[simp] theorem failEngine_codes : (failEngine s).codes = s.codes := rfl
@[simp] theorem failEngine_inMem : (failEngine s).inMem = s.inMem := rfl
@[simp] theorem failEngine_outMem : (failEngine s).outMem = s.outMem.scramble s.outCap.toNat s.draws := rfl
@[simp] theorem failEngine_history : (failEngine s).history = s.history := rfl
@[simp] theorem failEngine_pending : (failEngine s).pending = s.pending := rfl
@[simp] theorem failEngine_inRaces : (failEngine s).inRaces = s.inRaces := rfl
@[simp] theorem failEngine_outTouched : (failEngine s).outTouched = s.outTouched := rfl
@[simp] theorem failEngine_eventsSeen : (failEngine s).eventsSeen = s.eventsSeen := rfl
@[simp] theorem failEngine_draws : (failEngine s).draws = s.draws := rfl
@[simp] theorem failEngine_agenda : (failEngine s).agenda = s.agenda := rfl
@[simp] theorem failEngine_access : (failEngine s).access = s.access := rfl
@[simp] theorem failEngine_reads : (failEngine s).reads = s.reads := rfl

/-! ### storeOut -/

@[simp] theorem storeOut_params (a : Nat) (b : Byte) : (storeOut a b s).params = s.params := rfl
@[simp] theorem storeOut_ctrl (a : Nat) (b : Byte) : (storeOut a b s).ctrl = s.ctrl := rfl
@[simp] theorem storeOut_status (a : Nat) (b : Byte) : (storeOut a b s).status = s.status := rfl
@[simp] theorem storeOut_err (a : Nat) (b : Byte) : (storeOut a b s).err = s.err := rfl
@[simp] theorem storeOut_inLen (a : Nat) (b : Byte) : (storeOut a b s).inLen = s.inLen := rfl
@[simp] theorem storeOut_outCap (a : Nat) (b : Byte) : (storeOut a b s).outCap = s.outCap := rfl
@[simp] theorem storeOut_outLen (a : Nat) (b : Byte) : (storeOut a b s).outLen = s.outLen := rfl
@[simp] theorem storeOut_origLen (a : Nat) (b : Byte) : (storeOut a b s).origLen = s.origLen := rfl
@[simp] theorem storeOut_payloadLen (a : Nat) (b : Byte) : (storeOut a b s).payloadLen = s.payloadLen := rfl
@[simp] theorem storeOut_progress (a : Nat) (b : Byte) : (storeOut a b s).progress = s.progress := rfl
@[simp] theorem storeOut_bw (a : Nat) (b : Byte) : (storeOut a b s).bw = s.bw := rfl
@[simp] theorem storeOut_br (a : Nat) (b : Byte) : (storeOut a b s).br = s.br := rfl
@[simp] theorem storeOut_treeInfo (a : Nat) (b : Byte) : (storeOut a b s).treeInfo = s.treeInfo := rfl
@[simp] theorem storeOut_freq (a : Nat) (b : Byte) : (storeOut a b s).freq = s.freq := rfl
@[simp] theorem storeOut_pool (a : Nat) (b : Byte) : (storeOut a b s).pool = s.pool := rfl
@[simp] theorem storeOut_codes (a : Nat) (b : Byte) : (storeOut a b s).codes = s.codes := rfl
@[simp] theorem storeOut_inMem (a : Nat) (b : Byte) : (storeOut a b s).inMem = s.inMem := rfl
@[simp] theorem storeOut_outMem (a : Nat) (b : Byte) : (storeOut a b s).outMem = s.outMem.write a b := rfl
@[simp] theorem storeOut_history (a : Nat) (b : Byte) : (storeOut a b s).history = s.history := rfl
@[simp] theorem storeOut_pending (a : Nat) (b : Byte) : (storeOut a b s).pending = s.pending := rfl
@[simp] theorem storeOut_inRaces (a : Nat) (b : Byte) : (storeOut a b s).inRaces = s.inRaces := rfl
@[simp] theorem storeOut_outTouched (a : Nat) (b : Byte) : (storeOut a b s).outTouched = s.outTouched := rfl
@[simp] theorem storeOut_eventsSeen (a : Nat) (b : Byte) : (storeOut a b s).eventsSeen = s.eventsSeen := rfl
@[simp] theorem storeOut_draws (a : Nat) (b : Byte) : (storeOut a b s).draws = s.draws := rfl
@[simp] theorem storeOut_agenda (a : Nat) (b : Byte) : (storeOut a b s).agenda = s.agenda := rfl
@[simp] theorem storeOut_access (a : Nat) (b : Byte) : (storeOut a b s).access = s.access := rfl
@[simp] theorem storeOut_reads (a : Nat) (b : Byte) : (storeOut a b s).reads = s.reads := rfl

/-! ### storeOutList -/

@[simp] theorem storeOutList_params (a : Nat) (bs : List Byte) : (storeOutList a bs s).params = s.params := rfl
@[simp] theorem storeOutList_ctrl (a : Nat) (bs : List Byte) : (storeOutList a bs s).ctrl = s.ctrl := rfl
@[simp] theorem storeOutList_status (a : Nat) (bs : List Byte) : (storeOutList a bs s).status = s.status := rfl
@[simp] theorem storeOutList_err (a : Nat) (bs : List Byte) : (storeOutList a bs s).err = s.err := rfl
@[simp] theorem storeOutList_inLen (a : Nat) (bs : List Byte) : (storeOutList a bs s).inLen = s.inLen := rfl
@[simp] theorem storeOutList_outCap (a : Nat) (bs : List Byte) : (storeOutList a bs s).outCap = s.outCap := rfl
@[simp] theorem storeOutList_outLen (a : Nat) (bs : List Byte) : (storeOutList a bs s).outLen = s.outLen := rfl
@[simp] theorem storeOutList_origLen (a : Nat) (bs : List Byte) : (storeOutList a bs s).origLen = s.origLen := rfl
@[simp] theorem storeOutList_payloadLen (a : Nat) (bs : List Byte) :
    (storeOutList a bs s).payloadLen = s.payloadLen := rfl
@[simp] theorem storeOutList_progress (a : Nat) (bs : List Byte) : (storeOutList a bs s).progress = s.progress := rfl
@[simp] theorem storeOutList_bw (a : Nat) (bs : List Byte) : (storeOutList a bs s).bw = s.bw := rfl
@[simp] theorem storeOutList_br (a : Nat) (bs : List Byte) : (storeOutList a bs s).br = s.br := rfl
@[simp] theorem storeOutList_treeInfo (a : Nat) (bs : List Byte) : (storeOutList a bs s).treeInfo = s.treeInfo := rfl
@[simp] theorem storeOutList_freq (a : Nat) (bs : List Byte) : (storeOutList a bs s).freq = s.freq := rfl
@[simp] theorem storeOutList_pool (a : Nat) (bs : List Byte) : (storeOutList a bs s).pool = s.pool := rfl
@[simp] theorem storeOutList_codes (a : Nat) (bs : List Byte) : (storeOutList a bs s).codes = s.codes := rfl
@[simp] theorem storeOutList_inMem (a : Nat) (bs : List Byte) : (storeOutList a bs s).inMem = s.inMem := rfl
@[simp] theorem storeOutList_outMem (a : Nat) (bs : List Byte) :
    (storeOutList a bs s).outMem = s.outMem.writeList a bs := rfl
@[simp] theorem storeOutList_history (a : Nat) (bs : List Byte) : (storeOutList a bs s).history = s.history := rfl
@[simp] theorem storeOutList_pending (a : Nat) (bs : List Byte) : (storeOutList a bs s).pending = s.pending := rfl
@[simp] theorem storeOutList_inRaces (a : Nat) (bs : List Byte) : (storeOutList a bs s).inRaces = s.inRaces := rfl
@[simp] theorem storeOutList_outTouched (a : Nat) (bs : List Byte) :
    (storeOutList a bs s).outTouched = s.outTouched := rfl
@[simp] theorem storeOutList_eventsSeen (a : Nat) (bs : List Byte) :
    (storeOutList a bs s).eventsSeen = s.eventsSeen := rfl
@[simp] theorem storeOutList_draws (a : Nat) (bs : List Byte) : (storeOutList a bs s).draws = s.draws := rfl
@[simp] theorem storeOutList_agenda (a : Nat) (bs : List Byte) : (storeOutList a bs s).agenda = s.agenda := rfl
@[simp] theorem storeOutList_access (a : Nat) (bs : List Byte) : (storeOutList a bs s).access = s.access := rfl
@[simp] theorem storeOutList_reads (a : Nat) (bs : List Byte) : (storeOutList a bs s).reads = s.reads := rfl

/-! ### emitProgress -/

@[simp] theorem emitProgress_params (p : Nat) : (emitProgress p s).params = s.params := rfl
@[simp] theorem emitProgress_ctrl (p : Nat) : (emitProgress p s).ctrl = s.ctrl := rfl
@[simp] theorem emitProgress_status (p : Nat) :
    (emitProgress p s).status = { s.status with progPend := s.status.progPend || decide (s.eventsSeen = 0) } := rfl
@[simp] theorem emitProgress_err (p : Nat) : (emitProgress p s).err = s.err := rfl
@[simp] theorem emitProgress_inLen (p : Nat) : (emitProgress p s).inLen = s.inLen := rfl
@[simp] theorem emitProgress_outCap (p : Nat) : (emitProgress p s).outCap = s.outCap := rfl
@[simp] theorem emitProgress_outLen (p : Nat) : (emitProgress p s).outLen = s.outLen := rfl
@[simp] theorem emitProgress_origLen (p : Nat) : (emitProgress p s).origLen = s.origLen := rfl
@[simp] theorem emitProgress_payloadLen (p : Nat) : (emitProgress p s).payloadLen = s.payloadLen := rfl
@[simp] theorem emitProgress_progress (p : Nat) :
    (emitProgress p s).progress = { pct := BitVec.ofNat 8 p, pvalid := true } := rfl
@[simp] theorem emitProgress_bw (p : Nat) : (emitProgress p s).bw = s.bw := rfl
@[simp] theorem emitProgress_br (p : Nat) : (emitProgress p s).br = s.br := rfl
@[simp] theorem emitProgress_treeInfo (p : Nat) : (emitProgress p s).treeInfo = s.treeInfo := rfl
@[simp] theorem emitProgress_freq (p : Nat) : (emitProgress p s).freq = s.freq := rfl
@[simp] theorem emitProgress_pool (p : Nat) : (emitProgress p s).pool = s.pool := rfl
@[simp] theorem emitProgress_codes (p : Nat) : (emitProgress p s).codes = s.codes := rfl
@[simp] theorem emitProgress_inMem (p : Nat) : (emitProgress p s).inMem = s.inMem := rfl
@[simp] theorem emitProgress_outMem (p : Nat) : (emitProgress p s).outMem = s.outMem := rfl
@[simp] theorem emitProgress_history (p : Nat) : (emitProgress p s).history = s.history ++ [.progress p] := rfl
@[simp] theorem emitProgress_pending (p : Nat) : (emitProgress p s).pending = s.pending := rfl
@[simp] theorem emitProgress_inRaces (p : Nat) : (emitProgress p s).inRaces = s.inRaces := rfl
@[simp] theorem emitProgress_outTouched (p : Nat) : (emitProgress p s).outTouched = s.outTouched := rfl
@[simp] theorem emitProgress_eventsSeen (p : Nat) : (emitProgress p s).eventsSeen = s.eventsSeen - 1 := rfl
@[simp] theorem emitProgress_draws (p : Nat) : (emitProgress p s).draws = s.draws := rfl
@[simp] theorem emitProgress_agenda (p : Nat) : (emitProgress p s).agenda = s.agenda := rfl
@[simp] theorem emitProgress_access (p : Nat) : (emitProgress p s).access = s.access := rfl
@[simp] theorem emitProgress_reads (p : Nat) : (emitProgress p s).reads = s.reads := rfl

/-! ### setOverrun -/

@[simp] theorem setOverrun_params : (setOverrun s).params = s.params := rfl
@[simp] theorem setOverrun_ctrl : (setOverrun s).ctrl = s.ctrl := rfl
@[simp] theorem setOverrun_status : (setOverrun s).status = { s.status with overrun := true } := rfl
@[simp] theorem setOverrun_err : (setOverrun s).err = s.err := rfl
@[simp] theorem setOverrun_inLen : (setOverrun s).inLen = s.inLen := rfl
@[simp] theorem setOverrun_outCap : (setOverrun s).outCap = s.outCap := rfl
@[simp] theorem setOverrun_outLen : (setOverrun s).outLen = s.outLen := rfl
@[simp] theorem setOverrun_origLen : (setOverrun s).origLen = s.origLen := rfl
@[simp] theorem setOverrun_payloadLen : (setOverrun s).payloadLen = s.payloadLen := rfl
@[simp] theorem setOverrun_progress : (setOverrun s).progress = s.progress := rfl
@[simp] theorem setOverrun_bw : (setOverrun s).bw = s.bw := rfl
@[simp] theorem setOverrun_br : (setOverrun s).br = s.br := rfl
@[simp] theorem setOverrun_treeInfo : (setOverrun s).treeInfo = s.treeInfo := rfl
@[simp] theorem setOverrun_freq : (setOverrun s).freq = s.freq := rfl
@[simp] theorem setOverrun_pool : (setOverrun s).pool = s.pool := rfl
@[simp] theorem setOverrun_codes : (setOverrun s).codes = s.codes := rfl
@[simp] theorem setOverrun_inMem : (setOverrun s).inMem = s.inMem := rfl
@[simp] theorem setOverrun_outMem : (setOverrun s).outMem = s.outMem := rfl
@[simp] theorem setOverrun_history : (setOverrun s).history = s.history := rfl
@[simp] theorem setOverrun_pending : (setOverrun s).pending = s.pending := rfl
@[simp] theorem setOverrun_inRaces : (setOverrun s).inRaces = s.inRaces := rfl
@[simp] theorem setOverrun_outTouched : (setOverrun s).outTouched = s.outTouched := rfl
@[simp] theorem setOverrun_eventsSeen : (setOverrun s).eventsSeen = s.eventsSeen := rfl
@[simp] theorem setOverrun_draws : (setOverrun s).draws = s.draws := rfl
@[simp] theorem setOverrun_agenda : (setOverrun s).agenda = s.agenda := rfl
@[simp] theorem setOverrun_access : (setOverrun s).access = s.access := rfl
@[simp] theorem setOverrun_reads : (setOverrun s).reads = s.reads := rfl

/-! ### w1cStatus -/

@[simp] theorem w1cStatus_params (v : Word) : (w1cStatus v s).params = s.params := rfl
@[simp] theorem w1cStatus_ctrl (v : Word) : (w1cStatus v s).ctrl = s.ctrl := rfl
@[simp] theorem w1cStatus_err (v : Word) : (w1cStatus v s).err = if v.getLsbD 2 then none else s.err := rfl
@[simp] theorem w1cStatus_inLen (v : Word) : (w1cStatus v s).inLen = s.inLen := rfl
@[simp] theorem w1cStatus_outCap (v : Word) : (w1cStatus v s).outCap = s.outCap := rfl
@[simp] theorem w1cStatus_outLen (v : Word) : (w1cStatus v s).outLen = s.outLen := rfl
@[simp] theorem w1cStatus_origLen (v : Word) : (w1cStatus v s).origLen = s.origLen := rfl
@[simp] theorem w1cStatus_payloadLen (v : Word) : (w1cStatus v s).payloadLen = s.payloadLen := rfl
@[simp] theorem w1cStatus_progress (v : Word) : (w1cStatus v s).progress = s.progress := rfl
@[simp] theorem w1cStatus_bw (v : Word) : (w1cStatus v s).bw = s.bw := rfl
@[simp] theorem w1cStatus_br (v : Word) : (w1cStatus v s).br = s.br := rfl
@[simp] theorem w1cStatus_treeInfo (v : Word) : (w1cStatus v s).treeInfo = s.treeInfo := rfl
@[simp] theorem w1cStatus_freq (v : Word) : (w1cStatus v s).freq = s.freq := rfl
@[simp] theorem w1cStatus_pool (v : Word) : (w1cStatus v s).pool = s.pool := rfl
@[simp] theorem w1cStatus_codes (v : Word) : (w1cStatus v s).codes = s.codes := rfl
@[simp] theorem w1cStatus_inMem (v : Word) : (w1cStatus v s).inMem = s.inMem := rfl
@[simp] theorem w1cStatus_outMem (v : Word) : (w1cStatus v s).outMem = s.outMem := rfl
@[simp] theorem w1cStatus_history (v : Word) : (w1cStatus v s).history = s.history := rfl
@[simp] theorem w1cStatus_pending (v : Word) : (w1cStatus v s).pending = s.pending := rfl
@[simp] theorem w1cStatus_inRaces (v : Word) : (w1cStatus v s).inRaces = s.inRaces := rfl
@[simp] theorem w1cStatus_outTouched (v : Word) : (w1cStatus v s).outTouched = s.outTouched := rfl
@[simp] theorem w1cStatus_eventsSeen (v : Word) : (w1cStatus v s).eventsSeen = s.eventsSeen := rfl
@[simp] theorem w1cStatus_draws (v : Word) : (w1cStatus v s).draws = s.draws := rfl
@[simp] theorem w1cStatus_agenda (v : Word) : (w1cStatus v s).agenda = s.agenda := rfl
@[simp] theorem w1cStatus_access (v : Word) : (w1cStatus v s).access = s.access := rfl
@[simp] theorem w1cStatus_reads (v : Word) : (w1cStatus v s).reads = s.reads := rfl

/-! ### buildBody -/

@[simp] theorem buildBody_params : (buildBody s).params = s.params := rfl
@[simp] theorem buildBody_ctrl : (buildBody s).ctrl = s.ctrl := rfl
@[simp] theorem buildBody_status : (buildBody s).status = s.status := rfl
@[simp] theorem buildBody_err : (buildBody s).err = s.err := rfl
@[simp] theorem buildBody_inLen : (buildBody s).inLen = s.inLen := rfl
@[simp] theorem buildBody_outCap : (buildBody s).outCap = s.outCap := rfl
@[simp] theorem buildBody_outLen : (buildBody s).outLen = s.outLen := rfl
@[simp] theorem buildBody_origLen : (buildBody s).origLen = s.origLen := rfl
@[simp] theorem buildBody_payloadLen : (buildBody s).payloadLen = s.payloadLen := rfl
@[simp] theorem buildBody_progress : (buildBody s).progress = s.progress := rfl
@[simp] theorem buildBody_bw : (buildBody s).bw = s.bw := rfl
@[simp] theorem buildBody_br : (buildBody s).br = s.br := rfl
@[simp] theorem buildBody_treeInfo : (buildBody s).treeInfo = treeInfoOf (mergedForest s.freq) := rfl
@[simp] theorem buildBody_freq : (buildBody s).freq = s.freq := rfl
@[simp] theorem buildBody_pool : (buildBody s).pool = (mergedForest s.freq).pool := rfl
@[simp] theorem buildBody_codes : (buildBody s).codes = symFill Code.absent := rfl
@[simp] theorem buildBody_inMem : (buildBody s).inMem = s.inMem := rfl
@[simp] theorem buildBody_outMem : (buildBody s).outMem = s.outMem := rfl
@[simp] theorem buildBody_history : (buildBody s).history = s.history := rfl
@[simp] theorem buildBody_pending : (buildBody s).pending = s.pending := rfl
@[simp] theorem buildBody_inRaces : (buildBody s).inRaces = s.inRaces := rfl
@[simp] theorem buildBody_outTouched : (buildBody s).outTouched = s.outTouched := rfl
@[simp] theorem buildBody_eventsSeen : (buildBody s).eventsSeen = s.eventsSeen := rfl
@[simp] theorem buildBody_draws : (buildBody s).draws = s.draws := rfl
@[simp] theorem buildBody_agenda : (buildBody s).agenda = s.agenda := rfl
@[simp] theorem buildBody_access : (buildBody s).access = s.access := rfl
@[simp] theorem buildBody_reads : (buildBody s).reads = s.reads := rfl

/-! ### gencodeBody -/

@[simp] theorem gencodeBody_params : (gencodeBody s).params = s.params := rfl
@[simp] theorem gencodeBody_ctrl : (gencodeBody s).ctrl = s.ctrl := rfl
@[simp] theorem gencodeBody_status : (gencodeBody s).status = s.status := rfl
@[simp] theorem gencodeBody_err : (gencodeBody s).err = s.err := rfl
@[simp] theorem gencodeBody_inLen : (gencodeBody s).inLen = s.inLen := rfl
@[simp] theorem gencodeBody_outCap : (gencodeBody s).outCap = s.outCap := rfl
@[simp] theorem gencodeBody_outLen : (gencodeBody s).outLen = s.outLen := rfl
@[simp] theorem gencodeBody_origLen : (gencodeBody s).origLen = s.origLen := rfl
@[simp] theorem gencodeBody_payloadLen : (gencodeBody s).payloadLen = s.payloadLen := rfl
@[simp] theorem gencodeBody_progress : (gencodeBody s).progress = s.progress := rfl
@[simp] theorem gencodeBody_bw : (gencodeBody s).bw = s.bw := rfl
@[simp] theorem gencodeBody_br : (gencodeBody s).br = s.br := rfl
@[simp] theorem gencodeBody_treeInfo : (gencodeBody s).treeInfo = s.treeInfo := rfl
@[simp] theorem gencodeBody_freq : (gencodeBody s).freq = s.freq := rfl
@[simp] theorem gencodeBody_pool : (gencodeBody s).pool = s.pool := rfl
@[simp] theorem gencodeBody_codes : (gencodeBody s).codes = genCodes s.pool s.treeInfo s.ctrl.ssm := rfl
@[simp] theorem gencodeBody_inMem : (gencodeBody s).inMem = s.inMem := rfl
@[simp] theorem gencodeBody_outMem : (gencodeBody s).outMem = s.outMem := rfl
@[simp] theorem gencodeBody_history : (gencodeBody s).history = s.history := rfl
@[simp] theorem gencodeBody_pending : (gencodeBody s).pending = s.pending := rfl
@[simp] theorem gencodeBody_inRaces : (gencodeBody s).inRaces = s.inRaces := rfl
@[simp] theorem gencodeBody_outTouched : (gencodeBody s).outTouched = s.outTouched := rfl
@[simp] theorem gencodeBody_eventsSeen : (gencodeBody s).eventsSeen = s.eventsSeen := rfl
@[simp] theorem gencodeBody_draws : (gencodeBody s).draws = s.draws := rfl
@[simp] theorem gencodeBody_agenda : (gencodeBody s).agenda = s.agenda := rfl
@[simp] theorem gencodeBody_access : (gencodeBody s).access = s.access := rfl
@[simp] theorem gencodeBody_reads : (gencodeBody s).reads = s.reads := rfl

/-! ### canrdBody -/

@[simp] theorem canrdBody_params : (canrdBody s).params = s.params := rfl
@[simp] theorem canrdBody_ctrl : (canrdBody s).ctrl = s.ctrl := rfl
@[simp] theorem canrdBody_status : (canrdBody s).status = s.status := rfl
@[simp] theorem canrdBody_err : (canrdBody s).err = s.err := rfl
@[simp] theorem canrdBody_inLen : (canrdBody s).inLen = s.inLen := rfl
@[simp] theorem canrdBody_outCap : (canrdBody s).outCap = s.outCap := rfl
@[simp] theorem canrdBody_outLen : (canrdBody s).outLen = s.outLen := rfl
@[simp] theorem canrdBody_origLen : (canrdBody s).origLen = s.origLen := rfl
@[simp] theorem canrdBody_payloadLen : (canrdBody s).payloadLen = s.payloadLen := rfl
@[simp] theorem canrdBody_progress : (canrdBody s).progress = s.progress := rfl
@[simp] theorem canrdBody_bw : (canrdBody s).bw = s.bw := rfl
@[simp] theorem canrdBody_br : (canrdBody s).br = { s.br with can := canRead s } := rfl
@[simp] theorem canrdBody_treeInfo : (canrdBody s).treeInfo = s.treeInfo := rfl
@[simp] theorem canrdBody_freq : (canrdBody s).freq = s.freq := rfl
@[simp] theorem canrdBody_pool : (canrdBody s).pool = s.pool := rfl
@[simp] theorem canrdBody_codes : (canrdBody s).codes = s.codes := rfl
@[simp] theorem canrdBody_inMem : (canrdBody s).inMem = s.inMem := rfl
@[simp] theorem canrdBody_outMem : (canrdBody s).outMem = s.outMem := rfl
@[simp] theorem canrdBody_history : (canrdBody s).history = s.history := rfl
@[simp] theorem canrdBody_pending : (canrdBody s).pending = s.pending := rfl
@[simp] theorem canrdBody_inRaces : (canrdBody s).inRaces = s.inRaces := rfl
@[simp] theorem canrdBody_outTouched : (canrdBody s).outTouched = s.outTouched := rfl
@[simp] theorem canrdBody_eventsSeen : (canrdBody s).eventsSeen = s.eventsSeen := rfl
@[simp] theorem canrdBody_draws : (canrdBody s).draws = s.draws := rfl
@[simp] theorem canrdBody_agenda : (canrdBody s).agenda = s.agenda := rfl
@[simp] theorem canrdBody_access : (canrdBody s).access = s.access := rfl
@[simp] theorem canrdBody_reads : (canrdBody s).reads = s.reads := rfl

/-! ### hostWriteIn -/

@[simp] theorem hostWriteIn_params (a : Nat) (b : Byte) : (hostWriteIn a b s).params = s.params := rfl
@[simp] theorem hostWriteIn_ctrl (a : Nat) (b : Byte) : (hostWriteIn a b s).ctrl = s.ctrl := rfl
@[simp] theorem hostWriteIn_status (a : Nat) (b : Byte) : (hostWriteIn a b s).status = s.status := rfl
@[simp] theorem hostWriteIn_err (a : Nat) (b : Byte) : (hostWriteIn a b s).err = s.err := rfl
@[simp] theorem hostWriteIn_inLen (a : Nat) (b : Byte) : (hostWriteIn a b s).inLen = s.inLen := rfl
@[simp] theorem hostWriteIn_outCap (a : Nat) (b : Byte) : (hostWriteIn a b s).outCap = s.outCap := rfl
@[simp] theorem hostWriteIn_outLen (a : Nat) (b : Byte) : (hostWriteIn a b s).outLen = s.outLen := rfl
@[simp] theorem hostWriteIn_origLen (a : Nat) (b : Byte) : (hostWriteIn a b s).origLen = s.origLen := rfl
@[simp] theorem hostWriteIn_payloadLen (a : Nat) (b : Byte) : (hostWriteIn a b s).payloadLen = s.payloadLen := rfl
@[simp] theorem hostWriteIn_progress (a : Nat) (b : Byte) : (hostWriteIn a b s).progress = s.progress := rfl
@[simp] theorem hostWriteIn_bw (a : Nat) (b : Byte) : (hostWriteIn a b s).bw = s.bw := rfl
@[simp] theorem hostWriteIn_br (a : Nat) (b : Byte) : (hostWriteIn a b s).br = s.br := rfl
@[simp] theorem hostWriteIn_treeInfo (a : Nat) (b : Byte) : (hostWriteIn a b s).treeInfo = s.treeInfo := rfl
@[simp] theorem hostWriteIn_freq (a : Nat) (b : Byte) : (hostWriteIn a b s).freq = s.freq := rfl
@[simp] theorem hostWriteIn_pool (a : Nat) (b : Byte) : (hostWriteIn a b s).pool = s.pool := rfl
@[simp] theorem hostWriteIn_codes (a : Nat) (b : Byte) : (hostWriteIn a b s).codes = s.codes := rfl
@[simp] theorem hostWriteIn_inMem (a : Nat) (b : Byte) : (hostWriteIn a b s).inMem = s.inMem.write a b := rfl
@[simp] theorem hostWriteIn_outMem (a : Nat) (b : Byte) : (hostWriteIn a b s).outMem = s.outMem := rfl
@[simp] theorem hostWriteIn_history (a : Nat) (b : Byte) : (hostWriteIn a b s).history = s.history := rfl
@[simp] theorem hostWriteIn_pending (a : Nat) (b : Byte) : (hostWriteIn a b s).pending = s.pending := rfl
@[simp] theorem hostWriteIn_inRaces (a : Nat) (b : Byte) :
    (hostWriteIn a b s).inRaces = if s.busy then (a, s.inMem.read a) :: s.inRaces else s.inRaces := rfl
@[simp] theorem hostWriteIn_outTouched (a : Nat) (b : Byte) : (hostWriteIn a b s).outTouched = s.outTouched := rfl
@[simp] theorem hostWriteIn_eventsSeen (a : Nat) (b : Byte) : (hostWriteIn a b s).eventsSeen = s.eventsSeen := rfl
@[simp] theorem hostWriteIn_draws (a : Nat) (b : Byte) : (hostWriteIn a b s).draws = s.draws := rfl
@[simp] theorem hostWriteIn_agenda (a : Nat) (b : Byte) : (hostWriteIn a b s).agenda = s.agenda := rfl
@[simp] theorem hostWriteIn_access (a : Nat) (b : Byte) : (hostWriteIn a b s).access = s.access := rfl
@[simp] theorem hostWriteIn_reads (a : Nat) (b : Byte) : (hostWriteIn a b s).reads = s.reads := rfl

/-! ### note -/

@[simp] theorem note_params (addr width value : Nat) : (note addr width value s).params = s.params := rfl
@[simp] theorem note_ctrl (addr width value : Nat) : (note addr width value s).ctrl = s.ctrl := rfl
@[simp] theorem note_status (addr width value : Nat) : (note addr width value s).status = s.status := rfl
@[simp] theorem note_err (addr width value : Nat) : (note addr width value s).err = s.err := rfl
@[simp] theorem note_inLen (addr width value : Nat) : (note addr width value s).inLen = s.inLen := rfl
@[simp] theorem note_outCap (addr width value : Nat) : (note addr width value s).outCap = s.outCap := rfl
@[simp] theorem note_outLen (addr width value : Nat) : (note addr width value s).outLen = s.outLen := rfl
@[simp] theorem note_origLen (addr width value : Nat) : (note addr width value s).origLen = s.origLen := rfl
@[simp] theorem note_payloadLen (addr width value : Nat) : (note addr width value s).payloadLen = s.payloadLen := rfl
@[simp] theorem note_progress (addr width value : Nat) : (note addr width value s).progress = s.progress := rfl
@[simp] theorem note_bw (addr width value : Nat) : (note addr width value s).bw = s.bw := rfl
@[simp] theorem note_br (addr width value : Nat) : (note addr width value s).br = s.br := rfl
@[simp] theorem note_treeInfo (addr width value : Nat) : (note addr width value s).treeInfo = s.treeInfo := rfl
@[simp] theorem note_freq (addr width value : Nat) : (note addr width value s).freq = s.freq := rfl
@[simp] theorem note_pool (addr width value : Nat) : (note addr width value s).pool = s.pool := rfl
@[simp] theorem note_codes (addr width value : Nat) : (note addr width value s).codes = s.codes := rfl
@[simp] theorem note_inMem (addr width value : Nat) : (note addr width value s).inMem = s.inMem := rfl
@[simp] theorem note_outMem (addr width value : Nat) : (note addr width value s).outMem = s.outMem := rfl
@[simp] theorem note_history (addr width value : Nat) : (note addr width value s).history = s.history := rfl
@[simp] theorem note_pending (addr width value : Nat) : (note addr width value s).pending = s.pending := rfl
@[simp] theorem note_inRaces (addr width value : Nat) : (note addr width value s).inRaces = s.inRaces := rfl
@[simp] theorem note_outTouched (addr width value : Nat) : (note addr width value s).outTouched = s.outTouched := rfl
@[simp] theorem note_eventsSeen (addr width value : Nat) : (note addr width value s).eventsSeen = s.eventsSeen := rfl
@[simp] theorem note_draws (addr width value : Nat) : (note addr width value s).draws = s.draws := rfl
@[simp] theorem note_agenda (addr width value : Nat) : (note addr width value s).agenda = s.agenda := rfl
@[simp] theorem note_access (addr width value : Nat) : (note addr width value s).access = s.access := rfl
@[simp] theorem note_reads (addr width value : Nat) :
    (note addr width value s).reads = s.reads ++ [⟨addr, width, value⟩] := rfl

/-! ### drawIfBusy -/

@[simp] theorem drawIfBusy_params : (drawIfBusy s).params = s.params := rfl
@[simp] theorem drawIfBusy_ctrl : (drawIfBusy s).ctrl = s.ctrl := rfl
@[simp] theorem drawIfBusy_status : (drawIfBusy s).status = s.status := rfl
@[simp] theorem drawIfBusy_err : (drawIfBusy s).err = s.err := rfl
@[simp] theorem drawIfBusy_inLen : (drawIfBusy s).inLen = s.inLen := rfl
@[simp] theorem drawIfBusy_outCap : (drawIfBusy s).outCap = s.outCap := rfl
@[simp] theorem drawIfBusy_outLen : (drawIfBusy s).outLen = s.outLen := rfl
@[simp] theorem drawIfBusy_origLen : (drawIfBusy s).origLen = s.origLen := rfl
@[simp] theorem drawIfBusy_payloadLen : (drawIfBusy s).payloadLen = s.payloadLen := rfl
@[simp] theorem drawIfBusy_progress : (drawIfBusy s).progress = s.progress := rfl
@[simp] theorem drawIfBusy_bw : (drawIfBusy s).bw = s.bw := rfl
@[simp] theorem drawIfBusy_br : (drawIfBusy s).br = s.br := rfl
@[simp] theorem drawIfBusy_treeInfo : (drawIfBusy s).treeInfo = s.treeInfo := rfl
@[simp] theorem drawIfBusy_freq : (drawIfBusy s).freq = s.freq := rfl
@[simp] theorem drawIfBusy_pool : (drawIfBusy s).pool = s.pool := rfl
@[simp] theorem drawIfBusy_codes : (drawIfBusy s).codes = s.codes := rfl
@[simp] theorem drawIfBusy_inMem : (drawIfBusy s).inMem = s.inMem := rfl
@[simp] theorem drawIfBusy_outMem : (drawIfBusy s).outMem = s.outMem := rfl
@[simp] theorem drawIfBusy_history : (drawIfBusy s).history = s.history := rfl
@[simp] theorem drawIfBusy_pending : (drawIfBusy s).pending = s.pending := rfl
@[simp] theorem drawIfBusy_inRaces : (drawIfBusy s).inRaces = s.inRaces := rfl
@[simp] theorem drawIfBusy_outTouched : (drawIfBusy s).outTouched = s.outTouched := rfl
@[simp] theorem drawIfBusy_eventsSeen : (drawIfBusy s).eventsSeen = s.eventsSeen := rfl
@[simp] theorem drawIfBusy_draws : (drawIfBusy s).draws = if s.busy then s.draws + 1 else s.draws := rfl
@[simp] theorem drawIfBusy_agenda : (drawIfBusy s).agenda = s.agenda := rfl
@[simp] theorem drawIfBusy_access : (drawIfBusy s).access = s.access := rfl
@[simp] theorem drawIfBusy_reads : (drawIfBusy s).reads = s.reads := rfl

end

end Sys2Proof.Machine
end

