-- ==== Sys2Proof/Laws/Ops.lean ====
section
/-! SUPPORT. What each shared operation can do, said once: bodies, completion, and what no body of a command changes. -/

namespace Sys2Proof.Machine

/-! ## Bodies in sequence -/

@[simp] theorem CmdResult.bind_done (s : State) (f : State → CmdResult) : (CmdResult.done s).bind f = f s := rfl

@[simp] theorem CmdResult.bind_failed (c : Cause) (s : State) (f : State → CmdResult) :
    (CmdResult.failed c s).bind f = .failed c s := rfl

/-- A sequence returns where both parts do. -/
theorem CmdResult.bind_eq_done {r : CmdResult} {f : State → CmdResult} {t : State} :
    r.bind f = .done t ↔ ∃ u, r = .done u ∧ f u = .done t := by
  cases r <;> simp

/-- A sequence raises where its first part does, or its second after it. -/
theorem CmdResult.bind_eq_failed {r : CmdResult} {f : State → CmdResult} {c : Cause} {t : State} :
    r.bind f = .failed c t ↔ r = .failed c t ∨ ∃ u, r = .done u ∧ f u = .failed c t := by
  cases r <;> simp

@[simp] theorem CmdResult.final_done (s : State) : (CmdResult.done s).final = s := rfl

@[simp] theorem CmdResult.final_failed (c : Cause) (s : State) : (CmdResult.failed c s).final = s := rfl

/-! ## Completion -/

@[simp] theorem complete_done (f : State → State) (s : State) : complete f (.done s) = completeOk s := rfl

@[simp] theorem complete_failed (f : State → State) (c : Cause) (s : State) :
    complete f (.failed c s) = completeFailed c (f s) := rfl

/-- The body of each command. -/
def bodyOf : Instr → State → CmdResult
  | .nop, s => .done s
  | .count, s => countBody s
  | .build, s => .done (buildBody s)
  | .gencode, s => .done (gencodeBody s)
  | .wrbit b, s => wrbitBody b s
  | .flush, s => flushBody s
  | .rdbit, s => rdbitBody s
  | .canrd, s => .done (canrdBody s)
  | .cwrite, s => cwriteBody s
  | .cread, s => creadBody s
  | .compress, s => compressBody s
  | .decompress, s => decompressBody s
  | .clear, s => .done (clearBody s)

/-- The failure rule of each command (60_exceptions.md R327, R328). -/
def failRuleOf : Instr → State → State
  | .cwrite => failCwrite
  | .compress | .decompress => failEngine
  | .nop | .count | .build | .gencode | .wrbit _ | .flush | .rdbit | .canrd | .cread | .clear => failComponent

/-- Every command completes with its body's result and its failure rule. -/
theorem exec_eq_complete (i : Instr) (s : State) : exec i s = .next (complete (failRuleOf i) (bodyOf i s)) := by
  cases i <;> rfl

/-- After completion a command is no longer running, DONE is 1 and nothing races. -/
theorem complete_settled (f : State → State) (r : CmdResult) :
    (complete f r).pending = none ∧ (complete f r).status.done = true ∧ (complete f r).inRaces = []
      ∧ (complete f r).outTouched = [] := by
  cases r <;> simp

/-! ## The bodies of the bit commands -/

/-- Everything WRBIT's body can do. -/
theorem wrbitBody_cases (b : Bool) (s : State) :
    (s.params.outSize < s.outCap.toNat ∧ wrbitBody b s = .failed .badArg s)
      ∨ (s.outCap.toNat ≤ s.params.outSize ∧ s.bw.cnt = 7 ∧ s.outCap.toNat ≤ s.bw.pos.toNat
          ∧ wrbitBody b s = .failed .outCapacity s)
      ∨ (s.outCap.toNat ≤ s.params.outSize ∧ s.bw.cnt = 7 ∧ s.bw.pos.toNat < s.outCap.toNat
          ∧ wrbitBody b s =
            .done
              { storeOut s.bw.pos.toNat (shiftIn s.bw.acc b) s with
                bw := { pos := s.bw.pos + 1, acc := 0, cnt := 0 } })
      ∨ (s.outCap.toNat ≤ s.params.outSize ∧ s.bw.cnt ≠ 7
          ∧ wrbitBody b s = .done { s with bw := { pos := s.bw.pos, acc := shiftIn s.bw.acc b, cnt := s.bw.cnt + 1 } }) := by
  unfold wrbitBody outCapBad
  by_cases h1 : s.outCap.toNat > s.params.outSize
  · exact .inl ⟨h1, by simp [h1]⟩
  · have h1' : s.outCap.toNat ≤ s.params.outSize := by omega
    by_cases h2 : s.bw.cnt = 7
    · by_cases h3 : s.bw.pos.toNat ≥ s.outCap.toNat
      · exact .inr (.inl ⟨h1', h2, h3, by simp [h1, h2, h3]⟩)
      · exact .inr (.inr (.inl ⟨h1', h2, by omega, by simp [h1, h2, h3]⟩))
    · exact .inr (.inr (.inr ⟨h1', h2, by simp [h1, h2]⟩))

/-- Everything FLUSH's body can do. -/
theorem flushBody_cases (s : State) :
    (s.params.outSize < s.outCap.toNat ∧ flushBody s = .failed .badArg s)
      ∨ (s.outCap.toNat ≤ s.params.outSize ∧ s.bw.cnt = 0 ∧ flushBody s = .done s)
      ∨ (s.outCap.toNat ≤ s.params.outSize ∧ s.bw.cnt ≠ 0 ∧ s.outCap.toNat ≤ s.bw.pos.toNat
          ∧ flushBody s = .failed .outCapacity s)
      ∨ (s.outCap.toNat ≤ s.params.outSize ∧ s.bw.cnt ≠ 0 ∧ s.bw.pos.toNat < s.outCap.toNat
          ∧ flushBody s =
            .done
              { storeOut s.bw.pos.toNat (padByte s.bw) s with bw := { pos := s.bw.pos + 1, acc := 0, cnt := 0 } }) := by
  unfold flushBody outCapBad
  by_cases h1 : s.outCap.toNat > s.params.outSize
  · exact .inl ⟨h1, by simp [h1]⟩
  · have h1' : s.outCap.toNat ≤ s.params.outSize := by omega
    by_cases h2 : s.bw.cnt = 0
    · exact .inr (.inl ⟨h1', h2, by simp [h1, h2]⟩)
    · by_cases h3 : s.bw.pos.toNat ≥ s.outCap.toNat
      · exact .inr (.inr (.inl ⟨h1', h2, h3, by simp [h1, h2, h3]⟩))
      · exact .inr (.inr (.inr ⟨h1', h2, by omega, by simp [h1, h2, h3]⟩))

/-- Everything RDBIT's body can do. -/
theorem rdbitBody_cases (s : State) :
    (s.br.rem = 0 ∧ s.br.endPos.toNat ≤ s.br.pos.toNat ∧ rdbitBody s = .failed .readEmpty s)
      ∨ (s.br.rem = 0 ∧ s.br.pos.toNat < s.br.endPos.toNat
          ∧ (s.params.inSize < s.inLen.toNat ∨ s.inLen.toNat ≤ s.br.pos.toNat) ∧ rdbitBody s = .failed .badArg s)
      ∨ (s.br.rem = 0 ∧ s.br.pos.toNat < s.br.endPos.toNat ∧ s.inLen.toNat ≤ s.params.inSize
          ∧ s.br.pos.toNat < s.inLen.toNat
          ∧ rdbitBody s =
            .done { s with br := takeBit s.br (s.br.pos + 1) (coreRead s firstPass s.br.pos.toNat) 7 })
      ∨ ∃ k : Fin 8, s.br.rem.val = k.val + 1
          ∧ rdbitBody s = .done { s with br := takeBit s.br s.br.pos s.br.cur k } := by
  unfold rdbitBody inLenBad
  split
  · rename_i h heq
    have h0 : s.br.rem = 0 := heq
    by_cases h1 : s.br.pos.toNat ≥ s.br.endPos.toNat
    · exact .inl ⟨h0, h1, by simp [h1]⟩
    · by_cases h2 : s.inLen.toNat > s.params.inSize ∨ s.br.pos.toNat ≥ s.inLen.toNat
      · exact .inr (.inl ⟨h0, by omega, h2, by simp [h1, h2]⟩)
      · exact .inr (.inr (.inl ⟨h0, by omega, by omega, by omega, by simp [h1, h2]⟩))
  · rename_i k h heq
    exact .inr (.inr (.inr ⟨⟨k, by omega⟩, by rw [heq], rfl⟩))

/-! ## What no body changes -/

/-- What a command's body leaves alone, whatever the command. -/
structure BodyFrame (s t : State) : Prop where
  params : t.params = s.params
  ctrl : t.ctrl = s.ctrl
  inLen : t.inLen = s.inLen
  outCap : t.outCap = s.outCap
  done : t.status.done = s.status.done
  errBit : t.status.err = s.status.err
  overrun : t.status.overrun = s.status.overrun
  err : t.err = s.err
  inMem : t.inMem = s.inMem
  pending : t.pending = s.pending
  inRaces : t.inRaces = s.inRaces
  outTouched : t.outTouched = s.outTouched
  draws : t.draws = s.draws
  agenda : t.agenda = s.agenda
  access : t.access = s.access
  reads : t.reads = s.reads
  /-- The history grows by progress events alone. -/
  history : ∃ ps : List Nat, t.history = s.history ++ ps.map Event.progress

theorem BodyFrame.refl (s : State) : BodyFrame s s := by constructor <;> first | rfl | exact ⟨[], by simp⟩

theorem BodyFrame.trans {s t u : State} (h : BodyFrame s t) (k : BodyFrame t u) : BodyFrame s u := by
  obtain ⟨ps, hp⟩ := h.history
  obtain ⟨qs, hq⟩ := k.history
  constructor
  case history => exact ⟨ps ++ qs, by simp [hq, hp]⟩
  all_goals simp [h.params, h.ctrl, h.inLen, h.outCap, h.done, h.errBit, h.overrun, h.err, h.inMem, h.pending,
    h.inRaces, h.outTouched, h.draws, h.agenda, h.access, h.reads, k.params, k.ctrl, k.inLen, k.outCap, k.done, k.errBit,
    k.overrun, k.err, k.inMem, k.pending, k.inRaces, k.outTouched, k.draws, k.agenda, k.access, k.reads]

theorem CmdResult.bind_frame {s : State} {r : CmdResult} {f : State → CmdResult} (h : BodyFrame s r.final)
    (k : ∀ t, r = .done t → BodyFrame t (f t).final) : BodyFrame s (r.bind f).final := by
  cases r with
  | done t => exact h.trans (k t rfl)
  | failed c t => exact h

/-- A record update of the codec state alone keeps the frame. -/
theorem BodyFrame.codec (s : State) (outLen origLen payloadLen : Word) (progress : Progress) (bw : BitWriter)
    (br : BitReader) (treeInfo : TreeInfo) (freq : SymTable Word) (pool : Pool) (codes : SymTable Code)
    (outMem : Memory) :
    BodyFrame s
      { s with
        outLen := outLen, origLen := origLen, payloadLen := payloadLen, progress := progress, bw := bw, br := br,
        treeInfo := treeInfo, freq := freq, pool := pool, codes := codes, outMem := outMem } := by
  constructor <;> first | rfl | exact ⟨[], by simp⟩

theorem emitProgress_frame (p : Nat) (s : State) : BodyFrame s (emitProgress p s) := by
  constructor <;> first | rfl | exact ⟨[p], rfl⟩

theorem countBody_frame (s : State) : BodyFrame s (countBody s).final := by
  unfold countBody
  split
  · exact .refl s
  · exact BodyFrame.codec s _ _ _ _ _ _ _ _ _ _ _

theorem wrbitBody_frame (b : Bool) (s : State) : BodyFrame s (wrbitBody b s).final := by
  obtain ⟨-, h⟩ | ⟨-, -, -, h⟩ | ⟨-, -, -, h⟩ | ⟨-, -, h⟩ := wrbitBody_cases b s <;> rw [h]
  · exact .refl s
  · exact .refl s
  · exact BodyFrame.codec s _ _ _ _ _ _ _ _ _ _ _
  · exact BodyFrame.codec s _ _ _ _ _ _ _ _ _ _ _

theorem flushBody_frame (s : State) : BodyFrame s (flushBody s).final := by
  obtain ⟨-, h⟩ | ⟨-, -, h⟩ | ⟨-, -, -, h⟩ | ⟨-, -, -, h⟩ := flushBody_cases s <;> rw [h]
  · exact .refl s
  · exact .refl s
  · exact .refl s
  · exact BodyFrame.codec s _ _ _ _ _ _ _ _ _ _ _

theorem rdbitBody_frame (s : State) : BodyFrame s (rdbitBody s).final := by
  obtain ⟨-, -, h⟩ | ⟨-, -, -, h⟩ | ⟨-, -, -, -, h⟩ | ⟨k, -, h⟩ := rdbitBody_cases s <;> rw [h]
  · exact .refl s
  · exact .refl s
  · exact BodyFrame.codec s _ _ _ _ _ _ _ _ _ _ _
  · exact BodyFrame.codec s _ _ _ _ _ _ _ _ _ _ _

theorem buildBody_frame (s : State) : BodyFrame s (buildBody s) := BodyFrame.codec s _ _ _ _ _ _ _ _ _ _ _

theorem gencodeBody_frame (s : State) : BodyFrame s (gencodeBody s) := BodyFrame.codec s _ _ _ _ _ _ _ _ _ _ _

theorem cwriteBody_frame (s : State) : BodyFrame s (cwriteBody s).final := by
  unfold cwriteBody
  split
  · exact .refl s
  · split
    · exact .refl s
    · split
      · exact .refl s
      · exact BodyFrame.codec s _ _ _ _ _ _ _ _ _ _ _

theorem creadBody_frame (s : State) : BodyFrame s (creadBody s).final := by
  unfold creadBody
  split
  · exact .refl s
  · split
    · exact .refl s
    · exact BodyFrame.codec s _ _ _ _ _ _ _ _ _ _ _

theorem writeBits_frame (bits : List Bool) (s : State) : BodyFrame s (writeBits bits s).final := by
  induction bits generalizing s with
  | nil => exact .refl s
  | cons b bs ih => exact CmdResult.bind_frame (wrbitBody_frame b s) fun t _ => ih t

theorem emitIfGreater_frame (pct last : Nat) (s : State) : BodyFrame s (emitIfGreater pct last s) := by
  unfold emitIfGreater
  split
  · exact emitProgress_frame pct s
  · exact .refl s

theorem startProgress_frame (n : Nat) (s : State) : BodyFrame s (startProgress n s) := by
  unfold startProgress
  split
  · exact emitProgress_frame 0 s
  · exact .refl s

theorem encodeFrom_frame (n left i last : Nat) (s : State) : BodyFrame s (encodeFrom n left i last s).final := by
  induction left generalizing i last s with
  | zero => exact .refl s
  | succ left ih =>
    exact CmdResult.bind_frame (writeBits_frame _ s) fun t _ => (emitIfGreater_frame _ _ t).trans (ih _ _ _)

theorem compressTail_frame (s : State) : BodyFrame s (compressTail s).final := by
  unfold compressTail
  simp only
  split
  · exact .refl s
  · split
    · exact BodyFrame.codec s _ _ _ _ _ _ _ _ _ _ _
    · refine BodyFrame.trans (t := { s with payloadLen := _ }) ?_ (CmdResult.bind_frame (cwriteBody_frame _) fun t _ => ?_)
      · exact BodyFrame.codec s _ _ _ _ _ _ _ _ _ _ _
      refine CmdResult.bind_frame ((startProgress_frame _ t).trans (encodeFrom_frame _ _ _ _ _)) fun u _ => ?_
      exact CmdResult.bind_frame (flushBody_frame u) fun w _ => BodyFrame.codec w _ _ _ _ _ _ _ _ _ _ _

theorem compressBody_frame (s : State) : BodyFrame s (compressBody s).final := by
  unfold compressBody
  simp only
  split
  · exact BodyFrame.codec s _ _ _ _ _ _ _ _ _ _ _
  · refine BodyFrame.trans (t := { s with progress := _ }) ?_ (CmdResult.bind_frame (countBody_frame _) fun t _ => ?_)
    · exact BodyFrame.codec s _ _ _ _ _ _ _ _ _ _ _
    exact (buildBody_frame t).trans ((gencodeBody_frame _).trans (compressTail_frame _))

theorem storeOut_frame (a : Nat) (b : Byte) (s : State) : BodyFrame s (storeOut a b s) :=
  BodyFrame.codec s _ _ _ _ _ _ _ _ _ _ _

theorem decodeWalk_frame (root total fuel out node : Nat) (s : State) :
    BodyFrame s (decodeWalk root total fuel out node s).final := by
  induction fuel generalizing out node s with
  | zero => unfold decodeWalk; split <;> exact .refl s
  | succ fuel ih =>
    unfold decodeWalk
    split
    · split
      · refine CmdResult.bind_frame (rdbitBody_frame s) fun t _ => ?_
        simp only
        split <;> split
        · exact (storeOut_frame _ _ t).trans (ih _ _ _)
        · exact ih _ _ _
        · exact (storeOut_frame _ _ t).trans (ih _ _ _)
        · exact ih _ _ _
      · exact .refl s
    · exact .refl s

theorem repeatSymbol_frame (sym : Byte) (left out : Nat) (s : State) : BodyFrame s (repeatSymbol sym left out s) := by
  induction left generalizing out s with
  | zero => exact .refl s
  | succ left ih => exact (storeOut_frame _ _ s).trans (ih _ _)

theorem decodeOneBit_frame (sym : Byte) (left out : Nat) (s : State) : BodyFrame s (decodeOneBit sym left out s).final := by
  induction left generalizing out s with
  | zero => exact .refl s
  | succ left ih =>
    unfold decodeOneBit
    split
    · refine CmdResult.bind_frame (rdbitBody_frame s) fun t _ => ?_
      split
      · exact .refl t
      · exact (storeOut_frame _ _ t).trans (ih _ _)
    · exact .refl s

theorem decodeSymbols_frame (total : Nat) (s : State) : BodyFrame s (decodeSymbols total s).final := by
  unfold decodeSymbols
  simp only
  split
  · split
    · split
      · exact decodeOneBit_frame _ _ _ s
      · exact repeatSymbol_frame _ _ _ s
    · exact decodeWalk_frame _ _ _ _ _ s
  · exact .refl s

theorem decompressTail_frame (s : State) : BodyFrame s (decompressTail s).final := by
  unfold decompressTail
  simp only
  split
  · exact .refl s
  · split
    · exact BodyFrame.codec s _ _ _ _ _ _ _ _ _ _ _
    · exact CmdResult.bind_frame (decodeSymbols_frame _ s) fun t _ => BodyFrame.codec t _ _ _ _ _ _ _ _ _ _ _

theorem decompressBody_frame (s : State) : BodyFrame s (decompressBody s).final := by
  unfold decompressBody
  split
  · exact .refl s
  · refine CmdResult.bind_frame (creadBody_frame s) fun t _ => ?_
    exact (buildBody_frame t).trans (decompressTail_frame _)

/-- No command's body changes more than the codec state, OUT and the history's progress events. -/
theorem bodyOf_frame (i : Instr) (s : State) : BodyFrame s (bodyOf i s).final := by
  cases i
  case nop => exact .refl s
  case count => exact countBody_frame s
  case build => exact buildBody_frame s
  case gencode => exact gencodeBody_frame s
  case wrbit b => exact wrbitBody_frame b s
  case flush => exact flushBody_frame s
  case rdbit => exact rdbitBody_frame s
  case canrd => exact BodyFrame.codec s _ _ _ _ _ _ _ _ _ _ _
  case cwrite => exact cwriteBody_frame s
  case cread => exact creadBody_frame s
  case compress => exact compressBody_frame s
  case decompress => exact decompressBody_frame s
  case clear => exact BodyFrame.codec s _ _ _ _ _ _ _ _ _ _ _

/-! ## Steps -/

/-- Whose turn it is, said once: CORE's, reset's, or HOST's, who issues an access or goes on with one. -/
theorem step_cases (s : State) :
    (∃ rest, s.agenda = .core :: rest ∧ step s = coreStep { s with agenda := rest })
      ∨ (s.agenda = [] ∧ s.access = none ∧ step s = coreStep s)
      ∨ (∃ rest, s.agenda = .reset :: rest ∧ step s = .next (hardReset { s with agenda := rest }))
      ∨ (∃ rest, s.agenda = .event :: rest ∧ step s = .next (nextEvent { s with agenda := rest }))
      ∨ (∃ rest, s.agenda = .byte :: rest ∧ step s = .next (hostGoesOn { s with agenda := rest }))
      ∨ (∃ a rest, s.agenda = .host a :: rest ∧ s.access = none ∧ step s = hostAct a { s with agenda := rest })
      ∨ ∃ x, s.access = some x ∧ (s.agenda = [] ∨ ∃ a rest, s.agenda = .host a :: rest)
          ∧ step s = .next (byteAccess x s) := by
  unfold step
  split
  · exact .inl ⟨_, ‹_›, rfl⟩
  · exact .inr (.inr (.inl ⟨_, ‹_›, rfl⟩))
  · exact .inr (.inr (.inr (.inl ⟨_, ‹_›, rfl⟩)))
  · exact .inr (.inr (.inr (.inr (.inl ⟨_, ‹_›, rfl⟩))))
  · rename_i a rest ha
    cases hx : s.access with
    | none => exact .inr (.inr (.inr (.inr (.inr (.inl ⟨a, rest, ha, rfl, by simp⟩)))))
    | some x => exact .inr (.inr (.inr (.inr (.inr (.inr ⟨x, rfl, .inr ⟨a, rest, ha⟩, by simp [hostGoesOn, hx]⟩)))))
  · rename_i ha
    cases hx : s.access with
    | none => exact .inr (.inl ⟨ha, rfl, by simp⟩)
    | some x => exact .inr (.inr (.inr (.inr (.inr (.inr ⟨x, rfl, .inl ha, by simp [hostGoesOn, hx]⟩)))))

/-- Everything CORE's turn can do. -/
theorem coreStep_cases (s : State) :
    (s.pending = none ∧ coreStep s = .next s)
      ∨ (∃ v i, s.pending = some v ∧ decode v = .ok i ∧ coreStep s = exec i s)
      ∨ ∃ v e, s.pending = some v ∧ decode v = .error e ∧ coreStep s = .next (runIllegal s) := by
  unfold coreStep
  split
  · exact .inl ⟨‹_›, rfl⟩
  · rename_i v hv
    split
    · exact .inr (.inl ⟨v, _, hv, ‹_›, rfl⟩)
    · exact .inr (.inr ⟨v, _, hv, ‹_›, rfl⟩)

/-- Everything an event's turn can do. -/
theorem nextEvent_cases (s : State) :
    (s.pending = some (encode .compress) ∧ s.eventsSeen < compressEvents s
        ∧ nextEvent s =
          { s with status := { s.status with progPend := true }, eventsSeen := s.eventsSeen + 1 })
      ∨ (¬ (s.pending = some (encode .compress) ∧ s.eventsSeen < compressEvents s) ∧ nextEvent s = s) := by
  unfold nextEvent
  split
  · rename_i h
    exact .inl ⟨h.1, h.2, rfl⟩
  · exact .inr ⟨‹_›, rfl⟩

/-- A COMPRESS records as many progress events as `compressEvents` counts. -/
theorem compressEvents_eq (s : State) (ps : List Nat)
    (h : (compressBody s).final.history = s.history ++ ps.map Event.progress) : compressEvents s = ps.length := by
  simp [compressEvents, h]

/-! ## HOST's byte accesses -/

/-- All a byte access of a read can change. -/
theorem byteAccess_reading (addr off left : Nat) (b : Buffer) (got : List Byte) (s : State) :
    ∃ draws access reads,
      byteAccess (.reading addr b off left got) s = { s with draws := draws, access := access, reads := reads } := by
  match left, b with
  | 0, _ => exact ⟨_, _, _, rfl⟩
  | 1, .input => exact ⟨_, _, _, rfl⟩
  | 1, .output => exact ⟨_, _, _, rfl⟩
  | left + 2, .input => exact ⟨_, _, _, rfl⟩
  | left + 2, .output => exact ⟨_, _, _, rfl⟩

/-- All a byte access of a write to IN can change. -/
theorem byteAccess_writing_input (off : Nat) (bytes : List Byte) (s : State) :
    ∃ inMem inRaces access,
      byteAccess (.writing .input off bytes) s = { s with inMem := inMem, inRaces := inRaces, access := access } := by
  match bytes with
  | [] => exact ⟨_, _, _, rfl⟩
  | [_] => exact ⟨_, _, _, rfl⟩
  | _ :: _ :: _ => exact ⟨_, _, _, rfl⟩

/-- All a byte access of a write to OUT can change. -/
theorem byteAccess_writing_output (off : Nat) (bytes : List Byte) (s : State) :
    ∃ outMem outTouched access,
      byteAccess (.writing .output off bytes) s
        = { s with outMem := outMem, outTouched := outTouched, access := access } := by
  match bytes with
  | [] => exact ⟨_, _, _, rfl⟩
  | v :: vs =>
    unfold byteAccess hostWriteByte hostWriteOut
    cases vs <;> simp only [writeGoesOn] <;> split <;> exact ⟨_, _, _, rfl⟩

/-- What is left of an access after one of its bytes lies inside the buffer too. -/
theorem byteAccess_within (p : Params) (x : Access) (s : State) (h : x.within p) :
    ∀ y, (byteAccess x s).access = some y → y.within p := by
  intro y hy
  match x with
  | .reading addr b off left got =>
    match left with
    | 0 => simp [byteAccess, readGoesOn, note] at hy
    | 1 => simp [byteAccess, readGoesOn, note] at hy
    | left + 2 =>
      simp only [byteAccess, readGoesOn, Option.some.injEq] at hy
      subst hy
      simp only [Access.within] at h ⊢
      omega
  | .writing b off [] => simp [byteAccess, writeGoesOn] at hy
  | .writing b off [v] => simp [byteAccess, writeGoesOn] at hy
  | .writing b off (v :: w :: vs) =>
    simp only [byteAccess, writeGoesOn, Option.some.injEq] at hy
    subst hy
    simp only [Access.within, List.length_cons] at h ⊢
    omega

/-- The CSR window comes first: an offset of the CSR space is found there. -/
theorem locate_csr (p : Params) {off : Nat} (h : off < 0x7000) : locate p (p.csrBase + off) = some (.csr, off) := by
  unfold locate csrSpaceSize
  rw [if_pos ⟨by omega, by omega⟩]
  simp

end Sys2Proof.Machine
end

