-- ==== Sys2Proof/Laws/PerInstr.lean ====
section
/-! SUPPORT. Lemmas for all instructions, one per constructor: the fields of each command's word (30_encoding.md R110, R111). -/

namespace Sys2Proof.Laws.EncodingFields

/-- The command is well formed, and its word holds RSVD = 0, its opcode, and its BITVAL. -/
def Statement (i : Instr) : Prop :=
  i.wellFormed = true ∧ reservedField (encode i) = 0 ∧ opcodeField (encode i) = opcodeOf i
    ∧ bitvalField (encode i) = bitvalOf i

theorem nop : Statement .nop := by unfold Statement; decide

theorem count : Statement .count := by unfold Statement; decide

theorem build : Statement .build := by unfold Statement; decide

theorem gencode : Statement .gencode := by unfold Statement; decide

theorem wrbit (bit : Bool) : Statement (.wrbit bit) := by unfold Statement; cases bit <;> decide

theorem flush : Statement .flush := by unfold Statement; decide

theorem rdbit : Statement .rdbit := by unfold Statement; decide

theorem canrd : Statement .canrd := by unfold Statement; decide

theorem cwrite : Statement .cwrite := by unfold Statement; decide

theorem cread : Statement .cread := by unfold Statement; decide

theorem compress : Statement .compress := by unfold Statement; decide

theorem decompress : Statement .decompress := by unfold Statement; decide

theorem clear : Statement .clear := by unfold Statement; decide

end Sys2Proof.Laws.EncodingFields
end

