-- ==== Sys2Proof/Tests/Slice0.lean ====
section
/-! SUPPORT. Tests: words decoded, ill-formed parameters refused, single steps against 95_test_vectors.md (V-... names its
vector), and a witness of every statement's hypotheses. -/

namespace Sys2Proof.Tests

open Sys2Proof.Machine Sys2Proof.Spec

/- One theorem after another: side by side, their kernel checks ask for the memory of all at once. -/
set_option Elab.async false

/-! ## Decoding: words written out as [63:9] RSVD, [8] BITVAL, [7:0] OPCODE (30_encoding.md R110, R111) -/

theorem test_decode_nop : decode (0#55 ++ 0b0#1 ++ 0b00000000#8) = .ok .nop := by decide

theorem test_decode_count : decode (0#55 ++ 0b0#1 ++ 0b00000001#8) = .ok .count := by decide

theorem test_decode_build : decode (0#55 ++ 0b0#1 ++ 0b00000010#8) = .ok .build := by decide

theorem test_decode_gencode : decode (0#55 ++ 0b0#1 ++ 0b00000011#8) = .ok .gencode := by decide

theorem test_decode_wrbit0 : decode (0#55 ++ 0b0#1 ++ 0b00000100#8) = .ok (.wrbit false) := by decide

theorem test_decode_wrbit1 : decode (0#55 ++ 0b1#1 ++ 0b00000100#8) = .ok (.wrbit true) := by decide

theorem test_decode_flush : decode (0#55 ++ 0b0#1 ++ 0b00000101#8) = .ok .flush := by decide

theorem test_decode_rdbit : decode (0#55 ++ 0b0#1 ++ 0b00000110#8) = .ok .rdbit := by decide

theorem test_decode_canrd : decode (0#55 ++ 0b0#1 ++ 0b00000111#8) = .ok .canrd := by decide

theorem test_decode_cwrite : decode (0#55 ++ 0b0#1 ++ 0b00001000#8) = .ok .cwrite := by decide

theorem test_decode_cread : decode (0#55 ++ 0b0#1 ++ 0b00001001#8) = .ok .cread := by decide

theorem test_decode_compress : decode (0#55 ++ 0b0#1 ++ 0b00001010#8) = .ok .compress := by decide

theorem test_decode_decompress : decode (0#55 ++ 0b0#1 ++ 0b00001011#8) = .ok .decompress := by decide

theorem test_decode_clear : decode (0#55 ++ 0b0#1 ++ 0b00001111#8) = .ok .clear := by decide

/-- V-CTL-2, V-CTL-4, V-CTL-5. -/
theorem test_decode_illegal :
    decode 0x00C = .error .reservedOpcode ∧ decode 0x00D = .error .reservedOpcode
      ∧ decode 0x00E = .error .reservedOpcode ∧ decode 0x010 = .error .reservedOpcode
      ∧ decode 0x0FF = .error .reservedOpcode ∧ decode 0x105 = .error .bitvalSet ∧ decode 0x100 = .error .bitvalSet
      ∧ decode 0x201 = .error .reservedBits ∧ decode 0x8000000000000001 = .error .reservedBits := by decide

theorem test_decodeTableWord : decodeTableWord 64 0x104 = some (.wrbit true) ∧ decodeTableWord 64 0x00C = none := by decide

/-! ## WellFormed: each check refuses an ill-formed term -/

theorem test_params_default : Params.default.wellFormed = true := by decide

theorem test_params_inSize :
    Params.inSizeLegal { Params.default with inSize := 0 } = false
      ∧ Params.inSizeLegal { Params.default with inSize := 2 ^ 63 } = false := by decide

theorem test_params_outSize :
    Params.outSizeLegal { Params.default with outSize := 15 } = false
      ∧ Params.outSizeLegal { Params.default with outSize := 2 ^ 63 } = false := by decide

theorem test_params_windows :
    Params.windowsApart { Params.default with inBase := 0x6FFF } = false
      ∧ Params.windowsApart { Params.default with outBase := 0 } = false
      ∧ Params.windowsApart { Params.default with outBase := 0x10FFF } = false := by decide

theorem test_params_wellFormed :
    Params.wellFormed { Params.default with inSize := 0 } = false
      ∧ Params.wellFormed { Params.default with outSize := 15 } = false
      ∧ Params.wellFormed { Params.default with inBase := 0x6FFF } = false := by decide

/-! ## Small states -/

/-- After reset, with the given bytes in IN, IN_LEN their count, and OUT_CAP. -/
def given (bytes : List Byte) (outCap : Word) : State :=
  { State.reset with
    inMem := State.reset.inMem.writeList 0 bytes, inLen := BitVec.ofNat 64 bytes.length, outCap := outCap }

/-- A table with the given counts and 0 for every other symbol. -/
def table (counts : List (Byte × Word)) : SymTable Word := counts.foldl (fun f e => symSet f e.1 e.2) (symFill 0)

/-- After reset, with the given counts in FREQ. -/
def counted (counts : List (Byte × Word)) : State := { State.reset with freq := table counts }

/-- The state a step leaves after a word is accepted as CMD's. -/
def go (w : Nat) (s : State) : State :=
  match step (s.withFetchWord 64 w) with
  | .next t => t
  | .fault _ => s
  | .refused _ => s

/-- The state after a command. -/
def after (i : Instr) (s : State) : State :=
  match exec i s with
  | .next t => t
  | .fault _ => s
  | .refused _ => s

theorem exec_after (i : Instr) (s : State) : exec i s = .next (after i s) := by cases i <;> rfl

/-- The first bytes of OUT. -/
def out (n : Nat) (s : State) : List Byte := (List.range n).map s.outMem.read

/-- V-CT-2: the container of `aab`. -/
def aab : List Byte :=
  [0x02, 0, 0, 0, 0x61, 0x02, 0, 0, 0, 0, 0, 0, 0, 0x62, 0x01, 0, 0, 0, 0, 0, 0, 0]
    ++ [0x03, 0, 0, 0, 0, 0, 0, 0, 0x01, 0, 0, 0, 0xC0]

/-- The container of `zzz` in mode ONE_BIT (V-CMP-4), with a given original length and payload byte. -/
def zzz (len payload : Byte) : List Byte :=
  [0x01, 0, 0, 0, 0x7A, 0x03, 0, 0, 0, 0, 0, 0, 0, len, 0, 0, 0, 0, 0, 0, 0, 0x01, 0, 0, 0, payload]

/-- After reset, in mode ONE_BIT, with the given bytes in IN. -/
def oneBit (bytes : List Byte) : State :=
  { given bytes 4096 with ctrl := { ssm := true, ieDone := false, ieErr := false, ieProg := false } }

/-! ## One step each -/

/-- V-CTL-1: NOP after a failed command. -/
theorem test_nop :
    statusWord (go 0x00C State.reset) = 0x06 ∧ errWord (go 0x00C State.reset).err = 0x2304
      ∧ statusWord (go 0x000 (go 0x00C State.reset)) = 0x02 ∧ errWord (go 0x000 (go 0x00C State.reset)).err = 0 := by
  decide +kernel

/-- V-CNT-1. -/
theorem test_count :
    (go 0x001 (given [0x61, 0x61, 0x62] 0)).freq = table [(0x61, 2), (0x62, 1)]
      ∧ (go 0x001 (given [0x61, 0x61, 0x62] 0)).origLen = 3
      ∧ statusWord (go 0x001 (given [0x61, 0x61, 0x62] 0)) = 0x02 :=
  ⟨rfl, rfl, rfl⟩

/-- V-CNT-4. -/
theorem test_count_badArg :
    errWord (go 0x001 { State.reset with inLen := 4097 }).err = 0x2204
      ∧ statusWord (go 0x001 { State.reset with inLen := 4097 }) = 0x06 := by
  decide +kernel

/-- V-BLD-7: the tie between two leaves, and the lightest as LEFT. -/
theorem test_build :
    (go 0x002 (counted [(0x61, 2), (0x62, 2), (0x63, 1)])).pool.map
        (fun n => (n.isLeaf, n.symbol, n.left, n.right, n.weight))
      = [(true, 0x61, 0, 0, 2), (true, 0x62, 0, 0, 2), (true, 0x63, 0, 0, 1), (false, 0, 2, 0, 3),
          (false, 0, 1, 3, 5)]
      ∧ (go 0x002 (counted [(0x61, 2), (0x62, 2), (0x63, 1)])).treeInfo.word = 0x80040005 := by
  decide +kernel

/-- V-BLD-10: the 72-bit weight, in the words of NODE[2]. -/
theorem test_build_weight :
    csrValue (go 0x002 (counted [(0x00, -1), (0x01, -1)])) (csrAt 0x1020) = 0xFFFFFFFFFFFFFFFE
      ∧ csrValue (go 0x002 (counted [(0x00, -1), (0x01, -1)])) (csrAt 0x1028) = 0x0001000000000001 := by
  decide +kernel

/-- V-GC-8: the codes of V-BLD-5's tree. -/
theorem test_gencode :
    ([0x4840, 0x4848, 0x4880, 0x4888, 0x48C0, 0x48C8].map fun off =>
        csrValue (go 0x003 (go 0x002 (counted [(0x61, 1), (0x62, 1), (0x63, 2)]))) (csrAt off))
      = [0x102, 0x1, 0x102, 0x3, 0x101, 0x0] := by
  decide +kernel

/-- V-GC-2, V-GC-3: the code of a single symbol in both modes. -/
theorem test_gencode_single :
    csrValue (go 0x003 (go 0x002 (counted [(0x7A, 3)]))) (csrAt 0x4E80) = 0x100
      ∧ csrValue (go 0x003 { go 0x002 (counted [(0x7A, 3)]) with ctrl := (oneBit []).ctrl }) (csrAt 0x4E80) = 0x101 := by
  decide +kernel

/-- V-BW-1, its last bit. -/
theorem test_wrbit :
    (go 0x104 { State.reset with outCap := 1, bw := { pos := 0, acc := 0x60, cnt := 7 } }).outMem.read 0 = 0xC1
      ∧ (go 0x104 { State.reset with outCap := 1, bw := { pos := 0, acc := 0x60, cnt := 7 } }).bw
        = { pos := 1, acc := 0, cnt := 0 } := by
  decide +kernel

/-- V-BW-2, its last bit, and V-BW-6. -/
theorem test_wrbit_pending :
    (go 0x104 { State.reset with outCap := 1, bw := { pos := 0, acc := 0x02, cnt := 2 } }).bw.stateWord = 0x305
      ∧ errWord (go 0x004 { State.reset with bw := { pos := 0, acc := 0x7F, cnt := 7 } }).err = 0x2004
      ∧ (go 0x004 { State.reset with bw := { pos := 0, acc := 0x7F, cnt := 7 } }).bw.stateWord = 0x77F := by
  decide +kernel

/-- V-BW-3. -/
theorem test_flush :
    (go 0x005 { State.reset with outCap := 1, bw := { pos := 0, acc := 0x05, cnt := 3 } }).outMem.read 0 = 0xA0
      ∧ (go 0x005 { State.reset with outCap := 1, bw := { pos := 0, acc := 0x05, cnt := 3 } }).bw.pos = 1 := by
  decide +kernel

/-- V-BW-4, V-BW-7. -/
theorem test_flush_capacity :
    statusWord (go 0x005 State.reset) = 0x02
      ∧ errWord (go 0x005 { State.reset with bw := { pos := 0, acc := 0x7F, cnt := 7 } }).err = 0x2004 := by
  decide +kernel

/-- V-BR-1, then V-BR-2. -/
theorem test_rdbit :
    (go 0x006 { given [0xA0] 0 with br := { State.reset.br with endPos := 1 } }).br.stateWord = 0x000107A0
      ∧ (go 0x006 (go 0x006 { given [0xA0] 0 with br := { State.reset.br with endPos := 1 } })).br.stateWord
        = 0x000006A0 := by
  decide +kernel

/-- V-BR-5, V-BR-7. -/
theorem test_rdbit_fails :
    errWord (go 0x006 { given [0xA0] 0 with br := { State.reset.br with pos := 1, endPos := 1, cur := 0xA0 } }).err = 0x1903
      ∧ errWord (go 0x006 { given [0xA0] 0 with br := { State.reset.br with pos := 1, endPos := 2, cur := 0xA0 } }).err
        = 0x2204 := by
  decide +kernel

/-- V-BR-4, V-BR-6. -/
theorem test_canrd :
    (go 0x007 { given [0xA0] 0 with br := { State.reset.br with pos := 1, endPos := 1, cur := 0xA0 } }).br.stateWord
        = 0x000000A0
      ∧ (go 0x007
          { given [0xA0] 0 with
            br := { pos := 1, endPos := 1, cur := 0xA0, rem := 7, lastBit := true, can := false } }).br.stateWord
        = 0x000307A0 := by
  decide +kernel

/-- V-CT-1, V-CT-2: the header of `aab`. -/
theorem test_cwrite :
    out 34 (go 0x008 { counted [(0x61, 2), (0x62, 1)] with origLen := 3, payloadLen := 1, outCap := 64 }) = aab.take 34
      ∧ (go 0x008 { counted [(0x61, 2), (0x62, 1)] with origLen := 3, payloadLen := 1, outCap := 64 }).bw.pos = 34 := by
  decide +kernel

/-- V-CT-4, V-CT-5. -/
theorem test_cwrite_fails :
    errWord (go 0x008 { counted [(0x61, 2), (0x62, 1)] with origLen := 3, payloadLen := 1, outCap := 33 }).err = 0x2004
      ∧ errWord (go 0x008 { counted [(0x61, 2), (0x62, 1)] with origLen := 3, payloadLen := 0x80000000, outCap := 64 }).err
        = 0x2204 := by
  decide +kernel

/-- V-CT-6. -/
theorem test_cread :
    (go 0x009 (given aab 0)).freq = table [(0x61, 2), (0x62, 1)] ∧ (go 0x009 (given aab 0)).origLen = 3
      ∧ (go 0x009 (given aab 0)).payloadLen = 1 ∧ (go 0x009 (given aab 0)).br.pos = 34
      ∧ (go 0x009 (given aab 0)).br.endPos = 35 :=
  ⟨rfl, rfl, rfl, rfl, rfl⟩

/-- V-CT-7a, 7b, 7e, 7i, 7j, 7k. -/
theorem test_cread_fails :
    ([[0, 0, 0], List.replicate 4 0xFF ++ List.replicate 12 0, [1, 0, 0, 0, 0x61] ++ List.replicate 20 0,
        List.replicate 4 0 ++ List.replicate 8 0xFF ++ List.replicate 4 0,
        List.replicate 12 0 ++ List.replicate 4 0xFF, aab.take 30 ++ [2, 0, 0, 0, 0xC0]].map fun bytes =>
      errWord (go 0x009 (given bytes 0)).err) = [0x1103, 0x1203, 0x1303, 0x1503, 0x1603, 0x1103] := by
  decide +kernel

/-- V-CMP-5: the container, the registers and the progress events. -/
theorem test_compress :
    out 35 (go 0x00A (given [0x61, 0x61, 0x62] 4096)) = aab
      ∧ (go 0x00A (given [0x61, 0x61, 0x62] 4096)).outLen = 35
      ∧ (go 0x00A (given [0x61, 0x61, 0x62] 4096)).progress.word = 0x164
      ∧ statusWord (go 0x00A (given [0x61, 0x61, 0x62] 4096)) = 0x0A
      ∧ (go 0x00A (given [0x61, 0x61, 0x62] 4096)).history
        = [.accept 0x00A, .progress 0, .progress 33, .progress 66, .progress 100, .complete none] := by
  decide +kernel

/-- V-CMP-11. -/
theorem test_compress_capacity :
    errWord (go 0x00A (given [0x61, 0x61, 0x62] 34)).err = 0x2004
      ∧ (go 0x00A (given [0x61, 0x61, 0x62] 34)).outLen = 0
      ∧ (go 0x00A (given [0x61, 0x61, 0x62] 34)).payloadLen = 1
      ∧ (go 0x00A (given [0x61, 0x61, 0x62] 34)).bw = State.reset.bw
      ∧ statusWord (go 0x00A (given [0x61, 0x61, 0x62] 34)) = 0x06 := by
  decide +kernel

/-- V-DEC-2. -/
theorem test_decompress :
    out 3 (go 0x00B (given aab 4096)) = [0x61, 0x61, 0x62] ∧ (go 0x00B (given aab 4096)).outLen = 3
      ∧ (go 0x00B (given aab 4096)).br.pos = 35 ∧ (go 0x00B (given aab 4096)).br.stateWord = 0x000005C0 := by
  decide +kernel

/-- V-DEC-5, V-DEC-8, V-DEC-14. -/
theorem test_decompress_fails :
    errWord (go 0x00B (given (aab.set 22 9) 4096)).err = 0x1003
      ∧ (go 0x00B (given (aab.set 22 9) 4096)).br.stateWord = 0x000000C0
      ∧ errWord (go 0x00B (given ([0, 0, 0, 0, 1] ++ List.replicate 11 0) 0)).err = 0x2004
      ∧ errWord (go 0x00B (oneBit (zzz 3 0x80))).err = 0x1803 := by
  decide +kernel

/-- V-CTL-6, of the state V-CMP-5 leaves. -/
theorem test_clear :
    entryCount (go 0x00F (go 0x00A (given [0x61, 0x61, 0x62] 4096))).freq = 0
      ∧ csrValue (go 0x00F (go 0x00A (given [0x61, 0x61, 0x62] 4096))) (csrAt 0x4840) = 0
      ∧ (go 0x00F (go 0x00A (given [0x61, 0x61, 0x62] 4096))).treeInfo.word = 0
      ∧ (go 0x00F (go 0x00A (given [0x61, 0x61, 0x62] 4096))).bw.pos = 0
      ∧ (go 0x00F (go 0x00A (given [0x61, 0x61, 0x62] 4096))).inLen = 3
      ∧ statusWord (go 0x00F (go 0x00A (given [0x61, 0x61, 0x62] 4096))) = 0x02 := by
  decide +kernel

/-! ## HOST -/

/-- The state after HOST's accesses. -/
def host (turns : List Turn) (s : State) : State :=
  match Host.Core.run Sys2Proof.core turns.length { s with agenda := turns } with
  | .next t => t
  | .fault _ => s
  | .refused _ => s

/-- V-CTL-13, V-CTL-14, V-CTL-15. -/
theorem test_host_registers :
    (host [turnWr Params.default 0x008 (-1), turnRd Params.default 0x008, turnRd Params.default 0x090,
        turnRd Params.default 0x010, turnRd Params.default 0x000] State.reset).reads.map Observation.value
      = [0xF, 0, 0, 0x148554643] := by
  decide +kernel

/-- V-CTL-7, V-CTL-8, V-CTL-9: dropped writes while BUSY = 1. -/
theorem test_host_overrun :
    (host [turnCmd Params.default .nop, turnWr Params.default 0x010 0, turnWr Params.default 0x028 5]
        State.reset).status.overrun = true
      ∧ (host [turnCmd Params.default .nop, turnWr Params.default 0x010 0, turnWr Params.default 0x028 5]
        State.reset).inLen = 0
      ∧ (host [turnCmd Params.default .nop, turnWr Params.default 0x010 0, .core, turnWr Params.default 0x018 0x10]
        State.reset).status.overrun = false := by
  decide +kernel

/-- V-CTL-10, V-CTL-11. -/
theorem test_host_irq :
    irq (host [turnWr Params.default 0x008 2, turnCmd Params.default .nop, .core] State.reset) = true
      ∧ irq (host [turnWr Params.default 0x008 2, turnCmd Params.default .nop, .core, turnWr Params.default 0x018 2]
        State.reset) = false
      ∧ irq (host [turnWr Params.default 0x008 4, turnWr Params.default 0x010 0x00C, .core] State.reset) = true
      ∧ irq (host [turnWr Params.default 0x008 4, turnWr Params.default 0x010 0x00C, .core,
        turnWr Params.default 0x018 4] State.reset) = false := by
  decide +kernel

/-- `aab` in IN, a command accepted with IE_PROG = 1, some of its events seen, and PROG_PEND as given. -/
def notifying (v : Word) (turns : List Turn) (seen : Nat) (progPend : Bool) : State :=
  { given [0x61, 0x61, 0x62] 35 with
    ctrl := { ssm := false, ieDone := false, ieErr := false, ieProg := true }
    status := { done := false, err := false, progPend := progPend, overrun := false }
    pending := some v, eventsSeen := seen, agenda := turns }

/-- V-CMP-5's four events with CTRL.IE_PROG = 1 (95_test_vectors.md 2.9): the line is 1 from the first event until
PROG_PEND is cleared, and then from the next; a NOP has none. -/
theorem test_host_events :
    ([[], [.event], [.event, turnAck Params.default], [.event, turnAck Params.default, .event],
        [.event, .event, .event, .event, turnAck Params.default, .event],
        [.event, .event, .event, .event, turnAck Params.default, .core],
        [.event, .event, .event, turnAck Params.default, .core], [.core]].map fun turns =>
      irq (host turns (notifying 0x00A [] 0 false)))
        = [false, true, false, true, false, false, true, true]
      ∧ irq (host [.event] (notifying 0x000 [] 0 false)) = false := by
  decide +kernel

/-- 20_memory.md R87, R80, R81: the accesses without a meaning stop. -/
theorem test_host_stops :
    hostRead 0x004 8 State.reset = .refused .csrAccessForm ∧ hostWrite 0x008 4 0 State.reset = .refused .csrAccessForm
      ∧ hostRead 0x9000 8 State.reset = .fault .unmappedHostAddress
      ∧ hostRead 0x10FFF 2 State.reset = .fault .pastBufferEnd := ⟨rfl, rfl, rfl, rfl⟩

/-- 20_memory.md R85, R88: a wide access lands lowest byte lowest; CORE and reset come between two of its bytes. -/
theorem test_host_wide :
    (host [.host (.write 0x10000 2 0x6261), .byte, .host (.read 0x10000 2), .byte] State.reset).reads
        = [⟨0x10000, 2, 0x6261⟩]
      ∧ (host [turnCmd Params.default .nop, .host (.write 0x20000 2 0x6261), .core, .byte] State.reset).outMem.read 1 = 0x62
      ∧ (host [.host (.write 0x20000 2 0x6261), .reset, .byte] State.reset).outMem.cells = [(1, 0x62)] := by
  decide +kernel

/-- 20_memory.md R92: HOST goes on with an access before it issues another. -/
theorem test_host_in_order :
    (host [.host (.write 0x10000 2 0x6261), .host (.read 0x10001 1)] State.reset).access = none
      ∧ (host [.host (.write 0x10000 2 0x6261), .host (.read 0x10001 1)] State.reset).reads = []
      ∧ (host [.host (.write 0x10000 2 0x6261), .host (.read 0x10001 1)] State.reset).agenda
        = [.host (.read 0x10001 1)] := by
  decide +kernel

/-- 70_reset_and_hazards.md R366: the run of `RUN NOP`, `ACK` ends at the read of STATUS, not before CORE moves, nor
without such a read. -/
theorem test_end_read :
    ([0, 1, 2].map fun k =>
        (host ((turnsRun Params.default .nop ++ [turnAck Params.default]).take k) State.reset).access.isNone
          && State.atEndRead
            { host ((turnsRun Params.default .nop ++ [turnAck Params.default]).take k) State.reset with
              agenda := (turnsRun Params.default .nop ++ [turnAck Params.default]).drop k }) = [false, false, true]
      ∧ State.atEndRead
          { host [turnCmd Params.default .nop, .core] State.reset with agenda := [turnAck Params.default] } = false := by
  decide +kernel

/-! ## Witnesses: for every statement with hypotheses, states and operands that meet them, at the boundaries of each clause -/

/-- A command accepted and not completed, with given turns to come. -/
def running (v : Word) (turns : List Turn) : State := { State.reset with pending := some v, agenda := turns }

/-- Idle, with given turns to come. -/
def idle (turns : List Turn) : State := { State.reset with agenda := turns }

/-- CORE's turn, and HOST with nothing more to do. -/
theorem witness_StepRunsDecodedCommand :
    decode 0x104 = .ok (.wrbit true) ∧ (running 0x104 []).pending = some 0x104 ∧ coreMoves (running 0x104 []) []
      ∧ (running 0x104 [.core]).pending = some 0x104 ∧ coreMoves (running 0x104 [.core]) [] :=
  ⟨by decide, rfl, .inr ⟨rfl, rfl, rfl⟩, rfl, .inl rfl⟩

theorem witness_IllegalCommandFails :
    (running 0x00C []).pending = some 0x00C ∧ decode 0x00C = .error .reservedOpcode ∧ coreMoves (running 0x00C []) []
      ∧ coreMoves (running 0x00C [.core]) [] :=
  ⟨rfl, by decide, .inr ⟨rfl, rfl, rfl⟩, .inl rfl⟩

theorem witness_IdleStateSurvives :
    (idle []).busy = false ∧ coreMoves (idle []) [] ∧ (idle [.core]).busy = false ∧ coreMoves (idle [.core]) [] :=
  ⟨rfl, .inr ⟨rfl, rfl, rfl⟩, rfl, .inl rfl⟩

theorem witness_CausesPerCommand :
    exec .count { State.reset with inLen := 4097 } = .next (after .count { State.reset with inLen := 4097 })
      ∧ (after .count { State.reset with inLen := 4097 }).history.getLast? = some (.complete (some .badArg))
      ∧ (runIllegal State.reset).history.getLast? = some (.complete (some .illegalCmd)) :=
  ⟨rfl, by decide +kernel, by decide +kernel⟩

theorem witness_FailedComponentChangesNothing :
    (Instr.rdbit ∈ [Instr.count, .flush, .rdbit, .cread] ∧ exec .rdbit State.reset = .next (after .rdbit State.reset)
        ∧ (after .rdbit State.reset).history.getLast? = some (.complete (some .readEmpty)))
      ∧ (∃ b, Instr.wrbit true = .wrbit b)
      ∧ exec (.wrbit true) { State.reset with outCap := 4097 }
        = .next (after (.wrbit true) { State.reset with outCap := 4097 })
      ∧ (after (.wrbit true) { State.reset with outCap := 4097 }).history.getLast? = some (.complete (some .badArg))
      ∧ exec .cwrite State.reset = .next (after .cwrite State.reset)
      ∧ (after .cwrite State.reset).history.getLast? = some (.complete (some .outCapacity)) :=
  ⟨⟨by decide, rfl, by decide +kernel⟩, ⟨true, rfl⟩, rfl, by decide +kernel, rfl, by decide +kernel⟩

theorem witness_FailedEngineDiscardsOutput :
    (Instr.compress ∈ [Instr.compress, .decompress] ∧ exec .compress State.reset = .next (after .compress State.reset)
        ∧ (after .compress State.reset).history.getLast? = some (.complete (some .outCapacity)))
      ∧ Instr.decompress ∈ [Instr.compress, .decompress]
      ∧ exec .decompress State.reset = .next (after .decompress State.reset)
      ∧ (after .decompress State.reset).history.getLast? = some (.complete (some .hdrShort)) :=
  ⟨⟨by decide, rfl, by decide +kernel⟩, by decide, rfl, by decide +kernel⟩

theorem witness_CommandsNeverWriteHostState : exec .nop State.reset = .next (after .nop State.reset) := rfl

theorem witness_CmdWriteAccepted :
    (idle [.host (csrWr State.reset 0x010 0x00A)]).busy = false
      ∧ issues (idle [.host (csrWr State.reset 0x010 0x00A)]) (csrWr State.reset 0x010 0x00A) [] :=
  ⟨rfl, rfl, rfl⟩

theorem witness_WritesWhileBusyAreDropped :
    (∀ off ∈ [0x008, 0x078, 0x800, 0xFF8], droppedWhileBusy off
        ∧ (running 0 [.host (csrWr State.reset off 5)]).busy = true
        ∧ issues (running 0 [.host (csrWr State.reset off 5)]) (csrWr State.reset off 5) [])
      ∧ ¬ droppedWhileBusy 0x018 ∧ ¬ droppedWhileBusy 0x1000 := by
  refine ⟨fun off h => ⟨?_, rfl, rfl, rfl⟩, ?_, ?_⟩
  · simp only [List.mem_cons, List.not_mem_nil, or_false] at h
    rcases h with rfl | rfl | rfl | rfl
    · exact .inl (by decide)
    · exact .inl (by decide)
    · exact .inr ⟨0, by decide, rfl⟩
    · exact .inr ⟨255, by decide, rfl⟩
  · rintro (h | ⟨k, -, h⟩)
    · revert h; decide
    · omega
  · rintro (h | ⟨k, hk, h⟩)
    · revert h; decide
    · omega

theorem witness_StatusIsWriteOneToClear :
    issues (idle [.host (csrWr State.reset 0x018 0x1E)]) (csrWr State.reset 0x018 0x1E) []
      ∧ (0x1E : Word).getLsbD 2 = true ∧ (0x1A : Word).getLsbD 2 = false
      ∧ issues (running 0 [.host (csrWr State.reset 0x018 0x1A)]) (csrWr State.reset 0x018 0x1A) [] :=
  ⟨⟨rfl, rfl⟩, rfl, rfl, rfl, rfl⟩

theorem witness_RegisterWritesAreHeld :
    ∀ off ∈ [0x008, 0x028, 0x030, 0x040, 0x048, 0x060, 0x070, 0x078, 0x800 + 8 * (0x00 : Byte).toNat,
        0x800 + 8 * (0xFF : Byte).toNat],
      (idle [.host (csrWr State.reset off (-1))]).busy = false
        ∧ issues (idle [.host (csrWr State.reset off (-1))]) (csrWr State.reset off (-1)) [] :=
  fun _ _ => ⟨rfl, rfl, rfl⟩

/-- Idle with each read to come, and a failure recorded; the first and the last node, symbol and code word. -/
theorem witness_RegistersReadAsLaidOut :
    (∀ off, (idle [.host (csrRd State.reset off)]).busy = false
        ∧ issues (idle [.host (csrRd State.reset off)]) (csrRd State.reset off) [])
      ∧ (idle [.host (csrRd State.reset 0x020)]).err = none
      ∧ ({ idle [.host (csrRd State.reset 0x020)] with err := some .illegalCmd } : State).err = some .illegalCmd
      ∧ (Cause.illegalCmd, 0x2304) ∈ errorTable ∧ 0x1008 + 16 * 510 = 0x2FE8
      ∧ 0x3008 + 64 * (0xFF : Byte).toNat + 8 * 6 = 0x6FF8 :=
  ⟨fun _ => ⟨rfl, rfl, rfl⟩, rfl, rfl, by decide, rfl, rfl⟩

theorem witness_ReadOnlyAndReservedWritesIgnored :
    (∀ off ∈ [0x000, 0x088, 0x090, 0x7F8, 0x1000, 0x2FE8, 0x2FF0, 0x2FF8, 0x3000, 0x6FF8],
        off % 8 = 0 ∧ off < 0x7000
          ∧ (off ∈ [0x000, 0x020, 0x038, 0x050, 0x058, 0x068, 0x080, 0x088] ∨ 0x090 ≤ off ∧ off < 0x800 ∨ 0x1000 ≤ off))
      ∧ (∀ off, issues (idle [.host (csrWr State.reset off 1)]) (csrWr State.reset off 1) [])
      ∧ (∀ off ∈ [0x090, 0x7F8, 0x2FF0, 0x2FF8],
        off % 8 = 0 ∧ off < 0x7000 ∧ (0x090 ≤ off ∧ off < 0x800 ∨ 0x2FF0 ≤ off ∧ off < 0x3000))
      ∧ ∀ off, issues (running 0 [.host (csrRd State.reset off)]) (csrRd State.reset off) [] :=
  ⟨by decide, fun _ => ⟨rfl, rfl⟩, by decide, fun _ => ⟨rfl, rfl⟩⟩

theorem witness_OddCsrAccessRefused :
    0x6FFC < 0x7000 ∧ (8 ≠ 8 ∨ 0x6FFC % 8 ≠ 0) ∧ 0 < 0x7000 ∧ (4 ≠ 8 ∨ 0 % 8 ≠ 0)
      ∧ issues (idle [.host (.read (State.reset.params.csrBase + 0x6FFC) 8)])
        (.read (State.reset.params.csrBase + 0x6FFC) 8) []
      ∧ issues (idle [.host (.write (State.reset.params.csrBase + 0) 4 1)])
        (.write (State.reset.params.csrBase + 0) 4 1) [] :=
  ⟨by decide, by decide, by decide, by decide, ⟨rfl, rfl⟩, rfl, rfl⟩

theorem witness_ReadsWhileBusy :
    ∀ off ∈ [0x000, 0x008, 0x018],
      (running 0 [.host (csrRd State.reset off)]).busy = true
        ∧ issues (running 0 [.host (csrRd State.reset off)]) (csrRd State.reset off) [] :=
  fun _ _ => ⟨rfl, rfl, rfl⟩

/-- A read of a CSR and one of two IN bytes issued; reads of IN and OUT that go on with two bytes left, one and none: with
HOST's next byte, with nothing more to do, and before another access. -/
theorem witness_HostReadsHaveNoSideEffect :
    issues (idle [.host (.read 0x000 8)]) (.read 0x000 8) []
      ∧ step (idle [.host (.read 0x000 8)]) = .next { State.reset with reads := [⟨0x000, 8, 0x148554643⟩] }
      ∧ issues (idle [.host (.read 0x10000 2)]) (.read 0x10000 2) []
      ∧ (∃ t, step (idle [.host (.read 0x10000 2)]) = .next t)
      ∧ ∀ turns ∈ [[Turn.byte], [], [.host (.read 0x000 8)]], ∀ x ∈
          [Access.reading 0x10000 .input 0 2 [], .reading 0x10000 .input 1 1 [0x61], .reading 0x20000 .output 1 1 [0x61],
            .reading 0x10000 .input 2 0 [0x61, 0x62]],
          ({ idle turns with access := some x } : State).access = some x
            ∧ (turns = .byte :: [] ∨ turns = turns ∧ (turns = [] ∨ ∃ a later, turns = .host a :: later))
            ∧ ∃ t, step { idle turns with access := some x } = .next t := by
  refine ⟨⟨rfl, rfl⟩, rfl, ⟨rfl, rfl⟩, ⟨_, rfl⟩, fun turns h x _ => ⟨rfl, ?_, ?_⟩⟩ <;>
    simp only [List.mem_cons, List.not_mem_nil, or_false] at h <;> rcases h with rfl | rfl | rfl
  · exact .inl rfl
  · exact .inr ⟨rfl, .inl rfl⟩
  · exact .inr ⟨rfl, .inr ⟨_, _, rfl⟩⟩
  all_goals exact ⟨_, rfl⟩

/-- Accesses of one byte and of two that end at the ends of IN and OUT, idle and busy; an OUT byte raced and the step
after it; CORE's turn between two bytes. -/
theorem witness_HostWritesInLittleEndian :
    State.reset.params.wellFormed = true ∧ 4094 + 2 ≤ State.reset.params.inSize
      ∧ 4094 + 2 ≤ State.reset.params.outSize ∧ 0 < 2
      ∧ (∀ a width, (idle (inOnePiece a width [])).access = none ∧ (idle (inOnePiece a width [])).busy = false
        ∧ (idle (inOnePiece a width [])).agenda = inOnePiece a width []
        ∧ (running 0 (inOnePiece a width [])).access = none ∧ (running 0 (inOnePiece a width [])).busy = true
        ∧ (running 0 (inOnePiece a width [])).agenda = inOnePiece a width [])
      ∧ exec .nop { State.reset with outTouched := [4095] } = .next (after .nop { State.reset with outTouched := [4095] })
      ∧ 4095 ∈ ({ State.reset with outTouched := [4095] } : State).outTouched
      ∧ ({ running 0 [.core] with access := some (.writing .output 1 [0x62]) } : State).access
        = some (.writing .output 1 [0x62])
      ∧ ({ running 0 [.core] with access := some (.writing .output 1 [0x62]) } : State).agenda = .core :: []
      ∧ ({ idle [] with access := some (.writing .output 1 [0x62]) } : State).agenda = []
      ∧ ({ idle [.host (.read 0 8)] with access := some (.writing .output 1 [0x62]) } : State).agenda
        = .host (.read 0 8) :: [] :=
  ⟨by decide, by decide, by decide, by decide, fun _ _ => ⟨rfl, rfl, rfl, rfl, rfl, rfl⟩, rfl, by decide, rfl, rfl, rfl,
    rfl⟩

theorem witness_RacedInReadsOldOrNew :
    (running 0 []).busy = true ∧ olderValues (running 0 []).inRaces 0 = [] ∧ (1 : Nat) ≠ 0 :=
  ⟨rfl, rfl, by decide⟩

/-- A NOP and a COMPRESS of `aab` running, with IE_PROG = 1 and an event to come: its first, its fourth, and one after
the last. -/
theorem witness_IrqFollowsStatusAndCtrl :
    (notifying 0x000 [.event] 0 false).agenda = .event :: []
      ∧ (notifying 0x000 [.event] 0 false).pending ≠ some (encode .compress)
      ∧ (∀ n, (notifying 0x00A [.event] n false).agenda = .event :: []
        ∧ (notifying 0x00A [.event] n false).pending = some (encode .compress))
      ∧ (∀ n ∈ [0, 3, 4],
        exec .compress { notifying 0x00A [.event] n false with agenda := [] }
            = .next (after .compress { notifying 0x00A [.event] n false with agenda := [] })
          ∧ Success [0, 33, 66, 100] { notifying 0x00A [.event] n false with agenda := [] }
            (after .compress { notifying 0x00A [.event] n false with agenda := [] }))
      ∧ 3 < [0, 33, 66, 100].length ∧ [0, 33, 66, 100].length ≤ 4
      ∧ (notifying 0x00A [] 1 true).StatusOk ∧ (notifying 0x00A [] 1 true).busy = true
      ∧ irq (notifying 0x00A [] 1 true) = true := by
  refine ⟨rfl, by decide, fun n => ⟨rfl, rfl⟩, fun n hn => ⟨rfl, ?_⟩, by decide, by decide, ?_, rfl, rfl⟩
  · unfold Success
    simp only [List.mem_cons, List.not_mem_nil, or_false] at hn
    rcases hn with rfl | rfl | rfl <;> decide +kernel
  · exact ⟨rfl, fun _ h => (nomatch h), fun _ => ⟨rfl, rfl⟩, fun _ h => absurd rfl h, fun h => nomatch h⟩

theorem witness_ResetInputGivesResetValues :
    (running 0 [.reset]).agenda = .reset :: [] ∧ 0x6FF8 < 0x7000 ∧ 0x6FF8 % 8 = 0 ∧ 0x6FF8 ≠ 0 :=
  ⟨rfl, by decide, by decide, by decide⟩

/-- IN_LEN at IN_SIZE, and one past it. -/
theorem witness_CountCountsOccurrences :
    ({ State.reset with inLen := 4096 } : State).inLen.toNat ≤ State.reset.params.inSize
      ∧ State.reset.params.inSize < ({ State.reset with inLen := 4097 } : State).inLen.toNat := by
  decide +kernel

theorem witness_CountEntriesAreTheDistinctBytes :
    (given [0x61, 0x61, 0x62] 0).inLen.toNat ≤ (given [0x61, 0x61, 0x62] 0).params.inSize := by
  decide +kernel

theorem witness_CountIgnoresOrder :
    (given [0x61, 0x62] 0).inLen.toNat ≤ (given [0x61, 0x62] 0).params.inSize
      ∧ (given [0x62, 0x61] 0).inLen.toNat ≤ (given [0x62, 0x61] 0).params.inSize
      ∧ ((List.range (given [0x61, 0x62] 0).inLen.toNat).map (coreRead (given [0x61, 0x62] 0) firstPass)).Perm
        ((List.range (given [0x62, 0x61] 0).inLen.toNat).map (coreRead (given [0x62, 0x61] 0) firstPass))
      ∧ exec .count (given [0x61, 0x62] 0) = .next (after .count (given [0x61, 0x62] 0))
      ∧ exec .count (given [0x62, 0x61] 0) = .next (after .count (given [0x62, 0x61] 0)) := by
  refine ⟨by decide +kernel, by decide +kernel, ?_, rfl, rfl⟩
  have h : ∀ bytes : List Byte, bytes = [0x61, 0x62] ∨ bytes = [0x62, 0x61] →
      (List.range (given bytes 0).inLen.toNat).map (coreRead (given bytes 0) firstPass) = bytes := by
    rintro _ (rfl | rfl) <;> decide +kernel
  rw [h _ (.inl rfl), h _ (.inr rfl)]
  exact List.Perm.swap _ _ _

/-- BuildCardinality: n = 0, 1 and 2. -/
theorem witness_BuildCardinality :
    entryCount (counted []).freq = 0 ∧ 0 < entryCount (counted [(0x7A, 3)]).freq
      ∧ 0 < entryCount (counted [(0x61, 1), (0x62, 1)]).freq := by
  decide +kernel

/-- The first and the last symbol. -/
theorem witness_BuildSeedsLeavesInSymbolOrder :
    symGet (counted [(0x00, 1), (0xFF, 2)]).freq 0x00 ≠ 0 ∧ symGet (counted [(0x00, 1), (0xFF, 2)]).freq 0xFF ≠ 0 := by
  decide +kernel

/-- The first internal node, and the root. -/
theorem witness_BuildJoinsTheTwoLeast :
    (entryCount (counted [(0x61, 1), (0x62, 1), (0x63, 2)]).freq ≤ 3
        ∧ 3 < (after .build (counted [(0x61, 1), (0x62, 1), (0x63, 2)])).pool.length)
      ∧ entryCount (counted [(0x61, 1), (0x62, 1), (0x63, 2)]).freq ≤ 4
      ∧ 4 < (after .build (counted [(0x61, 1), (0x62, 1), (0x63, 2)])).pool.length := by
  decide +kernel

theorem witness_BuildDependsOnFreqAlone :
    (counted [(0x61, 1)]).freq = ({ counted [(0x61, 1)] with inLen := 7 } : State).freq
      ∧ exec .build (counted [(0x61, 1)]) = .next (after .build (counted [(0x61, 1)]))
      ∧ exec .build { counted [(0x61, 1)] with inLen := 7 }
        = .next (after .build { counted [(0x61, 1)] with inLen := 7 }) :=
  ⟨rfl, rfl, rfl⟩

/-- No tree, and a single leaf, of a symbol other than 0x61: each case of the premise. -/
theorem witness_GencodeWithoutInternalNodes :
    State.reset.treeInfo.rootValid = false
      ∧ (after .build (counted [(0x7A, 3)])).treeInfo.rootValid = true
      ∧ (nodeAt (after .build (counted [(0x7A, 3)])).pool
          (after .build (counted [(0x7A, 3)])).treeInfo.root.toNat).isLeaf = true
      ∧ (0x61 : Byte) ≠ (nodeAt (after .build (counted [(0x7A, 3)])).pool
          (after .build (counted [(0x7A, 3)])).treeInfo.root.toNat).symbol := by
  decide +kernel

/-- V-BLD-3's tree. -/
def tree : Pool :=
  [{ isLeaf := true, symbol := 0x61, weight := 1, left := 0, right := 0 },
    { isLeaf := true, symbol := 0x62, weight := 1, left := 0, right := 0 },
    { isLeaf := false, symbol := 0, weight := 2, left := 0, right := 1 }]

/-- After reset, with V-BLD-3's tree. -/
def withTree : State :=
  { State.reset with pool := tree, treeInfo := { nodeCount := 3, root := 2, rootValid := true } }

theorem withTree_ok : withTree.TreeOk := by
  refine ⟨by decide, by decide, ?_⟩
  show withTree.treeInfo.root.toNat + 1 = tree.length ∧ _ ∧ strictTree tree
  refine ⟨by decide, ?_, ?_, ?_⟩
  · show ∀ i, i < 3 → nodeShape tree i
    unfold nodeShape
    decide
  · intro i hi
    have hi' : i < 2 := Nat.lt_of_succ_lt_succ hi
    clear hi
    refine ⟨2, ?_, ?_⟩
    · show isParent tree 2 i
      unfold isParent
      revert i
      decide
    · rintro j ⟨hj, hl, -⟩
      have h : ∀ j, j < 3 → (nodeAt tree j).isLeaf = false → j = 2 := by decide
      exact h j hj hl
  · show ∀ i j, i < 3 → j < 3 → _
    have h : ∀ i, i < 3 → ∀ j, j < 3 → (nodeAt tree i).isLeaf = true → (nodeAt tree j).isLeaf = true →
        (nodeAt tree i).symbol = (nodeAt tree j).symbol → i = j := by decide
    exact fun i j hi hj => h i hi j hj

theorem witness_GencodeCodesAreLeafPaths :
    withTree.TreeOk ∧ withTree.treeInfo.rootValid = true
      ∧ (nodeAt withTree.pool withTree.treeInfo.root.toNat).isLeaf = false ∧ hasLeaf withTree.pool 0x61
      ∧ ¬ hasLeaf withTree.pool 0x63 := by
  refine ⟨withTree_ok, rfl, by decide, ⟨0, by decide, by decide, by decide⟩, ?_⟩
  rintro ⟨i, hi, h, k⟩
  have hn : ∀ i, i < 3 → (nodeAt tree i).symbol ≠ 0x63 := by decide
  exact hn i hi k

theorem witness_GencodeIsPrefixFreeAndFull :
    withTree.TreeOk ∧ withTree.treeInfo.rootValid = true
      ∧ (nodeAt withTree.pool withTree.treeInfo.root.toNat).isLeaf = false
      ∧ (0x61 : Byte) ≠ 0x62 ∧ (symGet (after .gencode withTree).codes 0x61).valid = true
      ∧ (symGet (after .gencode withTree).codes 0x62).valid = true :=
  ⟨withTree_ok, rfl, by decide, by decide, by decide +kernel, by decide +kernel⟩

/-- The bit writer at a given place, under a given capacity. -/
def writer (outCap pos : Word) (acc : Byte) (cnt : Fin 8) : State :=
  { State.reset with outCap := outCap, bw := { pos := pos, acc := acc, cnt := cnt } }

/-- OUT_CAP past OUT_SIZE and at it; BW_POS at OUT_CAP and one below; CNT 7 and 6. -/
theorem witness_WrbitShiftsInOneBit :
    (writer 4097 0 0 0).params.outSize < (writer 4097 0 0 0).outCap.toNat
      ∧ ((writer 4096 4096 0x7F 7).outCap.toNat ≤ (writer 4096 4096 0x7F 7).params.outSize
        ∧ (writer 4096 4096 0x7F 7).bw.cnt = 7
        ∧ (writer 4096 4096 0x7F 7).outCap.toNat ≤ (writer 4096 4096 0x7F 7).bw.pos.toNat)
      ∧ ((writer 4096 4095 0x7F 7).outCap.toNat ≤ (writer 4096 4095 0x7F 7).params.outSize
        ∧ (writer 4096 4095 0x7F 7).bw.cnt = 7
        ∧ (writer 4096 4095 0x7F 7).bw.pos.toNat < (writer 4096 4095 0x7F 7).outCap.toNat
        ∧ (writer 4096 4095 0x7F 7).bw.pos.toNat ∉ (writer 4096 4095 0x7F 7).outTouched)
      ∧ (writer 4096 4096 0x3F 6).outCap.toNat ≤ (writer 4096 4096 0x3F 6).params.outSize
      ∧ (writer 4096 4096 0x3F 6).bw.cnt ≠ 7 := by
  decide +kernel

/-- OUT_CAP past OUT_SIZE and at it; CNT 0, 1 and 7; BW_POS at OUT_CAP and one below. -/
theorem witness_FlushStoresThePartialByte :
    (writer 4097 0 0 0).params.outSize < (writer 4097 0 0 0).outCap.toNat
      ∧ ((writer 4096 0 0 0).outCap.toNat ≤ (writer 4096 0 0 0).params.outSize ∧ (writer 4096 0 0 0).bw.cnt = 0)
      ∧ ((writer 4096 4096 1 1).outCap.toNat ≤ (writer 4096 4096 1 1).params.outSize ∧ (writer 4096 4096 1 1).bw.cnt ≠ 0
        ∧ (writer 4096 4096 1 1).outCap.toNat ≤ (writer 4096 4096 1 1).bw.pos.toNat)
      ∧ (writer 4096 4095 0x7F 7).outCap.toNat ≤ (writer 4096 4095 0x7F 7).params.outSize
      ∧ (writer 4096 4095 0x7F 7).bw.cnt ≠ 0
      ∧ (writer 4096 4095 0x7F 7).bw.pos.toNat < (writer 4096 4095 0x7F 7).outCap.toNat
      ∧ (writer 4096 4095 0x7F 7).bw.pos.toNat ∉ (writer 4096 4095 0x7F 7).outTouched := by
  decide +kernel

/-- The state after commands, when all give one. -/
def afterAll (is : List Instr) (s : State) : State := (execAll is s).getD s

theorem execAll_afterAll (is : List Instr) (s : State) : execAll is s = some (afterAll is s) := by
  have h : ∀ s, (execAll is s).isSome = true := by
    induction is with
    | nil => exact fun _ => rfl
    | cons i is ih => intro s; simp only [execAll, exec_after]; exact ih _
  rw [afterAll, Option.getD_of_ne_none (Option.isSome_iff_ne_none.mp (h s))]

/-- V-BW-3: three bits and FLUSH. -/
theorem witness_WriterBitStreamLaw :
    (writer 1 0 0 0).bw.acc = 0 ∧ (writer 1 0 0 0).bw.cnt = 0 ∧ (writer 1 0 0 0).outTouched = []
      ∧ execAll ([true, false, true].map Instr.wrbit ++ [.flush]) (writer 1 0 0 0)
        = some (afterAll ([true, false, true].map Instr.wrbit ++ [.flush]) (writer 1 0 0 0))
      ∧ (afterAll ([true, false, true].map Instr.wrbit ++ [.flush]) (writer 1 0 0 0)).history
        = (writer 1 0 0 0).history ++ List.replicate ([true, false, true].length + 1) (.complete none) :=
  ⟨rfl, rfl, rfl, execAll_afterAll _ _, by decide +kernel⟩

/-- The bit reader over one IN byte. -/
def reader (inLen pos endPos : Word) (rem : Fin 9) : State :=
  { given [0xA0] 0 with
    inLen := inLen, br := { pos := pos, endPos := endPos, cur := 0xA0, rem := rem, lastBit := false, can := false } }

/-- REM 0, 1 and 8; BR_POS at BR_END and one below; BR_POS at IN_LEN and one below; IN_LEN past IN_SIZE. -/
theorem witness_RdbitReadsTheNextBit :
    ((reader 1 1 1 0).br.rem = 0 ∧ (reader 1 1 1 0).br.endPos.toNat ≤ (reader 1 1 1 0).br.pos.toNat)
      ∧ ((reader 1 1 2 0).br.rem = 0 ∧ (reader 1 1 2 0).br.pos.toNat < (reader 1 1 2 0).br.endPos.toNat
        ∧ ((reader 1 1 2 0).params.inSize < (reader 1 1 2 0).inLen.toNat
          ∨ (reader 1 1 2 0).inLen.toNat ≤ (reader 1 1 2 0).br.pos.toNat))
      ∧ (reader 4097 0 1 0).params.inSize < (reader 4097 0 1 0).inLen.toNat
      ∧ ((reader 1 0 1 0).br.rem = 0 ∧ (reader 1 0 1 0).br.pos.toNat < (reader 1 0 1 0).br.endPos.toNat
        ∧ (reader 1 0 1 0).inLen.toNat ≤ (reader 1 0 1 0).params.inSize
        ∧ (reader 1 0 1 0).br.pos.toNat < (reader 1 0 1 0).inLen.toNat)
      ∧ (reader 1 1 1 1).br.rem ≠ 0 ∧ (reader 1 1 1 8).br.rem ≠ 0 := by
  decide +kernel

/-- No byte, a byte's last bit but one, and all of a byte. -/
theorem witness_ReaderBitStreamLaw :
    (reader 1 0 1 0).br.rem = 0 ∧ (reader 1 0 1 0).br.endPos.toNat ≤ (reader 1 0 1 0).inLen.toNat
      ∧ (reader 1 0 1 0).inLen.toNat ≤ (reader 1 0 1 0).params.inSize ∧ (reader 1 0 1 0).inRaces = []
      ∧ 7 ≤ 8 * ((reader 1 0 1 0).br.endPos.toNat - (reader 1 0 1 0).br.pos.toNat)
      ∧ 8 = 8 * ((reader 1 0 1 0).br.endPos.toNat - (reader 1 0 1 0).br.pos.toNat) := by
  decide +kernel

/-- What CWRITE reads, with one symbol's count. -/
def header (outCap origLen payloadLen count : Word) : State :=
  { counted [(0x61, count)] with outCap := outCap, origLen := origLen, payloadLen := payloadLen }

/-- OUT_CAP past OUT_SIZE and at it, one short of the header and enough; each field at its greatest value and past it. -/
theorem witness_CwriteWritesTheHeader :
    (header 4097 0 0 1).params.outSize < (header 4097 0 0 1).outCap.toNat
      ∧ ((header 4096 0 0 1).outCap.toNat ≤ (header 4096 0 0 1).params.outSize
        ∧ 2 ^ 63 ≤ (header 4096 0x8000000000000000 0 1).origLen.toNat
        ∧ 2 ^ 31 ≤ (header 4096 0 0x80000000 1).payloadLen.toNat
        ∧ 2 ^ 63 ≤ (symGet (header 4096 0 0 0x8000000000000000).freq 0x61).toNat)
      ∧ ((header 4096 0x7FFFFFFFFFFFFFFF 0x7FFFFFFF 0x7FFFFFFFFFFFFFFF).origLen.toNat < 2 ^ 63
        ∧ (header 4096 0x7FFFFFFFFFFFFFFF 0x7FFFFFFF 0x7FFFFFFFFFFFFFFF).payloadLen.toNat < 2 ^ 31
        ∧ ((header 4096 0x7FFFFFFFFFFFFFFF 0x7FFFFFFF 0x7FFFFFFFFFFFFFFF).freq.toList.all
            fun count => decide (count.toNat < 2 ^ 63)) = true)
      ∧ (header 24 0 0 1).outCap.toNat < 16 + 9 * entryCount (header 24 0 0 1).freq
      ∧ 16 + 9 * entryCount (header 25 0 0 1).freq ≤ (header 25 0 0 1).outCap.toNat
      ∧ (header 25 0 0 1).outTouched = [] := by
  decide +kernel

/-- Each of a table's counts, in one test over its list. -/
theorem symGet_lt_of_all {f : SymTable Word} {m : Nat} (h : (f.toList.all fun count => decide (count.toNat < m)) = true)
    (sym : Byte) : (symGet f sym).toNat < m := by
  rw [List.all_eq_true] at h
  have hm : symGet f sym ∈ f.toList := by
    rw [Vector.mem_toList_iff]
    exact Vector.getElem_mem sym.isLt
  simpa using h _ hm

theorem witness_CwriteWritesTheHeader_counts :
    ∀ sym, (symGet (header 25 0x7FFFFFFFFFFFFFFF 0x7FFFFFFF 0x7FFFFFFFFFFFFFFF).freq sym).toNat < 2 ^ 63 :=
  symGet_lt_of_all (by decide +kernel)

/-- V-CT-2 is the header of the table of `aab`, with its payload inside IN_LEN = 35. -/
theorem witness_CreadLoadsExactlyHeaders :
    (given aab 0).inLen.toNat ≤ (given aab 0).params.inSize
      ∧ holdsHeader (coreRead (given aab 0) firstPass) (table [(0x61, 2), (0x62, 1)]) 3 1
      ∧ (∀ sym, (symGet (table [(0x61, 2), (0x62, 1)]) sym).toNat < 2 ^ 63) ∧ 3 < 2 ^ 63 ∧ 1 < 2 ^ 31
      ∧ 16 + 9 * entryCount (table [(0x61, 2), (0x62, 1)]) + 1 ≤ (given aab 0).inLen.toNat
      ∧ exec .cread (given aab 0) = .next (after .cread (given aab 0))
      ∧ (after .cread (given aab 0)).history.getLast? = some (.complete none) := by
  refine ⟨by decide +kernel, ⟨by decide +kernel, ?_, by decide +kernel, by decide +kernel⟩,
    symGet_lt_of_all (by decide +kernel), by decide, by decide, by decide +kernel, rfl, by decide +kernel⟩
  have he : entries (table [(0x61, 2), (0x62, 1)]) = [(0x61, 2), (0x62, 1)] := by decide +kernel
  rw [he]
  intro j sym count h
  match j with
  | 0 => cases h; decide +kernel
  | 1 => cases h; decide +kernel
  | j + 2 => simp at h

/-- A state whose IN holds the bytes, and no other that CREAD reads. -/
def holding (bytes : List Byte) : State := given bytes 0

/-- IN_LEN past IN_SIZE; then V-CT-7's kinds of bytes, each with every earlier check passed: field 1 in 3 bytes, at 257 and
at 2; the first entry in 12 bytes, with the count 0 and 2^63; the second in 21, with the count 0, with the symbol of
the first again. -/
theorem witness_CreadChecksFieldsInOrder :
    ({ State.reset with inLen := 4097 } : State).params.inSize < ({ State.reset with inLen := 4097 } : State).inLen.toNat
      ∧ (holding [0, 0, 0]).inLen.toNat < 4
      ∧ (4 ≤ (holding [1, 1, 0, 0]).inLen.toNat ∧ 256 < leNat (coreRead (holding [1, 1, 0, 0]) firstPass) 0 4)
      ∧ (leNat (coreRead (holding (aab.take 12)) firstPass) 0 4 = 2 ∧ (holding (aab.take 12)).inLen.toNat < 13 + 9 * 0)
      ∧ 13 + 9 * 0 ≤ (holding (aab.take 13)).inLen.toNat
      ∧ leNat (coreRead (holding ([1, 0, 0, 0, 0x61] ++ List.replicate 8 0)) firstPass) (5 + 9 * 0) 8 = 0
      ∧ 2 ^ 63 ≤ leNat (coreRead (holding ([1, 0, 0, 0, 0x61] ++ List.replicate 7 0 ++ [0x80])) firstPass) (5 + 9 * 0) 8
      ∧ (holding (aab.take 21)).inLen.toNat < 13 + 9 * 1
      ∧ (13 + 9 * 1 ≤ (holding (aab.set 14 0)).inLen.toNat
        ∧ leNat (coreRead (holding (aab.set 14 0)) firstPass) (5 + 9 * 1) 8 = 0)
      ∧ (0 < leNat (coreRead (holding (aab.set 13 0x61)) firstPass) (5 + 9 * 1) 8
        ∧ leNat (coreRead (holding (aab.set 13 0x61)) firstPass) (5 + 9 * 1) 8 < 2 ^ 63
        ∧ (coreRead (holding (aab.set 13 0x61)) firstPass (4 + 9 * 1)).toNat
          ≤ (coreRead (holding (aab.set 13 0x61)) firstPass (4 + 9 * 0)).toNat) := by
  decide +kernel

/-- No entry, one and both of `aab`'s table are good; fields 3 and 4 of it: in 29 bytes, 33 and 34, negative, and a payload
past IN_LEN (V-CT-7k). -/
theorem witness_CreadChecksFieldsInOrder_lengths :
    (∀ k ≤ 2, goodEntries (coreRead (holding aab) firstPass) 35 k)
      ∧ goodEntries (coreRead (holding (aab.set 13 0x61)) firstPass) 35 1
      ∧ leNat (coreRead (holding aab) firstPass) 0 4 = 2
      ∧ (holding (aab.take 29)).inLen.toNat < 12 + 9 * 2
      ∧ (12 + 9 * 2 ≤ (holding (aab.set 29 0x80)).inLen.toNat
        ∧ 2 ^ 63 ≤ leNat (coreRead (holding (aab.set 29 0x80)) firstPass) (4 + 9 * 2) 8)
      ∧ (12 + 9 * 2 ≤ (holding (aab.take 33)).inLen.toNat
        ∧ leNat (coreRead (holding (aab.take 33)) firstPass) (4 + 9 * 2) 8 < 2 ^ 63
        ∧ (holding (aab.take 33)).inLen.toNat < 16 + 9 * 2)
      ∧ (16 + 9 * 2 ≤ (holding (aab.set 33 0x80)).inLen.toNat
        ∧ 2 ^ 31 ≤ leNat (coreRead (holding (aab.set 33 0x80)) firstPass) (12 + 9 * 2) 4)
      ∧ (16 + 9 * 2 ≤ (holding (aab.take 34)).inLen.toNat
        ∧ leNat (coreRead (holding (aab.take 34)) firstPass) (12 + 9 * 2) 4 < 2 ^ 31
        ∧ (holding (aab.take 34)).inLen.toNat
          < 16 + 9 * 2 + leNat (coreRead (holding (aab.take 34)) firstPass) (12 + 9 * 2) 4) := by
  unfold goodEntries
  decide +kernel

/-- `aab`, with OUT_CAP just the container's 35 bytes. -/
theorem witness_CompressWritesTheContainer :
    NoRaces (given [0x61, 0x61, 0x62] 35)
      ∧ (given [0x61, 0x61, 0x62] 35).inLen.toNat ≤ (given [0x61, 0x61, 0x62] 35).params.inSize
      ∧ (given [0x61, 0x61, 0x62] 35).params.inSize < 2 ^ 63
      ∧ (given [0x61, 0x61, 0x62] 35).outCap.toNat ≤ (given [0x61, 0x61, 0x62] 35).params.outSize
      ∧ compressPayload (given [0x61, 0x61, 0x62] 35) < 2 ^ 31
      ∧ containerLen (given [0x61, 0x61, 0x62] 35) ≤ (given [0x61, 0x61, 0x62] 35).outCap.toNat :=
  ⟨⟨rfl, rfl⟩, by decide +kernel, by decide, by decide +kernel, by decide +kernel, by decide +kernel⟩

theorem witness_CompressEmitsEachPercentageOnce :
    exec .compress (given [0x61, 0x61, 0x62] 35) = .next (after .compress (given [0x61, 0x61, 0x62] 35))
      ∧ Success [0, 33, 66, 100] (given [0x61, 0x61, 0x62] 35) (after .compress (given [0x61, 0x61, 0x62] 35))
      ∧ 0 < (given [0x61, 0x61, 0x62] 35).inLen.toNat
      ∧ exec .compress (given [] 16) = .next (after .compress (given [] 16))
      ∧ Success [] (given [] 16) (after .compress (given [] 16)) ∧ (given [] 16).inLen.toNat = 0 := by
  unfold Success
  exact ⟨rfl, by decide +kernel, by decide +kernel, rfl, by decide +kernel, by decide +kernel⟩

/-! V-CMP-13: 2^34 bytes of 0x00 in mode ONE_BIT. -/

/-- n bytes of 0x00 in IN, in mode ONE_BIT. -/
def zeros (n : Nat) : State :=
  { oneBit [] with
    params := { Params.default with inSize := n }
    inMem := { cells := (List.range n).map fun a => (a, 0), fills := [], base := 0 }
    inLen := BitVec.ofNat 64 n }

theorem cellAt_zeros (n a k : Nat) (h : k ≤ a) (h' : a < k + n) :
    cellAt ((List.range' k n).map fun a => (a, (0 : Byte))) a = some 0 := by
  induction n generalizing k with
  | zero => omega
  | succ n ih =>
    rw [List.range'_succ, List.map_cons, cellAt]
    split
    · rfl
    · exact ih (k + 1) (by omega) (by omega)

theorem read_zeros (n a : Nat) (h : a < n) : (zeros n).inMem.read a = 0 := by
  have hc : (zeros n).inMem.cells = (List.range' 0 n).map fun a => (a, (0 : Byte)) := by
    rw [← List.range_eq_range']; rfl
  rw [Memory.read, hc, cellAt_zeros n a 0 (Nat.zero_le a) (by omega)]
  rfl

theorem bump_zeros (c : Word) (n : Nat) (view : Nat → Byte) (l : List Nat) (h : ∀ a ∈ l, view a = 0) (hn : l.length = n) :
    l.foldl (fun f a => bump f (view a)) (symSet (symFill 0) 0 c) = symSet (symFill 0) 0 (c + BitVec.ofNat 64 n) := by
  induction l generalizing c n with
  | nil => subst hn; simp
  | cons a l ih =>
    subst hn
    have hb : bump (symSet (symFill 0) 0 c) (view a) = symSet (symFill 0) 0 (c + 1) := by
      rw [h a (List.mem_cons_self)]
      simp [bump, symSet, symGet]
    rw [List.foldl_cons, hb, ih (c + 1) l.length (fun x hx => h x (List.mem_cons_of_mem _ hx)) rfl]
    congr 1
    rw [List.length_cons, BitVec.ofNat_add]
    ac_rfl

theorem compressFreq_zeros (n : Nat) (h : n < 2 ^ 64) :
    compressFreq (zeros n) = symSet (symFill 0) 0 (BitVec.ofNat 64 n) := by
  have hl : (zeros n).inLen.toNat = n := by
    show (BitVec.ofNat 64 n).toNat = n
    rw [BitVec.toNat_ofNat, Nat.mod_eq_of_lt h]
  have h0 : (symFill 0 : SymTable Word) = symSet (symFill 0) 0 0 := by
    apply Vector.ext
    intro i hi
    simp [symSet, symFill]
  rw [compressFreq, countBytes, hl, h0, bump_zeros 0 n _ _ _ List.length_range, ← h0, zero_add]
  intro a ha
  exact read_zeros n a (List.mem_range.mp ha)

theorem compressPayload_zeros (n : Nat) (h : n < 2 ^ 64) :
    compressPayload (zeros n)
      = ceil8 (payloadBits (symSet (symFill 0) 0 (BitVec.ofNat 64 n))
        (codesOf (symSet (symFill 0) 0 (BitVec.ofNat 64 n)) true)) := by
  rw [compressPayload, compressFreq_zeros n h]
  rfl

theorem zeros_lengths (n : Nat) (h : n < 2 ^ 64) :
    (zeros n).inRaces = [] ∧ (zeros n).inLen.toNat ≤ (zeros n).params.inSize
      ∧ (zeros n).outCap.toNat ≤ (zeros n).params.outSize := by
  refine ⟨rfl, ?_, Nat.le_refl 4096⟩
  show (BitVec.ofNat 64 n).toNat ≤ n
  rw [BitVec.toNat_ofNat, Nat.mod_eq_of_lt h]

/-- IN_LEN past IN_SIZE; V-CMP-13; V-CMP-11. -/
theorem witness_CompressFailuresInOrder :
    (State.reset.params.inSize < ({ State.reset with inLen := 4097 } : State).inLen.toNat
        ∨ State.reset.params.outSize < ({ State.reset with inLen := 4097 } : State).outCap.toNat)
      ∧ ((zeros 0x400000000).inRaces = [] ∧ (zeros 0x400000000).inLen.toNat ≤ (zeros 0x400000000).params.inSize
        ∧ (zeros 0x400000000).outCap.toNat ≤ (zeros 0x400000000).params.outSize)
      ∧ (2 ^ 31 ≤ compressPayload (zeros 0x400000000)
        ∨ (zeros 0x400000000).outCap.toNat < containerLen (zeros 0x400000000))
      ∧ (given [0x61, 0x61, 0x62] 34).inRaces = [] ∧ compressPayload (given [0x61, 0x61, 0x62] 34) < 2 ^ 31
      ∧ (given [0x61, 0x61, 0x62] 34).outCap.toNat < containerLen (given [0x61, 0x61, 0x62] 34) := by
  refine ⟨by decide +kernel, zeros_lengths _ (by decide), .inl ?_, rfl, by decide +kernel, by decide +kernel⟩
  rw [compressPayload_zeros _ (by decide)]
  decide +kernel

/-- V-BLD-3's tree, a bit writer in mid-byte, and three bytes in IN. -/
def other : State :=
  { withTree with
    inMem := (given [0x61, 0x61, 0x62, 0x63] 35).inMem, inLen := 3, outCap := 35,
    bw := { pos := 9, acc := 1, cnt := 1 } }

/-- The same three bytes after reset, and in another state. -/
theorem witness_CompressIsDeterministic :
    NoRaces (given [0x61, 0x61, 0x62] 35) ∧ NoRaces other ∧ (given [0x61, 0x61, 0x62] 35).params = other.params
      ∧ (given [0x61, 0x61, 0x62] 35).inLen = other.inLen ∧ (given [0x61, 0x61, 0x62] 35).outCap = other.outCap
      ∧ (given [0x61, 0x61, 0x62] 35).ctrl.ssm = other.ctrl.ssm
      ∧ (∀ a, a < (given [0x61, 0x61, 0x62] 35).inLen.toNat →
        (given [0x61, 0x61, 0x62] 35).inMem.read a = other.inMem.read a)
      ∧ exec .compress (given [0x61, 0x61, 0x62] 35) = .next (after .compress (given [0x61, 0x61, 0x62] 35))
      ∧ exec .compress other = .next (after .compress other) :=
  ⟨⟨rfl, rfl⟩, ⟨rfl, rfl⟩, rfl, rfl, rfl, rfl, by decide +kernel, rfl, rfl⟩

/-- The header of V-CT-2. -/
def aabHeader : Header := { freq := table [(0x61, 2), (0x62, 1)], origLen := 3, payloadLen := 1, pos := 34 }

/-- V-DEC-2 and V-DEC-5: the bits spell the symbols, and run out. -/
theorem witness_DecompressWalksTheTree :
    (given aab 3).inLen.toNat ≤ (given aab 3).params.inSize ∧ (given aab 3).outCap.toNat ≤ (given aab 3).params.outSize
      ∧ readHeader (coreRead (given aab 3) firstPass) (given aab 3).inLen.toNat = .ok aabHeader
      ∧ 2 ≤ entryCount aabHeader.freq ∧ 0 < aabHeader.origLen ∧ aabHeader.origLen ≤ (given aab 3).outCap.toNat
      ∧ decodeSyms (mergedForest aabHeader.freq).pool (treeInfoOf (mergedForest aabHeader.freq)).root.toNat
          (bitsOf (coreRead (given aab 3) firstPass) 34 1) (treeInfoOf (mergedForest aabHeader.freq)).root.toNat 3
        = some [0x61, 0x61, 0x62]
      ∧ readHeader (coreRead (given (aab.set 22 9) 9) firstPass) 35 = .ok { aabHeader with origLen := 9 }
      ∧ decodeSyms (mergedForest aabHeader.freq).pool (treeInfoOf (mergedForest aabHeader.freq)).root.toNat
          (bitsOf (coreRead (given (aab.set 22 9) 9) firstPass) 34 1)
          (treeInfoOf (mergedForest aabHeader.freq)).root.toNat 9
        = none :=
  ⟨by decide +kernel, by decide +kernel, rfl, by decide +kernel, by decide, by decide +kernel, rfl, rfl, rfl⟩

/-- The header of `zzz` in mode ONE_BIT, with a given original length. -/
def zzzHeader (len : Nat) : Header := { freq := table [(0x7A, 3)], origLen := len, payloadLen := 1, pos := 25 }

/-- V-DEC-17, V-DEC-9, V-DEC-7, V-DEC-13, V-DEC-11, V-DEC-15, V-DEC-14: each clause of a readable container. -/
theorem witness_DecompressOfSmallTables :
    (readHeader (coreRead (given aab 2) firstPass) 35 = .ok aabHeader ∧ (given aab 2).outCap.toNat < aabHeader.origLen
        ∧ (given aab 2).inLen.toNat ≤ (given aab 2).params.inSize ∧ (given aab 2).outCap.toNat ≤ (given aab 2).params.outSize)
      ∧ readHeader (coreRead (given (List.replicate 16 0) 0) firstPass) 16
        = .ok { freq := symFill 0, origLen := 0, payloadLen := 0, pos := 16 }
      ∧ (readHeader (coreRead (given ([0, 0, 0, 0, 1] ++ List.replicate 11 0) 1) firstPass) 16
          = .ok { freq := symFill 0, origLen := 1, payloadLen := 0, pos := 16 }
        ∧ entryCount (symFill 0) = 0)
      ∧ (readHeader (coreRead (given (zzz 3 0) 3) firstPass) 26 = .ok (zzzHeader 3)
        ∧ entries (zzzHeader 3).freq = [(0x7A, 3)] ∧ (given (zzz 3 0) 3).ctrl.ssm = false
        ∧ (zzzHeader 3).origLen ≤ (given (zzz 3 0) 3).outCap.toNat)
      ∧ (readHeader (coreRead (oneBit (zzz 8 0)) firstPass) 26 = .ok (zzzHeader 8) ∧ (oneBit (zzz 8 0)).ctrl.ssm = true
        ∧ (zzzHeader 8).origLen ≤ 8 * (zzzHeader 8).payloadLen
        ∧ ∀ k, k < 8 → (bitsOf (coreRead (oneBit (zzz 8 0)) firstPass) 25 1)[k]? = some false)
      ∧ (readHeader (coreRead (oneBit (zzz 9 0)) firstPass) 26 = .ok (zzzHeader 9)
        ∧ 8 * (zzzHeader 9).payloadLen < (zzzHeader 9).origLen)
      ∧ (readHeader (coreRead (oneBit (zzz 3 0x20)) firstPass) 26 = .ok (zzzHeader 3)
        ∧ (bitsOf (coreRead (oneBit (zzz 3 0x20)) firstPass) 25 1)[2]? = some true
        ∧ ∀ j, j < 2 → (bitsOf (coreRead (oneBit (zzz 3 0x20)) firstPass) 25 1)[j]? = some false) := by
  have hz : bitsOf (coreRead (oneBit (zzz 8 0)) firstPass) 25 1 = List.replicate 8 false := rfl
  have ho : bitsOf (coreRead (oneBit (zzz 3 0x20)) firstPass) 25 1
      = [false, false, true, false, false, false, false, false] := rfl
  refine ⟨⟨rfl, by decide +kernel, by decide +kernel, by decide +kernel⟩, rfl, ⟨rfl, by decide +kernel⟩,
    ⟨rfl, by decide +kernel, rfl, by decide +kernel⟩, ⟨rfl, rfl, by decide, ?_⟩, ⟨rfl, by decide⟩, rfl, rfl, ?_⟩
  · rw [hz]; decide
  · rw [ho]; decide

/-- IN_LEN past IN_SIZE and OUT_CAP past OUT_SIZE; V-DEC-18: an empty IN, which CREAD cannot read. -/
theorem witness_DecompressOfSmallTables_unreadable :
    State.reset.params.inSize < ({ State.reset with inLen := 4097 } : State).inLen.toNat
      ∧ State.reset.params.outSize < ({ State.reset with outCap := 4097 } : State).outCap.toNat
      ∧ State.reset.outCap.toNat ≤ State.reset.params.outSize ∧ creadFails State.reset .hdrShort := by
  refine ⟨by decide +kernel, by decide +kernel, by decide +kernel, after .cread State.reset, rfl, ?_⟩
  unfold Failure
  decide +kernel

/-- `aab` compressed, and its container in IN of another state. -/
theorem witness_CompressThenDecompressRoundTrips :
    NoRaces (given [0x61, 0x61, 0x62] 35) ∧ (given [0x61, 0x61, 0x62] 35).params.inSize < 2 ^ 63
      ∧ exec .compress (given [0x61, 0x61, 0x62] 35) = .next (after .compress (given [0x61, 0x61, 0x62] 35))
      ∧ Success [0, 33, 66, 100] (given [0x61, 0x61, 0x62] 35) (after .compress (given [0x61, 0x61, 0x62] 35))
      ∧ NoRaces (given aab 3) ∧ (given aab 3).ctrl.ssm = (given [0x61, 0x61, 0x62] 35).ctrl.ssm
      ∧ (given aab 3).inLen = (after .compress (given [0x61, 0x61, 0x62] 35)).outLen
      ∧ (given aab 3).inLen.toNat ≤ (given aab 3).params.inSize
      ∧ (given aab 3).outCap.toNat ≤ (given aab 3).params.outSize
      ∧ (given [0x61, 0x61, 0x62] 35).inLen.toNat ≤ (given aab 3).outCap.toNat
      ∧ ∀ a, a < (after .compress (given [0x61, 0x61, 0x62] 35)).outLen.toNat →
        (given aab 3).inMem.read a = (after .compress (given [0x61, 0x61, 0x62] 35)).outMem.read a := by
  unfold Success
  exact ⟨⟨rfl, rfl⟩, by decide, rfl, by decide +kernel, ⟨rfl, rfl⟩, rfl, by decide +kernel, by decide +kernel,
    by decide +kernel, by decide +kernel, by decide +kernel⟩

/-- A step after a word is accepted always gives a next state. -/
theorem step_go (w : Nat) (s : State) : step (s.withFetchWord 64 w) = .next (go w s) := by
  have h : ∃ t, step (s.withFetchWord 64 w) = .next t := by
    simp only [step, State.withFetchWord, coreStep, accept]
    split
    · exact ⟨_, exec_after _ _⟩
    · exact ⟨_, rfl⟩
  obtain ⟨t, ht⟩ := h
  rw [go, ht]

/-- COMPRESS just accepted, with bytes in IN, and the step that runs it. -/
theorem witness_StepKeepsMemoryOk :
    ((given [0x61, 0x61, 0x62] 35).withFetchWord 64 0x00A).MemoryOk
      ∧ step ((given [0x61, 0x61, 0x62] 35).withFetchWord 64 0x00A) = .next (go 0x00A (given [0x61, 0x61, 0x62] 35)) := by
  exact ⟨⟨by decide +kernel, by decide +kernel, by decide +kernel, by decide +kernel, by decide +kernel,
    fun _ h => nomatch h⟩, step_go _ _⟩

/-- HOST going on with the last byte of OUT. -/
theorem witness_StepKeepsMemoryOk_access :
    ({ idle [.byte] with access := some (.writing .output 4095 [1]) } : State).MemoryOk
      ∧ ∃ t, step { idle [.byte] with access := some (.writing .output 4095 [1]) } = .next t := by
  refine ⟨⟨by decide +kernel, by decide +kernel, by decide +kernel, by decide +kernel, by decide +kernel, ?_⟩, _, rfl⟩
  intro x h
  cases h
  exact Nat.le_refl 4096

/-- Each of a table's codes, in one test over its list. -/
theorem symGet_of_all {f : SymTable Code}
    (h : (f.toList.all fun c => (c.valid || decide (c = Code.absent))
      && (List.range 256).all fun k => decide (k < c.len.toNat) || !c.bits.getLsbD k) = true) (sym : Byte) :
    (symGet f sym).Ok := by
  rw [List.all_eq_true] at h
  have hm : symGet f sym ∈ f.toList := by
    rw [Vector.mem_toList_iff]
    exact Vector.getElem_mem sym.isLt
  have h1 := h _ hm
  rw [Bool.and_eq_true, Bool.or_eq_true, decide_eq_true_eq, List.all_eq_true] at h1
  refine ⟨fun hv => h1.1.resolve_left (by simp [hv]), fun k hk => ?_⟩
  by_cases hk' : k < 256
  · simpa [Nat.not_lt.mpr hk] using h1.2 k (List.mem_range.mpr hk')
  · exact BitVec.getLsbD_of_ge _ _ (by omega)

/-- WRBIT just accepted, with codes in the table, and the step that runs it. -/
theorem witness_StepKeepsRegistersOk :
    ((after .gencode withTree).withFetchWord 64 0x104).RegistersOk
      ∧ step ((after .gencode withTree).withFetchWord 64 0x104) = .next (go 0x104 (after .gencode withTree)) := by
  refine ⟨⟨?_, ?_, ?_, symGet_of_all (by decide +kernel)⟩, step_go _ _⟩
  · unfold State.StatusOk
    exact ⟨rfl, fun c hc => (nomatch hc), by decide +kernel, by decide +kernel, by decide +kernel⟩
  · unfold BitWriter.Ok; decide +kernel
  · unfold Progress.Ok; decide +kernel

/-- GENCODE just accepted, with a tree, and the step that runs it. -/
theorem witness_StepKeepsTreeOk :
    (withTree.withFetchWord 64 0x003).TreeOk ∧ step (withTree.withFetchWord 64 0x003) = .next (go 0x003 withTree) :=
  ⟨withTree_ok, step_go _ _⟩

/-- Every kind of access. -/
theorem witness_AllowedHostNeverStops :
    ∀ a, Turn.host a ∈ (idle [turnWr Params.default 0x010 0x00A, .core, turnRd Params.default 0x018,
        .host (.write 0x10000 4 1), .byte, .host (.read 0x20FFF 1), .reset]).agenda →
      a.allowed State.reset.params = true := by
  intro a h
  simp only [idle, turnWr, turnRd, List.mem_cons, Turn.host.injEq, reduceCtorEq, false_or, List.not_mem_nil,
    or_false] at h
  rcases h with rfl | rfl | rfl | rfl <;> decide

end Sys2Proof.Tests
end

section
/-! PROOFS. The scope (00_scope.md): a step of CORE runs the accepted command. -/

namespace Sys2Proof.Machine

open Sys2Proof.Spec

/-- A 64-bit word is read back from its own number. -/
@[simp] theorem tableWord_toNat (v : Word) : tableWord 64 v.toNat = v := by
  rw [tableWord, Nat.mod_eq_of_lt v.isLt, BitVec.ofNat_toNat, BitVec.setWidth_eq]

/-- With a word of a command accepted, CORE's turn runs that command (00_scope.md R6). -/
theorem coreStep_of_decode_ok {s : State} {v : Word} {i : Instr} (hv : s.pending = some v) (hi : decode v = .ok i) :
    coreStep s = exec i s := by
  simp [coreStep, hv, hi]

/-- Where CORE moves next, a step is CORE's turn; with an empty agenda no turn is taken off it. -/
theorem step_of_coreMoves {s : State} {rest : List Turn} (h : coreMoves s rest) :
    step s = coreStep { s with agenda := rest } := by
  rcases h with hcore | ⟨hnil, haccess, rfl⟩
  · simp [step, hcore]
  · have hsame : { s with agenda := [] } = s := by rw [← hnil]
    rw [hsame]
    simp [step, hnil, haccess]

/-- `withFetchWord` puts CORE's turn first: the step is CORE's turn in the state acceptance of the word leaves. -/
theorem step_withFetchWord (s : State) (nbits w : Nat) :
    step (s.withFetchWord nbits w) = coreStep (accept (tableWord nbits w) s) :=
  step_of_coreMoves (.inl rfl)

/-- Settles O4: whose turn it is first (`step_of_coreMoves`, `step_withFetchWord`), then what CORE does with the accepted
word (`coreStep_of_decode_ok`). -/
theorem stepRunsDecodedCommand : Obligations.StepRunsDecodedCommand := by
  intro s v i hdecode
  constructor
  · intro rest hpending hmoves
    rw [step_of_coreMoves hmoves]
    exact coreStep_of_decode_ok hpending hdecode
  · rw [step_withFetchWord, tableWord_toNat]
    exact coreStep_of_decode_ok (accept_pending s v) hdecode

end Sys2Proof.Machine
end

section
/-! PROOFS. What a step does to any property of the state: the property is kept by every step that keeps it by a body's
operations, by completion and by HOST's accesses. -/

namespace Sys2Proof.Machine

/-! ## Every step -/

/-- A completed HOST access of a whole register, or a buffer access's next byte. -/
theorem hostAct_next {a : HostAction} {s t : State} (h : hostAct a s = .next t) :
    (∃ addr width value, t = note addr width value (drawIfBusy s)) ∨ (∃ r v, t = csrWrite r v s)
      ∨ ∃ x : Access, x.within s.params ∧ t = byteAccess x s := by
  cases a with
  | read addr width =>
    simp only [hostAct, hostRead] at h
    split at h
    · cases h
    · split at h
      · cases h; exact .inl ⟨_, _, _, rfl⟩
      · cases h
    · split at h
      · cases h; exact .inr (.inr ⟨_, ‹_›, rfl⟩)
      · cases h
  | write addr width value =>
    simp only [hostAct, hostWrite] at h
    split at h
    · cases h
    · split at h
      · cases h; exact .inr (.inl ⟨_, _, rfl⟩)
      · cases h
    · split at h
      · cases h
        exact .inr (.inr ⟨_, by simpa only [Access.within, length_leBytes] using ‹_ + width ≤ _›, rfl⟩)
      · cases h

/-- A property that each way to move keeps: CORE's completions, reset, an event, and HOST's accesses. -/
structure KeptByMoves (P : State → Prop) : Prop where
  agenda : ∀ s turns, P s → P { s with agenda := turns }
  command : ∀ i s, P s → P (complete (failRuleOf i) (bodyOf i s))
  illegal : ∀ s, P s → P (runIllegal s)
  reset : ∀ s, P s → P (hardReset s)
  event : ∀ s, P s → P (nextEvent s)
  csrRead : ∀ addr width value s, P s → P (note addr width value (drawIfBusy s))
  csrWrite : ∀ r v s, P s → P (csrWrite r v s)
  /-- The access is the one under way, or one just issued, which lies inside its buffer. -/
  byte : ∀ x s, (s.access = some x ∨ x.within s.params) → P s → P (byteAccess x s)

section
variable {P : State → Prop} (hP : KeptByMoves P) {s t : State}
include hP

theorem KeptByMoves.coreStep (hs : P s) (h : coreStep s = .next t) : P t := by
  obtain ⟨-, hc⟩ | ⟨v, i, -, -, hc⟩ | ⟨v, e, -, -, hc⟩ := coreStep_cases s <;> rw [hc] at h
  · cases h; exact hs
  · rw [exec_eq_complete] at h
    cases h; exact hP.command i s hs
  · cases h; exact hP.illegal s hs

theorem KeptByMoves.hostGoesOn (hs : P s) : P (hostGoesOn s) := by
  unfold Machine.hostGoesOn
  split
  · exact hs
  · exact hP.byte _ s (.inl ‹_›) hs

theorem KeptByMoves.hostAct {a : HostAction} (hs : P s) (h : hostAct a s = .next t) : P t := by
  obtain ⟨addr, width, value, rfl⟩ | ⟨r, v, rfl⟩ | ⟨x, hx, rfl⟩ := hostAct_next h
  · exact hP.csrRead addr width value s hs
  · exact hP.csrWrite r v s hs
  · exact hP.byte x s (.inr hx) hs

/-- A property that every move keeps is kept by every step. -/
theorem KeptByMoves.step (hs : P s) (h : step s = .next t) : P t := by
  obtain ⟨rest, -, hc⟩ | ⟨-, -, hc⟩ | ⟨rest, -, hc⟩ | ⟨rest, -, hc⟩ | ⟨rest, -, hc⟩ | ⟨a, rest, -, -, hc⟩ |
    ⟨x, hx, -, hc⟩ := step_cases s <;> rw [hc] at h
  · exact hP.coreStep (hP.agenda s rest hs) h
  · exact hP.coreStep hs h
  · cases h; exact hP.reset _ (hP.agenda s rest hs)
  · cases h; exact hP.event _ (hP.agenda s rest hs)
  · cases h; exact hP.hostGoesOn (hP.agenda s rest hs)
  · exact hP.hostAct (hP.agenda s rest hs) h
  · cases h; exact hP.byte x s (.inl hx) hs

end

/-- A write to a read-write register is dropped with OVERRUN set, or acts. -/
theorem writeIdle_of {P : State → Prop} {s t : State} (hs : P (setOverrun s)) (ht : P t) : P (writeIdle s t) := by
  unfold writeIdle
  split
  · exact hs
  · exact ht

/-! ## Every body -/

/-- A body ends in a state with the property, and raises no cause but those the block may write (60_exceptions.md
R322). -/
def CmdResult.Ends (P : State → Prop) (r : CmdResult) : Prop := P r.final ∧ ∀ c t, r = .failed c t → c.byBlock = true

@[simp] theorem CmdResult.ends_done {P : State → Prop} {s : State} : (CmdResult.done s).Ends P ↔ P s := by
  simp [CmdResult.Ends]

@[simp] theorem CmdResult.ends_failed {P : State → Prop} {c : Cause} {s : State} :
    (CmdResult.failed c s).Ends P ↔ P s ∧ c.byBlock = true := by
  simp [CmdResult.Ends]

theorem CmdResult.Ends.bind {P : State → Prop} {r : CmdResult} {f : State → CmdResult} (hr : r.Ends P)
    (hf : ∀ t, P t → (f t).Ends P) : (r.bind f).Ends P := by
  cases r with
  | done t => exact hf t (ends_done.mp hr)
  | failed c t => exact hr

theorem readEntries_error_byBlock {view : Nat → Byte} {inLen left p : Nat} {prev : Int} {f : SymTable Word} {c : Cause}
    (h : readEntries view inLen left p prev f = .error c) : c.byBlock = true := by
  induction left generalizing p prev f with
  | zero => cases h
  | succ left ih =>
    unfold readEntries at h
    split at h
    · cases h; rfl
    split at h
    · cases h; rfl
    split at h
    · cases h; rfl
    split at h
    · cases h; rfl
    · exact ih h

theorem readLengths_error_byBlock {view : Nat → Byte} {inLen p : Nat} {f : SymTable Word} {c : Cause}
    (h : readLengths view inLen f p = .error c) : c.byBlock = true := by
  unfold readLengths at h
  split at h
  · cases h; rfl
  split at h
  · cases h; rfl
  split at h
  · cases h; rfl
  split at h
  · cases h; rfl
  split at h
  · cases h; rfl
  · cases h

theorem readHeader_error_byBlock {view : Nat → Byte} {inLen : Nat} {c : Cause}
    (h : readHeader view inLen = .error c) : c.byBlock = true := by
  unfold readHeader at h
  split at h
  · cases h; rfl
  split at h
  · cases h; rfl
  split at h
  · cases h; exact readEntries_error_byBlock ‹_›
  · exact readLengths_error_byBlock h

/-- A property that each operation the bodies are made of keeps. A progress event's percentage is 0 to 100 (10_state.md
R42). -/
structure KeptByOps (P : State → Prop) : Prop where
  /-- OUT_LEN, ORIG_LEN, PAYLOAD_LEN, the bit reader, FREQ and OUT take any value. -/
  plain : ∀ outLen origLen payloadLen br freq outMem s, P s →
    P { s with
        outLen := outLen, origLen := origLen, payloadLen := payloadLen, br := br, freq := freq, outMem := outMem }
  emptyWriter : ∀ pos s, P s → P { s with bw := { pos := pos, acc := 0, cnt := 0 } }
  shiftWriter : ∀ b s, s.bw.cnt ≠ 7 → P s →
    P { s with bw := { pos := s.bw.pos, acc := shiftIn s.bw.acc b, cnt := s.bw.cnt + 1 } }
  noProgress : ∀ s, P s → P { s with progress := { pct := 0, pvalid := false } }
  emit : ∀ p s, p ≤ 100 → P s → P (emitProgress p s)
  build : ∀ s, P s → P (buildBody s)
  gencode : ∀ s, P s → P (gencodeBody s)
  clear : ∀ s, P s → P (clearBody s)

section
variable {P : State → Prop} (hP : KeptByOps P) {s : State}
include hP

theorem KeptByOps.storeOut (a : Nat) (b : Byte) (hs : P s) : P (storeOut a b s) := hP.plain _ _ _ _ _ _ s hs

theorem KeptByOps.wrbitBody (b : Bool) (hs : P s) : (wrbitBody b s).Ends P := by
  obtain ⟨-, h⟩ | ⟨-, -, -, h⟩ | ⟨-, -, -, h⟩ | ⟨-, hcnt, h⟩ := wrbitBody_cases b s <;> rw [h]
  · exact CmdResult.ends_failed.mpr ⟨hs, rfl⟩
  · exact CmdResult.ends_failed.mpr ⟨hs, rfl⟩
  · exact CmdResult.ends_done.mpr (hP.plain _ _ _ _ _ _ _ (hP.emptyWriter _ s hs))
  · exact CmdResult.ends_done.mpr (hP.shiftWriter b s hcnt hs)

theorem KeptByOps.flushBody (hs : P s) : (flushBody s).Ends P := by
  obtain ⟨-, h⟩ | ⟨-, -, h⟩ | ⟨-, -, -, h⟩ | ⟨-, -, -, h⟩ := flushBody_cases s <;> rw [h]
  · exact CmdResult.ends_failed.mpr ⟨hs, rfl⟩
  · exact CmdResult.ends_done.mpr hs
  · exact CmdResult.ends_failed.mpr ⟨hs, rfl⟩
  · exact CmdResult.ends_done.mpr (hP.plain _ _ _ _ _ _ _ (hP.emptyWriter _ s hs))

theorem KeptByOps.rdbitBody (hs : P s) : (rdbitBody s).Ends P := by
  obtain ⟨-, -, h⟩ | ⟨-, -, -, h⟩ | ⟨-, -, -, -, h⟩ | ⟨k, -, h⟩ := rdbitBody_cases s <;> rw [h]
  · exact CmdResult.ends_failed.mpr ⟨hs, rfl⟩
  · exact CmdResult.ends_failed.mpr ⟨hs, rfl⟩
  · exact CmdResult.ends_done.mpr (hP.plain _ _ _ _ _ _ s hs)
  · exact CmdResult.ends_done.mpr (hP.plain _ _ _ _ _ _ s hs)

theorem KeptByOps.countBody (hs : P s) : (countBody s).Ends P := by
  unfold Machine.countBody
  split
  · exact CmdResult.ends_failed.mpr ⟨hs, rfl⟩
  · exact CmdResult.ends_done.mpr (hP.plain _ _ _ _ _ _ s hs)

theorem KeptByOps.cwriteBody (hs : P s) : (cwriteBody s).Ends P := by
  unfold Machine.cwriteBody
  split
  · exact CmdResult.ends_failed.mpr ⟨hs, rfl⟩
  split
  · exact CmdResult.ends_failed.mpr ⟨hs, rfl⟩
  split
  · exact CmdResult.ends_failed.mpr ⟨hs, rfl⟩
  · exact CmdResult.ends_done.mpr (hP.plain _ _ _ _ _ _ _ (hP.emptyWriter _ s hs))

theorem KeptByOps.creadBody (hs : P s) : (creadBody s).Ends P := by
  unfold Machine.creadBody
  split
  · exact CmdResult.ends_failed.mpr ⟨hs, rfl⟩
  split
  · exact CmdResult.ends_failed.mpr ⟨hs, readHeader_error_byBlock ‹_›⟩
  · exact CmdResult.ends_done.mpr (hP.plain _ _ _ _ _ _ s hs)

theorem KeptByOps.writeBits (bits : List Bool) (hs : P s) : (writeBits bits s).Ends P := by
  induction bits generalizing s with
  | nil => exact CmdResult.ends_done.mpr hs
  | cons b bs ih => exact (hP.wrbitBody b hs).bind fun t ht => ih ht

theorem KeptByOps.emitIfGreater {pct : Nat} (last : Nat) (hpct : pct ≤ 100) (hs : P s) :
    P (emitIfGreater pct last s) := by
  unfold Machine.emitIfGreater
  split
  · exact hP.emit pct s hpct hs
  · exact hs

theorem KeptByOps.startProgress (n : Nat) (hs : P s) : P (startProgress n s) := by
  unfold Machine.startProgress
  split
  · exact hP.emit 0 s (by omega) hs
  · exact hs

omit hP in
theorem percent_le {i n : Nat} (h : i ≤ n) : percent i n ≤ 100 :=
  Nat.div_le_of_le_mul (by rw [Nat.mul_comm n]; exact Nat.mul_le_mul_left 100 h)

theorem KeptByOps.encodeFrom {n left i : Nat} (last : Nat) (hi : i + left ≤ n) (hs : P s) :
    (encodeFrom n left i last s).Ends P := by
  induction left generalizing i last s with
  | zero => exact CmdResult.ends_done.mpr hs
  | succ left ih =>
    exact (hP.writeBits _ hs).bind fun t ht =>
      ih _ (by omega) (hP.emitIfGreater last (percent_le (by omega)) ht)

theorem KeptByOps.compressTail (hs : P s) : (compressTail s).Ends P := by
  unfold Machine.compressTail
  simp only
  split
  · exact CmdResult.ends_failed.mpr ⟨hs, rfl⟩
  split
  · exact CmdResult.ends_failed.mpr ⟨hP.plain _ _ _ _ _ _ s hs, rfl⟩
  refine (hP.cwriteBody (hP.plain _ _ _ _ _ _ s hs)).bind fun t ht => ?_
  refine (hP.encodeFrom 0 (by omega) (hP.startProgress _ ht)).bind fun u hu => ?_
  exact (hP.flushBody hu).bind fun w hw => CmdResult.ends_done.mpr (hP.plain _ _ _ _ _ _ w hw)

theorem KeptByOps.compressBody (hs : P s) : (compressBody s).Ends P := by
  unfold Machine.compressBody
  simp only
  split
  · exact CmdResult.ends_failed.mpr ⟨hP.noProgress s hs, rfl⟩
  · exact (hP.countBody (hP.noProgress s hs)).bind fun t ht => hP.compressTail (hP.gencode _ (hP.build t ht))

theorem KeptByOps.decodeWalk (root total fuel out node : Nat) (hs : P s) :
    (decodeWalk root total fuel out node s).Ends P := by
  induction fuel generalizing out node s with
  | zero =>
    unfold Machine.decodeWalk
    split
    · exact CmdResult.ends_failed.mpr ⟨hs, rfl⟩
    · exact CmdResult.ends_done.mpr hs
  | succ fuel ih =>
    unfold Machine.decodeWalk
    split
    · split
      · refine (hP.rdbitBody hs).bind fun t ht => ?_
        simp only
        split <;> split
        · exact ih _ _ (hP.storeOut _ _ ht)
        · exact ih _ _ ht
        · exact ih _ _ (hP.storeOut _ _ ht)
        · exact ih _ _ ht
      · exact CmdResult.ends_failed.mpr ⟨hs, rfl⟩
    · exact CmdResult.ends_done.mpr hs

theorem KeptByOps.repeatSymbol (sym : Byte) (left out : Nat) (hs : P s) : P (repeatSymbol sym left out s) := by
  induction left generalizing out s with
  | zero => exact hs
  | succ left ih => exact ih _ (hP.storeOut _ _ hs)

theorem KeptByOps.decodeOneBit (sym : Byte) (left out : Nat) (hs : P s) : (decodeOneBit sym left out s).Ends P := by
  induction left generalizing out s with
  | zero => exact CmdResult.ends_done.mpr hs
  | succ left ih =>
    unfold Machine.decodeOneBit
    split
    · refine (hP.rdbitBody hs).bind fun t ht => ?_
      split
      · exact CmdResult.ends_failed.mpr ⟨ht, rfl⟩
      · exact ih _ (hP.storeOut _ _ ht)
    · exact CmdResult.ends_failed.mpr ⟨hs, rfl⟩

theorem KeptByOps.decodeSymbols (total : Nat) (hs : P s) : (decodeSymbols total s).Ends P := by
  unfold Machine.decodeSymbols
  simp only
  split
  · split
    · split
      · exact hP.decodeOneBit _ _ _ hs
      · exact CmdResult.ends_done.mpr (hP.repeatSymbol _ _ _ hs)
    · exact hP.decodeWalk _ _ _ _ _ hs
  · exact CmdResult.ends_failed.mpr ⟨hs, rfl⟩

theorem KeptByOps.decompressTail (hs : P s) : (decompressTail s).Ends P := by
  unfold Machine.decompressTail
  simp only
  split
  · exact CmdResult.ends_failed.mpr ⟨hs, rfl⟩
  split
  · exact CmdResult.ends_done.mpr (hP.plain _ _ _ _ _ _ s hs)
  · exact (hP.decodeSymbols _ hs).bind fun t ht =>
      CmdResult.ends_done.mpr (hP.plain _ _ _ _ _ _ t ht)

theorem KeptByOps.decompressBody (hs : P s) : (decompressBody s).Ends P := by
  unfold Machine.decompressBody
  split
  · exact CmdResult.ends_failed.mpr ⟨hs, rfl⟩
  · exact (hP.creadBody hs).bind fun t ht => hP.decompressTail (hP.build t ht)

/-- A property that every operation keeps is kept by every command's body. -/
theorem KeptByOps.bodyOf (i : Instr) (hs : P s) : (bodyOf i s).Ends P := by
  cases i
  case nop => exact CmdResult.ends_done.mpr hs
  case count => exact hP.countBody hs
  case build => exact CmdResult.ends_done.mpr (hP.build s hs)
  case gencode => exact CmdResult.ends_done.mpr (hP.gencode s hs)
  case wrbit b => exact hP.wrbitBody b hs
  case flush => exact hP.flushBody hs
  case rdbit => exact hP.rdbitBody hs
  case canrd => exact CmdResult.ends_done.mpr (hP.plain _ _ _ _ _ _ s hs)
  case cwrite => exact hP.cwriteBody hs
  case cread => exact hP.creadBody hs
  case compress => exact hP.compressBody hs
  case decompress => exact hP.decompressBody hs
  case clear => exact CmdResult.ends_done.mpr (hP.clear s hs)

/-- A property that every operation keeps is kept by every failure rule, which writes OUT_LEN and OUT alone. -/
theorem KeptByOps.failRuleOf (i : Instr) (hs : P s) : P (failRuleOf i s) := by
  cases i
  case cwrite => exact hP.plain _ _ _ _ _ _ s hs
  case compress => exact hP.plain _ _ _ _ _ _ s hs
  case decompress => exact hP.plain _ _ _ _ _ _ s hs
  all_goals exact hs

end

end Sys2Proof.Machine
end

section
/-! PROOFS. The state (10_state.md R34, R35, R42, R44, R55): every step keeps every register at a value its rule
admits. -/

namespace Sys2Proof.Machine

/-! ## The codec registers: the bit writer, PROGRESS and the code table -/

/-- The bit writer, PROGRESS and every code entry hold a value their rules admit. -/
def State.CodecOk (s : State) : Prop := s.bw.Ok ∧ s.progress.Ok ∧ ∀ sym, (symGet s.codes sym).Ok

theorem BitWriter.ok_empty (pos : Word) : BitWriter.Ok { pos := pos, acc := 0, cnt := 0 } := by
  simp [BitWriter.Ok]

theorem toNat_shiftIn_lt {acc : Byte} {n : Nat} (b : Bool) (h : acc.toNat < 2 ^ n) :
    (shiftIn acc b).toNat < 2 ^ (n + 1) := by
  have hacc : (acc <<< 1).toNat < 2 ^ (n + 1) := by
    rw [BitVec.toNat_shiftLeft, Nat.shiftLeft_eq]
    have := Nat.mod_le (acc.toNat * 2 ^ 1) (2 ^ 8)
    omega
  have hbit : ((BitVec.ofBool b).setWidth 8).toNat < 2 ^ (n + 1) := by
    cases b <;> simp
  rw [shiftIn, BitVec.toNat_or]
  exact Nat.or_lt_two_pow hacc hbit

theorem BitWriter.Ok.shiftIn {w : BitWriter} (b : Bool) (hcnt : w.cnt ≠ 7) (hw : w.Ok) :
    BitWriter.Ok { pos := w.pos, acc := Machine.shiftIn w.acc b, cnt := w.cnt + 1 } := by
  have hval : (w.cnt + 1).val = w.cnt.val + 1 := Fin.val_add_one_of_lt (Fin.lt_last_iff_ne_last.mpr hcnt)
  show _ < 2 ^ (w.cnt + 1).val
  rw [hval]
  exact toNat_shiftIn_lt b hw

theorem Progress.ok_none : Progress.Ok { pct := 0, pvalid := false } := by
  simp [Progress.Ok]

theorem Progress.ok_of_le {p : Nat} (h : p ≤ 100) : Progress.Ok { pct := BitVec.ofNat 8 p, pvalid := true } := by
  refine ⟨?_, nofun⟩
  rw [BitVec.toNat_ofNat, Nat.mod_eq_of_lt (by omega)]
  exact h

theorem Code.ok_absent : Code.absent.Ok := by
  simp [Code.Ok, Code.absent]

/-- LEN holds lengths up to 255 exactly, and the bits from the code's length on are 0. -/
theorem Code.ok_ofBits {c : List Bool} (h : c.length ≤ 255) : (Code.ofBits c).Ok := by
  refine ⟨nofun, fun k hk => ?_⟩
  have hlen : (Code.ofBits c).len.toNat = c.length := Nat.mod_eq_of_lt (by omega)
  rw [hlen] at hk
  simp [Code.ofBits, BitVec.getLsbD_of_ge _ _ hk]

theorem codes_ok_symFill (sym : Byte) : (symGet (symFill Code.absent) sym).Ok := by
  rw [symGet_symFill]
  exact Code.ok_absent

theorem codes_ok_symSet {codes : SymTable Code} {c : Code} (s : Byte) (hc : c.Ok) (h : ∀ sym, (symGet codes sym).Ok)
    (sym : Byte) : (symGet (symSet codes s c) sym).Ok := by
  rw [symGet_symSet]
  split
  · exact hc
  · exact h sym

/-- The walk's depth bound keeps every path within the 255 bits of MAX_CODE_LEN. -/
theorem codes_ok_walk (p : Pool) (fuel i : Nat) (path : List Bool) {codes : SymTable Code}
    (hlen : path.length + fuel ≤ 256) (h : ∀ sym, (symGet codes sym).Ok) (sym : Byte) :
    (symGet (walk p fuel i path codes) sym).Ok := by
  induction fuel generalizing i path codes sym with
  | zero => exact h sym
  | succ fuel ih =>
    unfold walk
    split
    · exact codes_ok_symSet _ (Code.ok_ofBits (by omega)) h sym
    · have hstep (b : Bool) : (path ++ [b]).length + fuel ≤ 256 := by
        rw [List.length_append, List.length_singleton]
        omega
      exact ih _ _ (hstep true) (ih _ _ (hstep false) h) sym

theorem codes_ok_genCodes (p : Pool) (t : TreeInfo) (ssm : Bool) (sym : Byte) : (symGet (genCodes p t ssm) sym).Ok := by
  unfold genCodes
  split
  · split
    · refine codes_ok_symSet _ ?_ codes_ok_symFill sym
      cases ssm
      · exact Code.ok_ofBits (c := []) (by decide)
      · exact Code.ok_ofBits (c := [false]) (by decide)
    · exact codes_ok_walk p walkDepth _ [] (by decide) codes_ok_symFill sym
  · exact codes_ok_symFill sym

theorem codecOk_keptByOps : KeptByOps State.CodecOk where
  plain := fun _ _ _ _ _ _ _ h => h
  emptyWriter := fun pos _ ⟨_, hprog, hcodes⟩ => ⟨BitWriter.ok_empty pos, hprog, hcodes⟩
  shiftWriter := fun b _ hcnt ⟨hbw, hprog, hcodes⟩ => ⟨hbw.shiftIn b hcnt, hprog, hcodes⟩
  noProgress := fun _ ⟨hbw, _, hcodes⟩ => ⟨hbw, Progress.ok_none, hcodes⟩
  emit := fun _ _ hp ⟨hbw, _, hcodes⟩ => ⟨hbw, Progress.ok_of_le hp, hcodes⟩
  build := fun _ ⟨hbw, hprog, _⟩ => ⟨hbw, hprog, codes_ok_symFill⟩
  gencode := fun _ ⟨hbw, hprog, _⟩ => ⟨hbw, hprog, codes_ok_genCodes _ _ _⟩
  clear := fun _ _ => ⟨BitWriter.ok_empty 0, Progress.ok_none, codes_ok_symFill⟩

/-! ## STATUS and ERR -/

/-- What STATUS and ERR owe each other, whether BUSY is 1 or 0. -/
def State.ErrOk (s : State) : Prop := s.status.err = s.err.isSome ∧ ∀ c, s.err = some c → c.byBlock = true

theorem State.StatusOk.errOk {s : State} (h : s.StatusOk) : s.ErrOk := ⟨h.1, h.2.1⟩

/-- While BUSY = 0, nothing is owed but by ERR and the notes of races and events. -/
theorem statusOk_of_idle {s : State} (hidle : s.pending = none) (herr : s.ErrOk) (hin : s.inRaces = [])
    (hout : s.outTouched = []) (hseen : s.eventsSeen = 0) : s.StatusOk := by
  have hbusy : s.busy = false := by simp [State.busy, hidle]
  exact ⟨herr.1, herr.2, by simp [hbusy], by simp [hbusy], fun _ => ⟨hin, hout, hseen⟩⟩

theorem completeOk_statusOk {s : State} (h : s.ErrOk) : (completeOk s).StatusOk :=
  statusOk_of_idle rfl h rfl rfl rfl

theorem completeFailed_statusOk {c : Cause} (s : State) (h : c.byBlock = true) : (completeFailed c s).StatusOk := by
  refine statusOk_of_idle rfl ⟨rfl, fun d hd => ?_⟩ rfl rfl rfl
  cases hd
  exact h

/-! ## Completion -/

theorem complete_registersOk (i : Instr) {s : State} (h : s.RegistersOk) :
    (complete (failRuleOf i) (bodyOf i s)).RegistersOk := by
  obtain ⟨hstatus, hcodec⟩ := h
  obtain ⟨hends, hcause⟩ := codecOk_keptByOps.bodyOf i hcodec
  cases hr : bodyOf i s with
  | done t =>
    rw [hr] at hends
    have hframe : BodyFrame s t := by simpa [hr] using bodyOf_frame i s
    have herr : t.ErrOk := by
      rw [State.ErrOk, hframe.errBit, hframe.err]
      exact hstatus.errOk
    exact ⟨completeOk_statusOk herr, hends⟩
  | failed c t =>
    rw [hr] at hends
    exact ⟨completeFailed_statusOk _ (hcause c t hr), codecOk_keptByOps.failRuleOf i hends⟩

theorem runIllegal_registersOk {s : State} (h : s.RegistersOk) : (runIllegal s).RegistersOk :=
  ⟨completeFailed_statusOk s rfl, h.2⟩

theorem atReset_registersOk (p : Params) (d : Nat) : (State.atReset p d).RegistersOk :=
  ⟨statusOk_of_idle rfl ⟨rfl, nofun⟩ rfl rfl rfl, BitWriter.ok_empty 0, Progress.ok_none, codes_ok_symFill⟩

/-- Only a COMPRESS has an event, and while it runs PROG_PEND and the count of its events are free. -/
theorem nextEvent_registersOk {s : State} (h : s.RegistersOk) : (nextEvent s).RegistersOk := by
  obtain ⟨hpending, -, he⟩ | ⟨-, he⟩ := nextEvent_cases s <;> rw [he]
  · obtain ⟨⟨herr, hcause, hbusy, -, -⟩, hcodec⟩ := h
    have hb : s.busy = true := by simp [State.busy, hpending]
    refine ⟨⟨herr, hcause, hbusy, fun _ hne => absurd hpending hne, fun hidle => ?_⟩, hcodec⟩
    exact absurd (hb.symm.trans hidle) nofun
  · exact h

/-! ## HOST's accesses -/

theorem accept_registersOk (v : Word) {s : State} (h : s.RegistersOk) : (accept v s).RegistersOk :=
  ⟨⟨rfl, nofun, fun _ => ⟨rfl, rfl⟩, fun _ _ => ⟨rfl, rfl⟩, nofun⟩, h.2⟩

theorem w1cStatus_registersOk (v : Word) {s : State} (h : s.RegistersOk) : (w1cStatus v s).RegistersOk := by
  obtain ⟨⟨herr, hcause, hbusy, hother, hidle⟩, hcodec⟩ := h
  refine ⟨⟨?_, ?_, ?_, ?_, hidle⟩, hcodec⟩
  · simp only [w1cStatus, herr]
    cases v.getLsbD 2 <;> simp
  · intro c hc
    simp only [w1cStatus] at hc
    split at hc
    · cases hc
    · exact hcause c hc
  · intro hb
    obtain ⟨hdone, herrBit⟩ := hbusy hb
    simp [w1cStatus, hdone, herrBit]
  · intro hb hne
    obtain ⟨hprog, hseen⟩ := hother hb hne
    simp [w1cStatus, hprog, hseen]

theorem csrWrite_registersOk (r : Csr) (v : Word) {s : State} (h : s.RegistersOk) : (csrWrite r v s).RegistersOk := by
  cases r
  case cmd => exact writeIdle_of h (accept_registersOk v h)
  case status => exact w1cStatus_registersOk v h
  case bwPos => exact writeIdle_of h ⟨h.1, BitWriter.ok_empty v, h.2.2⟩
  case id | err | outLen | entryCount | progress | bwState | brState | treeInfo | reserved | node | code => exact h
  case ctrl | inLen | outCap | origLen | payloadLen | brPos | brEnd | freq => exact writeIdle_of h h

/-- An IN byte is noted as raced only while BUSY = 1. -/
theorem hostWriteIn_registersOk (a : Nat) (b : Byte) {s : State} (h : s.RegistersOk) :
    (hostWriteIn a b s).RegistersOk := by
  obtain ⟨⟨herr, hcause, hbusy, hother, hidle⟩, hcodec⟩ := h
  refine ⟨⟨herr, hcause, hbusy, hother, fun hb => ?_⟩, hcodec⟩
  have hs : s.busy = false := hb
  simpa [hs] using hidle hs

/-- An OUT byte is marked only while BUSY = 1. -/
theorem hostWriteOut_registersOk (a : Nat) (b : Byte) {s : State} (h : s.RegistersOk) :
    (hostWriteOut a b s).RegistersOk := by
  unfold hostWriteOut
  split
  · obtain ⟨⟨herr, hcause, hbusy, hother, -⟩, hcodec⟩ := h
    refine ⟨⟨herr, hcause, hbusy, hother, fun hb => ?_⟩, hcodec⟩
    exact absurd (‹s.busy = true›.symm.trans hb) nofun
  · exact h

theorem writeGoesOn_registersOk (b : Buffer) (off : Nat) (bytes : List Byte) {s : State} (h : s.RegistersOk) :
    (writeGoesOn b off bytes s).RegistersOk := by
  cases bytes <;> exact h

theorem byteAccess_registersOk (x : Access) {s : State} (h : s.RegistersOk) : (byteAccess x s).RegistersOk := by
  match x with
  | .reading addr b off left got =>
    obtain ⟨draws, access, reads, he⟩ := byteAccess_reading addr off left b got s
    rw [he]
    exact h
  | .writing b off [] => exact h
  | .writing .input off (v :: vs) => exact writeGoesOn_registersOk _ _ vs (hostWriteIn_registersOk off v h)
  | .writing .output off (v :: vs) => exact writeGoesOn_registersOk _ _ vs (hostWriteOut_registersOk off v h)

theorem registersOk_keptByMoves : KeptByMoves State.RegistersOk where
  agenda := fun _ _ h => h
  command := fun i _ h => complete_registersOk i h
  illegal := fun _ h => runIllegal_registersOk h
  reset := fun s _ => atReset_registersOk s.params s.draws
  event := fun _ h => nextEvent_registersOk h
  csrRead := fun _ _ _ _ h => h
  csrWrite := fun r v _ h => csrWrite_registersOk r v h
  byte := fun x _ _ h => byteAccess_registersOk x h

/-- Settles O57: the invariant is kept by each way to move (`registersOk_keptByMoves`), so by every step. -/
theorem stepKeepsRegistersOk : Obligations.StepKeepsRegistersOk :=
  fun _ _ h hstep => registersOk_keptByMoves.step h hstep

end Sys2Proof.Machine
end

section
/-! PROOFS. The state (10_state.md R48, R52, R54; 41_tree.md R170-R175): BUILD makes a strict tree of every frequency
table. -/

namespace Sys2Proof.Machine

/-! ## The node pool as nodes are added -/

theorem nodeAt_append_of_lt {p : Pool} {i : Nat} (x : Node) (h : i < p.length) : nodeAt (p ++ [x]) i = nodeAt p i := by
  simp [nodeAt, List.getElem?_append_left h]

@[simp] theorem nodeAt_append_length (p : Pool) (x : Node) : nodeAt (p ++ [x]) p.length = x := by
  simp [nodeAt]

/-- The parents in a pool with one more node are those there were, and the new node if it is the parent. -/
theorem isParent_append {p : Pool} {x : Node} {j i : Nat} :
    isParent (p ++ [x]) j i ↔
      isParent p j i ∨ j = p.length ∧ x.isLeaf = false ∧ (x.left.toNat = i ∨ x.right.toNat = i) := by
  rcases Nat.lt_trichotomy j p.length with hj | rfl | hj
  · have hne : j ≠ p.length := by omega
    have hlt : j < p.length + 1 := by omega
    simp [isParent, nodeAt_append_of_lt x hj, hj, hne, hlt]
  · simp [isParent]
  · have hne : j ≠ p.length := by omega
    have hge : ¬ j < p.length + 1 := by omega
    have hge' : ¬ j < p.length := by omega
    simp [isParent, hne, hge, hge']

/-- Children stand before their parents, so a node keeps its shape as nodes are added. -/
theorem nodeShape_append {p : Pool} {i : Nat} (x : Node) (hi : i < p.length) (h : nodeShape p i) :
    nodeShape (p ++ [x]) i := by
  unfold nodeShape at h ⊢
  rw [nodeAt_append_of_lt x hi]
  split at h
  · rename_i hleaf
    rwa [if_pos hleaf]
  · rename_i hleaf
    obtain ⟨hsym, hleft, hright, hne, hweight⟩ := h
    rw [if_neg hleaf, nodeAt_append_of_lt x (by omega), nodeAt_append_of_lt x (by omega)]
    exact ⟨hsym, hleft, hright, hne, hweight⟩

/-! ## One merge -/

/-- The least of a queue is one of its elements, and there is one unless the queue is empty. -/
theorem leastOf_mem {p : Pool} {q : List Nat} {a : Nat} (h : leastOf p q = some a) : a ∈ q := by
  induction q generalizing a with
  | nil => cases h
  | cons i q ih =>
    unfold leastOf at h
    split at h
    · cases h; simp
    · rename_i j hj
      split at h
      · cases h; exact List.mem_cons_of_mem _ (ih hj)
      · cases h; simp

theorem leastOf_eq_none {p : Pool} {q : List Nat} : leastOf p q = none ↔ q = [] := by
  cases q with
  | nil => simp [leastOf]
  | cons i q =>
    unfold leastOf
    split
    · simp
    · split <;> simp

/-- The forest after a merge of nodes a and b (41_tree.md R174). -/
def Forest.join (f : Forest) (a b : Nat) : Forest :=
  { pool := f.pool ++ [joinNodes f.pool a b], queue := (f.queue.erase a).erase b ++ [f.pool.length] }

/-- Everything one merge can do: nothing with fewer than two waiting nodes, else it joins two different waiting ones. -/
theorem mergeOnce_cases (f : Forest) :
    (f.queue.length < 2 ∧ mergeOnce f = none)
      ∨ ∃ a b, leastOf f.pool f.queue = some a ∧ leastOf f.pool (f.queue.erase a) = some b
          ∧ mergeOnce f = some (f.join a b) := by
  unfold mergeOnce
  cases ha : leastOf f.pool f.queue with
  | none =>
    have hnil := leastOf_eq_none.mp ha
    exact .inl ⟨by simp [hnil], rfl⟩
  | some a =>
    simp only
    cases hb : leastOf f.pool (f.queue.erase a) with
    | none =>
      have hlen := List.length_erase_of_mem (leastOf_mem ha)
      rw [leastOf_eq_none.mp hb, List.length_nil] at hlen
      exact .inl ⟨by omega, rfl⟩
    | some b => exact .inr ⟨a, b, rfl, hb, rfl⟩

/-- A merge takes one node off the queue. -/
theorem length_queue_mergeOnce {f g : Forest} (h : mergeOnce f = some g) : g.queue.length + 1 = f.queue.length := by
  obtain ⟨-, hn⟩ | ⟨a, b, ha, hb, he⟩ := mergeOnce_cases f
  · rw [hn] at h; cases h
  · rw [he] at h
    cases h
    have h1 := List.length_erase_of_mem (leastOf_mem ha)
    have h2 := List.length_erase_of_mem (leastOf_mem hb)
    have h3 := List.length_pos_of_mem (leastOf_mem ha)
    have h4 := List.length_pos_of_mem (leastOf_mem hb)
    simp only [Forest.join, List.length_append, List.length_singleton]
    omega

/-- What every merge keeps, merging keeps. -/
theorem mergeAll_induction {P : Forest → Prop} (hstep : ∀ f g, P f → mergeOnce f = some g → P g) (fuel : Nat)
    (f : Forest) (h : P f) : P (mergeAll fuel f) := by
  induction fuel generalizing f with
  | zero => exact h
  | succ fuel ih =>
    unfold mergeAll
    split
    · exact h
    · exact ih _ (hstep f _ h ‹_›)

/-- Merging ends with at most one node waiting, given a merge for each node but one. -/
theorem length_queue_mergeAll_le (fuel : Nat) (f : Forest) (h : f.queue.length ≤ fuel + 1) :
    (mergeAll fuel f).queue.length ≤ 1 := by
  induction fuel generalizing f with
  | zero => exact h
  | succ fuel ih =>
    unfold mergeAll
    split
    · rename_i hnone
      obtain ⟨hlt, -⟩ | ⟨a, b, -, -, he⟩ := mergeOnce_cases f
      · omega
      · rw [he] at hnone; cases hnone
    · rename_i g hg
      have := length_queue_mergeOnce hg
      exact ih g (by omega)

/-! ## The forest during a BUILD -/

/-- The exact sum of the weights of the waiting nodes. -/
def queueWeight (f : Forest) : Nat := (f.queue.map fun i => (nodeAt f.pool i).weight.toNat).sum

/-- A forest of n leaves: the nodes that wait are exactly those without a parent, every other node has one parent, the
node made last waits, every node has its shape, and the waiting weights fit a node's 72 bits. -/
structure ForestOk (n : Nat) (f : Forest) : Prop where
  count : f.pool.length + f.queue.length = 2 * n
  nodup : f.queue.Nodup
  inPool : ∀ i ∈ f.queue, i < f.pool.length
  lastWaits : 0 < n → f.pool.length - 1 ∈ f.queue
  waiting : ∀ i ∈ f.queue, ∀ j, ¬ isParent f.pool j i
  joined : ∀ i < f.pool.length, i ∉ f.queue → ∃! j, isParent f.pool j i
  shape : ∀ i < f.pool.length, nodeShape f.pool i
  weight : queueWeight f < 2 ^ 72
  distinct : ∀ i j, i < f.pool.length → j < f.pool.length → (nodeAt f.pool i).isLeaf = true →
    (nodeAt f.pool j).isLeaf = true → (nodeAt f.pool i).symbol = (nodeAt f.pool j).symbol → i = j

/-- A child stands before its parent. -/
theorem ForestOk.lt_of_isParent {n : Nat} {f : Forest} (hf : ForestOk n f) {j i : Nat} (h : isParent f.pool j i) :
    i < j := by
  obtain ⟨hj, hleaf, hchild⟩ := h
  have hshape := hf.shape j hj
  rw [nodeShape, if_neg (by simp [hleaf])] at hshape
  obtain ⟨-, hleft, hright, -⟩ := hshape
  rcases hchild with rfl | rfl
  · exact hleft
  · exact hright

/-! ### One merge keeps the forest -/

section
variable {n : Nat} {f : Forest} {a b : Nat} (hf : ForestOk n f) (ha : a ∈ f.queue) (hb : b ∈ f.queue.erase a)
include hf ha hb

omit ha in
theorem ForestOk.mem_queue_second : b ∈ f.queue ∧ b ≠ a := by
  rw [hf.nodup.mem_erase_iff] at hb
  exact ⟨hb.2, hb.1⟩

omit hf in
/-- The queue is its two least nodes and the rest. -/
theorem perm_queue_erase : f.queue.Perm (a :: b :: (f.queue.erase a).erase b) :=
  (List.perm_cons_erase ha).trans ((List.perm_cons_erase hb).cons a)

omit ha hb in
theorem ForestOk.mem_queue_join (i : Nat) :
    i ∈ (f.join a b).queue ↔ i ∈ f.queue ∧ i ≠ a ∧ i ≠ b ∨ i = f.pool.length := by
  rw [Forest.join, List.mem_append, List.mem_singleton, (hf.nodup.erase a).mem_erase_iff, hf.nodup.mem_erase_iff]
  tauto

/-- A merge finds room: the pool has at most 510 nodes. -/
theorem ForestOk.length_pool_lt (hn : n ≤ 256) : f.pool.length < 511 := by
  have hcount := hf.count
  have hlen := (perm_queue_erase ha hb).length_eq
  simp only [List.length_cons] at hlen
  omega

omit hb in
theorem ForestOk.toNat_ofNat_index (hn : n ≤ 256) : (BitVec.ofNat 9 a).toNat = a := by
  have hcount := hf.count
  have hlt := hf.inPool a ha
  have hpos := List.length_pos_of_mem ha
  rw [BitVec.toNat_ofNat, Nat.mod_eq_of_lt (by omega)]

omit hf in
theorem queueWeight_eq : queueWeight f = (nodeAt f.pool a).weight.toNat + ((nodeAt f.pool b).weight.toNat
    + (((f.queue.erase a).erase b).map fun i => (nodeAt f.pool i).weight.toNat).sum) := by
  rw [queueWeight, ((perm_queue_erase ha hb).map _).sum_eq, List.map_cons, List.map_cons, List.sum_cons, List.sum_cons]

/-- The joined node weighs the exact sum. -/
theorem ForestOk.weight_joinNodes : (joinNodes f.pool a b).weight.toNat
    = (nodeAt f.pool a).weight.toNat + (nodeAt f.pool b).weight.toNat := by
  have hsum := queueWeight_eq ha hb
  have hlt := hf.weight
  rw [joinNodes, BitVec.toNat_add, Nat.mod_eq_of_lt (by omega)]

theorem ForestOk.queueWeight_join : queueWeight (f.join a b) = queueWeight f := by
  have hrest : ((f.queue.erase a).erase b).map (fun i => (nodeAt (f.join a b).pool i).weight.toNat)
      = ((f.queue.erase a).erase b).map fun i => (nodeAt f.pool i).weight.toNat := by
    refine List.map_congr_left fun i hi => ?_
    rw [Forest.join, nodeAt_append_of_lt _ (hf.inPool i (List.mem_of_mem_erase (List.mem_of_mem_erase hi)))]
  have hnew : (nodeAt (f.join a b).pool f.pool.length).weight.toNat
      = (nodeAt f.pool a).weight.toNat + (nodeAt f.pool b).weight.toNat := by
    rw [Forest.join, nodeAt_append_length, hf.weight_joinNodes ha hb]
  calc queueWeight (f.join a b)
      = (((f.queue.erase a).erase b).map fun i => (nodeAt (f.join a b).pool i).weight.toNat).sum
          + (nodeAt (f.join a b).pool f.pool.length).weight.toNat := by
        rw [queueWeight, Forest.join, List.map_append, List.sum_append, List.map_singleton, List.sum_singleton]
    _ = queueWeight f := by
        rw [hrest, hnew, queueWeight_eq ha hb]
        omega

theorem ForestOk.isParent_join (hn : n ≤ 256) (j i : Nat) :
    isParent (f.join a b).pool j i ↔ isParent f.pool j i ∨ j = f.pool.length ∧ (i = a ∨ i = b) := by
  have hleft : (joinNodes f.pool a b).left.toNat = a := hf.toNat_ofNat_index ha hn
  have hright : (joinNodes f.pool a b).right.toNat = b :=
    hf.toNat_ofNat_index (hf.mem_queue_second hb).1 hn
  rw [Forest.join, isParent_append, hleft, hright]
  simp [joinNodes, eq_comm]

theorem ForestOk.shape_join (hn : n ≤ 256) : nodeShape (f.join a b).pool f.pool.length := by
  obtain ⟨hbq, hne⟩ := hf.mem_queue_second hb
  have hleft : (joinNodes f.pool a b).left.toNat = a := hf.toNat_ofNat_index ha hn
  have hright : (joinNodes f.pool a b).right.toNat = b := hf.toNat_ofNat_index hbq hn
  rw [nodeShape, Forest.join, nodeAt_append_length, if_neg (by simp [joinNodes]), hleft, hright,
    nodeAt_append_of_lt _ (hf.inPool a ha), nodeAt_append_of_lt _ (hf.inPool b hbq)]
  refine ⟨rfl, hf.inPool a ha, hf.inPool b hbq, fun he => hne ?_, hf.weight_joinNodes ha hb⟩
  exact hright.symm.trans ((congrArg BitVec.toNat he).symm.trans hleft)

/-- The two nodes a merge takes have the new node as their one parent, and no other node's parents change. -/
theorem ForestOk.joined_join (hn : n ≤ 256) (i : Nat) (hi : i < (f.join a b).pool.length)
    (hq : i ∉ (f.join a b).queue) : ∃! j, isParent (f.join a b).pool j i := by
  rw [hf.mem_queue_join] at hq
  simp only [Forest.join, List.length_append, List.length_singleton] at hi
  simp only [hf.isParent_join ha hb hn]
  by_cases hw : i ∈ f.queue
  · have htaken : i = a ∨ i = b := by tauto
    refine ⟨f.pool.length, .inr ⟨rfl, htaken⟩, fun j hj => ?_⟩
    rcases hj with hold | ⟨hnew, -⟩
    · exact absurd hold (hf.waiting i hw j)
    · exact hnew
  · obtain ⟨j, hj, huniq⟩ := hf.joined i (by omega) hw
    refine ⟨j, .inl hj, fun k hk => ?_⟩
    rcases hk with hold | ⟨-, rfl | rfl⟩
    · exact huniq k hold
    · exact absurd ha hw
    · exact absurd (hf.mem_queue_second hb).1 hw

theorem ForestOk.waiting_join (hn : n ≤ 256) (i : Nat) (hi : i ∈ (f.join a b).queue) (j : Nat) :
    ¬ isParent (f.join a b).pool j i := by
  rw [hf.isParent_join ha hb hn]
  obtain ⟨hw, hna, hnb⟩ | rfl := (hf.mem_queue_join i).mp hi
  · rintro (hold | ⟨-, htaken⟩)
    · exact hf.waiting i hw j hold
    · tauto
  · rintro (hold | ⟨-, htaken⟩)
    · have hlt := hf.lt_of_isParent hold
      have hj := hold.1
      omega
    · have hla := hf.inPool a ha
      have hlb := hf.inPool b (hf.mem_queue_second hb).1
      omega

omit hf ha hb in
/-- The new node is no leaf, so the leaves and their symbols stay. -/
theorem leaf_join {i : Nat} (hi : i < (f.join a b).pool.length)
    (hleaf : (nodeAt (f.join a b).pool i).isLeaf = true) :
    i < f.pool.length ∧ nodeAt (f.join a b).pool i = nodeAt f.pool i := by
  simp only [Forest.join, List.length_append, List.length_singleton] at hi hleaf ⊢
  have hne : i ≠ f.pool.length := by
    rintro rfl
    simp [joinNodes] at hleaf
  have hlt : i < f.pool.length := by omega
  exact ⟨hlt, nodeAt_append_of_lt _ hlt⟩

/-- One merge keeps the forest. -/
theorem ForestOk.join (hn : n ≤ 256) : ForestOk n (f.join a b) where
  count := by
    have hcount := hf.count
    have hlen := (perm_queue_erase ha hb).length_eq
    simp only [Forest.join, List.length_append, List.length_cons, List.length_nil] at hlen ⊢
    omega
  nodup := by
    rw [Forest.join, List.nodup_append]
    refine ⟨(hf.nodup.erase a).erase b, List.nodup_singleton _, fun i hi j hj => ?_⟩
    have := hf.inPool i (List.mem_of_mem_erase (List.mem_of_mem_erase hi))
    rw [List.mem_singleton.mp hj]
    omega
  inPool := fun i hi => by
    simp only [Forest.join, List.length_append, List.length_singleton]
    obtain ⟨hw, -⟩ | rfl := (hf.mem_queue_join i).mp hi
    · have := hf.inPool i hw
      omega
    · omega
  lastWaits := fun _ => by simp [Forest.join]
  waiting := hf.waiting_join ha hb hn
  joined := hf.joined_join ha hb hn
  shape := fun i hi => by
    by_cases hlast : i = f.pool.length
    · rw [hlast]
      exact hf.shape_join ha hb hn
    · have hlt : i < f.pool.length := by
        simp only [Forest.join, List.length_append, List.length_singleton] at hi
        omega
      exact nodeShape_append _ hlt (hf.shape i hlt)
  weight := by
    rw [hf.queueWeight_join ha hb]
    exact hf.weight
  distinct := fun i j hi hj hli hlj hsym => by
    obtain ⟨hi', hni⟩ := leaf_join hi hli
    obtain ⟨hj', hnj⟩ := leaf_join hj hlj
    rw [hni] at hli hsym
    rw [hnj] at hlj hsym
    exact hf.distinct i j hi' hj' hli hlj hsym

end

theorem ForestOk.mergeOnce {n : Nat} {f g : Forest} (hn : n ≤ 256) (hf : ForestOk n f) (h : mergeOnce f = some g) :
    ForestOk n g := by
  obtain ⟨-, hnone⟩ | ⟨a, b, ha, hb, he⟩ := mergeOnce_cases f
  · rw [hnone] at h; cases h
  · rw [he] at h
    cases h
    exact hf.join (leastOf_mem ha) (leastOf_mem hb) hn

/-! ### The seeded forest, and the merged one -/

@[simp] theorem length_pool_seededForest (freq : SymTable Word) :
    (seededForest freq).pool.length = (entries freq).length := by
  simp [seededForest]

theorem length_queue_seededForest (freq : SymTable Word) : (seededForest freq).queue.length = entryCount freq :=
  List.length_range

theorem nodeAt_seededForest {freq : SymTable Word} {i : Nat} (h : i < (entries freq).length) :
    nodeAt (seededForest freq).pool i = leafNode (entries freq)[i] := by
  simp only [nodeAt, seededForest]
  rw [List.getD_eq_getElem _ _ (by simpa using h), List.getElem_map]

@[simp] theorem mem_queue_seededForest {freq : SymTable Word} {i : Nat} :
    i ∈ (seededForest freq).queue ↔ i < (entries freq).length := by
  simp [seededForest, entryCount]

theorem toNat_weight_leafNode (e : Byte × Word) : (leafNode e).weight.toNat = e.2.toNat := by
  rw [leafNode, BitVec.toNat_setWidth, Nat.mod_eq_of_lt (e.2.isLt.trans (by norm_num))]

/-- The symbols of the entries, in the table's order, are among the ascending list of symbols. -/
theorem entries_symbols_nodup (freq : SymTable Word) : ((entries freq).map Prod.fst).Nodup := by
  have hzip : (allSymbols.zip freq.toList).map Prod.fst = allSymbols := List.map_fst_zip (by simp)
  have hall : allSymbols.Nodup := by
    refine List.Nodup.map_on (fun i hi j hj he => ?_) List.nodup_range
    rw [List.mem_range] at hi hj
    have := congrArg BitVec.toNat he
    rwa [BitVec.toNat_ofNat, BitVec.toNat_ofNat, Nat.mod_eq_of_lt (by omega), Nat.mod_eq_of_lt (by omega)] at this
  rw [← hzip] at hall
  exact hall.sublist (List.filter_sublist.map _)

theorem nodeShape_seededForest {freq : SymTable Word} {i : Nat} (h : i < (entries freq).length) :
    nodeShape (seededForest freq).pool i := by
  have hne : (entries freq)[i].2 ≠ 0 := ((mem_entries freq _ _).mp (List.getElem_mem h)).2
  have hpos : 0 < (entries freq)[i].2.toNat := by
    rw [Nat.pos_iff_ne_zero]
    exact fun h0 => hne (BitVec.eq_of_toNat_eq h0)
  have hleaf : (leafNode (entries freq)[i]).isLeaf = true := rfl
  rw [nodeShape, nodeAt_seededForest h, if_pos hleaf, toNat_weight_leafNode]
  exact ⟨rfl, rfl, hpos, BitVec.isLt _⟩

/-- 256 counts of 64 bits add up to less than 72 bits. -/
theorem queueWeight_seededForest_lt (freq : SymTable Word) : queueWeight (seededForest freq) < 2 ^ 72 := by
  have hle : queueWeight (seededForest freq) ≤ entryCount freq * (2 ^ 64 - 1) := by
    refine (List.sum_le_card_nsmul _ (2 ^ 64 - 1) fun w hw => ?_).trans (by simp [seededForest])
    obtain ⟨i, hi, rfl⟩ := List.mem_map.mp hw
    rw [nodeAt_seededForest (mem_queue_seededForest.mp hi), toNat_weight_leafNode]
    exact Nat.le_sub_one_of_lt (BitVec.isLt _)
  have := entryCount_le freq
  omega

theorem seededForest_ok (freq : SymTable Word) : ForestOk (entryCount freq) (seededForest freq) where
  count := by
    rw [length_pool_seededForest, length_queue_seededForest, entryCount]
    omega
  nodup := List.nodup_range
  inPool := fun i hi => by
    rw [length_pool_seededForest]
    exact mem_queue_seededForest.mp hi
  lastWaits := fun hpos => by
    rw [length_pool_seededForest, mem_queue_seededForest]
    exact Nat.sub_one_lt_of_lt hpos
  waiting := fun i _ j ⟨hj, hleaf, _⟩ => by
    rw [length_pool_seededForest] at hj
    rw [nodeAt_seededForest hj] at hleaf
    cases hleaf
  joined := fun i hi hq => by
    rw [length_pool_seededForest] at hi
    exact absurd (mem_queue_seededForest.mpr hi) hq
  shape := fun i hi => nodeShape_seededForest (by rwa [length_pool_seededForest] at hi)
  weight := queueWeight_seededForest_lt freq
  distinct := fun i j hi hj _ _ hsym => by
    rw [length_pool_seededForest] at hi hj
    rw [nodeAt_seededForest hi, nodeAt_seededForest hj] at hsym
    have hmap : ((entries freq).map Prod.fst)[i]'(by simpa using hi)
        = ((entries freq).map Prod.fst)[j]'(by simpa using hj) := by
      rw [List.getElem_map, List.getElem_map]
      exact hsym
    exact (entries_symbols_nodup freq).getElem_inj_iff.mp hmap

theorem mergedForest_ok (freq : SymTable Word) : ForestOk (entryCount freq) (mergedForest freq) :=
  mergeAll_induction (fun _ _ hf h => hf.mergeOnce (entryCount_le freq) h) _ _ (seededForest_ok freq)

theorem length_queue_mergedForest_le (freq : SymTable Word) : (mergedForest freq).queue.length ≤ 1 := by
  refine length_queue_mergeAll_le _ _ ?_
  rw [length_queue_seededForest]
  omega

/-- A forest with one node waiting is a strict tree with that node, the last, as its root; one with none is empty. -/
theorem ForestOk.treeOk {n : Nat} {f : Forest} (hn : n ≤ 256) (hf : ForestOk n f) (hone : f.queue.length ≤ 1) :
    treeOk f.pool (treeInfoOf f) := by
  have hcount := hf.count
  have hlast := hf.lastWaits
  cases hq : f.queue with
  | nil =>
    rw [hq] at hcount hlast
    have hn0 : n = 0 := by
      rcases Nat.eq_zero_or_pos n with h0 | hpos
      · exact h0
      · exact absurd (hlast hpos) List.not_mem_nil
    have hlen : f.pool.length = 0 := by
      rw [List.length_nil] at hcount
      omega
    simp [Machine.treeOk, treeInfoOf, hq, List.length_eq_zero_iff.mp hlen]
  | cons root rest =>
    rw [hq, List.length_cons] at hone
    obtain rfl : rest = [] := List.length_eq_zero_iff.mp (by omega)
    rw [hq] at hcount hlast
    rw [List.length_singleton] at hcount
    have hroot : f.pool.length - 1 = root := List.mem_singleton.mp (hlast (by omega))
    have hinfo : treeInfoOf f =
        { nodeCount := BitVec.ofNat 10 f.pool.length, root := BitVec.ofNat 9 root, rootValid := true } := by
      rw [treeInfoOf, hq]
    rw [hinfo]
    refine ⟨Nat.mod_eq_of_lt (by omega), by omega, ?_, hf.shape, fun i hi => ?_, hf.distinct⟩
    · show root % 2 ^ 9 + 1 = f.pool.length
      omega
    · refine hf.joined i (by omega) ?_
      rw [hq, List.mem_singleton]
      omega

/-- BUILD makes a strict tree of every table, or no tree of the empty one. -/
theorem treeOk_mergedForest (freq : SymTable Word) : treeOk (mergedForest freq).pool (treeInfoOf (mergedForest freq)) :=
  (mergedForest_ok freq).treeOk (entryCount_le freq) (length_queue_mergedForest_le freq)

/-! ## Every step keeps the tree -/

theorem treeOk_empty : treeOk [] { nodeCount := 0, root := 0, rootValid := false } := by
  simp [treeOk]

theorem treeOk_keptByOps : KeptByOps State.TreeOk where
  plain := fun _ _ _ _ _ _ _ h => h
  emptyWriter := fun _ _ h => h
  shiftWriter := fun _ _ _ h => h
  noProgress := fun _ h => h
  emit := fun _ _ _ h => h
  build := fun s _ => treeOk_mergedForest s.freq
  gencode := fun _ h => h
  clear := fun _ _ => treeOk_empty

theorem complete_treeOk (i : Instr) {s : State} (h : s.TreeOk) : (complete (failRuleOf i) (bodyOf i s)).TreeOk := by
  obtain ⟨hends, -⟩ := treeOk_keptByOps.bodyOf i h
  cases hr : bodyOf i s with
  | done t =>
    rw [hr] at hends
    exact hends
  | failed c t =>
    rw [hr] at hends
    exact treeOk_keptByOps.failRuleOf i hends

theorem nextEvent_treeOk {s : State} (h : s.TreeOk) : (nextEvent s).TreeOk := by
  obtain ⟨-, -, he⟩ | ⟨-, he⟩ := nextEvent_cases s <;> rw [he] <;> exact h

/-- HOST writes neither the node pool nor TREE_INFO. -/
theorem csrWrite_treeOk (r : Csr) (v : Word) {s : State} (h : s.TreeOk) : (csrWrite r v s).TreeOk := by
  cases r
  case status => exact h
  case id | err | outLen | entryCount | progress | bwState | brState | treeInfo | reserved | node | code => exact h
  case ctrl | cmd | inLen | outCap | origLen | payloadLen | bwPos | brPos | brEnd | freq => exact writeIdle_of h h

theorem byteAccess_treeOk (x : Access) {s : State} (h : s.TreeOk) : (byteAccess x s).TreeOk := by
  match x with
  | .reading addr b off left got =>
    obtain ⟨draws, access, reads, he⟩ := byteAccess_reading addr off left b got s
    rw [he]
    exact h
  | .writing .input off bytes =>
    obtain ⟨inMem, inRaces, access, he⟩ := byteAccess_writing_input off bytes s
    rw [he]
    exact h
  | .writing .output off bytes =>
    obtain ⟨outMem, outTouched, access, he⟩ := byteAccess_writing_output off bytes s
    rw [he]
    exact h

theorem treeOk_keptByMoves : KeptByMoves State.TreeOk where
  agenda := fun _ _ h => h
  command := fun i _ h => complete_treeOk i h
  illegal := fun _ h => h
  reset := fun _ _ => treeOk_empty
  event := fun _ h => nextEvent_treeOk h
  csrRead := fun _ _ _ _ h => h
  csrWrite := fun r v _ h => csrWrite_treeOk r v h
  byte := fun x _ _ h => byteAccess_treeOk x h

/-- Settles O58: BUILD makes a strict tree of every table (`treeOk_mergedForest`), and no other operation but CLEAR and
reset writes the pool. -/
theorem stepKeepsTreeOk : Obligations.StepKeepsTreeOk :=
  fun _ _ h hstep => treeOk_keptByMoves.step h hstep

end Sys2Proof.Machine
end

section
/-! PROOFS. The state (10_state.md R30-R61): what HOST's CSR accesses read and write. -/

namespace Sys2Proof.Machine

open Sys2Proof.Spec

/-! ## One CSR access -/

/-- The form of CSR access that has a meaning, at any offset of the CSR space (20_memory.md R87). -/
theorem csrFormOk_eight {off : Nat} (h : off % 8 = 0) : csrFormOk off 8 = true := by
  simp [csrFormOk, h]

/-- A 64-bit write to a CSR offset is the write to the register there. -/
theorem step_csrWr {s : State} {off : Nat} {v : Word} {rest : List Turn} (h : issues s (csrWr s off v) rest)
    (hlt : off < 0x7000) (haligned : off % 8 = 0) :
    step s = .next (csrWrite (csrAt off) v { s with agenda := rest }) := by
  obtain ⟨haccess, hagenda⟩ := h
  simp [step, hagenda, haccess, hostAct, csrWr, hostWrite, locate_csr _ hlt, csrFormOk_eight haligned]

/-- A 64-bit read of a CSR offset returns the value of the register there. -/
theorem step_csrRd {s : State} {off : Nat} {rest : List Turn} (h : issues s (csrRd s off) rest) (hlt : off < 0x7000)
    (haligned : off % 8 = 0) :
    ∃ t, step s = .next t ∧ t.reads = s.reads ++ [⟨s.params.csrBase + off, 8,
      (if s.busy then csrValueBusy s (csrAt off) else csrValue s (csrAt off)).toNat⟩] := by
  obtain ⟨haccess, hagenda⟩ := h
  refine ⟨note (s.params.csrBase + off) 8 (if s.busy then csrValueBusy s (csrAt off) else csrValue s (csrAt off)).toNat
    (drawIfBusy { s with agenda := rest }), ?_, rfl⟩
  simp only [step, hagenda, haccess, hostAct, csrRd, hostRead, locate_csr _ hlt, csrFormOk_eight haligned]
  rfl

theorem csrAt_freq {k : Nat} (h : k < 256) : csrAt (0x800 + 8 * k) = .freq (BitVec.ofNat 8 k) := by
  unfold csrAt
  rw [if_neg (by omega), if_pos (by omega)]
  congr 2
  omega

theorem csrAt_freq_sym (sym : Byte) : csrAt (0x800 + 8 * sym.toNat) = .freq sym := by
  rw [csrAt_freq sym.isLt, BitVec.ofNat_toNat, BitVec.setWidth_eq]

theorem csrAt_node_low {i : Nat} (h : i < 511) : csrAt (0x1000 + 16 * i) = .node i false := by
  have hindex : (0x1000 + 16 * i - 0x1000) / 16 = i := by omega
  have hword : ¬ (0x1000 + 16 * i - 0x1000) % 16 = 8 := by omega
  unfold csrAt
  rw [if_neg (by omega), if_neg (by omega), if_pos (by omega), hindex, decide_eq_false hword]

theorem csrAt_node_high {i : Nat} (h : i < 511) : csrAt (0x1008 + 16 * i) = .node i true := by
  have hindex : (0x1008 + 16 * i - 0x1000) / 16 = i := by omega
  have hword : (0x1008 + 16 * i - 0x1000) % 16 = 8 := by omega
  unfold csrAt
  rw [if_neg (by omega), if_neg (by omega), if_pos (by omega), hindex, decide_eq_true hword]

/-- Each entry of the CODE window is eight words. -/
theorem csrAt_code (sym : Byte) {k : Nat} (h : k < 8) : csrAt (0x3000 + 64 * sym.toNat + 8 * k) = .code sym k := by
  have hsym := sym.isLt
  have hindex : (0x3000 + 64 * sym.toNat + 8 * k - 0x3000) / 64 = sym.toNat := by omega
  have hword : (0x3000 + 64 * sym.toNat + 8 * k - 0x3000) % 64 / 8 = k := by omega
  unfold csrAt
  rw [if_neg (by omega), if_neg (by omega), if_neg (by omega), if_neg (by omega), if_pos (by omega), hindex, hword,
    BitVec.ofNat_toNat, BitVec.setWidth_eq]

/-! ## The fields of a register's word

`change` writes a word's width as the sum of its fields' widths, which is the form `toNat_append_add` speaks of. -/

/-- Fields laid side by side add up, each at the weight of its place. -/
theorem toNat_append_add {m n : Nat} (x : BitVec m) (y : BitVec n) : (x ++ y).toNat = x.toNat * 2 ^ n + y.toNat := by
  rw [BitVec.toNat_append, ← Nat.shiftLeft_add_eq_or_of_lt y.isLt, Nat.shiftLeft_eq]

theorem toNat_ctrl_word (c : Ctrl) :
    c.word.toNat = c.ssm.toNat + 2 * c.ieDone.toNat + 4 * c.ieErr.toNat + 8 * c.ieProg.toNat := by
  unfold Ctrl.word
  change @BitVec.toNat (60 + 1 + 1 + 1 + 1) _ = _
  simp only [toNat_append_add, BitVec.toNat_ofBool, BitVec.ofNat_eq_ofNat, BitVec.toNat_zero]
  omega

theorem toNat_statusBits (busy done err progPend overrun : Bool) :
    (statusBits busy done err progPend overrun).toNat =
      busy.toNat + 2 * done.toNat + 4 * err.toNat + 8 * progPend.toNat + 16 * overrun.toNat := by
  unfold statusBits
  change @BitVec.toNat (59 + 1 + 1 + 1 + 1 + 1) _ = _
  simp only [toNat_append_add, BitVec.toNat_ofBool, BitVec.ofNat_eq_ofNat, BitVec.toNat_zero]
  omega

/-- Every cause's ERR word is the one 60_exceptions.md R321 lists for it. -/
theorem toNat_errWord_of_mem {c : Cause} {w : Nat} (h : (c, w) ∈ errorTable) : (errWord (some c)).toNat = w := by
  have htable : ∀ e ∈ errorTable, (errWord (some e.1)).toNat = e.2 := by decide
  exact htable (c, w) h

theorem toNat_progress_word (p : Progress) : p.word.toNat = p.pct.toNat + 2 ^ 8 * p.pvalid.toNat := by
  unfold Progress.word
  change @BitVec.toNat (55 + 1 + 8) _ = _
  simp only [toNat_append_add, BitVec.toNat_ofBool, BitVec.ofNat_eq_ofNat, BitVec.toNat_zero]
  omega

theorem toNat_bitWriter_stateWord (w : BitWriter) : w.stateWord.toNat = w.acc.toNat + 2 ^ 8 * w.cnt.val := by
  have hcnt : w.cnt.val % 2 ^ 4 = w.cnt.val := Nat.mod_eq_of_lt (by omega)
  unfold BitWriter.stateWord
  change @BitVec.toNat (52 + 4 + 8) _ = _
  simp only [toNat_append_add, BitVec.toNat_ofNat, BitVec.ofNat_eq_ofNat, hcnt]
  omega

theorem toNat_bitReader_stateWord (r : BitReader) : r.stateWord.toNat
    = r.cur.toNat + 2 ^ 8 * r.rem.val + 2 ^ 16 * r.lastBit.toNat + 2 ^ 17 * r.can.toNat := by
  have hrem : r.rem.val % 2 ^ 4 = r.rem.val := Nat.mod_eq_of_lt (by omega)
  unfold BitReader.stateWord
  change @BitVec.toNat (46 + 1 + 1 + 4 + 4 + 8) _ = _
  simp only [toNat_append_add, BitVec.toNat_ofBool, BitVec.toNat_ofNat, BitVec.ofNat_eq_ofNat, hrem]
  omega

theorem toNat_treeInfo_word (t : TreeInfo) :
    t.word.toNat = t.nodeCount.toNat + 2 ^ 16 * t.root.toNat + 2 ^ 31 * t.rootValid.toNat := by
  unfold TreeInfo.word
  change @BitVec.toNat (32 + 1 + 6 + 9 + 6 + 10) _ = _
  simp only [toNat_append_add, BitVec.toNat_ofBool, BitVec.ofNat_eq_ofNat, BitVec.toNat_zero]
  omega

theorem toNat_node_lowWord (n : Node) : n.lowWord.toNat = n.weight.toNat % 2 ^ 64 := by
  rw [Node.lowWord, BitVec.extractLsb'_toNat, Nat.shiftRight_zero]

theorem toNat_node_highWord (n : Node) : n.highWord.toNat
    = n.weight.toNat / 2 ^ 64 + 2 ^ 8 * n.isLeaf.toNat + 2 ^ 16 * n.symbol.toNat + 2 ^ 32 * n.left.toNat
      + 2 ^ 48 * n.right.toNat := by
  have hweight : n.weight.toNat / 2 ^ 64 % 2 ^ 8 = n.weight.toNat / 2 ^ 64 :=
    Nat.mod_eq_of_lt (by have := n.weight.isLt; omega)
  unfold Node.highWord
  change @BitVec.toNat (7 + 9 + 7 + 9 + 8 + 8 + 7 + 1 + 8) _ = _
  simp only [toNat_append_add, BitVec.toNat_ofBool, BitVec.ofNat_eq_ofNat, BitVec.toNat_zero,
    BitVec.extractLsb'_toNat, Nat.shiftRight_eq_div_pow, hweight]
  omega

theorem toNat_code_word_zero (c : Code) : (c.word 0).toNat = c.len.toNat + 2 ^ 8 * c.valid.toNat := by
  unfold Code.word
  change @BitVec.toNat (55 + 1 + 8) _ = _
  simp only [toNat_append_add, BitVec.toNat_ofBool, BitVec.ofNat_eq_ofNat, BitVec.toNat_zero]
  omega

theorem toNat_code_word_succ (c : Code) (k : Nat) :
    (c.word (k + 1)).toNat = if k < 4 then c.bits.toNat / 2 ^ (64 * k) % 2 ^ 64 else 0 := by
  match k with
  | 0 => simp [Code.word, BitVec.extractLsb'_toNat]
  | 1 => simp [Code.word, BitVec.extractLsb'_toNat, Nat.shiftRight_eq_div_pow]
  | 2 => simp [Code.word, BitVec.extractLsb'_toNat, Nat.shiftRight_eq_div_pow]
  | 3 => simp [Code.word, BitVec.extractLsb'_toNat, Nat.shiftRight_eq_div_pow]
  | k + 4 => simp [Code.word]

/-! ## Reads -/

/-- While BUSY = 0 a read of a CSR offset returns the value of the register there. -/
theorem readsAs_of_idle {s : State} {off value : Nat} (hidle : s.busy = false) (r : Csr) (hr : csrAt off = r)
    (hvalue : (csrValue s r).toNat = value) (hlt : off < 0x7000 := by decide) (haligned : off % 8 = 0 := by decide) :
    readsAs s off value := by
  intro rest hissues
  obtain ⟨t, hstep, hreads⟩ := step_csrRd hissues hlt haligned
  rw [hidle, hr] at hreads
  exact ⟨t, hstep, by rw [hreads, ← hvalue]; rfl⟩

theorem toNat_csrValue_entryCount (s : State) : (csrValue s .entryCount).toNat = entryCount s.freq := by
  have := entryCount_le s.freq
  rw [csrValue, BitVec.toNat_ofNat, Nat.mod_eq_of_lt (by omega)]

theorem toNat_csrValue_status_of_idle {s : State} (hidle : s.busy = false) : (csrValue s .status).toNat
    = 2 * s.status.done.toNat + 4 * s.status.err.toNat + 8 * s.status.progPend.toNat + 16 * s.status.overrun.toNat := by
  rw [csrValue, statusWord, toNat_statusBits, hidle, Bool.toNat_false]
  omega

/-- Settles O16: at each offset the register there (`csrAt`), whose word is the sum of its fields in their places. -/
theorem registersReadAsLaidOut : Obligations.RegistersReadAsLaidOut := by
  intro s hidle
  refine ⟨readsAs_of_idle hidle .id rfl rfl, readsAs_of_idle hidle .ctrl rfl (toNat_ctrl_word _),
    readsAs_of_idle hidle .cmd rfl rfl, readsAs_of_idle hidle .status rfl (toNat_csrValue_status_of_idle hidle),
    fun herr => readsAs_of_idle hidle .err rfl (by rw [csrValue, herr]; rfl),
    fun c w herr hmem => readsAs_of_idle hidle .err rfl (by rw [csrValue, herr, toNat_errWord_of_mem hmem]),
    readsAs_of_idle hidle .inLen rfl rfl, readsAs_of_idle hidle .outCap rfl rfl, readsAs_of_idle hidle .outLen rfl rfl,
    readsAs_of_idle hidle .origLen rfl rfl, readsAs_of_idle hidle .payloadLen rfl rfl,
    readsAs_of_idle hidle .entryCount rfl (toNat_csrValue_entryCount s),
    readsAs_of_idle hidle .progress rfl (toNat_progress_word _), readsAs_of_idle hidle .bwPos rfl rfl,
    readsAs_of_idle hidle .bwState rfl (toNat_bitWriter_stateWord _), readsAs_of_idle hidle .brPos rfl rfl,
    readsAs_of_idle hidle .brEnd rfl rfl, readsAs_of_idle hidle .brState rfl (toNat_bitReader_stateWord _),
    readsAs_of_idle hidle .treeInfo rfl (toNat_treeInfo_word _), fun sym => ?_, fun i hi => ⟨?_, ?_⟩,
    fun sym => ⟨?_, fun k hk => ?_⟩⟩
  · exact readsAs_of_idle hidle (.freq sym) (csrAt_freq_sym sym) rfl (by omega) (by omega)
  · exact readsAs_of_idle hidle (.node i false) (csrAt_node_low hi) (toNat_node_lowWord _) (by omega) (by omega)
  · exact readsAs_of_idle hidle (.node i true) (csrAt_node_high hi) (toNat_node_highWord _) (by omega) (by omega)
  · exact readsAs_of_idle hidle (.code sym 0) (csrAt_code sym (k := 0) (by decide)) (toNat_code_word_zero _) (by omega)
      (by omega)
  · have hoff : 0x3008 + 64 * sym.toNat + 8 * k = 0x3000 + 64 * sym.toNat + 8 * (k + 1) := by omega
    rw [hoff]
    exact readsAs_of_idle hidle (.code sym (k + 1)) (csrAt_code sym (by omega)) (toNat_code_word_succ _ k) (by omega)
      (by omega)

/-- While BUSY = 1 STATUS reads BUSY = 1, DONE = 0, ERR = 0, OVERRUN as it is and PROG_PEND as a free value. -/
theorem toNat_csrValueBusy_status (s : State) : (csrValueBusy s .status).toNat
    = 1 + 8 * (Config.freeBit s.draws).toNat + 16 * s.status.overrun.toNat := by
  rw [csrValueBusy, toNat_statusBits, Bool.toNat_true, Bool.toNat_false]

/-- Settles O19: while BUSY = 1 ID and CTRL read as they are, and STATUS as `toNat_csrValueBusy_status` says. -/
theorem readsWhileBusy : Obligations.ReadsWhileBusy := by
  intro s rest hbusy
  refine ⟨fun h => ?_, fun h => ?_, fun h => ?_⟩ <;>
    obtain ⟨t, hstep, hreads⟩ := step_csrRd h (by decide) (by decide) <;> rw [hbusy] at hreads
  · exact ⟨t, hstep, hreads⟩
  · exact ⟨t, hstep, hreads⟩
  · refine ⟨t, (csrValueBusy s .status).toNat, hstep, hreads, ?_⟩
    rw [toNat_csrValueBusy_status]
    cases Config.freeBit s.draws <;> cases s.status.overrun <;> decide

/-! ## Writes -/

theorem writeIdle_of_busy {s : State} (t : State) (h : s.busy = true) : writeIdle s t = setOverrun s := by
  simp [writeIdle, h]

theorem writeIdle_of_idle {s : State} (t : State) (h : s.busy = false) : writeIdle s t = t := by
  simp [writeIdle, h]

/-- The registers at the offsets of R61 are those whose writes act only while BUSY = 0. -/
theorem csrWrite_eq_writeIdle_of_dropped {off : Nat} (h : droppedWhileBusy off) (v : Word) (s : State) :
    ∃ t, csrWrite (csrAt off) v s = writeIdle s t := by
  obtain h | ⟨k, hk, rfl⟩ := h
  · simp only [List.mem_cons, List.not_mem_nil, or_false] at h
    rcases h with rfl | rfl | rfl | rfl | rfl | rfl | rfl | rfl | rfl <;> exact ⟨_, rfl⟩
  · rw [csrAt_freq hk]
    exact ⟨_, rfl⟩

theorem droppedWhileBusy_bound {off : Nat} (h : droppedWhileBusy off) : off < 0x7000 ∧ off % 8 = 0 := by
  obtain h | ⟨k, hk, rfl⟩ := h
  · simp only [List.mem_cons, List.not_mem_nil, or_false] at h
    omega
  · omega

/-- Settles O13: each of these writes is a `writeIdle`, which a busy block drops. -/
theorem writesWhileBusyAreDropped : Obligations.WritesWhileBusyAreDropped := by
  intro s off v rest hbusy hdropped hissues
  obtain ⟨hlt, haligned⟩ := droppedWhileBusy_bound hdropped
  obtain ⟨t, ht⟩ := csrWrite_eq_writeIdle_of_dropped hdropped v { s with agenda := rest }
  have hbusy' : State.busy { s with agenda := rest } = true := hbusy
  rw [step_csrWr hissues hlt haligned, ht, writeIdle_of_busy t hbusy']
  rfl

theorem getLsbD_statusBits (busy done err progPend overrun : Bool) (i : Nat) :
    (statusBits busy done err progPend overrun).getLsbD i
      = [busy, done, err, progPend, overrun].getD i false := by
  unfold statusBits
  change @BitVec.getLsbD (59 + 1 + 1 + 1 + 1 + 1) _ i = _
  rw [BitVec.getLsbD_append, BitVec.getLsbD_append, BitVec.getLsbD_append, BitVec.getLsbD_append, BitVec.getLsbD_append]
  match i with
  | 0 => simp
  | 1 => simp
  | 2 => simp
  | 3 => simp
  | 4 => simp
  | i + 5 => simp

theorem getLsbD_ctrl_word (c : Ctrl) (i : Nat) :
    c.word.getLsbD i = [c.ssm, c.ieDone, c.ieErr, c.ieProg].getD i false := by
  unfold Ctrl.word
  change @BitVec.getLsbD (60 + 1 + 1 + 1 + 1) _ i = _
  rw [BitVec.getLsbD_append, BitVec.getLsbD_append, BitVec.getLsbD_append, BitVec.getLsbD_append]
  match i with
  | 0 => simp
  | 1 => simp
  | 2 => simp
  | 3 => simp
  | i + 4 => simp

/-- A number below 2^k has no bit at k or above. -/
theorem getLsbD_eq_false_of_lt {w : Nat} (x : BitVec w) {k : Nat} (i : Nat) (h : x.toNat < 2 ^ k) :
    x.getLsbD (i + k) = false :=
  Nat.testBit_lt_two_pow (h.trans_le (Nat.pow_le_pow_right (by decide) (Nat.le_add_left k i)))

/-- W1C in one equation of words: the bits of [4:1] written 1 are cleared, BUSY stays. -/
theorem statusWord_w1cStatus (v : Word) (s : State) :
    statusWord (w1cStatus v s) = statusWord s &&& ~~~(v &&& 0x1E) := by
  refine BitVec.eq_of_getLsbD_eq fun i hi => ?_
  rw [BitVec.getLsbD_and, BitVec.getLsbD_not, BitVec.getLsbD_and, statusWord, statusWord, getLsbD_statusBits,
    getLsbD_statusBits]
  match i with
  | 0 => simp [State.busy]
  | 1 => simp [w1cStatus]
  | 2 => simp [w1cStatus]
  | 3 => simp [w1cStatus]
  | 4 => simp [w1cStatus]
  | i + 5 => simp

/-- Settles O14: the write is `w1cStatus`, whose word is `statusWord_w1cStatus`. -/
theorem statusIsWriteOneToClear : Obligations.StatusIsWriteOneToClear := by
  intro s v rest hissues
  refine ⟨w1cStatus v { s with agenda := rest }, step_csrWr hissues (by decide) rfl,
    statusWord_w1cStatus v _, fun hset => ?_, fun hclear => ?_, rfl⟩
  · simp only [w1cStatus, hset]
    rfl
  · simp only [w1cStatus, hclear]
    rfl

theorem word_ctrl_ofWord (v : Word) : (Ctrl.ofWord v).word = v &&& 0xF := by
  refine BitVec.eq_of_getLsbD_eq fun i hi => ?_
  rw [BitVec.getLsbD_and, getLsbD_ctrl_word]
  match i with
  | 0 => simp [Ctrl.ofWord]
  | 1 => simp [Ctrl.ofWord]
  | 2 => simp [Ctrl.ofWord]
  | 3 => simp [Ctrl.ofWord]
  | i + 4 => rw [getLsbD_eq_false_of_lt (k := 4) (0xF : Word) i (by decide)]; simp

/-- While BUSY = 0 a write to a read-write register acts. -/
theorem step_csrWr_idle {s t : State} {off : Nat} {v : Word} {rest : List Turn} (hidle : s.busy = false)
    (h : issues s (csrWr s off v) rest) (hlt : off < 0x7000) (haligned : off % 8 = 0)
    (ht : csrWrite (csrAt off) v { s with agenda := rest } = writeIdle { s with agenda := rest } t) :
    step s = .next t := by
  have hidle' : State.busy { s with agenda := rest } = false := hidle
  rw [step_csrWr h hlt haligned, ht, writeIdle_of_idle t hidle']

/-- Settles O15: each of these writes is a `writeIdle`, which acts in an idle block. -/
theorem registerWritesAreHeld : Obligations.RegisterWritesAreHeld := by
  intro s v rest hidle
  refine ⟨fun h => ⟨Ctrl.ofWord v, step_csrWr_idle hidle h (by decide) rfl rfl, word_ctrl_ofWord v⟩,
    fun h => step_csrWr_idle hidle h (by decide) rfl rfl, fun h => step_csrWr_idle hidle h (by decide) rfl rfl,
    fun h => step_csrWr_idle hidle h (by decide) rfl rfl, fun h => step_csrWr_idle hidle h (by decide) rfl rfl,
    fun h => step_csrWr_idle hidle h (by decide) rfl rfl, fun h => step_csrWr_idle hidle h (by decide) rfl rfl,
    fun h => step_csrWr_idle hidle h (by decide) rfl rfl, fun sym h => ?_⟩
  refine ⟨symSet s.freq sym v, step_csrWr_idle hidle h (by omega) (by omega) ?_, symGet_symSet_same _ _ _,
    fun other hne => symGet_symSet_other _ _ hne⟩
  rw [csrAt_freq_sym]
  rfl

end Sys2Proof.Machine
end

section
/-! PROOFS. The state (10_state.md R41, R50, R62): ENTRY_COUNT, and the machine right after reset. -/

namespace Sys2Proof.Machine

/-! ## ENTRY_COUNT -/

theorem mem_entries_symbols {freq : SymTable Word} {sym : Byte} :
    sym ∈ (entries freq).map Prod.fst ↔ symGet freq sym ≠ 0 := by
  constructor
  · intro h
    obtain ⟨⟨s, c⟩, hmem, rfl⟩ := List.mem_map.mp h
    obtain ⟨hget, hne⟩ := (mem_entries freq s c).mp hmem
    exact hget ▸ hne
  · intro h
    exact List.mem_map.mpr ⟨(sym, symGet freq sym), (mem_entries freq sym _).mpr ⟨rfl, h⟩, rfl⟩

/-- The entries' symbols are different and exactly those with a nonzero count, so there are as many of each. -/
theorem entryCount_eq_card (freq : SymTable Word) :
    entryCount freq = (Finset.univ.filter fun sym : Fin 256 => symGet freq (BitVec.ofFin sym) ≠ 0).card := by
  have hlist : ((entries freq).map Prod.fst).toFinset.card = entryCount freq := by
    rw [List.toFinset_card_of_nodup (entries_symbols_nodup freq), List.length_map, entryCount]
  rw [← hlist]
  refine Finset.card_bij' (fun sym _ => sym.toFin) (fun sym _ => BitVec.ofFin sym) (fun sym hsym => ?_)
    (fun sym hsym => ?_) (fun _ _ => rfl) (fun _ _ => rfl)
  · rw [List.mem_toFinset, mem_entries_symbols] at hsym
    exact Finset.mem_filter.mpr ⟨Finset.mem_univ _, hsym⟩
  · rw [List.mem_toFinset, mem_entries_symbols]
    exact (Finset.mem_filter.mp hsym).2

/-- Settles O26: the count of entries fits the register (`toNat_csrValue_entryCount`), and is that of the nonzero
symbols (`entryCount_eq_card`). -/
theorem entryCountCountsNonzero : Obligations.EntryCountCountsNonzero := by
  intro s
  rw [toNat_csrValue_entryCount]
  exact ⟨entryCount_eq_card s.freq, entryCount_le s.freq⟩

/-! ## Right after reset -/

theorem entries_symFill_zero : entries (symFill 0) = [] := by
  rw [List.eq_nil_iff_forall_not_mem]
  rintro ⟨sym, c⟩ hmem
  obtain ⟨hget, hne⟩ := (mem_entries _ sym c).mp hmem
  exact hne (hget.symm.trans (symGet_symFill 0 sym))

theorem csrValue_entryCount_reset : csrValue State.reset .entryCount = 0 := by
  have hfreq : State.reset.freq = symFill 0 := rfl
  rw [csrValue, hfreq, entryCount, entries_symFill_zero]
  rfl

theorem csrValue_node_reset (i : Nat) (high : Bool) : csrValue State.reset (.node i high) = 0 := by
  have hnode : nodeAt State.reset.pool i = Node.zero := rfl
  rw [csrValue, hnode]
  cases high <;> decide

theorem word_code_absent (k : Nat) : Code.absent.word k = 0 := by
  match k with
  | 0 | 1 | 2 | 3 | 4 => decide
  | k + 5 => rfl

theorem csrValue_code_reset (sym : Byte) (k : Nat) : csrValue State.reset (.code sym k) = 0 := by
  have hcodes : State.reset.codes = symFill Code.absent := rfl
  rw [csrValue, hcodes, symGet_symFill, word_code_absent]

/-- Settles O24: the registers by their values, the windows by the all-zero node and the absent code. -/
theorem resetStateReadsAsListed : Obligations.ResetStateReadsAsListed := by
  refine ⟨rfl, ?_, fun sym => symGet_symFill 0 sym, csrValue_node_reset, csrValue_code_reset, rfl, rfl⟩
  simp only [List.forall_mem_cons]
  exact ⟨rfl, rfl, rfl, rfl, rfl, rfl, rfl, rfl, csrValue_entryCount_reset, rfl, rfl, rfl, rfl, rfl, rfl, rfl, nofun⟩

theorem reset_memoryOk : State.reset.MemoryOk :=
  ⟨rfl, rfl, rfl, rfl, nofun, nofun⟩

/-- Settles O59: each invariant by the values reset gives its fields. -/
theorem resetMeetsInvariants : Obligations.ResetMeetsInvariants :=
  ⟨reset_memoryOk, atReset_registersOk Params.default 0, treeOk_empty, by decide⟩

end Sys2Proof.Machine
end

section
/-! PROOFS. The buffers (20_memory.md R81, R82): every step keeps them canonical and inside their bounds. -/

namespace Sys2Proof.Machine

open Relation

/-! ## Where a command stores -/

/-- OUT_CAP is legal and leaves room for n bytes (10_state.md R37). -/
def State.RoomFor (s : State) (n : Nat) : Prop := n ≤ s.outCap.toNat ∧ s.outCap.toNat ≤ s.params.outSize

/-- One byte stored at an offset below a legal OUT_CAP. -/
def StoresByte (s : State) (m n : Memory) : Prop := ∃ a b, s.RoomFor (a + 1) ∧ n = m.write a b

/-- OUT has changed by stores below OUT_CAP alone, one after another. -/
structure OutStored (s t : State) : Prop where
  params : t.params = s.params
  outCap : t.outCap = s.outCap
  stores : ReflTransGen (StoresByte s) s.outMem t.outMem

/-- What every store below OUT_CAP keeps. -/
theorem OutStored.keeps {s t : State} (h : OutStored s t) {Q : Memory → Prop}
    (hQ : ∀ m a b, s.RoomFor (a + 1) → Q m → Q (m.write a b)) (hs : Q s.outMem) : Q t.outMem := by
  refine h.stores.head_induction_on (motive := fun m _ => Q m → Q t.outMem) id ?_ hs
  rintro m _ ⟨a, b, hroom, rfl⟩ - ih hm
  exact ih (hQ m a b hroom hm)

theorem OutStored.roomFor {s t : State} (h : OutStored s t) {n : Nat} (hs : s.RoomFor n) : t.RoomFor n := by
  rwa [State.RoomFor, h.outCap, h.params]

theorem OutStored.of_outMem_eq {s t : State} (hparams : t.params = s.params) (houtCap : t.outCap = s.outCap)
    (houtMem : t.outMem = s.outMem) : OutStored s t :=
  ⟨hparams, houtCap, houtMem ▸ .refl⟩

theorem OutStored.refl (s : State) : OutStored s s := .of_outMem_eq rfl rfl rfl

theorem OutStored.trans {s t u : State} (h : OutStored s t) (k : OutStored t u) : OutStored s u := by
  have hsame : StoresByte t = StoresByte s := by
    funext m n
    simp only [StoresByte, State.RoomFor, h.outCap, h.params]
  exact ⟨k.params.trans h.params, k.outCap.trans h.outCap, h.stores.trans (hsame ▸ k.stores)⟩

theorem OutStored.bind {s : State} {r : CmdResult} {f : State → CmdResult} (h : OutStored s r.final)
    (k : ∀ t, OutStored s t → OutStored t (f t).final) : OutStored s (r.bind f).final := by
  cases r with
  | done t => exact h.trans (k t h)
  | failed c t => exact h

theorem storeOut_outStored {a n : Nat} {s : State} (b : Byte) (hroom : s.RoomFor n) (ha : a < n) :
    OutStored s (storeOut a b s) :=
  ⟨rfl, rfl, .single ⟨a, b, ⟨Nat.le_trans ha hroom.1, hroom.2⟩, rfl⟩⟩

theorem storeOutList_outStored {a n : Nat} {bs : List Byte} {s : State} (hroom : s.RoomFor n)
    (ha : a + bs.length ≤ n) : OutStored s (storeOutList a bs s) := by
  induction bs generalizing a s with
  | nil => exact .refl s
  | cons b bs ih =>
    rw [List.length_cons] at ha
    have hstore : OutStored s (storeOut a b s) := storeOut_outStored b hroom (by omega)
    exact hstore.trans (ih (hstore.roomFor hroom) (by omega))

/-! ## The bodies -/

theorem wrbitBody_outStored (b : Bool) (s : State) : OutStored s (wrbitBody b s).final := by
  obtain ⟨-, h⟩ | ⟨-, -, -, h⟩ | ⟨hcap, -, hlt, h⟩ | ⟨-, -, h⟩ := wrbitBody_cases b s <;> rw [h]
  · exact .refl s
  · exact .refl s
  · exact (storeOut_outStored _ ⟨Nat.le_refl _, hcap⟩ hlt).trans (.of_outMem_eq rfl rfl rfl)
  · exact .of_outMem_eq rfl rfl rfl

theorem flushBody_outStored (s : State) : OutStored s (flushBody s).final := by
  obtain ⟨-, h⟩ | ⟨-, -, h⟩ | ⟨-, -, -, h⟩ | ⟨hcap, -, hlt, h⟩ := flushBody_cases s <;> rw [h]
  · exact .refl s
  · exact .refl s
  · exact .refl s
  · exact (storeOut_outStored _ ⟨Nat.le_refl _, hcap⟩ hlt).trans (.of_outMem_eq rfl rfl rfl)

theorem rdbitBody_outStored (s : State) : OutStored s (rdbitBody s).final := by
  obtain ⟨-, -, h⟩ | ⟨-, -, -, h⟩ | ⟨-, -, -, -, h⟩ | ⟨k, -, h⟩ := rdbitBody_cases s <;> rw [h]
  all_goals exact .of_outMem_eq rfl rfl rfl

theorem countBody_outStored (s : State) : OutStored s (countBody s).final := by
  unfold countBody
  split <;> exact .of_outMem_eq rfl rfl rfl

@[simp] theorem length_headerBytes (freq : SymTable Word) (origLen payloadLen : Nat) :
    (headerBytes freq origLen payloadLen).length = headerLen (entryCount freq) := by
  have hentries : ((entries freq).flatMap entryBytes).length = 9 * entryCount freq := by
    simp [List.length_flatMap, entryBytes, entryCount, Nat.mul_comm]
  simp only [headerBytes, List.length_append, length_leBytes, hentries, headerLen]
  omega

theorem cwriteBody_outStored (s : State) : OutStored s (cwriteBody s).final := by
  unfold cwriteBody
  split
  · exact .refl s
  split
  · exact .refl s
  split
  · exact .refl s
  · rename_i hcap _ hfits
    have hroom : s.RoomFor (headerLen (entryCount s.freq)) :=
      ⟨Nat.le_of_not_lt hfits, by simpa [outCapBad] using hcap⟩
    exact (storeOutList_outStored hroom (by simp)).trans (.of_outMem_eq rfl rfl rfl)

theorem creadBody_outStored (s : State) : OutStored s (creadBody s).final := by
  unfold creadBody
  split
  · exact .refl s
  · split <;> exact .of_outMem_eq rfl rfl rfl

theorem writeBits_outStored (bits : List Bool) (s : State) : OutStored s (writeBits bits s).final := by
  induction bits generalizing s with
  | nil => exact .refl s
  | cons b bs ih => exact (wrbitBody_outStored b s).bind fun t _ => ih t

theorem emitIfGreater_outStored (pct last : Nat) (s : State) : OutStored s (emitIfGreater pct last s) := by
  unfold emitIfGreater
  split <;> exact .of_outMem_eq rfl rfl rfl

theorem startProgress_outStored (n : Nat) (s : State) : OutStored s (startProgress n s) := by
  unfold startProgress
  split <;> exact .of_outMem_eq rfl rfl rfl

theorem encodeFrom_outStored (n left i last : Nat) (s : State) : OutStored s (encodeFrom n left i last s).final := by
  induction left generalizing i last s with
  | zero => exact .refl s
  | succ left ih =>
    exact (writeBits_outStored _ s).bind fun t _ => (emitIfGreater_outStored _ _ t).trans (ih _ _ _)

theorem compressTail_outStored (s : State) : OutStored s (compressTail s).final := by
  unfold compressTail
  simp only
  split
  · exact .refl s
  split
  · exact .of_outMem_eq rfl rfl rfl
  refine OutStored.bind (.trans (t := { s with payloadLen := _ }) ?_ (cwriteBody_outStored _)) fun t _ => ?_
  · exact .of_outMem_eq rfl rfl rfl
  refine ((startProgress_outStored _ t).trans (encodeFrom_outStored _ _ _ _ _)).bind fun u _ => ?_
  exact (flushBody_outStored u).bind fun w _ => .of_outMem_eq rfl rfl rfl

theorem compressBody_outStored (s : State) : OutStored s (compressBody s).final := by
  unfold compressBody
  simp only
  split
  · exact .of_outMem_eq rfl rfl rfl
  · refine OutStored.bind (.trans (t := { s with progress := _ }) ?_ (countBody_outStored _)) fun t _ => ?_
    · exact .of_outMem_eq rfl rfl rfl
    have hcodes : OutStored t (gencodeBody (buildBody t)) := .of_outMem_eq rfl rfl rfl
    exact hcodes.trans (compressTail_outStored _)

section
variable {total : Nat} {s : State} (hroom : s.RoomFor total)
include hroom

/-- The walk stores a symbol only while fewer than all are out. -/
theorem decodeWalk_outStored (root fuel out node : Nat) :
    OutStored s (decodeWalk root total fuel out node s).final := by
  induction fuel generalizing out node s with
  | zero => unfold decodeWalk; split <;> exact .refl s
  | succ fuel ih =>
    unfold decodeWalk
    split
    · rename_i hout
      split
      · refine (rdbitBody_outStored s).bind fun t ht => ?_
        have hroom' : t.RoomFor total := ht.roomFor hroom
        have hstore (sym : Byte) : OutStored t (storeOut out sym t) := storeOut_outStored sym hroom' hout
        simp only
        split <;> split
        · exact (hstore _).trans (ih ((hstore _).roomFor hroom') _ _)
        · exact ih hroom' _ _
        · exact (hstore _).trans (ih ((hstore _).roomFor hroom') _ _)
        · exact ih hroom' _ _
      · exact .refl s
    · exact .refl s

theorem repeatSymbol_outStored (sym : Byte) {left out : Nat} (hleft : out + left ≤ total) :
    OutStored s (repeatSymbol sym left out s) := by
  induction left generalizing out s with
  | zero => exact .refl s
  | succ left ih =>
    have hstore : OutStored s (storeOut out sym s) := storeOut_outStored sym hroom (by omega)
    exact hstore.trans (ih (hstore.roomFor hroom) (by omega))

theorem decodeOneBit_outStored (sym : Byte) {left out : Nat} (hleft : out + left ≤ total) :
    OutStored s (decodeOneBit sym left out s).final := by
  induction left generalizing out s with
  | zero => exact .refl s
  | succ left ih =>
    unfold decodeOneBit
    split
    · refine (rdbitBody_outStored s).bind fun t ht => ?_
      have hroom' : t.RoomFor total := ht.roomFor hroom
      split
      · exact .refl t
      · have hstore : OutStored t (storeOut out sym t) := storeOut_outStored sym hroom' (by omega)
        exact hstore.trans (ih (hstore.roomFor hroom') (by omega))
    · exact .refl s

theorem decodeSymbols_outStored : OutStored s (decodeSymbols total s).final := by
  unfold decodeSymbols
  simp only
  split
  · split
    · split
      · exact decodeOneBit_outStored hroom _ (by omega)
      · exact repeatSymbol_outStored hroom _ (by omega)
    · exact decodeWalk_outStored hroom _ _ _ _
  · exact .refl s

end

theorem decompressTail_outStored {s : State} (hcap : s.outCap.toNat ≤ s.params.outSize) :
    OutStored s (decompressTail s).final := by
  unfold decompressTail
  simp only
  split
  · exact .refl s
  split
  · exact .of_outMem_eq rfl rfl rfl
  · exact (decodeSymbols_outStored ⟨by omega, hcap⟩).bind fun t _ => .of_outMem_eq rfl rfl rfl

theorem decompressBody_outStored (s : State) : OutStored s (decompressBody s).final := by
  unfold decompressBody
  split
  · exact .refl s
  · rename_i hlegal
    have hcap : s.outCap.toNat ≤ s.params.outSize := by simpa [outCapBad] using mt Or.inr hlegal
    refine (creadBody_outStored s).bind fun t ht => ?_
    have hbuild : OutStored t (buildBody t) := .of_outMem_eq rfl rfl rfl
    have hroom := hbuild.roomFor (ht.roomFor ⟨Nat.le_refl _, hcap⟩)
    exact hbuild.trans (decompressTail_outStored hroom.2)

/-- Every command's body stores below a legal OUT_CAP alone. -/
theorem bodyOf_outStored (i : Instr) (s : State) : OutStored s (bodyOf i s).final := by
  cases i
  case nop | build | gencode | canrd | clear => exact .of_outMem_eq rfl rfl rfl
  case count => exact countBody_outStored s
  case wrbit b => exact wrbitBody_outStored b s
  case flush => exact flushBody_outStored s
  case rdbit => exact rdbitBody_outStored s
  case cwrite => exact cwriteBody_outStored s
  case cread => exact creadBody_outStored s
  case compress => exact compressBody_outStored s
  case decompress => exact decompressBody_outStored s

/-! ## A buffer's form and bound -/

/-- A buffer is canonical and lists no byte at or past its size. -/
def Memory.Fits (m : Memory) (size : Nat) : Prop := m.wf = true ∧ m.within size = true

theorem Memory.Fits.write {m : Memory} {size a : Nat} (h : m.Fits size) (ha : a < size) (b : Byte) :
    (m.write a b).Fits size :=
  ⟨wf_write m a b h.1, within_write m size a b ha h.2⟩

theorem Memory.Fits.scramble {m : Memory} {size : Nat} (h : m.Fits size) (limit d : Nat) :
    (m.scramble limit d).Fits size :=
  ⟨wf_scramble m limit d h.1, within_scramble m size limit d h.2⟩

theorem Memory.Fits.scrambleAt {m : Memory} {size : Nat} (h : m.Fits size) (d : Nat) {as : List Nat}
    (ha : ∀ a ∈ as, a < size) : (m.scrambleAt d as).Fits size :=
  ⟨wf_scrambleAt as m d h.1, within_scrambleAt as m size d ha h.2⟩

theorem memoryOk_iff {s : State} : s.MemoryOk ↔ s.inMem.Fits s.params.inSize ∧ s.outMem.Fits s.params.outSize
    ∧ (∀ a ∈ s.outTouched, a < s.params.outSize) ∧ ∀ x, s.access = some x → x.within s.params := by
  unfold State.MemoryOk Memory.Fits
  tauto

/-! ## Completion -/

theorem bodyOf_memoryOk (i : Instr) {s : State} (h : s.MemoryOk) : (bodyOf i s).final.MemoryOk := by
  obtain ⟨hin, hout, htouched, haccess⟩ := memoryOk_iff.mp h
  have hframe := bodyOf_frame i s
  rw [memoryOk_iff, hframe.params, hframe.inMem, hframe.outTouched, hframe.access]
  refine ⟨hin, (bodyOf_outStored i s).keeps (Q := fun m => m.Fits s.params.outSize) ?_ hout, htouched, haccess⟩
  exact fun m a b hroom hm => hm.write (Nat.le_trans hroom.1 hroom.2) b

theorem failRuleOf_memoryOk (i : Instr) {s : State} (h : s.MemoryOk) : (failRuleOf i s).MemoryOk := by
  cases i
  case compress | decompress =>
    obtain ⟨hin, hout, hrest⟩ := memoryOk_iff.mp h
    exact memoryOk_iff.mpr ⟨hin, hout.scramble _ _, hrest⟩
  all_goals exact h

/-- Completion unmarks the marked bytes and stores a free value at each. -/
theorem settleRaces_memoryOk {s : State} (h : s.MemoryOk) : (settleRaces s).MemoryOk := by
  obtain ⟨hin, hout, htouched, haccess⟩ := memoryOk_iff.mp h
  exact memoryOk_iff.mpr ⟨hin, hout.scrambleAt _ htouched, nofun, haccess⟩

theorem complete_memoryOk (i : Instr) {s : State} (h : s.MemoryOk) :
    (complete (failRuleOf i) (bodyOf i s)).MemoryOk := by
  have hbody := bodyOf_memoryOk i h
  cases hr : bodyOf i s with
  | done t =>
    rw [hr] at hbody
    exact settleRaces_memoryOk hbody
  | failed c t =>
    rw [hr] at hbody
    exact settleRaces_memoryOk (failRuleOf_memoryOk i hbody)

/-! ## HOST's accesses -/

theorem nextEvent_memoryOk {s : State} (h : s.MemoryOk) : (nextEvent s).MemoryOk := by
  obtain ⟨-, -, he⟩ | ⟨-, he⟩ := nextEvent_cases s <;> rw [he] <;> exact h

theorem csrWrite_memoryOk (r : Csr) (v : Word) {s : State} (h : s.MemoryOk) : (csrWrite r v s).MemoryOk := by
  cases r
  case status => exact h
  case id | err | outLen | entryCount | progress | bwState | brState | treeInfo | reserved | node | code => exact h
  case ctrl | cmd | inLen | outCap | origLen | payloadLen | bwPos | brPos | brEnd | freq => exact writeIdle_of h h

theorem hostWriteByte_memoryOk (b : Buffer) {a : Nat} (v : Byte) {s : State} (ha : a < bufSize s.params b)
    (h : s.MemoryOk) : (hostWriteByte b a v s).MemoryOk := by
  obtain ⟨hin, hout, htouched, haccess⟩ := memoryOk_iff.mp h
  cases b with
  | input => exact memoryOk_iff.mpr ⟨hin.write ha v, hout, htouched, haccess⟩
  | output =>
    show (hostWriteOut a v s).MemoryOk
    unfold hostWriteOut
    split
    · exact memoryOk_iff.mpr ⟨hin, hout, List.forall_mem_cons.mpr ⟨ha, htouched⟩, haccess⟩
    · exact memoryOk_iff.mpr ⟨hin, hout.write ha v, htouched, haccess⟩

theorem memoryOk_setAccess {s : State} {access : Option Access} (h : s.MemoryOk)
    (haccess : ∀ x, access = some x → x.within s.params) : State.MemoryOk { s with access := access } := by
  obtain ⟨hin, hout, htouched, -⟩ := memoryOk_iff.mp h
  exact memoryOk_iff.mpr ⟨hin, hout, htouched, haccess⟩

@[simp] theorem hostWriteByte_params (b : Buffer) (a : Nat) (v : Byte) (s : State) :
    (hostWriteByte b a v s).params = s.params := by
  cases b with
  | input => rfl
  | output => simp only [hostWriteByte, hostWriteOut]; split <;> rfl

theorem writeGoesOn_eq (b : Buffer) (off : Nat) (bytes : List Byte) (s : State) :
    writeGoesOn b off bytes s = { s with access := (writeGoesOn b off bytes s).access } := by
  cases bytes <;> rfl

/-- An access that lies inside its buffer keeps the buffers, and what is left of it lies inside too. -/
theorem byteAccess_memoryOk {x : Access} {s : State} (hx : x.within s.params) (h : s.MemoryOk) :
    (byteAccess x s).MemoryOk := by
  have haccess := byteAccess_within s.params x s hx
  match x with
  | .reading addr b off left got =>
    obtain ⟨draws, access, reads, he⟩ := byteAccess_reading addr off left b got s
    rw [he] at haccess ⊢
    exact memoryOk_setAccess h haccess
  | .writing b off [] => exact memoryOk_setAccess h nofun
  | .writing b off (v :: vs) =>
    have ha : off < bufSize s.params b := by
      simp only [Access.within, List.length_cons] at hx
      omega
    rw [byteAccess] at haccess ⊢
    rw [writeGoesOn_eq]
    exact memoryOk_setAccess (hostWriteByte_memoryOk b v ha h) (by simpa using haccess)

theorem memoryOk_keptByMoves : KeptByMoves State.MemoryOk where
  agenda := fun _ _ h => h
  command := fun i _ h => complete_memoryOk i h
  illegal := fun _ h => settleRaces_memoryOk h
  reset := fun s ⟨_, _, _, _, _, haccess⟩ => ⟨rfl, rfl, rfl, rfl, nofun, haccess⟩
  event := fun _ h => nextEvent_memoryOk h
  csrRead := fun _ _ _ _ h => h
  csrWrite := fun r v _ h => csrWrite_memoryOk r v h
  byte := fun x _ hx h => by
    obtain ⟨-, -, -, haccess⟩ := memoryOk_iff.mp h
    exact byteAccess_memoryOk (hx.elim (haccess x) id) h

/-- Settles O56: commands store below a legal OUT_CAP alone (`bodyOf_outStored`), HOST inside the buffers
(`byteAccess_memoryOk`), and completion only where HOST wrote. -/
theorem stepKeepsMemoryOk : Obligations.StepKeepsMemoryOk :=
  fun _ _ h hstep => memoryOk_keptByMoves.step h hstep

end Sys2Proof.Machine
end

section
/-! PROOFS. The buffers (20_memory.md R80, R93): what a command leaves of what HOST did, and what CORE reads of it. -/

namespace Sys2Proof.Machine

open Sys2Proof.Spec

/-! ## Commands -/

theorem failRuleOf_frame (i : Instr) (s : State) : BodyFrame s (failRuleOf i s) := by
  cases i
  case cwrite | compress | decompress => exact BodyFrame.codec s _ _ _ _ _ _ _ _ _ _ _
  all_goals exact .refl s

/-- Every command completes or fails in a state that its body and failure rule have framed. -/
theorem exec_next {i : Instr} {s u : State} (h : exec i s = .next u) :
    ∃ t, BodyFrame s t ∧ (u = completeOk t ∨ ∃ c, u = completeFailed c t) := by
  rw [exec_eq_complete] at h
  cases h
  have hframe := bodyOf_frame i s
  cases hr : bodyOf i s with
  | done t =>
    rw [hr] at hframe
    exact ⟨t, hframe, .inl rfl⟩
  | failed c t =>
    rw [hr] at hframe
    exact ⟨failRuleOf i t, hframe.trans (failRuleOf_frame i t), .inr ⟨c, rfl⟩⟩

theorem BodyFrame.sameHost {s t : State} (h : BodyFrame s t) : SameHost s t :=
  ⟨h.params, h.ctrl, h.inLen, h.outCap, h.overrun, h.agenda, h.access, h.reads⟩

theorem BodyFrame.sameIn {s t : State} (h : BodyFrame s t) : SameIn s t := fun a => by rw [h.inMem]

/-- Settles O11: neither a body and failure rule (`exec_next`) nor completion writes any of these. -/
theorem commandsNeverWriteHostState : Obligations.CommandsNeverWriteHostState := by
  intro i s u h
  obtain ⟨t, hframe, rfl | ⟨c, rfl⟩⟩ := exec_next h
  · exact ⟨hframe.sameHost, hframe.sameIn⟩
  · exact ⟨hframe.sameHost, hframe.sameIn⟩

/-- After completion a marked OUT byte holds the free value of the completion's draw. -/
theorem read_outMem_of_touched {i : Instr} {s u : State} {a : Nat} (h : exec i s = .next u) (ha : a ∈ s.outTouched) :
    u.outMem.read a = Config.freeByte s.draws a := by
  obtain ⟨t, hframe, rfl | ⟨c, rfl⟩⟩ := exec_next h <;> rw [← hframe.outTouched] at ha <;> rw [← hframe.draws]
  · exact Memory.read_scrambleAt_mem _ _ _ _ ha
  · exact Memory.read_scrambleAt_mem _ _ _ _ ha

/-- CORE's turn leaves what HOST does and has read. -/
theorem coreStep_sameHost (s : State) : ∃ t, coreStep s = .next t ∧ SameHost s t := by
  obtain ⟨-, hc⟩ | ⟨v, i, -, -, hc⟩ | ⟨v, e, -, -, hc⟩ := coreStep_cases s <;> rw [hc]
  · exact ⟨s, rfl, (BodyFrame.refl s).sameHost⟩
  · exact ⟨_, exec_eq_complete i s, (commandsNeverWriteHostState i s _ (exec_eq_complete i s)).1⟩
  · exact ⟨_, rfl, (BodyFrame.refl s).sameHost⟩

/-! ## CORE's view of IN -/

@[simp] theorem olderValues_cons (x : Nat) (v : Byte) (races : List Host.Cell) (a : Nat) :
    olderValues ((x, v) :: races) a = if x = a then v :: olderValues races a else olderValues races a := by
  by_cases h : x = a <;> simp [olderValues, h]

theorem coreRead_eq_of_olderValues {s : State} {a : Nat} {old : Byte} (h : olderValues s.inRaces a = [old])
    (pass : Nat) :
    coreRead s pass a = old ∨ coreRead s pass a = s.inMem.read a := by
  have hpick : Config.freePick s.draws pass a % 2 = 0 ∨ Config.freePick s.draws pass a % 2 = 1 := by omega
  unfold coreRead
  rw [h]
  rcases hpick with hpick | hpick
  · right; simp [hpick]
  · left; simp [hpick]

/-- Settles O22: HOST's write leaves the old value as the only older one, and no other byte is touched. -/
theorem racedInReadsOldOrNew : Obligations.RacedInReadsOldOrNew := by
  intro s a b hbusy hnone
  refine ⟨fun pass => ?_, fun pass x hx => ?_⟩
  · have hold : olderValues (hostWriteIn a b s).inRaces a = [s.inMem.read a] := by simp [hbusy, hnone]
    simpa using coreRead_eq_of_olderValues hold pass
  · have hraces : olderValues (hostWriteIn a b s).inRaces x = olderValues s.inRaces x := by
      simp [hbusy, Ne.symm hx]
    have hbyte : (hostWriteIn a b s).inMem.read x = s.inMem.read x := Memory.read_write_other _ _ hx
    unfold coreRead
    rw [hraces, hbyte, hostWriteIn_draws]

end Sys2Proof.Machine
end

section
/-! PROOFS. The CSR space (20_memory.md R87, R89): ignored writes, reserved offsets, and accesses without a meaning. -/

namespace Sys2Proof.Machine

open Sys2Proof.Spec

theorem csrLow_reserved {off : Nat} (h : 0x088 < off) : csrLow off = .reserved := by
  unfold csrLow
  split
  case h_19 => rfl
  all_goals omega

theorem csrAt_reserved {off : Nat} (h : 0x088 < off ∧ off < 0x800 ∨ 0x2FF0 ≤ off ∧ off < 0x3000) :
    csrAt off = .reserved := by
  unfold csrAt
  rcases h with h | h
  · rw [if_pos (by omega), csrLow_reserved h.1]
  · rw [if_neg (by omega), if_neg (by omega), if_neg (by omega), if_pos (by omega)]

/-- Above FREQ a write acts nowhere: the NODE window, a reserved range and the CODE window. -/
theorem csrWrite_above_freq {off : Nat} (h : 0x1000 ≤ off) (v : Word) (s : State) : csrWrite (csrAt off) v s = s := by
  unfold csrAt
  rw [if_neg (by omega), if_neg (by omega)]
  split
  · rfl
  split
  · rfl
  split <;> rfl

theorem csrWrite_readOnly {off : Nat} (v : Word) (s : State)
    (h : off ∈ [0x000, 0x020, 0x038, 0x050, 0x058, 0x068, 0x080, 0x088] ∨ 0x090 ≤ off ∧ off < 0x800 ∨ 0x1000 ≤ off) :
    csrWrite (csrAt off) v s = s := by
  rcases h with h | h | h
  · simp only [List.mem_cons, List.not_mem_nil, or_false] at h
    rcases h with rfl | rfl | rfl | rfl | rfl | rfl | rfl | rfl <;> rfl
  · rw [csrAt_reserved (by omega)]
    rfl
  · exact csrWrite_above_freq h v s

/-- Settles O17: the writes by `csrWrite_readOnly`; a reserved offset's value is 0 whatever BUSY is. -/
theorem readOnlyAndReservedWritesIgnored : Obligations.ReadOnlyAndReservedWritesIgnored := by
  intro s off v rest haligned hlt
  refine ⟨fun hoff hissues => ?_, fun hoff hissues => ?_⟩
  · rw [step_csrWr hissues hlt haligned, csrWrite_readOnly v _ hoff]
  · obtain ⟨t, hstep, hreads⟩ := step_csrRd hissues hlt haligned
    refine ⟨t, hstep, ?_⟩
    rw [hreads, csrAt_reserved (by omega), csrValue, csrValueBusy, ite_self]
    rfl

/-- With no access under way, the access that is HOST's first turn is issued. -/
theorem step_issues {s : State} {a : HostAction} {rest : List Turn} (h : issues s a rest) :
    step s = hostAct a { s with agenda := rest } := by
  obtain ⟨haccess, hagenda⟩ := h
  unfold step
  rw [hagenda]
  exact if_neg (by simp [haccess])

theorem csrFormOk_eq_false {off width : Nat} (h : width ≠ 8 ∨ off % 8 ≠ 0) : csrFormOk off width = false :=
  decide_eq_false (by omega)

/-- Settles O18: the offset is found in the CSR space (`locate_csr`), and the access's form has no meaning. -/
theorem oddCsrAccessRefused : Obligations.OddCsrAccessRefused := by
  intro s off width value rest hlt hodd
  refine ⟨fun hissues => ?_, fun hissues => ?_⟩ <;> rw [step_issues hissues]
  · simp [hostAct, hostRead, locate_csr _ hlt, csrFormOk_eq_false hodd]
  · simp [hostAct, hostWrite, locate_csr _ hlt, csrFormOk_eq_false hodd]

end Sys2Proof.Machine
end

section
/-! PROOFS. HOST's accesses to the buffers (20_memory.md R81, R82, R85, R88, R89, R92, R93), byte by byte. -/

namespace Sys2Proof.Machine

open Sys2Proof.Spec

/-! ## One byte of an access -/

theorem hostOutByte_of_idle {s : State} (h : s.busy = false) (a : Nat) : hostOutByte s a = s.outMem.read a := by
  simp [hostOutByte, h]

theorem hostOutByte_of_busy {s : State} (h : s.busy = true) (a : Nat) :
    hostOutByte s a = Config.freeByte s.draws a := by
  simp [hostOutByte, h]

/-- The last byte of a read: HOST notes the value of all its bytes. -/
theorem byteAccess_reading_last (addr off : Nat) (b : Buffer) (got : List Byte) (s : State) :
    byteAccess (.reading addr b off 1 got) s
      = { s with
          draws := (drawForByte b s).draws
          access := none
          reads := s.reads ++ [⟨addr, got.length + 1, leValue (got ++ [hostReadByte s b off])⟩] } := by
  rw [← List.length_singleton (a := hostReadByte s b off), ← List.length_append]
  cases b <;> rfl

/-- A byte of a read that others follow: the access stays under way. -/
theorem byteAccess_reading_more (addr off left : Nat) (b : Buffer) (got : List Byte) (s : State) :
    byteAccess (.reading addr b off (left + 2) got) s
      = { s with
          draws := (drawForByte b s).draws
          access := some (.reading addr b (off + 1) (left + 1) (got ++ [hostReadByte s b off])) } := by
  cases b <;> rfl

/-- The state with other turns to come and another access under way. -/
def State.withTurns (s : State) (turns : List Turn) (access : Option Access) : State :=
  { s with agenda := turns, access := access }

/-- HOST's writing of a byte reads and changes neither its turns nor the access under way. -/
theorem hostWriteByte_withTurns (b : Buffer) (a : Nat) (v : Byte) (s : State) (turns : List Turn)
    (access : Option Access) :
    hostWriteByte b a v (s.withTurns turns access) = (hostWriteByte b a v s).withTurns turns access := by
  cases b with
  | input => rfl
  | output =>
    have hbusy : (s.withTurns turns access).busy = s.busy := rfl
    simp only [hostWriteByte, hostWriteOut, hbusy]
    split <;> rfl

/-- What a byte access does does not depend on what was noted of the access under way. -/
theorem byteAccess_withTurns (x : Access) (s : State) (turns : List Turn) (access : Option Access) :
    byteAccess x (s.withTurns turns access) = byteAccess x (s.withTurns turns none) := by
  match x with
  | .reading addr b off 0 got => rfl
  | .reading addr b off 1 got => cases b <;> rfl
  | .reading addr b off (left + 2) got => cases b <;> rfl
  | .writing b off [] => rfl
  | .writing b off (v :: vs) =>
    simp only [byteAccess, hostWriteByte_withTurns]
    cases vs <;> rfl

/-! ## A HOST read has no side effect -/

theorem hostGoesOn_of_access {s : State} {x : Access} (hx : s.access = some x) : hostGoesOn s = byteAccess x s := by
  simp [hostGoesOn, hx]

/-- An access under way goes on at HOST's next byte, or where HOST would issue another access or has nothing to do. -/
theorem step_access {s : State} {x : Access} {rest : List Turn} (hx : s.access = some x)
    (hturn : s.agenda = .byte :: rest ∨ s.agenda = rest ∧ (rest = [] ∨ ∃ a later, rest = .host a :: later)) :
    step s = .next (byteAccess x { s with agenda := rest }) := by
  obtain hbyte | ⟨hrest, hhost⟩ := hturn
  · unfold step
    rw [hbyte]
    exact congrArg Host.Outcome.next (hostGoesOn_of_access hx)
  · have hsame : { s with agenda := rest } = s := by rw [← hrest]
    rw [hsame, ← hostGoesOn_of_access hx]
    unfold step
    rw [hrest]
    obtain rfl | ⟨a, later, rfl⟩ := hhost
    · exact if_pos (by simp [hx])
    · exact if_pos (by simp [hx])

/-- Everything a HOST read that is issued can do. -/
theorem hostRead_next {addr width : Nat} {s t : State} (h : hostRead addr width s = .next t) :
    (∃ value, t = note addr width value (drawIfBusy s))
      ∨ ∃ b off, t = byteAccess (.reading addr b off width []) s := by
  unfold hostRead at h
  split at h
  · cases h
  · split at h
    · cases h
      exact .inl ⟨_, rfl⟩
    · cases h
  · split at h
    · cases h
      exact .inr ⟨_, _, rfl⟩
    · cases h

/-- Settles O20: a CSR read notes its value at once; a buffer read does so with its last byte
(`byteAccess_reading_last`), and stays under way until then (`byteAccess_reading_more`). -/
theorem hostReadsHaveNoSideEffect : Obligations.HostReadsHaveNoSideEffect := by
  intro s t addr rest hstep
  constructor
  · intro width hissues
    rw [step_issues hissues] at hstep
    obtain ⟨value, rfl⟩ | ⟨b, off, rfl⟩ := hostRead_next hstep
    · exact ⟨_, s.access, _, rfl, .inl ⟨value, rfl, hissues.1⟩⟩
    · match width with
      | 0 => exact ⟨_, _, _, rfl, .inl ⟨_, rfl, rfl⟩⟩
      | 1 => exact ⟨_, _, _, byteAccess_reading_last _ _ _ _ _, .inl ⟨_, rfl, rfl⟩⟩
      | n + 2 => exact ⟨_, _, _, byteAccess_reading_more _ _ _ _ _ _, .inr ⟨rfl, by omega, _, _, _, rfl⟩⟩
  · intro b off left got hx hturn
    rw [step_access hx hturn] at hstep
    cases hstep
    have hin : b = .input → hostReadByte { s with agenda := rest } b off = s.inMem.read off := by
      rintro rfl
      rfl
    have hout : b = .output → s.busy = false → hostReadByte { s with agenda := rest } b off = s.outMem.read off := by
      rintro rfl hidle
      exact hostOutByte_of_idle hidle off
    match left with
    | 0 => exact ⟨_, _, _, rfl, fun _ => ⟨rfl, rfl⟩, nofun⟩
    | 1 =>
      exact ⟨_, _, _, byteAccess_reading_last _ _ _ _ _, nofun,
        fun _ => ⟨_, hin, hout, fun _ => ⟨rfl, rfl⟩, fun h => absurd h (by decide)⟩⟩
    | n + 2 =>
      exact ⟨_, _, _, byteAccess_reading_more _ _ _ _ _ _, nofun, fun _ => ⟨_, hin, hout, nofun, fun _ => ⟨rfl, rfl⟩⟩⟩

/-! ## Accesses in one piece -/

theorem core_run_succ (M : Host.Core) {s t : M.State} (h : M.step s = .next t) (k : Nat) :
    M.run (k + 1) s = M.run k t := by
  rw [Host.Core.run, h]

theorem run_succ {s t : State} (h : step s = .next t) (k : Nat) :
    Host.Core.run Sys2Proof.core (k + 1) s = Host.Core.run Sys2Proof.core k t :=
  core_run_succ Sys2Proof.core h k

/-- An access HOST issues, with nothing between its bytes, runs as that access does where it is under way with all its
bytes to come. -/
theorem run_inOnePiece {s : State} {a : HostAction} {x : Access} {width : Nat} {rest : List Turn} (hwidth : 0 < width)
    (haccess : s.access = none) (hagenda : s.agenda = inOnePiece a width rest)
    (hact : ∀ turns, hostAct a (s.withTurns turns none) = .next (byteAccess x (s.withTurns turns none))) :
    Host.Core.run Sys2Proof.core width s
      = Host.Core.run Sys2Proof.core width (s.withTurns (List.replicate width .byte ++ rest) (some x)) := by
  obtain ⟨n, rfl⟩ : ∃ n, width = n + 1 := ⟨width - 1, by omega⟩
  have hturns : { s with agenda := List.replicate n .byte ++ rest }
      = s.withTurns (List.replicate n .byte ++ rest) none := by
    rw [State.withTurns, ← haccess]
  have hissued : step s = .next (byteAccess x (s.withTurns (List.replicate n .byte ++ rest) none)) := by
    rw [← hact, ← hturns]
    exact step_issues ⟨haccess, hagenda⟩
  have hunderWay : step (s.withTurns (List.replicate (n + 1) .byte ++ rest) (some x))
      = .next (byteAccess x (s.withTurns (List.replicate n .byte ++ rest) none)) := by
    rw [← byteAccess_withTurns x s _ (some x)]
    exact step_access (s := s.withTurns (List.replicate (n + 1) .byte ++ rest) (some x)) rfl (.inl rfl)
  rw [run_succ hissued, run_succ hunderWay]

/-! ### Reads -/

/-- The byte HOST reads at an offset, where the draw gives the free value of an OUT byte read while BUSY = 1. -/
def byteReadAt (s : State) (b : Buffer) (draw a : Nat) : Byte := hostReadByte { s with draws := draw } b a

/-- The bytes a read of n bytes from an offset on returns, each with a draw of its own. -/
def bytesRead (s : State) (b : Buffer) (draw off n : Nat) : List Byte :=
  (List.range n).map fun k => byteReadAt s b (draw + k) (off + k)

theorem bytesRead_succ (s : State) (b : Buffer) (draw off n : Nat) :
    bytesRead s b draw off (n + 1) = byteReadAt s b draw off :: bytesRead s b (draw + 1) (off + 1) n := by
  rw [bytesRead, List.range_succ_eq_map, List.map_cons, List.map_map, bytesRead]
  congr 1
  refine List.map_congr_left fun k _ => ?_
  rw [Function.comp_apply, Nat.succ_eq_one_add, Nat.add_assoc, Nat.add_assoc]

theorem byteReadAt_output_of_idle {s : State} (h : s.busy = false) (draw a : Nat) :
    byteReadAt s .output draw a = s.outMem.read a :=
  hostOutByte_of_idle (s := { s with draws := draw }) h a

theorem byteReadAt_output_of_busy {s : State} (h : s.busy = true) (draw a : Nat) :
    byteReadAt s .output draw a = Config.freeByte draw a :=
  hostOutByte_of_busy (s := { s with draws := draw }) h a

theorem drawForByte_draws_of_fixed {s : State} {b : Buffer} (h : b = .input ∨ s.busy = false) :
    (drawForByte b s).draws = s.draws := by
  obtain rfl | hidle := h
  · rfl
  · cases b <;> simp [drawForByte, hidle]

/-- The draw counter after a byte is the one the next byte's free value comes from, where that value is free. -/
theorem bytesRead_drawForByte (s : State) (b : Buffer) (off n : Nat) :
    bytesRead s b (drawForByte b s).draws off n = bytesRead s b (s.draws + 1) off n := by
  cases b with
  | input => rfl
  | output =>
    cases hbusy : s.busy with
    | false => simp only [bytesRead, byteReadAt_output_of_idle hbusy]
    | true => simp [drawForByte, hbusy]

theorem step_reading (addr : Nat) (b : Buffer) (off left : Nat) (got : List Byte) (turns : List Turn) (s : State) :
    step (s.withTurns (.byte :: turns) (some (.reading addr b off (left + 2) got)))
      = .next (State.withTurns { s with draws := (drawForByte b s).draws } turns
          (some (.reading addr b (off + 1) (left + 1) (got ++ [hostReadByte s b off])))) := by
  cases b <;> rfl

theorem step_reading_last (addr : Nat) (b : Buffer) (off : Nat) (got : List Byte) (turns : List Turn) (s : State) :
    step (s.withTurns (.byte :: turns) (some (.reading addr b off 1 got)))
      = .next { s.withTurns turns none with
          draws := (drawForByte b s).draws
          reads := s.reads ++ [⟨addr, got.length + 1, leValue (got ++ [hostReadByte s b off])⟩] } := by
  rw [step_access (s := s.withTurns (.byte :: turns) _) rfl (.inl rfl), byteAccess_reading_last]
  cases b <;> rfl

/-- A read under way, with nothing between its bytes, notes the value of the bytes got and those to come. -/
theorem run_reading (addr : Nat) (b : Buffer) (off left : Nat) (got : List Byte) (rest : List Turn) (s : State) :
    ∃ draws, Host.Core.run Sys2Proof.core (left + 1)
          (s.withTurns (List.replicate (left + 1) .byte ++ rest) (some (.reading addr b off (left + 1) got)))
        = .next { s.withTurns rest none with
            draws := draws
            reads := s.reads ++
              [⟨addr, got.length + (left + 1), leValue (got ++ bytesRead s b s.draws off (left + 1))⟩] }
      ∧ (b = .input ∨ s.busy = false → draws = s.draws) := by
  induction left generalizing off got s with
  | zero => exact ⟨_, run_succ (step_reading_last addr b off got rest s) 0, drawForByte_draws_of_fixed⟩
  | succ left ih =>
    have hstep := step_reading addr b off left got (List.replicate (left + 1) .byte ++ rest) s
    obtain ⟨draws, hrun, hfixed⟩ := ih (off + 1) (got ++ [hostReadByte s b off])
      { s with draws := (drawForByte b s).draws }
    have hbytes : got ++ bytesRead s b s.draws off (left + 2)
        = got ++ [hostReadByte s b off] ++ bytesRead s b (drawForByte b s).draws (off + 1) (left + 1) := by
      rw [bytesRead_drawForByte, bytesRead_succ, List.append_assoc]
      rfl
    have hlength : got.length + (left + 2) = (got ++ [hostReadByte s b off]).length + (left + 1) := by
      rw [List.length_append, List.length_singleton]
      omega
    rw [hbytes, hlength]
    exact ⟨draws, (run_succ hstep _).trans hrun, fun h => (hfixed h).trans (drawForByte_draws_of_fixed h)⟩

/-! ### Writes -/

/-- HOST writes the bytes one after another, from an offset on. -/
def hostWriteBytes (b : Buffer) : Nat → List Byte → State → State
  | _, [], s => s
  | off, v :: vs, s => hostWriteBytes b (off + 1) vs (hostWriteByte b off v s)

theorem step_writing (b : Buffer) (off : Nat) (v : Byte) (vs : List Byte) (turns : List Turn) (s : State) :
    step (s.withTurns (.byte :: turns) (some (.writing b off (v :: vs))))
      = .next (writeGoesOn b (off + 1) vs
          ((hostWriteByte b off v s).withTurns turns (some (.writing b off (v :: vs))))) := by
  rw [← hostWriteByte_withTurns]
  exact step_access (s := s.withTurns (.byte :: turns) (some (.writing b off (v :: vs)))) rfl (.inl rfl)

/-- A write with bytes to come, and nothing between them, writes them. -/
theorem run_writing (b : Buffer) (off : Nat) (bs : List Byte) (rest : List Turn) (access : Option Access) (s : State) :
    Host.Core.run Sys2Proof.core bs.length
        (writeGoesOn b off bs (s.withTurns (List.replicate bs.length .byte ++ rest) access))
      = .next (hostWriteBytes b off bs (s.withTurns rest none)) := by
  induction bs generalizing off access s with
  | nil => rfl
  | cons v vs ih =>
    rw [hostWriteBytes, hostWriteByte_withTurns]
    exact (run_succ (step_writing b off v vs _ s) vs.length).trans (ih (off + 1) _ _)

/-- What writing bytes to IN does; while BUSY = 1 it also notes them as raced. -/
theorem hostWriteBytes_input (off : Nat) (bs : List Byte) (s : State) :
    ∃ inRaces, hostWriteBytes .input off bs s = { s with inMem := s.inMem.writeList off bs, inRaces := inRaces }
      ∧ (s.busy = false → inRaces = s.inRaces) := by
  induction bs generalizing off s with
  | nil => exact ⟨_, rfl, fun _ => rfl⟩
  | cons b bs ih =>
    obtain ⟨inRaces, hwrite, hidle⟩ := ih (off + 1) (hostWriteIn off b s)
    refine ⟨inRaces, hwrite, fun h => (hidle h).trans ?_⟩
    simp [h]

theorem hostWriteBytes_output_of_idle (off : Nat) (bs : List Byte) {s : State} (h : s.busy = false) :
    hostWriteBytes .output off bs s = { s with outMem := s.outMem.writeList off bs } := by
  induction bs generalizing off s with
  | nil => rfl
  | cons b bs ih =>
    have hbyte : hostWriteByte .output off b s = storeOut off b s := by simp [hostWriteByte, hostWriteOut, h]
    rw [hostWriteBytes, hbyte]
    exact ih (off + 1) (s := storeOut off b s) h

theorem hostWriteBytes_output_of_busy (off : Nat) (bs : List Byte) {s : State} (h : s.busy = true) :
    ∃ outTouched, hostWriteBytes .output off bs s = { s with outTouched := outTouched }
      ∧ ∀ a, a ∈ outTouched ↔ a ∈ s.outTouched ∨ off ≤ a ∧ a < off + bs.length := by
  induction bs generalizing off s with
  | nil => exact ⟨_, rfl, fun a => by simp⟩
  | cons b bs ih =>
    have hbyte : hostWriteByte .output off b s = { s with outTouched := off :: s.outTouched } := by
      simp [hostWriteByte, hostWriteOut, h]
    obtain ⟨outTouched, hwrite, hmem⟩ := ih (off + 1) (s := { s with outTouched := off :: s.outTouched }) h
    rw [hostWriteBytes, hbyte]
    refine ⟨outTouched, hwrite, fun a => ?_⟩
    have hrange : off ≤ a ∧ a < off + (bs.length + 1) ↔ a = off ∨ off + 1 ≤ a ∧ a < off + 1 + bs.length := by omega
    rw [hmem, List.mem_cons, List.length_cons, hrange]
    tauto

theorem read_writeList_leBytes (m : Memory) (off width value : Nat) {k : Nat} (hk : k < width) :
    (m.writeList off (leBytes width value)).read (off + k) = BitVec.ofNat 8 (value / 256 ^ k) := by
  have hlt : off ≤ off + k ∧ off + k - off < (leBytes width value).length := by rw [length_leBytes]; omega
  rw [Memory.read_writeList, dif_pos hlt]
  have hget := getElem?_leBytes width value k hk
  rw [List.getElem?_eq_some_iff] at hget
  obtain ⟨hlen, hget⟩ := hget
  simpa using hget

/-! ### The accesses HOST issues -/

/-- The windows of legal parameters lie apart, so an offset inside a buffer is found there. -/
theorem locate_buf {p : Params} (hp : p.wellFormed = true) (b : Buffer) {off : Nat} (h : off < bufSize p b) :
    locate p (bufBase p b + off) = some (.buf b, off) := by
  simp only [Params.wellFormed, Params.windowsApart, rangesApart, Bool.and_eq_true, decide_eq_true_eq] at hp
  obtain ⟨-, ⟨hcsrIn, hcsrOut⟩, hinOut⟩ := hp
  cases b with
  | input =>
    change off < p.inSize at h
    change locate p (p.inBase + off) = _
    unfold locate
    rw [if_neg (by omega), if_pos (by omega), Nat.add_sub_cancel_left]
  | output =>
    change off < p.outSize at h
    change locate p (p.outBase + off) = _
    unfold locate
    rw [if_neg (by omega), if_neg (by omega), if_pos (by omega), Nat.add_sub_cancel_left]

section
variable {s : State} {b : Buffer} {off width : Nat} {rest : List Turn} (hp : s.params.wellFormed = true)
  (hwidth : 0 < width) (haccess : s.access = none) (hsize : off + width ≤ bufSize s.params b)
include hp hwidth haccess hsize

theorem run_read (hagenda : s.agenda = inOnePiece (.read (bufBase s.params b + off) width) width rest) :
    ∃ draws, Host.Core.run Sys2Proof.core width s
        = .next { s with
            agenda := rest
            draws := draws
            reads := s.reads ++ [⟨bufBase s.params b + off, width, leValue (bytesRead s b s.draws off width)⟩] }
      ∧ (b = .input ∨ s.busy = false → draws = s.draws) := by
  have hact (turns : List Turn) : hostAct (.read (bufBase s.params b + off) width) (s.withTurns turns none)
      = .next (byteAccess (.reading (bufBase s.params b + off) b off width []) (s.withTurns turns none)) := by
    simp [hostAct, hostRead, State.withTurns, locate_buf hp b (off := off) (by omega), hsize]
  rw [run_inOnePiece hwidth haccess hagenda hact]
  obtain ⟨n, rfl⟩ : ∃ n, width = n + 1 := ⟨width - 1, by omega⟩
  obtain ⟨draws, hrun, hfixed⟩ := run_reading (bufBase s.params b + off) b off n [] rest s
  refine ⟨draws, ?_, hfixed⟩
  rw [hrun, haccess, List.nil_append, List.length_nil, Nat.zero_add]
  rfl

theorem run_write {value : Nat}
    (hagenda : s.agenda = inOnePiece (.write (bufBase s.params b + off) width value) width rest) :
    Host.Core.run Sys2Proof.core width s
      = .next (hostWriteBytes b off (leBytes width value) (s.withTurns rest none)) := by
  have hact (turns : List Turn) : hostAct (.write (bufBase s.params b + off) width value) (s.withTurns turns none)
      = .next (byteAccess (.writing b off (leBytes width value)) (s.withTurns turns none)) := by
    simp [hostAct, hostWrite, State.withTurns, locate_buf hp b (off := off) (by omega), hsize]
  rw [run_inOnePiece hwidth haccess hagenda hact]
  obtain ⟨n, rfl⟩ : ∃ n, width = n + 1 := ⟨width - 1, by omega⟩
  have hrun := run_writing b off (leBytes (n + 1) value) rest none s
  rw [length_leBytes] at hrun
  exact hrun

end

/-! ### Settling the statement -/

section
variable {s : State} {off width : Nat} {rest : List Turn} (hp : s.params.wellFormed = true) (hwidth : 0 < width)
  (haccess : s.access = none)
include hp hwidth haccess

theorem run_write_input {value : Nat} (hsize : off + width ≤ s.params.inSize)
    (hagenda : s.agenda = inOnePiece (.write (s.params.inBase + off) width value) width rest) :
    ∃ t, Host.Core.run Sys2Proof.core width s = .next t
      ∧ (∀ k, k < width → t.inMem.read (off + k) = BitVec.ofNat 8 (value / 256 ^ k))
      ∧ (∀ a, a < off ∨ off + width ≤ a → t.inMem.read a = s.inMem.read a)
      ∧ t = { s with agenda := rest, inMem := t.inMem, inRaces := t.inRaces }
      ∧ (s.busy = false → t.inRaces = s.inRaces) := by
  obtain ⟨inRaces, hwrite, hidle⟩ := hostWriteBytes_input off (leBytes width value) (s.withTurns rest none)
  refine ⟨_, run_write (b := .input) hp hwidth haccess hsize hagenda, ?_⟩
  rw [hwrite]
  refine ⟨fun k hk => read_writeList_leBytes _ _ _ _ hk, fun a ha => ?_, ?_, hidle⟩
  · exact Memory.read_writeList_outside _ _ (by rwa [length_leBytes])
  · rw [haccess]
    rfl

theorem run_read_input (hsize : off + width ≤ s.params.inSize)
    (hagenda : s.agenda = inOnePiece (.read (s.params.inBase + off) width) width rest) :
    Host.Core.run Sys2Proof.core width s
      = .next { s with
          agenda := rest
          reads := s.reads ++ [⟨s.params.inBase + off, width, leNat s.inMem.read off width⟩] } := by
  obtain ⟨draws, hrun, hfixed⟩ := run_read (b := .input) hp hwidth haccess hsize hagenda
  have hvalue : leValue (bytesRead s .input s.draws off width) = leNat s.inMem.read off width :=
    leValue_map_view s.inMem.read off width
  rw [hrun, hfixed (.inl rfl), hvalue]
  rfl

theorem run_write_output {value : Nat} (hsize : off + width ≤ s.params.outSize)
    (hagenda : s.agenda = inOnePiece (.write (s.params.outBase + off) width value) width rest) :
    ∃ t, Host.Core.run Sys2Proof.core width s = .next t
      ∧ t = { s with agenda := rest, outMem := t.outMem, outTouched := t.outTouched }
      ∧ (s.busy = false → t.outTouched = s.outTouched
          ∧ (∀ k, k < width → t.outMem.read (off + k) = BitVec.ofNat 8 (value / 256 ^ k))
          ∧ ∀ a, a < off ∨ off + width ≤ a → t.outMem.read a = s.outMem.read a)
      ∧ (s.busy = true → t.outMem = s.outMem
          ∧ ∀ a, a ∈ t.outTouched ↔ a ∈ s.outTouched ∨ off ≤ a ∧ a < off + width) := by
  refine ⟨_, run_write (b := .output) hp hwidth haccess hsize hagenda, ?_⟩
  cases hbusy : s.busy with
  | false =>
    rw [hostWriteBytes_output_of_idle off _ (s := s.withTurns rest none) hbusy]
    refine ⟨?_, fun _ => ⟨rfl, fun k hk => read_writeList_leBytes _ _ _ _ hk, fun a ha => ?_⟩, nofun⟩
    · rw [haccess]
      rfl
    · exact Memory.read_writeList_outside _ _ (by rwa [length_leBytes])
  | true =>
    obtain ⟨outTouched, hwrite, hmem⟩ :=
      hostWriteBytes_output_of_busy off (leBytes width value) (s := s.withTurns rest none) hbusy
    rw [length_leBytes] at hmem
    rw [hwrite]
    refine ⟨?_, nofun, fun _ => ⟨rfl, hmem⟩⟩
    rw [haccess]
    rfl

theorem run_read_output (hsize : off + width ≤ s.params.outSize)
    (hagenda : s.agenda = inOnePiece (.read (s.params.outBase + off) width) width rest) :
    ∃ draws bytes, Host.Core.run Sys2Proof.core width s
        = .next { s with
            agenda := rest
            draws := draws
            reads := s.reads ++ [⟨s.params.outBase + off, width, leValue bytes⟩] }
      ∧ (s.busy = false → draws = s.draws ∧ bytes = (List.range width).map fun k => s.outMem.read (off + k))
      ∧ (s.busy = true → bytes = (List.range width).map fun k => Config.freeByte (s.draws + k) (off + k)) := by
  obtain ⟨draws, hrun, hfixed⟩ := run_read (b := .output) hp hwidth haccess hsize hagenda
  refine ⟨draws, _, hrun, fun hidle => ⟨hfixed (.inr hidle), ?_⟩, fun hbusy => ?_⟩
  · simp only [bytesRead, byteReadAt_output_of_idle hidle]
  · simp only [bytesRead, byteReadAt_output_of_busy hbusy]

end

/-- CORE's turn between two bytes leaves the access under way. -/
theorem step_core_keeps_access {s : State} {x : Access} {rest : List Turn} (hx : s.access = some x)
    (hagenda : s.agenda = .core :: rest) : ∃ t, step s = .next t ∧ t.access = some x ∧ t.agenda = rest := by
  rw [step_of_coreMoves (.inl hagenda)]
  obtain ⟨t, hstep, -, -, -, -, -, hturns, haccess, -⟩ := coreStep_sameHost { s with agenda := rest }
  exact ⟨t, hstep, haccess.trans hx, hturns⟩

/-- Settles O21: an access in one piece is its bytes one after another (`run_write`, `run_read`), and completion leaves
a marked byte at the free value of its draw. -/
theorem hostWritesInLittleEndian : Obligations.HostWritesInLittleEndian := by
  refine ⟨fun s off width value rest hp hwidth haccess => ⟨fun hsize => ⟨?_, ?_⟩, fun hsize => ⟨?_, ?_⟩⟩,
    fun i s t a => read_outMem_of_touched, fun s x rest => step_core_keeps_access, fun s x hx hturn => ?_⟩
  · exact run_write_input hp hwidth haccess hsize
  · exact run_read_input hp hwidth haccess hsize
  · exact run_write_output hp hwidth haccess hsize
  · exact run_read_output hp hwidth haccess hsize
  · have hbyte := step_access (s := { s with agenda := .byte :: s.agenda }) (rest := s.agenda) hx (.inl rfl)
    rw [hbyte]
    exact step_access hx (.inr ⟨rfl, hturn⟩)

end Sys2Proof.Machine
end

section
/-! PROOFS. The encoding (30_encoding.md R110-R113): command words and commands are inverse, the reserved encodings, and
what an illegal word does (R112). -/

namespace Sys2Proof

/-! ## The opcode map -/

/-- The map gives a command for its own opcode alone; WRBIT's operand is the bit given (30_encoding.md R114). -/
theorem opcodeMap_eq_some_iff {op : BitVec 8} {bit : Bool} {i : Instr} :
    opcodeMap op bit = some i ↔ op = opcodeOf i ∧ (op = 0x04 → bitvalOf i = bit) := by
  constructor
  · intro h
    unfold opcodeMap at h
    split at h
    case h_14 => cases h
    case h_5 hop =>
      cases h
      exact ⟨BitVec.eq_of_toNat_eq hop, fun _ => rfl⟩
    all_goals
      cases h
      rename_i hop
      exact ⟨BitVec.eq_of_toNat_eq hop, fun hwrbit => by simp [hwrbit] at hop⟩
  · rintro ⟨rfl, hbit⟩
    cases i
    case wrbit => rw [← hbit rfl]; rfl
    all_goals rfl

/-- The map's reserved opcodes (30_encoding.md R111, R113). -/
theorem opcodeMap_eq_none_iff {op : BitVec 8} {bit : Bool} :
    opcodeMap op bit = none ↔ op ∈ ([0x0C, 0x0D, 0x0E] : List (BitVec 8)) ∨ 0x10 ≤ op.toNat := by
  simp only [List.mem_cons, List.not_mem_nil, or_false, ← BitVec.toNat_inj, BitVec.ofNat_eq_ofNat, BitVec.toNat_ofNat]
  unfold opcodeMap
  split
  case h_14 =>
    simp only [imp_false, true_iff] at *
    omega
  all_goals simp [*]

theorem bitvalOf_eq_false {i : Instr} (h : opcodeOf i ≠ 0x04) : bitvalOf i = false := by
  cases i
  case wrbit => exact absurd rfl h
  all_goals rfl

/-! ## The fields of a word -/

/-- RSVD, BITVAL and OPCODE are all of a word (30_encoding.md R110). -/
theorem word_eq_of_fields {v w : Word} (hreserved : reservedField v = reservedField w)
    (hbitval : bitvalField v = bitvalField w) (hopcode : opcodeField v = opcodeField w) : v = w := by
  apply BitVec.eq_of_getLsbD_eq
  intro k hk
  obtain hlow | rfl | hhigh : k < 8 ∨ k = 8 ∨ 9 ≤ k := by omega
  · have hbit := congrArg (·.getLsbD k) hopcode
    simpa [opcodeField, hlow] using hbit
  · exact hbitval
  · have hbit := congrArg (·.getLsbD (k - 9)) hreserved
    simpa [reservedField, show k - 9 < 55 by omega, show 9 + (k - 9) = k by omega] using hbit

theorem reservedField_eq_zero_iff {v : Word} : reservedField v = 0 ↔ v >>> 9 = 0 := by
  simp only [reservedField, ← BitVec.toNat_inj, BitVec.extractLsb'_toNat, BitVec.toNat_ushiftRight,
    BitVec.ofNat_eq_ofNat, BitVec.toNat_ofNat]
  have := v.isLt
  omega

theorem encode_fields (i : Instr) :
    reservedField (encode i) = 0 ∧ opcodeField (encode i) = opcodeOf i ∧ bitvalField (encode i) = bitvalOf i := by
  have hfields : Laws.EncodingFields.Statement i := by
    cases i
    case nop => exact Laws.EncodingFields.nop
    case count => exact Laws.EncodingFields.count
    case build => exact Laws.EncodingFields.build
    case gencode => exact Laws.EncodingFields.gencode
    case wrbit bit => exact Laws.EncodingFields.wrbit bit
    case flush => exact Laws.EncodingFields.flush
    case rdbit => exact Laws.EncodingFields.rdbit
    case canrd => exact Laws.EncodingFields.canrd
    case cwrite => exact Laws.EncodingFields.cwrite
    case cread => exact Laws.EncodingFields.cread
    case compress => exact Laws.EncodingFields.compress
    case decompress => exact Laws.EncodingFields.decompress
    case clear => exact Laws.EncodingFields.clear
  exact hfields.2

/-- A word is a command's where its fields are the command's. -/
theorem eq_encode_iff {v : Word} {i : Instr} :
    v = encode i ↔ reservedField v = 0 ∧ opcodeField v = opcodeOf i ∧ bitvalField v = bitvalOf i := by
  obtain ⟨hreserved, hopcode, hbitval⟩ := encode_fields i
  constructor
  · rintro rfl
    exact ⟨hreserved, hopcode, hbitval⟩
  · rintro ⟨hr, ho, hb⟩
    exact word_eq_of_fields (hr.trans hreserved.symm) (hb.trans hbitval.symm) (ho.trans hopcode.symm)

/-! ## Decoding -/

/-- A word decodes to a command where it passes the decoder's three checks (30_encoding.md R112, R113). -/
theorem decode_eq_ok_iff {v : Word} {i : Instr} :
    decode v = .ok i ↔ reservedField v = 0 ∧ opcodeMap (opcodeField v) (bitvalField v) = some i
      ∧ ¬ (opcodeField v ≠ 0x04 ∧ bitvalField v = true) := by
  unfold decode
  split
  · rename_i hreserved
    exact iff_of_false nofun fun ⟨hzero, _⟩ => hreserved hzero
  rename_i hreserved
  split
  · rename_i hnone
    exact iff_of_false nofun fun ⟨_, hsome, _⟩ => by simp [hnone] at hsome
  · rename_i j hsome
    rw [hsome]
    split
    · rename_i hbitval
      exact iff_of_false nofun fun ⟨_, _, hnot⟩ => hnot hbitval
    · rename_i hbitval
      simp only [Except.ok.injEq, Option.some.injEq]
      exact ⟨fun hij => ⟨not_not.mp hreserved, hij, hbitval⟩, fun ⟨_, hij, _⟩ => hij⟩

/-- A word decodes ILLEGAL where it fails one of the three checks. -/
theorem exists_decode_eq_error_iff {v : Word} :
    (∃ e, decode v = .error e) ↔ reservedField v ≠ 0 ∨ opcodeMap (opcodeField v) (bitvalField v) = none
      ∨ opcodeField v ≠ 0x04 ∧ bitvalField v = true := by
  have hnotOk : (∃ e, decode v = .error e) ↔ ¬ ∃ i, decode v = .ok i := by
    cases decode v <;> simp
  rw [hnotOk, Option.eq_none_iff_forall_ne_some]
  simp only [decode_eq_ok_iff, not_exists, not_and_or, not_or, not_not, forall_or_left, forall_or_right, ne_eq]

/-- Settles O2: to pass the decoder's checks (`decode_eq_ok_iff`) is to have the command's fields, which are all of its
word (`eq_encode_iff`). -/
theorem decodeInvertsEncode : Obligations.DecodeInvertsEncode := by
  intro v i
  rw [decode_eq_ok_iff, eq_encode_iff, opcodeMap_eq_some_iff]
  refine and_congr_right fun _ => ?_
  constructor
  · rintro ⟨⟨hopcode, hwrbit⟩, hbitval⟩
    refine ⟨hopcode, ?_⟩
    by_cases hop : opcodeField v = 0x04
    · exact (hwrbit hop).symm
    · rw [bitvalOf_eq_false (hopcode ▸ hop)]
      exact Bool.eq_false_iff.mpr fun hset => hbitval ⟨hop, hset⟩
  · rintro ⟨hopcode, hbitval⟩
    refine ⟨⟨hopcode, fun _ => hbitval.symm⟩, fun ⟨hop, hset⟩ => ?_⟩
    rw [hbitval, bitvalOf_eq_false (hopcode ▸ hop)] at hset
    cases hset

/-- Settles O3: the decoder's three checks, each by the bits it fails on. -/
theorem reservedEncodingsDecodeIllegal : Obligations.ReservedEncodingsDecodeIllegal := by
  intro v
  rw [exists_decode_eq_error_iff, opcodeMap_eq_none_iff, ne_eq, reservedField_eq_zero_iff, or_assoc, and_comm]
  rfl

/-- Settles O1: the fourteen words are their commands' (`decodeInvertsEncode`), and the nine are among the reserved
encodings (`reservedEncodingsDecodeIllegal`). -/
theorem listedWordsDecode : Obligations.ListedWordsDecode := by
  have hword : ∀ {v : Word} {i : Instr}, v = encode i → decode v = .ok i := (decodeInvertsEncode _ _).mpr
  refine ⟨hword rfl, hword rfl, hword rfl, hword rfl, hword rfl, hword rfl, hword rfl, hword rfl, hword rfl, hword rfl,
    hword rfl, hword rfl, hword rfl, hword rfl, fun v hv i hok => ?_⟩
  obtain ⟨e, he⟩ : ∃ e, decode v = .error e := by
    rw [reservedEncodingsDecodeIllegal v]
    simp only [List.mem_cons, List.not_mem_nil, or_false] at hv
    rcases hv with rfl | rfl | rfl | rfl | rfl | rfl | rfl | rfl | rfl <;> decide
  rw [hok] at he
  cases he

end Sys2Proof

namespace Sys2Proof.Machine

open Sys2Proof.Spec

/-! ## Illegal words -/

/-- With a word accepted that decodes ILLEGAL, CORE's turn fails it (30_encoding.md R112). -/
theorem coreStep_of_decode_error {s : State} {v : Word} {e : Illegal} (hv : s.pending = some v)
    (he : decode v = .error e) : coreStep s = .next (runIllegal s) := by
  simp [coreStep, hv, he]

theorem completeFailed_failure (c : Cause) (s : State) : Failure c [] s (completeFailed c s) :=
  ⟨rfl, rfl, rfl, rfl, by simp⟩

/-- Taking a failure changes no codec state. -/
theorem completeFailed_sameCodec (c : Cause) (s : State) : SameCodec s (completeFailed c s) :=
  ⟨⟨rfl, ⟨rfl, rfl⟩, rfl, rfl, rfl, ⟨rfl, rfl⟩, rfl, rfl⟩, rfl⟩

/-- Taking a failure changes no register of HOST's and nothing HOST does. -/
theorem completeFailed_sameHost (c : Cause) (s : State) : SameHost s (completeFailed c s) :=
  ⟨rfl, rfl, rfl, rfl, rfl, rfl, rfl, rfl⟩

theorem completeFailed_sameIn (c : Cause) (s : State) : SameIn s (completeFailed c s) := fun _ => rfl

/-- Taking a failure stores nothing: only OUT bytes HOST wrote while BUSY = 1 may differ (20_memory.md R93). -/
theorem completeFailed_sameOut (c : Cause) (s : State) : SameOut s (completeFailed c s) :=
  fun _ _ htouched => Memory.read_scrambleAt _ _ _ _ htouched

/-- Settles O5: CORE's turn is `runIllegal` (`coreStep_of_decode_error`), which takes the failure and does nothing
more. -/
theorem illegalCommandFails : Obligations.IllegalCommandFails := by
  intro s v e rest hpending hdecode hmoves
  have hstep : step s = .next (runIllegal { s with agenda := rest }) :=
    (step_of_coreMoves hmoves).trans (coreStep_of_decode_error hpending hdecode)
  exact ⟨_, hstep, completeFailed_failure .illegalCmd { s with agenda := rest }, completeFailed_sameCodec .illegalCmd _,
    completeFailed_sameHost .illegalCmd _, completeFailed_sameIn .illegalCmd _, completeFailed_sameOut .illegalCmd _⟩

end Sys2Proof.Machine
end

section
/-! PROOFS. COUNT (40_frequency.md R150 to R152): its table holds the number of occurrences of each symbol. -/

namespace Sys2Proof.Machine

open Sys2Proof.Spec

/-! ## Completion -/

theorem completeOk_success (s : State) : Success [] s (completeOk s) :=
  ⟨rfl, rfl, rfl, rfl, by simp⟩

/-- Completion changes no register of HOST's and nothing HOST does. -/
theorem completeOk_sameHost (s : State) : SameHost s (completeOk s) :=
  ⟨rfl, rfl, rfl, rfl, rfl, rfl, rfl, rfl⟩

theorem completeOk_sameIn (s : State) : SameIn s (completeOk s) := fun _ => rfl

/-- Completion stores nothing: only OUT bytes HOST wrote while BUSY = 1 may differ (20_memory.md R93). -/
theorem completeOk_sameOut (s : State) : SameOut s (completeOk s) :=
  fun _ _ htouched => Memory.read_scrambleAt _ _ _ _ htouched

/-! ## The temporaries F -/

theorem symGet_bump (f : SymTable Word) (b sym : Byte) :
    symGet (bump f b) sym = if sym = b then symGet f sym + 1 else symGet f sym := by
  rw [bump, symGet_symSet]
  split
  · next h => rw [h]
  · rfl

theorem symGet_foldl_bump (f : SymTable Word) (bs : List Byte) (sym : Byte) :
    symGet (bs.foldl bump f) sym = symGet f sym + BitVec.ofNat 64 (bs.count sym) := by
  induction bs generalizing f with
  | nil => simp
  | cons b bs ih =>
    rw [List.foldl_cons, ih, symGet_bump]
    by_cases h : sym = b
    · rw [if_pos h, h, List.count_cons_self, BitVec.ofNat_add, add_assoc, add_comm 1]
      rfl
    · rw [if_neg h, List.count_cons_of_ne (Ne.symm h)]

/-- The table counts the bytes of the list the view shows. -/
theorem symGet_countBytes (view : Nat → Byte) (n : Nat) (sym : Byte) :
    symGet (countBytes view n) sym = BitVec.ofNat 64 (((List.range n).map view).count sym) := by
  rw [countBytes, ← List.foldl_map, symGet_foldl_bump, symGet_symFill, zero_add]

/-- No count overflows: there are no more occurrences than bytes. -/
theorem toNat_symGet_countBytes (view : Nat → Byte) {n : Nat} (hn : n < 2 ^ 64) (sym : Byte) :
    (symGet (countBytes view n) sym).toNat = ((List.range n).map view).count sym := by
  have hle : ((List.range n).map view).count sym ≤ n := by
    simpa using List.count_le_length (l := (List.range n).map view) (a := sym)
  rw [symGet_countBytes, BitVec.toNat_ofNat, Nat.mod_eq_of_lt (hle.trans_lt hn)]

theorem occurrences_eq_count (view : Nat → Byte) (n : Nat) (sym : Byte) :
    occurrences view n sym = ((List.range n).map view).count sym := by
  rw [occurrences, List.count, List.countP_map, List.countP_eq_length_filter]
  rfl

theorem symGet_countBytes_ne_zero_iff (view : Nat → Byte) {n : Nat} (hn : n < 2 ^ 64) (sym : Byte) :
    symGet (countBytes view n) sym ≠ 0 ↔ sym ∈ (List.range n).map view := by
  rw [← List.count_pos_iff, ← toNat_symGet_countBytes view hn, Nat.pos_iff_ne_zero, ne_eq, ne_eq,
    ← BitVec.toNat_inj]
  rfl

/-- The entries' symbols and the distinct bytes are both free of repetition, and have the same members. -/
theorem entryCount_countBytes (view : Nat → Byte) {n : Nat} (hn : n < 2 ^ 64) :
    entryCount (countBytes view n) = ((List.range n).map view).dedup.length := by
  have hperm : ((entries (countBytes view n)).map Prod.fst).Perm ((List.range n).map view).dedup := by
    rw [List.perm_ext_iff_of_nodup (entries_symbols_nodup _) (List.nodup_dedup _)]
    intro sym
    rw [mem_entries_symbols, symGet_countBytes_ne_zero_iff view hn, List.mem_dedup]
  rw [← hperm.length_eq, List.length_map, entryCount]

theorem countBytes_eq_of_perm {view view' : Nat → Byte} {n n' : Nat}
    (h : ((List.range n).map view).Perm ((List.range n').map view')) : countBytes view n = countBytes view' n' :=
  symTable_ext fun sym => by rw [symGet_countBytes, symGet_countBytes, h.count_eq]

/-! ## The sum of the counts -/

theorem allSymbols_nodup : allSymbols.Nodup := by
  have htoNat : allSymbols.map BitVec.toNat = List.range 256 := by
    refine List.ext_getElem (by simp) fun i hi _ => ?_
    have hlt : i < 256 := by simpa using hi
    simp [getElem_allSymbols, Nat.mod_eq_of_lt hlt]
  exact List.Nodup.of_map BitVec.toNat (htoNat ▸ List.nodup_range)

theorem toList_eq_map_symGet {α : Type} (t : SymTable α) : t.toList = allSymbols.map (symGet t) := by
  refine List.ext_getElem (by simp) fun i hi _ => ?_
  have hlt : i < 256 := by simpa using hi
  simp [getElem_allSymbols, symGet, Nat.mod_eq_of_lt hlt]

/-- Every byte is one of the symbols, and is counted with it. -/
theorem sum_count_allSymbols (bs : List Byte) : (allSymbols.map fun sym => bs.count sym).sum = bs.length := by
  rw [← List.sum_toFinset _ allSymbols_nodup]
  have hall := Multiset.sum_count_eq_card (s := allSymbols.toFinset) (m := (bs : Multiset Byte)) fun sym _ =>
    List.mem_toFinset.mpr (mem_allSymbols sym)
  simpa only [Multiset.coe_count, Multiset.coe_card] using hall

theorem sum_countBytes (view : Nat → Byte) {n : Nat} (hn : n < 2 ^ 64) :
    ((countBytes view n).toList.map BitVec.toNat).sum = n := by
  have hcounts : (countBytes view n).toList.map BitVec.toNat
      = allSymbols.map fun sym => ((List.range n).map view).count sym := by
    rw [toList_eq_map_symGet, List.map_map]
    exact List.map_congr_left fun sym _ => toNat_symGet_countBytes view hn sym
  rw [hcounts, sum_count_allSymbols, List.length_map, List.length_range]

/-! ## The command -/

theorem exec_count_of_le {s : State} (h : s.inLen.toNat ≤ s.params.inSize) :
    exec .count s =
      .next (completeOk { s with freq := countBytes (coreRead s firstPass) s.inLen.toNat, origLen := s.inLen }) := by
  have hlegal : inLenBad s = false := decide_eq_false (Nat.not_lt.mpr h)
  rw [exec_eq_complete, bodyOf, countBody, hlegal]
  rfl

theorem exec_count_of_lt {s : State} (h : s.params.inSize < s.inLen.toNat) :
    exec .count s = .next (completeFailed .badArg s) := by
  have hbad : inLenBad s = true := decide_eq_true h
  rw [exec_eq_complete, bodyOf, countBody, hbad]
  rfl

theorem freq_of_exec_count {s t : State} (h : s.inLen.toNat ≤ s.params.inSize) (ht : exec .count s = .next t) :
    t.freq = countBytes (coreRead s firstPass) s.inLen.toNat := by
  rw [exec_count_of_le h] at ht
  cases ht
  rfl

/-- Settles O29: either end of COUNT's check (`exec_count_of_le`, `exec_count_of_lt`), the counts by
`toNat_symGet_countBytes`. -/
theorem countCountsOccurrences : Obligations.CountCountsOccurrences := by
  intro s
  constructor
  · intro h
    refine ⟨_, exec_count_of_le h, completeOk_success _, fun sym => ?_, rfl, ⟨rfl, rfl⟩, rfl, rfl, rfl, ⟨rfl, rfl⟩,
      rfl, rfl, completeOk_sameHost _, completeOk_sameIn _, completeOk_sameOut _⟩
    rw [occurrences_eq_count]
    exact toNat_symGet_countBytes _ s.inLen.isLt sym
  · intro h
    exact ⟨_, exec_count_of_lt h, completeFailed_failure .badArg s, completeFailed_sameCodec .badArg s⟩

/-- Settles O30: which counts are nonzero (`symGet_countBytes_ne_zero_iff`), how many (`entryCount_countBytes`), and
their sum (`sum_countBytes`). -/
theorem countEntriesAreTheDistinctBytes : Obligations.CountEntriesAreTheDistinctBytes := by
  intro s h
  have hlen : s.inLen.toNat < 2 ^ 64 := s.inLen.isLt
  refine ⟨_, exec_count_of_le h, fun sym => ?_, entryCount_countBytes _ hlen, sum_countBytes _ hlen⟩
  simpa only [completeOk_freq, List.mem_map, List.mem_range] using
    symGet_countBytes_ne_zero_iff (coreRead s firstPass) hlen sym

/-- Settles O31: both tables are those of their views (`freq_of_exec_count`), and counts do not depend on order
(`countBytes_eq_of_perm`). -/
theorem countIgnoresOrder : Obligations.CountIgnoresOrder := by
  intro s s' t t' h h' hperm ht ht'
  rw [freq_of_exec_count h ht, freq_of_exec_count h' ht']
  exact countBytes_eq_of_perm hperm

end Sys2Proof.Machine
end

section
/-! PROOFS. BUILD (41_tree.md R170 to R177): the leaves stand in symbol order, every later node joins the two least
waiting nodes, and the last is the root. -/

namespace Sys2Proof.Machine

open Sys2Proof.Spec

/-! ## Selection by weight, then index (41_tree.md R173) -/

theorem before_iff_lexBelow {p : Pool} {i j : Nat} : before p i j = true ↔ lexBelow p i j := by
  rw [before, decide_eq_true_iff, lexBelow, BitVec.lt_def, BitVec.toNat_inj]

theorem lexBelow_of_not {p : Pool} {i j : Nat} (h : ¬ lexBelow p j i) (hne : i ≠ j) : lexBelow p i j := by
  unfold lexBelow at *
  omega

/-- A node at or below j is below every node j is below. -/
theorem lexBelow_of_not_of_lexBelow {p : Pool} {i j k : Nat} (h : ¬ lexBelow p j i) (hjk : lexBelow p j k) :
    lexBelow p i k := by
  unfold lexBelow at *
  omega

/-- The node `leastOf` takes is below every other node of the queue. -/
theorem lexBelow_leastOf {p : Pool} {q : List Nat} {a i : Nat} (h : leastOf p q = some a) (hi : i ∈ q) (hne : i ≠ a) :
    lexBelow p a i := by
  induction q generalizing a i with
  | nil => cases hi
  | cons c q ih =>
    rw [leastOf] at h
    split at h
    · next hnone =>
      cases h
      rw [leastOf_eq_none.mp hnone, List.mem_singleton] at hi
      exact absurd hi hne
    · next j hj =>
      split at h
      · next hjc =>
        cases h
        rcases List.mem_cons.mp hi with rfl | hq
        · exact before_iff_lexBelow.mp hjc
        · exact ih hj hq hne
      · next hjc =>
        cases h
        rw [before_iff_lexBelow] at hjc
        have hq := (List.mem_cons.mp hi).resolve_left hne
        rcases eq_or_ne i j with rfl | hij
        · exact lexBelow_of_not hjc hne.symm
        · exact lexBelow_of_not_of_lexBelow hjc (ih hj hq hij)

/-! ## What a node joined stays as nodes are added -/

theorem waiting_append {p : Pool} {x : Node} {k i : Nat} (hk : k ≤ p.length) :
    waiting (p ++ [x]) k i ↔ waiting p k i := by
  refine and_congr_right fun _ => forall₂_congr fun j hj => ?_
  have hne : j ≠ p.length := by omega
  simp [isParent_append, hne]

theorem lexBelow_append {p : Pool} {x : Node} {i j : Nat} (hi : i < p.length) (hj : j < p.length) :
    lexBelow (p ++ [x]) i j ↔ lexBelow p i j := by
  rw [lexBelow, lexBelow, nodeAt_append_of_lt x hi, nodeAt_append_of_lt x hj]

theorem joinsLeast_append {p : Pool} {k : Nat} (x : Node) (hk : k < p.length) (h : joinsLeast p k) :
    joinsLeast (p ++ [x]) k := by
  obtain ⟨hleaf, hsym, ha, hb, hne, hleast, hnext, hweight⟩ := h
  have hla := ha.1.trans hk
  have hlb := hb.1.trans hk
  simp only [joinsLeast, nodeAt_append_of_lt x hk, nodeAt_append_of_lt x hla, nodeAt_append_of_lt x hlb,
    waiting_append hk.le]
  refine ⟨hleaf, hsym, ha, hb, hne, fun i hi hia => ?_, fun i hi hia hib => ?_, hweight⟩
  · exact (lexBelow_append hla (hi.1.trans hk)).mpr (hleast i hi hia)
  · exact (lexBelow_append hlb (hi.1.trans hk)).mpr (hnext i hi hia hib)

/-! ## One merge joins the two least -/

/-- The queue is the priority structure as the pool shows it: the nodes no node has joined. -/
theorem ForestOk.mem_queue_iff_waiting {n : Nat} {f : Forest} (hf : ForestOk n f) {i : Nat} :
    i ∈ f.queue ↔ Spec.waiting f.pool f.pool.length i := by
  constructor
  · exact fun hq => ⟨hf.inPool i hq, fun j _ => hf.waiting i hq j⟩
  · rintro ⟨hi, hfree⟩
    by_contra hq
    obtain ⟨j, hj, -⟩ := hf.joined i hi hq
    exact hfree j hj.1 hj

theorem ForestOk.joinsLeast_join {n : Nat} {f : Forest} {a b : Nat} (hn : n ≤ 256) (hf : ForestOk n f)
    (ha : leastOf f.pool f.queue = some a) (hb : leastOf f.pool (f.queue.erase a) = some b) :
    joinsLeast (f.join a b).pool f.pool.length := by
  have hamem := leastOf_mem ha
  have hbmem := leastOf_mem hb
  obtain ⟨hbq, hne⟩ := hf.mem_queue_second hbmem
  have hla := hf.inPool a hamem
  have hlb := hf.inPool b hbq
  have hleft : (joinNodes f.pool a b).left.toNat = a := hf.toNat_ofNat_index hamem hn
  have hright : (joinNodes f.pool a b).right.toNat = b := hf.toNat_ofNat_index hbq hn
  simp only [joinsLeast, Forest.join, nodeAt_append_length, hleft, hright, nodeAt_append_of_lt _ hla,
    nodeAt_append_of_lt _ hlb, waiting_append le_rfl, ← hf.mem_queue_iff_waiting]
  refine ⟨rfl, rfl, hamem, hbq, hne.symm, fun i hi hia => ?_, fun i hi hia hib => ?_,
    hf.weight_joinNodes hamem hbmem⟩
  · exact (lexBelow_append hla (hf.inPool i hi)).mpr (lexBelow_leastOf ha hi hia)
  · have hrest : i ∈ f.queue.erase a := hf.nodup.mem_erase_iff.mpr ⟨hia, hi⟩
    exact (lexBelow_append hlb (hf.inPool i hi)).mpr (lexBelow_leastOf hb hrest hib)

/-! ## Every forest of a BUILD -/

/-- What merging makes of the seeded forest: its leaves stand first, and every later node joins the two least. -/
structure MergedFrom (freq : SymTable Word) (f : Forest) : Prop where
  ok : ForestOk (entryCount freq) f
  leaves : (seededForest freq).pool <+: f.pool
  joins : ∀ k, entryCount freq ≤ k → k < f.pool.length → joinsLeast f.pool k

theorem seededForest_mergedFrom (freq : SymTable Word) : MergedFrom freq (seededForest freq) where
  ok := seededForest_ok freq
  leaves := List.prefix_rfl
  joins := fun k hk hlt => by
    rw [length_pool_seededForest, ← entryCount] at hlt
    omega

theorem MergedFrom.mergeOnce {freq : SymTable Word} {f g : Forest} (hf : MergedFrom freq f)
    (h : mergeOnce f = some g) : MergedFrom freq g := by
  obtain ⟨-, hnone⟩ | ⟨a, b, ha, hb, he⟩ := mergeOnce_cases f
  · rw [hnone] at h; cases h
  · rw [he] at h
    cases h
    refine ⟨hf.ok.join (leastOf_mem ha) (leastOf_mem hb) (entryCount_le freq),
      hf.leaves.trans (List.prefix_append _ _), fun k hk hlt => ?_⟩
    rcases Nat.lt_or_ge k f.pool.length with hold | hge
    · exact joinsLeast_append _ hold (hf.joins k hk hold)
    · have hlast : k = f.pool.length := by
        simp only [Forest.join, List.length_append, List.length_singleton] at hlt
        omega
      exact hlast ▸ hf.ok.joinsLeast_join (entryCount_le freq) ha hb

theorem mergedForest_mergedFrom (freq : SymTable Word) : MergedFrom freq (mergedForest freq) :=
  mergeAll_induction (fun _ _ hf h => hf.mergeOnce h) _ _ (seededForest_mergedFrom freq)

/-- Merging leaves the leaves where seeding put them. -/
theorem nodeAt_mergedForest {freq : SymTable Word} {i : Nat} (h : i < (entries freq).length) :
    nodeAt (mergedForest freq).pool i = leafNode (entries freq)[i] := by
  obtain ⟨later, hpool⟩ := (mergedForest_mergedFrom freq).leaves
  rw [← nodeAt_seededForest h, nodeAt, nodeAt, ← hpool, List.getD_append _ _ _ _ (by simpa using h)]

/-! ## The end of merging (41_tree.md R171, R175) -/

theorem mergedForest_of_entryCount_eq_zero {freq : SymTable Word} (h : entryCount freq = 0) :
    mergedForest freq = { pool := [], queue := [] } := by
  have hcount := (mergedForest_ok freq).count
  rw [h, Nat.mul_zero, Nat.add_eq_zero_iff, List.length_eq_zero_iff, List.length_eq_zero_iff] at hcount
  rw [← hcount.1, ← hcount.2]

section
variable {freq : SymTable Word} (h : 0 < entryCount freq)
include h

/-- One node waits at the end, the last. -/
theorem queue_mergedForest : (mergedForest freq).queue = [(mergedForest freq).pool.length - 1] := by
  have hlast := (mergedForest_ok freq).lastWaits h
  match hq : (mergedForest freq).queue, length_queue_mergedForest_le freq with
  | [], _ => rw [hq] at hlast; cases hlast
  | [root], _ => rw [hq, List.mem_singleton] at hlast; rw [hlast]
  | _ :: _ :: _, hle => simp at hle

theorem length_pool_mergedForest : (mergedForest freq).pool.length = 2 * entryCount freq - 1 := by
  have hcount := (mergedForest_ok freq).count
  rw [queue_mergedForest h, List.length_singleton] at hcount
  omega

theorem treeInfoOf_mergedForest : treeInfoOf (mergedForest freq) =
    { nodeCount := BitVec.ofNat 10 (2 * entryCount freq - 1), root := BitVec.ofNat 9 (2 * entryCount freq - 2),
      rootValid := true } := by
  rw [treeInfoOf, queue_mergedForest h, length_pool_mergedForest h]
  rfl

end

theorem rootValid_mergedForest (freq : SymTable Word) :
    (treeInfoOf (mergedForest freq)).rootValid = true ↔ 0 < entryCount freq := by
  rcases Nat.eq_zero_or_pos (entryCount freq) with h | h
  · simp [mergedForest_of_entryCount_eq_zero h, treeInfoOf, h]
  · simp [treeInfoOf_mergedForest h, h]

/-- The leaves are the first nodes, one for each entry: every later node is a join. -/
theorem isLeaf_mergedForest_iff {freq : SymTable Word} {i : Nat} (hi : i < (mergedForest freq).pool.length) :
    (nodeAt (mergedForest freq).pool i).isLeaf = true ↔ i < entryCount freq := by
  rcases Nat.lt_or_ge i (entryCount freq) with h | h
  · simp [nodeAt_mergedForest h, leafNode, h]
  · obtain ⟨hleaf, -⟩ := (mergedForest_mergedFrom freq).joins i h hi
    simp [hleaf, Nat.not_lt.mpr h]

/-! ## The entries in symbol order (41_tree.md R172) -/

theorem entries_eq_map_filter (freq : SymTable Word) :
    entries freq = (allSymbols.filter fun s => decide (symGet freq s ≠ 0)).map fun s => (s, symGet freq s) := by
  rw [entries, toList_eq_map_symGet, ← List.map_prod_left_eq_zip, List.filter_map]
  rfl

theorem entryCount_pos_iff {freq : SymTable Word} : 0 < entryCount freq ↔ ∃ sym, symGet freq sym ≠ 0 := by
  rw [entryCount, ← List.length_map (f := Prod.fst), List.length_pos_iff_exists_mem]
  exact exists_congr fun _ => mem_entries_symbols

theorem mem_take_allSymbols {sym s : Byte} : s ∈ allSymbols.take sym.toNat ↔ s.toNat < sym.toNat := by
  have hsym := sym.isLt
  rw [allSymbols, ← List.map_take, List.take_range, Nat.min_eq_left hsym.le, List.mem_map]
  constructor
  · rintro ⟨i, hi, rfl⟩
    rw [List.mem_range] at hi
    rw [BitVec.toNat_ofNat, Nat.mod_eq_of_lt (hi.trans hsym)]
    exact hi
  · exact fun h => ⟨s.toNat, List.mem_range.mpr h, by rw [BitVec.ofNat_toNat, BitVec.setWidth_eq]⟩

theorem length_filter_take_allSymbols (freq : SymTable Word) (sym : Byte) :
    ((allSymbols.take sym.toNat).filter fun s => decide (symGet freq s ≠ 0)).length
      = (Finset.univ.filter fun x : Fin 256 => x.val < sym.toNat ∧ symGet freq (BitVec.ofFin x) ≠ 0).card := by
  have hnodup := (allSymbols_nodup.sublist (List.take_sublist sym.toNat _)).filter fun s => decide (symGet freq s ≠ 0)
  have hmem : ∀ s : Byte, s ∈ ((allSymbols.take sym.toNat).filter fun s => decide (symGet freq s ≠ 0)).toFinset
      ↔ s.toNat < sym.toNat ∧ symGet freq s ≠ 0 := fun s => by
    rw [List.mem_toFinset, List.mem_filter, mem_take_allSymbols, decide_eq_true_iff]
  rw [← List.toFinset_card_of_nodup hnodup]
  exact Finset.card_bij' (fun s _ => s.toFin) (fun x _ => BitVec.ofFin x)
    (fun s hs => Finset.mem_filter.mpr ⟨Finset.mem_univ _, (hmem s).mp hs⟩)
    (fun x hx => (hmem _).mpr (Finset.mem_filter.mp hx).2) (fun _ _ => rfl) (fun _ _ => rfl)

/-- The entries of the smaller symbols stand before a symbol's own. -/
theorem entries_eq_append {freq : SymTable Word} {sym : Byte} (h : symGet freq sym ≠ 0) :
    ∃ below above, entries freq = below ++ (sym, symGet freq sym) :: above
      ∧ below.length
        = (Finset.univ.filter fun x : Fin 256 => x.val < sym.toNat ∧ symGet freq (BitVec.ofFin x) ≠ 0).card := by
  have hlt : sym.toNat < allSymbols.length := by simpa using sym.isLt
  have hsplit : allSymbols = allSymbols.take sym.toNat ++ sym :: allSymbols.drop (sym.toNat + 1) := by
    conv_lhs => rw [← List.take_append_drop sym.toNat allSymbols, List.drop_eq_getElem_cons hlt, getElem_allSymbols,
      BitVec.ofNat_toNat, BitVec.setWidth_eq]
  have hentries := entries_eq_map_filter freq
  rw [hsplit, List.filter_append, List.filter_cons_of_pos (by simpa using h), List.map_append,
    List.map_cons] at hentries
  exact ⟨_, _, hentries, (List.length_map _).trans (length_filter_take_allSymbols freq sym)⟩

/-! ## The command -/

theorem exec_build (s : State) : exec .build s = .next (completeOk (buildBody s)) := rfl

/-- Settles O35: the forest's invariant (`MergedFrom`), which every merge keeps by `ForestOk.joinsLeast_join`. -/
theorem buildJoinsTheTwoLeast : Obligations.BuildJoinsTheTwoLeast :=
  fun s => ⟨_, exec_build s, (mergedForest_mergedFrom s.freq).joins⟩

/-- Settles O32: the tree by `treeOk_mergedForest`, and there is one exactly when there are entries
(`rootValid_mergedForest`). -/
theorem buildMakesATree : Obligations.BuildMakesATree := fun s =>
  ⟨_, exec_build s, completeOk_success _, treeOk_mergedForest s.freq,
    (rootValid_mergedForest s.freq).trans entryCount_pos_iff, fun sym => symGet_symFill _ sym, rfl, rfl, rfl,
    ⟨rfl, rfl⟩, rfl, rfl, rfl, completeOk_sameHost _, completeOk_sameIn _, completeOk_sameOut _⟩

/-- Settles O33: the empty forest of no entries (`mergedForest_of_entryCount_eq_zero`), else the one node that waits at
the end as root (`treeInfoOf_mergedForest`). -/
theorem buildCardinality : Obligations.BuildCardinality := by
  intro s
  refine ⟨_, exec_build s, fun h => ?_, fun h => ?_⟩
  · simp [mergedForest_of_entryCount_eq_zero h, treeInfoOf]
  · have hle := entryCount_le s.freq
    simp only [completeOk_pool, completeOk_treeInfo, buildBody_pool, buildBody_treeInfo, treeInfoOf_mergedForest h,
      BitVec.toNat_ofNat]
    exact ⟨trivial, Nat.mod_eq_of_lt (by omega), length_pool_mergedForest h, Nat.mod_eq_of_lt (by omega),
      fun _ hi => isLeaf_mergedForest_iff hi⟩

/-- Settles O34: the j-th entry is that of the symbol with j present symbols below it (`entries_eq_append`), and its
leaf is NODE[j] (`nodeAt_mergedForest`). -/
theorem buildSeedsLeavesInSymbolOrder : Obligations.BuildSeedsLeavesInSymbolOrder := by
  intro s sym hsym
  obtain ⟨below, above, hentries, hlen⟩ := entries_eq_append hsym
  have hlt : below.length < (entries s.freq).length := by simp [hentries]
  have hnode : nodeAt (mergedForest s.freq).pool below.length = leafNode (sym, symGet s.freq sym) := by
    rw [nodeAt_mergedForest hlt]
    simp [hentries]
  refine ⟨_, exec_build s, below.length, hlen, ?_⟩
  rw [completeOk_pool, buildBody_pool, hnode]
  exact ⟨rfl, rfl, toNat_weight_leafNode _, rfl, rfl⟩

/-- Settles O36: BUILD writes the pool, TREE_INFO and the code table from FREQ alone. -/
theorem buildDependsOnFreqAlone : Obligations.BuildDependsOnFreqAlone := by
  intro s s' t t' hfreq ht ht'
  rw [exec_build] at ht ht'
  cases ht
  cases ht'
  simp [hfreq]

end Sys2Proof.Machine
end

section
/-! PROOFS. GENCODE (42_codegen.md R190 to R194): the codes are the paths from the root to the leaves, no code
begins another, and they are full. -/

namespace Sys2Proof.Machine

open Sys2Proof.Spec

/-! ## Paths from a node -/

/-- A path that extends another is that path, or goes on from it with an edge. -/
theorem eq_or_concat_prefix_of_prefix {bs cs : List Bool} (h : bs <+: cs) : cs = bs ∨ ∃ b, bs ++ [b] <+: cs := by
  obtain ⟨ds, rfl⟩ := h
  cases ds with
  | nil => exact .inl (List.append_nil bs)
  | cons b ds => exact .inr ⟨b, ds, by simp⟩

/-- A path goes on from one of its beginnings with one edge only. -/
theorem edge_unique {bs cs : List Bool} {b c : Bool} (hb : bs ++ [b] <+: cs) (hc : bs ++ [c] <+: cs) : b = c := by
  have heq := (List.prefix_of_prefix_length_le hb hc (by simp)).eq_of_length (by simp)
  simpa using heq

@[simp] theorem descend_nil (p : Pool) (i : Nat) : descend p i [] = i := rfl

theorem descend_append (p : Pool) (i : Nat) (bs cs : List Bool) :
    descend p i (bs ++ cs) = descend p (descend p i bs) cs := by
  induction bs generalizing i with
  | nil => rfl
  | cons b bs ih => exact ih _

/-- A parent is an internal node with an edge to its child. -/
theorem isParent_iff {p : Pool} {j i : Nat} :
    isParent p j i ↔ j < p.length ∧ (nodeAt p j).isLeaf = false ∧ ∃ b, descend p j [b] = i := by
  simp [isParent, descend]

/-- Along the edges from the root only the node the path ends at may be a leaf. -/
def IsPath (p : Pool) (root : Nat) (bs : List Bool) : Prop :=
  ∀ k < bs.length, (nodeAt p (descend p root (bs.take k))).isLeaf = false

theorem isPath_nil (p : Pool) (root : Nat) : IsPath p root [] := nofun

theorem isPath_concat {p : Pool} {root : Nat} {bs : List Bool} {b : Bool} :
    IsPath p root (bs ++ [b]) ↔ IsPath p root bs ∧ (nodeAt p (descend p root bs)).isLeaf = false := by
  constructor
  · intro h
    refine ⟨fun k hk => ?_, ?_⟩
    · simpa [List.take_append_of_le_length hk.le] using h k (by simp; omega)
    · simpa using h bs.length (by simp)
  · rintro ⟨h, hend⟩ k hk
    rw [List.length_append, List.length_singleton, Nat.lt_succ_iff] at hk
    rw [List.take_append_of_le_length hk]
    rcases hk.lt_or_eq with hlt | rfl
    · exact h k hlt
    · rwa [List.take_length]

theorem IsPath.of_prefix {p : Pool} {root : Nat} {bs cs : List Bool} (h : IsPath p root cs) (hpre : bs <+: cs) :
    IsPath p root bs := by
  obtain ⟨ds, rfl⟩ := hpre
  intro k hk
  simpa [List.take_append_of_le_length hk.le] using h k (by simp; omega)

/-- A path that goes on has not ended at a leaf. -/
theorem IsPath.eq_of_prefix_of_isLeaf {p : Pool} {root : Nat} {bs cs : List Bool} (h : IsPath p root cs)
    (hpre : bs <+: cs) (hleaf : (nodeAt p (descend p root bs)).isLeaf = true) : cs = bs := by
  refine (eq_or_concat_prefix_of_prefix hpre).resolve_right ?_
  rintro ⟨b, hb⟩
  have hinner := (isPath_concat.mp (h.of_prefix hb)).2
  simp [hinner] at hleaf

/-- The path leads from the root to a leaf of the symbol. -/
def IsLeafPath (p : Pool) (root : Nat) (bs : List Bool) (sym : Byte) : Prop :=
  IsPath p root bs ∧ (nodeAt p (descend p root bs)).isLeaf = true ∧ (nodeAt p (descend p root bs)).symbol = sym

/-! ## Paths in a tree -/

/-- A node pool that is a tree with the root (10_state.md R48, R52, R54). -/
structure Rooted (p : Pool) (root : Nat) : Prop where
  rootLast : root + 1 = p.length
  size : p.length ≤ 511
  shape : ∀ i, i < p.length → nodeShape p i
  parent : ∀ i, i + 1 < p.length → ∃! j, isParent p j i
  distinct : ∀ i j, i < p.length → j < p.length → (nodeAt p i).isLeaf = true → (nodeAt p j).isLeaf = true →
    (nodeAt p i).symbol = (nodeAt p j).symbol → i = j

theorem State.TreeOk.rooted {s : State} (h : s.TreeOk) (hroot : s.treeInfo.rootValid = true) :
    Rooted s.pool s.treeInfo.root.toNat := by
  obtain ⟨-, hsize, htree⟩ := h
  rw [if_pos hroot] at htree
  obtain ⟨hlast, hshape, hparent, hdistinct⟩ := htree
  exact ⟨hlast, hsize, hshape, hparent, hdistinct⟩

section
variable {p : Pool} {root : Nat} (ht : Rooted p root)
include ht

theorem Rooted.root_lt : root < p.length := by
  have := ht.rootLast
  omega

/-- Both children of an internal node stand before it, and they differ. -/
theorem Rooted.children {i : Nat} (hi : i < p.length) (hinner : (nodeAt p i).isLeaf = false) :
    (∀ b, descend p i [b] < i) ∧ Function.Injective fun b => descend p i [b] := by
  have hshape := ht.shape i hi
  rw [nodeShape, if_neg (by simp [hinner])] at hshape
  obtain ⟨-, hleft, hright, hne, -⟩ := hshape
  refine ⟨fun b => ?_, Bool.injective_iff.mpr fun h => hne (BitVec.eq_of_toNat_eq h)⟩
  cases b
  · exact hleft
  · exact hright

/-- Every edge leads to an earlier node. -/
theorem Rooted.descend_add_length_le {bs : List Bool} (h : IsPath p root bs) :
    descend p root bs + bs.length ≤ root := by
  induction bs using List.reverseRecOn with
  | nil => exact Nat.le_refl root
  | append_singleton bs b ih =>
    obtain ⟨hbs, hinner⟩ := isPath_concat.mp h
    have hle := ih hbs
    have hroot := ht.root_lt
    have hlt := (ht.children (by omega) hinner).1 b
    rw [descend_append, List.length_append, List.length_singleton]
    omega

theorem Rooted.descend_lt {bs : List Bool} (h : IsPath p root bs) : descend p root bs < p.length := by
  have := ht.descend_add_length_le h
  have := ht.root_lt
  omega

/-- No two paths end at one node: a node but the root has one parent, whose two children differ. -/
theorem Rooted.path_unique {bs cs : List Bool} (hbs : IsPath p root bs) (hcs : IsPath p root cs)
    (h : descend p root bs = descend p root cs) : bs = cs := by
  have hleb := ht.descend_add_length_le hbs
  have hlec := ht.descend_add_length_le hcs
  induction bs using List.reverseRecOn generalizing cs with
  | nil => exact (List.length_eq_zero_iff.mp (by rw [descend_nil] at h; omega)).symm
  | append_singleton bs b ih =>
    rw [List.length_append, List.length_singleton] at hleb
    rcases List.eq_nil_or_concat' cs with rfl | ⟨cs, c, rfl⟩
    · rw [descend_nil] at h
      omega
    · obtain ⟨hbs, hinnerb⟩ := isPath_concat.mp hbs
      obtain ⟨hcs, hinnerc⟩ := isPath_concat.mp hcs
      have hlast := ht.rootLast
      obtain ⟨j, -, huniq⟩ := ht.parent (descend p root (bs ++ [b])) (by omega)
      have hparentb := huniq _ (isParent_iff.mpr ⟨ht.descend_lt hbs, hinnerb, b, (descend_append ..).symm⟩)
      have hparentc := huniq _ (isParent_iff.mpr ⟨ht.descend_lt hcs, hinnerc, c, by rw [h, descend_append]⟩)
      obtain rfl := ih hbs hcs (hparentb.trans hparentc.symm) (ht.descend_add_length_le hbs)
        (ht.descend_add_length_le hcs)
      rw [descend_append, descend_append] at h
      rw [(ht.children (ht.descend_lt hbs) hinnerb).2 h]

/-- Every node is at the end of a path: from the root downward, a parent stands behind its children. -/
theorem Rooted.exists_path {i : Nat} (hi : i < p.length) : ∃ bs, IsPath p root bs ∧ descend p root bs = i := by
  by_cases hlast : i + 1 = p.length
  · exact ⟨[], isPath_nil p root, by have := ht.rootLast; rw [descend_nil]; omega⟩
  · obtain ⟨j, hj, -⟩ := ht.parent i (by omega)
    obtain ⟨hjlt, hinner, b, hb⟩ := isParent_iff.mp hj
    have hlt : i < j := hb ▸ (ht.children hjlt hinner).1 b
    obtain ⟨bs, hbs, rfl⟩ := Rooted.exists_path hjlt
    exact ⟨bs ++ [b], isPath_concat.mpr ⟨hbs, hinner⟩, by rw [descend_append, hb]⟩
termination_by p.length - i

/-- No path is longer than MAX_CODE_LEN (00_scope.md R12): the nodes on it and their siblings are two different nodes
for each edge, all before the root. -/
theorem Rooted.length_le {bs : List Bool} (h : IsPath p root bs) : bs.length ≤ 255 := by
  have hpath : ∀ e ∈ Finset.range bs.length ×ˢ (Finset.univ : Finset Bool), IsPath p root (bs.take e.1 ++ [e.2]) := by
    intro e he
    rw [Finset.mem_product, Finset.mem_range] at he
    exact isPath_concat.mpr ⟨h.of_prefix (List.take_prefix _ _), h _ he.1⟩
  have hcard := Finset.card_le_card_of_injOn
    (s := Finset.range bs.length ×ˢ Finset.univ) (t := Finset.range root)
    (fun e : Nat × Bool => descend p root (bs.take e.1 ++ [e.2])) (fun e he => ?_) (fun e he e' he' heq => ?_)
  · have hlast := ht.rootLast
    have hsize := ht.size
    simp only [Finset.card_product, Finset.card_range, Finset.card_univ, Fintype.card_bool] at hcard
    omega
  · have := ht.descend_add_length_le (hpath e he)
    rw [List.length_append, List.length_singleton] at this
    simp only [Finset.coe_range, Set.mem_Iio]
    omega
  · obtain ⟨htake, hedge⟩ := List.append_inj' (ht.path_unique (hpath e he) (hpath e' he') heq) rfl
    have hlen := congrArg List.length htake
    simp only [Finset.coe_product, Finset.coe_range, Set.mem_prod, Set.mem_Iio] at he he'
    rw [List.length_take, List.length_take] at hlen
    exact Prod.ext (by omega) (List.singleton_inj.mp hedge)

theorem Rooted.leafPath_unique {bs cs : List Bool} {sym : Byte} (hbs : IsLeafPath p root bs sym)
    (hcs : IsLeafPath p root cs sym) : bs = cs := by
  obtain ⟨hbs, hleafb, hsymb⟩ := hbs
  obtain ⟨hcs, hleafc, hsymc⟩ := hcs
  exact ht.path_unique hbs hcs
    (ht.distinct _ _ (ht.descend_lt hbs) (ht.descend_lt hcs) hleafb hleafc (hsymb.trans hsymc.symm))

theorem Rooted.hasLeaf_iff {sym : Byte} : hasLeaf p sym ↔ ∃ bs, IsLeafPath p root bs sym := by
  constructor
  · rintro ⟨i, hi, hleaf, hsym⟩
    obtain ⟨bs, hbs, rfl⟩ := ht.exists_path hi
    exact ⟨bs, hbs, hleaf, hsym⟩
  · rintro ⟨bs, hbs, hleaf, hsym⟩
    exact ⟨_, ht.descend_lt hbs, hleaf, hsym⟩

theorem Rooted.isPathTo_iff {c : Code} {sym : Byte} :
    isPathTo p root c sym ↔ c.valid = true ∧ IsLeafPath p root c.toBits sym := by
  constructor
  · rintro ⟨hvalid, hleaf, hsym, -, hpath⟩
    exact ⟨hvalid, hpath, hleaf, hsym⟩
  · rintro ⟨hvalid, hpath, hleaf, hsym⟩
    exact ⟨hvalid, hleaf, hsym, ht.descend_lt hpath, hpath⟩

end

/-! ## The walk (42_codegen.md R190, R191) -/

theorem walk_of_isLeaf {p : Pool} {i : Nat} (h : (nodeAt p i).isLeaf = true) (fuel : Nat) (path : List Bool)
    (codes : SymTable Code) :
    walk p (fuel + 1) i path codes = symSet codes (nodeAt p i).symbol (Code.ofBits path) := by
  rw [walk, if_pos h]

/-- At an internal node the walk goes on along both edges, LEFT first. -/
theorem walk_descend_of_not_isLeaf {p : Pool} {root : Nat} {path : List Bool}
    (h : (nodeAt p (descend p root path)).isLeaf = false) (fuel : Nat) (codes : SymTable Code) :
    walk p (fuel + 1) (descend p root path) path codes =
      walk p fuel (descend p root (path ++ [true])) (path ++ [true])
        (walk p fuel (descend p root (path ++ [false])) (path ++ [false]) codes) := by
  rw [walk, if_neg (by simp [h]), descend_append, descend_append]
  rfl

/-- The walk from a node leaves alone the codes of the symbols that have no leaf below it. -/
theorem symGet_walk_of_not_below {p : Pool} {root : Nat} (fuel : Nat) {path : List Bool} (codes : SymTable Code)
    {sym : Byte} (hpath : IsPath p root path) (h : ∀ bs, path <+: bs → ¬ IsLeafPath p root bs sym) :
    symGet (walk p fuel (descend p root path) path codes) sym = symGet codes sym := by
  induction fuel generalizing path codes with
  | zero => rfl
  | succ fuel ih =>
    cases hleaf : (nodeAt p (descend p root path)).isLeaf with
    | true =>
      rw [walk_of_isLeaf hleaf]
      exact symGet_symSet_other _ _ fun hsym => h path (List.prefix_refl path) ⟨hpath, hleaf, hsym.symm⟩
    | false =>
      have hedge (b : Bool) (codes : SymTable Code) :=
        ih codes (isPath_concat.mpr ⟨hpath, hleaf⟩) fun bs hbs => h bs ((List.prefix_append path [b]).trans hbs)
      rw [walk_descend_of_not_isLeaf hleaf, hedge, hedge]

/-- The walk from a node gives the symbol of each leaf below it, within its depth bound, the path to that leaf. -/
theorem Rooted.symGet_walk_of_below {p : Pool} {root : Nat} (ht : Rooted p root) {fuel : Nat} {path bs : List Bool}
    (codes : SymTable Code) {sym : Byte} (hbs : IsLeafPath p root bs sym) (hpre : path <+: bs)
    (hfuel : bs.length < path.length + fuel) :
    symGet (walk p fuel (descend p root path) path codes) sym = Code.ofBits bs := by
  induction fuel generalizing path codes with
  | zero => exact absurd hpre.length_le (by omega)
  | succ fuel ih =>
    obtain ⟨hpath, hleafbs, hsym⟩ := hbs
    rcases eq_or_concat_prefix_of_prefix hpre with rfl | ⟨b, hb⟩
    · rw [walk_of_isLeaf hleafbs, hsym, symGet_symSet_same]
    · have hinner := (isPath_concat.mp (hpath.of_prefix hb)).2
      have hright : IsPath p root (path ++ [true]) := isPath_concat.mpr ⟨hpath.of_prefix hpre, hinner⟩
      have hfuel' : bs.length < (path ++ [b]).length + fuel := by
        rw [List.length_append, List.length_singleton]
        omega
      rw [walk_descend_of_not_isLeaf hinner]
      cases b with
      | true => exact ih _ hb hfuel'
      | false =>
        rw [symGet_walk_of_not_below _ _ hright, ih _ hb hfuel']
        intro cs hcs hleafcs
        obtain rfl := ht.leafPath_unique ⟨hpath, hleafbs, hsym⟩ hleafcs
        exact Bool.false_ne_true (edge_unique hb hcs)

/-! ## The code table in each case (42_codegen.md R190, R192, R193) -/

/-- The single leaf's code has no bit in mode EMPTY and the bit 0 in mode ONE_BIT (42_codegen.md R192). -/
theorem singleCode_eq (ssm : Bool) : singleCode ssm = { valid := true, len := if ssm then 1 else 0, bits := 0 } := by
  cases ssm <;> decide

theorem genCodes_of_not_rootValid (p : Pool) {t : TreeInfo} (h : t.rootValid = false) (ssm : Bool) :
    genCodes p t ssm = symFill Code.absent := by
  simp [genCodes, h]

theorem genCodes_of_isLeaf {p : Pool} {t : TreeInfo} (hroot : t.rootValid = true)
    (hleaf : (nodeAt p t.root.toNat).isLeaf = true) (ssm : Bool) :
    genCodes p t ssm = symSet (symFill Code.absent) (nodeAt p t.root.toNat).symbol (singleCode ssm) := by
  simp [genCodes, hroot, hleaf]

theorem genCodes_of_internal {p : Pool} {t : TreeInfo} (hroot : t.rootValid = true)
    (hinner : (nodeAt p t.root.toNat).isLeaf = false) (ssm : Bool) :
    genCodes p t ssm = walk p walkDepth t.root.toNat [] (symFill Code.absent) := by
  simp [genCodes, hroot, hinner]

/-! ## The code table of a tree -/

/-- A table that holds for every leaf's symbol the path to its leaf, and no other code. -/
def CodesOf (p : Pool) (root : Nat) (codes : SymTable Code) : Prop :=
  (∀ sym, hasLeaf p sym → isPathTo p root (symGet codes sym) sym)
    ∧ ∀ sym, ¬ hasLeaf p sym → symGet codes sym = Code.absent

theorem Rooted.codesOf_walk {p : Pool} {root : Nat} (ht : Rooted p root) :
    CodesOf p root (walk p walkDepth root [] (symFill Code.absent)) := by
  constructor
  · intro sym hsym
    obtain ⟨bs, hbs⟩ := ht.hasLeaf_iff.mp hsym
    have hlen := ht.length_le hbs.1
    have hget := ht.symGet_walk_of_below (fuel := walkDepth) (symFill Code.absent) hbs List.nil_prefix
      (by simp [walkDepth]; omega)
    rw [ht.isPathTo_iff, ← descend_nil p root, hget, toBits_ofBits bs hlen]
    exact ⟨rfl, hbs⟩
  · intro sym hsym
    have hget := symGet_walk_of_not_below walkDepth (symFill Code.absent) (isPath_nil p root)
      fun bs _ hbs => hsym (ht.hasLeaf_iff.mpr ⟨bs, hbs⟩)
    rwa [symGet_symFill] at hget

section
variable {p : Pool} {root : Nat} {codes : SymTable Code} (ht : Rooted p root) (hc : CodesOf p root codes)
include ht hc

theorem CodesOf.leafPath_of_valid {sym : Byte} (h : (symGet codes sym).valid = true) :
    IsLeafPath p root (symGet codes sym).toBits sym := by
  by_cases hsym : hasLeaf p sym
  · exact (ht.isPathTo_iff.mp (hc.1 sym hsym)).2
  · rw [hc.2 sym hsym] at h
    cases h

theorem CodesOf.of_leafPath {bs : List Bool} {sym : Byte} (h : IsLeafPath p root bs sym) :
    (symGet codes sym).valid = true ∧ (symGet codes sym).toBits = bs := by
  obtain ⟨hvalid, hpath⟩ := ht.isPathTo_iff.mp (hc.1 sym (ht.hasLeaf_iff.mpr ⟨bs, h⟩))
  exact ⟨hvalid, ht.leafPath_unique hpath h⟩

/-- A code that went on past another would pass that one's leaf. -/
theorem CodesOf.prefix_free {x y : Byte} (hx : (symGet codes x).valid = true) (hy : (symGet codes y).valid = true)
    (hpre : (symGet codes x).toBits <+: (symGet codes y).toBits) : x = y := by
  obtain ⟨-, hleafx, hsymx⟩ := hc.leafPath_of_valid ht hx
  obtain ⟨hpathy, -, hsymy⟩ := hc.leafPath_of_valid ht hy
  rw [hpathy.eq_of_prefix_of_isLeaf hpre hleafx] at hsymy
  exact hsymx.symm.trans hsymy

theorem CodesOf.one_le_len (hinner : (nodeAt p root).isLeaf = false) {x : Byte}
    (hx : (symGet codes x).valid = true) : 1 ≤ (symGet codes x).len.toNat := by
  obtain ⟨-, hleaf, -⟩ := hc.leafPath_of_valid ht hx
  rw [← length_toBits, Nat.one_le_iff_ne_zero, ne_eq, List.length_eq_zero_iff]
  intro hnil
  rw [hnil, descend_nil, hinner] at hleaf
  cases hleaf

end

/-! ## The code is full (42_codegen.md R194) -/

/-- The symbols whose code goes through the node at the end of a path. -/
def symbolsUnder (codes : SymTable Code) (path : List Bool) : Finset Byte :=
  allSymbols.toFinset.filter fun sym => (symGet codes sym).valid = true ∧ path <+: (symGet codes sym).toBits

theorem mem_symbolsUnder {codes : SymTable Code} {path : List Bool} {sym : Byte} :
    sym ∈ symbolsUnder codes path ↔ (symGet codes sym).valid = true ∧ path <+: (symGet codes sym).toBits := by
  simp [symbolsUnder, mem_allSymbols]

/-- The share of the codes of some symbols, in units of 2^-255. -/
def share (codes : SymTable Code) (syms : Finset Byte) : Nat := ∑ sym ∈ syms, 2 ^ (255 - (symGet codes sym).len.toNat)

/-- The sum over the valid entries of a table is the share of all the symbols whose code goes through the root. -/
theorem sum_valid_eq_share (codes : SymTable Code) :
    ((codes.toList.filter Code.valid).map fun c => 2 ^ (255 - c.len.toNat)).sum
      = share codes (symbolsUnder codes []) := by
  have hfin : symbolsUnder codes [] = (allSymbols.filter (Code.valid ∘ symGet codes)).toFinset := by
    ext sym
    simp [mem_symbolsUnder, mem_allSymbols]
  rw [toList_eq_map_symGet, List.filter_map, List.map_map, share, hfin,
    List.sum_toFinset _ (allSymbols_nodup.filter _)]
  rfl

section
variable {p : Pool} {root : Nat} {codes : SymTable Code} (ht : Rooted p root) (hc : CodesOf p root codes)
include ht hc

/-- Through a leaf goes the code of its own symbol alone. -/
theorem CodesOf.symbolsUnder_of_isLeaf {path : List Bool} {sym : Byte} (h : IsLeafPath p root path sym) :
    symbolsUnder codes path = {sym} := by
  obtain ⟨hvalid, hbits⟩ := hc.of_leafPath ht h
  ext x
  rw [mem_symbolsUnder, Finset.mem_singleton]
  constructor
  · rintro ⟨hx, hpre⟩
    exact (hc.prefix_free ht hvalid hx (hbits ▸ hpre)).symm
  · rintro rfl
    exact ⟨hvalid, hbits ▸ List.prefix_refl _⟩

/-- Through an internal node go the codes through its left child and those through its right child, no code through
both. -/
theorem CodesOf.share_of_not_isLeaf {path : List Bool} (hinner : (nodeAt p (descend p root path)).isLeaf = false) :
    share codes (symbolsUnder codes path) =
      share codes (symbolsUnder codes (path ++ [false])) + share codes (symbolsUnder codes (path ++ [true])) := by
  have hunion : symbolsUnder codes path
      = symbolsUnder codes (path ++ [false]) ∪ symbolsUnder codes (path ++ [true]) := by
    ext x
    rw [Finset.mem_union, mem_symbolsUnder, mem_symbolsUnder, mem_symbolsUnder, ← and_or_left]
    refine and_congr_right fun hx => ⟨fun hpre => ?_, fun hpre => ?_⟩
    · rcases eq_or_concat_prefix_of_prefix hpre with heq | ⟨b, hb⟩
      · obtain ⟨-, hleaf, -⟩ := hc.leafPath_of_valid ht hx
        rw [heq, hinner] at hleaf
        cases hleaf
      · cases b
        · exact .inl hb
        · exact .inr hb
    · exact hpre.elim (List.prefix_append _ _).trans (List.prefix_append _ _).trans
  have hdisjoint : Disjoint (symbolsUnder codes (path ++ [false])) (symbolsUnder codes (path ++ [true])) := by
    rw [Finset.disjoint_left]
    intro x hfalse htrue
    exact Bool.false_ne_true (edge_unique (mem_symbolsUnder.mp hfalse).2 (mem_symbolsUnder.mp htrue).2)
  rw [hunion, share, Finset.sum_union hdisjoint]
  rfl

/-- The codes through a node share what its path leaves, from the leaves up to the root. -/
theorem CodesOf.share_symbolsUnder {path : List Bool} (hpath : IsPath p root path) :
    share codes (symbolsUnder codes path) = 2 ^ (255 - path.length) := by
  cases hleaf : (nodeAt p (descend p root path)).isLeaf with
  | true =>
    have hleafPath : IsLeafPath p root path _ := ⟨hpath, hleaf, rfl⟩
    rw [hc.symbolsUnder_of_isLeaf ht hleafPath, share, Finset.sum_singleton, ← length_toBits,
      (hc.of_leafPath ht hleafPath).2]
  | false =>
    have hedge (b : Bool) : IsPath p root (path ++ [b]) := isPath_concat.mpr ⟨hpath, hleaf⟩
    have hlt (b : Bool) : descend p root (path ++ [b]) < descend p root path := by
      rw [descend_append]
      exact (ht.children (ht.descend_lt hpath) hleaf).1 b
    have hlen := ht.length_le (hedge true)
    rw [List.length_append, List.length_singleton] at hlen
    have hexp : 255 - path.length = 255 - (path.length + 1) + 1 := by omega
    rw [hc.share_of_not_isLeaf ht hleaf, CodesOf.share_symbolsUnder (hedge false),
      CodesOf.share_symbolsUnder (hedge true)]
    simp only [List.length_append, List.length_singleton]
    rw [hexp, pow_succ, mul_two]
termination_by descend p root path
decreasing_by all_goals exact hlt _

end

/-! ## The command -/

theorem exec_gencode (s : State) : exec .gencode s = .next (completeOk (gencodeBody s)) := rfl

/-- On a tree with an internal root the command's table is the walk's. -/
theorem codesOf_completeOk_gencodeBody {s : State} (htree : s.TreeOk) (hroot : s.treeInfo.rootValid = true)
    (hinner : (nodeAt s.pool s.treeInfo.root.toNat).isLeaf = false) :
    CodesOf s.pool s.treeInfo.root.toNat (completeOk (gencodeBody s)).codes := by
  rw [completeOk_codes, gencodeBody_codes, genCodes_of_internal hroot hinner]
  exact (htree.rooted hroot).codesOf_walk

/-- GENCODE changes the code table alone. -/
theorem completeOk_gencodeBody_same (s : State) :
    let t := completeOk (gencodeBody s)
    SameTree s t ∧ SameFreq s t ∧ SameWriter s t ∧ SameReader s t ∧ SameProgress s t ∧ t.outLen = s.outLen
      ∧ t.origLen = s.origLen ∧ t.payloadLen = s.payloadLen ∧ SameHost s t ∧ SameIn s t ∧ SameOut s t :=
  ⟨⟨rfl, rfl⟩, rfl, rfl, rfl, ⟨rfl, rfl⟩, rfl, rfl, rfl, completeOk_sameHost _, completeOk_sameIn _,
    completeOk_sameOut _⟩

/-- Settles O38: the walk's table is that of the leaf paths (`Rooted.codesOf_walk`), as no path is longer than the
walk's depth bound (`Rooted.length_le`). -/
theorem gencodeCodesAreLeafPaths : Obligations.GencodeCodesAreLeafPaths := by
  intro s htree hroot hinner
  obtain ⟨hleaf, hother⟩ := codesOf_completeOk_gencodeBody htree hroot hinner
  exact ⟨_, exec_gencode s, completeOk_success _, hleaf, hother, completeOk_gencodeBody_same s⟩

/-- Settles O39: a code ends at a leaf and passes none before (`CodesOf.prefix_free`), and each internal node splits its
share between its two children (`CodesOf.share_symbolsUnder`). -/
theorem gencodeIsPrefixFreeAndFull : Obligations.GencodeIsPrefixFreeAndFull := by
  intro s htree hroot hinner
  have ht := htree.rooted hroot
  have hc := codesOf_completeOk_gencodeBody htree hroot hinner
  refine ⟨_, exec_gencode s, fun x y hne hx hy hpre => hne (hc.prefix_free ht hx hy hpre),
    fun x => hc.one_le_len ht hinner, ?_⟩
  rw [sum_valid_eq_share]
  exact hc.share_symbolsUnder ht (isPath_nil _ _)

/-- Settles O37: no tree leaves the empty table (`genCodes_of_not_rootValid`), a single leaf sets its symbol's entry
alone (`genCodes_of_isLeaf`). -/
theorem gencodeWithoutInternalNodes : Obligations.GencodeWithoutInternalNodes := by
  intro s hshape
  refine ⟨_, exec_gencode s, completeOk_success _, fun hnone sym => ?_, fun hroot => ?_, completeOk_gencodeBody_same s⟩
  · rw [completeOk_codes, gencodeBody_codes, genCodes_of_not_rootValid _ hnone, symGet_symFill]
  · obtain hnone | ⟨-, hleaf⟩ := hshape
    · rw [hnone] at hroot
      cases hroot
    · rw [completeOk_codes, gencodeBody_codes, genCodes_of_isLeaf hroot hleaf]
      refine ⟨fun sym hne => ?_, ?_⟩
      · rw [symGet_symSet_other _ _ hne, symGet_symFill]
      · rw [symGet_symSet_same, singleCode_eq]

end Sys2Proof.Machine
end

section
/-! PROOFS. Bit-level stream I/O (43_bitio.md R211 to R217): each command in each of its cases, and the two bit-stream
laws, by what the bit writer and the bit reader keep from bit to bit. -/

namespace Sys2Proof.Machine

open Sys2Proof.Spec

/-! ## From a body to its command -/

theorem exec_of_done {i : Instr} {s t : State} (h : bodyOf i s = .done t) : exec i s = .next (completeOk t) := by
  rw [exec_eq_complete, h, complete_done]

theorem exec_of_failed {i : Instr} {s t : State} {c : Cause} (h : bodyOf i s = .failed c t) :
    exec i s = .next (completeFailed c (failRuleOf i t)) := by
  rw [exec_eq_complete, h, complete_failed]

theorem outCapBad_eq_false {s : State} (h : s.outCap.toNat ≤ s.params.outSize) : outCapBad s = false :=
  decide_eq_false (Nat.not_lt.mpr h)

theorem outCapBad_eq_true {s : State} (h : s.params.outSize < s.outCap.toNat) : outCapBad s = true :=
  decide_eq_true h

/-! ## The store of WRBIT and FLUSH -/

/-- A full byte goes to OUT at BW_POS, and the bit writer is emptied behind it: what WRBIT's eighth bit and FLUSH share
(43_bitio.md R211, R212). -/
def putByte (x : Byte) (s : State) : State :=
  { storeOut s.bw.pos.toNat x s with bw := { pos := s.bw.pos + 1, acc := 0, cnt := 0 } }

theorem toNat_putByte_pos (x : Byte) {s : State} (h : s.bw.pos.toNat < s.outCap.toNat) :
    (putByte x s).bw.pos.toNat = s.bw.pos.toNat + 1 :=
  BitVec.toNat_add_of_lt (Nat.lt_of_le_of_lt h s.outCap.isLt)

/-- After completion the byte is in OUT, unless HOST wrote there while BUSY = 1 (20_memory.md R93). -/
theorem read_completeOk_putByte (x : Byte) {s : State} (h : s.bw.pos.toNat ∉ s.outTouched) :
    (completeOk (putByte x s)).outMem.read s.bw.pos.toNat = x :=
  (Memory.read_scrambleAt _ _ _ _ h).trans (Memory.read_write_same _ _ _)

/-- A full byte stored changes no other OUT byte and nothing but the bit writer. -/
theorem completeOk_putByte_same (x : Byte) (s : State) :
    let t := completeOk (putByte x s)
    SameOutBut (fun a => a = s.bw.pos.toNat) s t ∧ SameFreq s t ∧ SameTree s t ∧ SameCodes s t ∧ SameReader s t
      ∧ SameProgress s t ∧ t.outLen = s.outLen ∧ t.origLen = s.origLen ∧ t.payloadLen = s.payloadLen ∧ SameHost s t
      ∧ SameIn s t := by
  refine ⟨fun a hne htouched => ?_, rfl, ⟨rfl, rfl⟩, rfl, rfl, ⟨rfl, rfl⟩, rfl, rfl, rfl, completeOk_sameHost _,
    completeOk_sameIn _⟩
  exact (Memory.read_scrambleAt _ _ _ _ htouched).trans (Memory.read_write_other _ _ hne)

/-! ## WRBIT -/

section
variable {s : State} (b : Bool)

theorem wrbitBody_of_cap_past (hcap : s.params.outSize < s.outCap.toNat) : wrbitBody b s = .failed .badArg s := by
  simp [wrbitBody, outCapBad_eq_true hcap]

theorem wrbitBody_of_no_room (hcap : s.outCap.toNat ≤ s.params.outSize) (hcnt : s.bw.cnt = 7)
    (hpos : s.outCap.toNat ≤ s.bw.pos.toNat) : wrbitBody b s = .failed .outCapacity s := by
  simp [wrbitBody, outCapBad_eq_false hcap, hcnt, hpos]

theorem wrbitBody_of_eighth (hcap : s.outCap.toNat ≤ s.params.outSize) (hcnt : s.bw.cnt = 7)
    (hpos : s.bw.pos.toNat < s.outCap.toNat) : wrbitBody b s = .done (putByte (shiftIn s.bw.acc b) s) := by
  simp [wrbitBody, outCapBad_eq_false hcap, hcnt, hpos, putByte]

theorem wrbitBody_of_partial (hcap : s.outCap.toNat ≤ s.params.outSize) (hcnt : s.bw.cnt ≠ 7) :
    wrbitBody b s = .done { s with bw := { pos := s.bw.pos, acc := shiftIn s.bw.acc b, cnt := s.bw.cnt + 1 } } := by
  simp [wrbitBody, outCapBad_eq_false hcap, hcnt]

end

theorem val_cnt_add_one {cnt : Fin 8} (h : cnt ≠ 7) : (cnt + 1).val = cnt.val + 1 :=
  Fin.val_add_one_of_lt (Fin.lt_last_iff_ne_last.mpr h)

/-- The shift is the library's: a bit comes in below, the top one falls out. -/
theorem shiftIn_eq_shiftConcat (acc : Byte) (b : Bool) : shiftIn acc b = acc.shiftConcat b := by
  refine BitVec.eq_of_getLsbD_eq fun j hj => ?_
  cases j <;> simp [shiftIn, hj]

theorem toNat_shiftIn (acc : Byte) (b : Bool) : (shiftIn acc b).toNat = (2 * acc.toNat + b.toNat) % 256 := by
  rw [shiftIn_eq_shiftConcat, BitVec.toNat_shiftConcat, Nat.shiftLeft_eq, Nat.mul_comm]

/-- Settles O40: the four equations of WRBIT's body, and what a stored byte leaves alone
(`completeOk_putByte_same`). -/
theorem wrbitShiftsInOneBit : Obligations.WrbitShiftsInOneBit := by
  intro s b
  refine ⟨fun hcap => ?_, fun hcap hcnt hpos => ?_, fun hcap hcnt hpos => ?_, fun hcap hcnt => ?_⟩
  · exact ⟨_, exec_of_failed (i := .wrbit b) (wrbitBody_of_cap_past b hcap), completeFailed_failure _ s⟩
  · exact ⟨_, exec_of_failed (i := .wrbit b) (wrbitBody_of_no_room b hcap hcnt hpos), completeFailed_failure _ s⟩
  · refine ⟨_, exec_of_done (i := .wrbit b) (wrbitBody_of_eighth b hcap hcnt hpos), completeOk_success _,
      fun htouched => ?_, toNat_putByte_pos (shiftIn s.bw.acc b) hpos, rfl, rfl, completeOk_putByte_same _ s⟩
    rw [read_completeOk_putByte _ htouched, toNat_shiftIn]
  · exact ⟨_, exec_of_done (i := .wrbit b) (wrbitBody_of_partial b hcap hcnt), completeOk_success _, rfl,
      toNat_shiftIn _ b, val_cnt_add_one hcnt, completeOk_sameOut _, rfl, ⟨rfl, rfl⟩, rfl, rfl, ⟨rfl, rfl⟩, rfl, rfl,
      rfl, completeOk_sameHost _, completeOk_sameIn _⟩

/-! ## FLUSH -/

section
variable {s : State}

theorem flushBody_of_cap_past (hcap : s.params.outSize < s.outCap.toNat) : flushBody s = .failed .badArg s := by
  simp [flushBody, outCapBad_eq_true hcap]

theorem flushBody_of_empty (hcap : s.outCap.toNat ≤ s.params.outSize) (hcnt : s.bw.cnt = 0) :
    flushBody s = .done s := by
  simp [flushBody, outCapBad_eq_false hcap, hcnt]

theorem flushBody_of_no_room (hcap : s.outCap.toNat ≤ s.params.outSize) (hcnt : s.bw.cnt ≠ 0)
    (hpos : s.outCap.toNat ≤ s.bw.pos.toNat) : flushBody s = .failed .outCapacity s := by
  simp [flushBody, outCapBad_eq_false hcap, hcnt, hpos]

theorem flushBody_of_partial (hcap : s.outCap.toNat ≤ s.params.outSize) (hcnt : s.bw.cnt ≠ 0)
    (hpos : s.bw.pos.toNat < s.outCap.toNat) : flushBody s = .done (putByte (padByte s.bw) s) := by
  simp [flushBody, outCapBad_eq_false hcap, hcnt, hpos, putByte]

end

theorem toNat_padByte (w : BitWriter) : (padByte w).toNat = w.acc.toNat * 2 ^ (8 - w.cnt.val) % 256 := by
  rw [padByte, BitVec.toNat_shiftLeft, Nat.shiftLeft_eq]

/-- Settles O41: the four equations of FLUSH's body, and what a stored byte leaves alone
(`completeOk_putByte_same`). -/
theorem flushStoresThePartialByte : Obligations.FlushStoresThePartialByte := by
  intro s
  refine ⟨fun hcap => ?_, fun hcap hcnt => ?_, fun hcap hcnt hpos => ?_, fun hcap hcnt hpos => ?_⟩
  · exact ⟨_, exec_of_failed (i := .flush) (flushBody_of_cap_past hcap), completeFailed_failure _ s⟩
  · exact ⟨_, exec_of_done (i := .flush) (flushBody_of_empty hcap hcnt), completeOk_success s,
      ⟨⟨rfl, ⟨rfl, rfl⟩, rfl, rfl, rfl, ⟨rfl, rfl⟩, rfl, rfl⟩, rfl⟩, completeOk_sameHost s, completeOk_sameIn s,
      completeOk_sameOut s⟩
  · exact ⟨_, exec_of_failed (i := .flush) (flushBody_of_no_room hcap hcnt hpos), completeFailed_failure _ s⟩
  · refine ⟨_, exec_of_done (i := .flush) (flushBody_of_partial hcap hcnt hpos), completeOk_success _,
      fun htouched => ?_, toNat_putByte_pos (padByte s.bw) hpos, rfl, rfl, completeOk_putByte_same _ s⟩
    rw [read_completeOk_putByte _ htouched, toNat_padByte]

/-! ## RDBIT and CANRD -/

section
variable {s : State}

theorem rdbitBody_of_empty (hrem : s.br.rem = 0) (hpos : s.br.endPos.toNat ≤ s.br.pos.toNat) :
    rdbitBody s = .failed .readEmpty s := by
  simp [rdbitBody, hrem, hpos]

theorem rdbitBody_of_unloadable (hrem : s.br.rem = 0) (hpos : s.br.pos.toNat < s.br.endPos.toNat)
    (hbad : s.params.inSize < s.inLen.toNat ∨ s.inLen.toNat ≤ s.br.pos.toNat) : rdbitBody s = .failed .badArg s := by
  simp [rdbitBody, inLenBad, hrem, hpos, hbad]

theorem rdbitBody_of_load (hrem : s.br.rem = 0) (hpos : s.br.pos.toNat < s.br.endPos.toNat)
    (hlen : s.inLen.toNat ≤ s.params.inSize) (hin : s.br.pos.toNat < s.inLen.toNat) :
    rdbitBody s = .done { s with br := takeBit s.br (s.br.pos + 1) (coreRead s firstPass s.br.pos.toNat) 7 } := by
  simp [rdbitBody, inLenBad, hrem, Nat.not_le.mpr hpos, Nat.not_lt.mpr hlen, Nat.not_le.mpr hin]

theorem rdbitBody_of_unread {k : Fin 8} (hrem : s.br.rem = k.succ) :
    rdbitBody s = .done { s with br := takeBit s.br s.br.pos s.br.cur k } := by
  rw [rdbitBody, hrem]
  rfl

end

/-- BR_POS + 1 cannot wrap: it is at most BR_END. -/
theorem toNat_br_pos_add_one {s : State} (h : s.br.pos.toNat < s.br.endPos.toNat) :
    (s.br.pos + 1).toNat = s.br.pos.toNat + 1 :=
  BitVec.toNat_add_of_lt (Nat.lt_of_le_of_lt h s.br.endPos.isLt)

/-- A command that ends with another bit reader changes nothing else. -/
theorem completeOk_br_same (s : State) (br : BitReader) :
    let t := completeOk { s with br := br }
    SameFreq s t ∧ SameTree s t ∧ SameCodes s t ∧ SameWriter s t ∧ SameProgress s t ∧ t.outLen = s.outLen
      ∧ t.origLen = s.origLen ∧ t.payloadLen = s.payloadLen ∧ SameHost s t ∧ SameIn s t ∧ SameOut s t :=
  ⟨rfl, ⟨rfl, rfl⟩, rfl, rfl, ⟨rfl, rfl⟩, rfl, rfl, rfl, completeOk_sameHost _, completeOk_sameIn _,
    completeOk_sameOut _⟩

/-- Settles O43: the four equations of RDBIT's body, which writes the bit reader alone (`completeOk_br_same`). -/
theorem rdbitReadsTheNextBit : Obligations.RdbitReadsTheNextBit := by
  intro s
  refine ⟨fun hrem hpos => ?_, fun hrem hpos hbad => ?_, fun hrem hpos hlen hin => ?_, fun hrem => ?_⟩
  · exact ⟨_, exec_of_failed (i := .rdbit) (rdbitBody_of_empty hrem hpos), completeFailed_failure _ s⟩
  · exact ⟨_, exec_of_failed (i := .rdbit) (rdbitBody_of_unloadable hrem hpos hbad), completeFailed_failure _ s⟩
  · exact ⟨_, exec_of_done (i := .rdbit) (rdbitBody_of_load hrem hpos hlen hin), completeOk_success _,
      toNat_br_pos_add_one hpos, rfl, rfl, rfl, rfl, rfl, completeOk_br_same s _⟩
  · obtain ⟨k, hk⟩ := Fin.exists_succ_eq.mpr hrem
    refine ⟨_, exec_of_done (i := .rdbit) (rdbitBody_of_unread hk.symm), completeOk_success _, rfl, rfl, ?_, ?_, rfl,
      rfl, completeOk_br_same s _⟩
    · rw [← hk]
      rfl
    · rw [← hk]
      rfl

/-- Settles O44: the body writes CAN alone (`completeOk_br_same`), by R214's condition. -/
theorem canrdAsksForABit : Obligations.CanrdAsksForABit := fun s =>
  ⟨_, exec_of_done (i := .canrd) rfl, completeOk_success _, decide_eq_true_iff, rfl, completeOk_br_same s _⟩

/-! ## Commands one after another -/

theorem execAll_cons_of_done {i : Instr} {is : List Instr} {s t : State} (h : bodyOf i s = .done t) :
    execAll (i :: is) s = execAll is (completeOk t) := by
  rw [execAll, exec_of_done h]

theorem execAll_append (is js : List Instr) (s : State) : execAll (is ++ js) s = (execAll is s).bind (execAll js) := by
  induction is generalizing s with
  | nil => rfl
  | cons i is ih =>
    rw [List.cons_append, execAll, execAll, exec_eq_complete]
    exact ih _

/-- A command adds its progress events and its completion to the history. -/
theorem exec_history {i : Instr} {s t : State} (h : exec i s = .next t) :
    ∃ (ps : List Nat) (c : Option Cause), t.history = s.history ++ (ps.map Event.progress ++ [.complete c]) := by
  obtain ⟨u, hframe, rfl | ⟨c, rfl⟩⟩ := exec_next h <;> obtain ⟨ps, hps⟩ := hframe.history
  · exact ⟨ps, none, by simp [hps]⟩
  · exact ⟨ps, some c, by simp [hps]⟩

theorem execAll_history_prefix {is : List Instr} {s t : State} (h : execAll is s = some t) :
    s.history <+: t.history := by
  induction is generalizing s with
  | nil =>
    cases h
    exact List.prefix_rfl
  | cons i is ih =>
    rw [execAll, exec_eq_complete] at h
    obtain ⟨ps, c, hps⟩ := exec_history (exec_eq_complete i s)
    exact (hps ▸ List.prefix_append _ _).trans (ih h)

/-- A command whose history goes on with successes alone has added one success and no progress event. -/
theorem exec_history_of_prefix {i : Instr} {s u : State} {n : Nat} (hexec : exec i s = .next u)
    (hpre : u.history <+: s.history ++ List.replicate n (.complete none)) :
    u.history = s.history ++ [.complete none] := by
  obtain ⟨ps, c, hu⟩ := exec_history hexec
  rw [hu, List.prefix_append_right_inj] at hpre
  have hall : ∀ e ∈ ps.map Event.progress ++ [.complete c], e = .complete none :=
    fun e he => List.eq_of_mem_replicate (hpre.mem he)
  obtain rfl : c = none := by simpa using hall (.complete c) (by simp)
  cases ps with
  | nil => exact hu
  | cons p ps => cases hall (.progress p) (by simp)

/-- Where the history tells of successes alone, the first command's body has returned. -/
theorem execAll_cons_succeeds {i : Instr} {is : List Instr} {s t : State} {n : Nat}
    (hrun : execAll (i :: is) s = some t)
    (hhistory : t.history = s.history ++ List.replicate (n + 1) (.complete none)) :
    ∃ u, bodyOf i s = .done u ∧ execAll is (completeOk u) = some t
      ∧ t.history = (completeOk u).history ++ List.replicate n (.complete none) := by
  rw [execAll, exec_eq_complete] at hrun
  have hfirst := exec_history_of_prefix (exec_eq_complete i s) (hhistory ▸ execAll_history_prefix hrun)
  cases hbody : bodyOf i s with
  | done u =>
    rw [hbody, complete_done] at hrun hfirst
    refine ⟨u, rfl, hrun, ?_⟩
    rw [hhistory, hfirst, List.replicate_succ, List.append_assoc, List.singleton_append]
  | failed c u =>
    rw [hbody, complete_failed, completeFailed_history] at hfirst
    simpa using List.append_inj_right' hfirst rfl

/-! ## Bits in bytes (00_scope.md R14) -/

theorem ceil8_of_mod_eq_zero {n : Nat} (h : n % 8 = 0) : ceil8 n = n / 8 := by
  unfold ceil8
  omega

theorem ceil8_of_mod_ne_zero {n : Nat} (h : n % 8 ≠ 0) : ceil8 n = n / 8 + 1 := by
  unfold ceil8
  omega

theorem ceil8_add_one (n : Nat) : ceil8 (n + 1) = n / 8 + 1 := by
  unfold ceil8
  omega

theorem le_eight_mul_ceil8 (n : Nat) : n ≤ 8 * ceil8 n := by
  unfold ceil8
  omega

/-! ## The bit-stream law of the writer (43_bitio.md R213) -/

/-- Bit k of the stream that begins at offset p of a buffer, the most significant bit of each byte first. -/
def streamBit (m : Memory) (p k : Nat) : Bool := (m.read (p + k / 8)).getLsbD (7 - k % 8)

/-- Between s and t, q bytes have been stored from BW_POS on, they hold the bits as far as these go and 0 behind, and no
other OUT byte has changed. -/
structure Packed (s : State) (bits : List Bool) (q : Nat) (t : State) : Prop where
  pos : t.bw.pos.toNat = s.bw.pos.toNat + q
  bit : ∀ k, k < 8 * q → streamBit t.outMem s.bw.pos.toNat k = bits.getD k false
  other : ∀ a, a < s.bw.pos.toNat ∨ s.bw.pos.toNat + q ≤ a → t.outMem.read a = s.outMem.read a

/-- The bits have been written since s: those of whole bytes are in OUT, the others are pending in ACC, the latest in
its bit 0. -/
structure Written (s : State) (bits : List Bool) (t : State) : Prop where
  packed : Packed s bits (bits.length / 8) t
  cnt : t.bw.cnt.val = bits.length % 8
  acc : ∀ j, j < bits.length % 8 → t.bw.acc.getLsbD j = bits.getD (bits.length - 1 - j) false

section
variable {s t u : State} {bits : List Bool} {q : Nat}

theorem written_nil (hcnt : s.bw.cnt = 0) : Written s [] s where
  packed := ⟨rfl, nofun, fun _ _ => rfl⟩
  cnt := by simp [hcnt]
  acc := nofun

theorem Packed.append (h : Packed s bits q t) (hq : 8 * q ≤ bits.length) (cs : List Bool) :
    Packed s (bits ++ cs) q t where
  pos := h.pos
  bit := fun k hk => (h.bit k hk).trans (List.getD_append _ _ _ _ (Nat.lt_of_lt_of_le hk hq)).symm
  other := h.other

/-- A byte that holds the next eight bits, stored at BW_POS. -/
theorem Packed.putByte (h : Packed s bits q t) (hroom : t.bw.pos.toNat < t.outCap.toNat) {x : Byte}
    (hx : ∀ r, r < 8 → x.getLsbD (7 - r) = bits.getD (8 * q + r) false) : Packed s bits (q + 1) (putByte x t) where
  pos := by
    rw [toNat_putByte_pos x hroom, h.pos, Nat.add_assoc]
  bit := by
    intro k hk
    show ((t.outMem.write t.bw.pos.toNat x).read (s.bw.pos.toNat + k / 8)).getLsbD (7 - k % 8) = _
    by_cases hlast : k / 8 = q
    · rw [hlast, ← h.pos, Memory.read_write_same, hx _ (Nat.mod_lt _ (by decide)), ← hlast, Nat.div_add_mod]
    · rw [Memory.read_write_other _ _ (by rw [h.pos]; omega)]
      exact h.bit k (by omega)
  other := by
    intro a ha
    show (t.outMem.write t.bw.pos.toNat x).read a = _
    rw [Memory.read_write_other _ _ (by rw [h.pos]; omega)]
    exact h.other a (by omega)

theorem Packed.completeOk (h : Packed s bits q t) (htouched : t.outTouched = []) :
    Packed s bits q (completeOk t) := by
  have hout : (Machine.completeOk t).outMem = t.outMem := by rw [completeOk_outMem, htouched, Memory.scrambleAt]
  exact ⟨h.pos, fun k hk => hout ▸ h.bit k hk, fun a ha => hout ▸ h.other a ha⟩

theorem Written.completeOk (h : Written s bits t) (htouched : t.outTouched = []) : Written s bits (completeOk t) :=
  ⟨h.packed.completeOk htouched, h.cnt, h.acc⟩

/-- The bits pending once another has come in. -/
theorem Written.getLsbD_shiftIn (h : Written s bits t) (b : Bool) {j : Nat} (hj : j ≤ bits.length % 8) :
    (shiftIn t.bw.acc b).getLsbD j = (bits ++ [b]).getD (bits.length - j) false := by
  rw [shiftIn_eq_shiftConcat, BitVec.getLsbD_shiftConcat, decide_eq_true (show j < 8 by omega), Bool.true_and]
  cases j with
  | zero => simp
  | succ j =>
    rw [List.getD_append _ _ _ _ (by omega), Nat.sub_add_eq, Nat.sub_right_comm]
    exact h.acc j hj

/-- A successful WRBIT writes its bit behind the others. -/
theorem Written.wrbit (h : Written s bits t) {b : Bool} (hbody : wrbitBody b t = .done u) :
    Written s (bits ++ [b]) u := by
  have hcnt := h.cnt
  have hlen : (bits ++ [b]).length = bits.length + 1 := List.length_append
  have hpacked := h.packed.append (by omega) [b]
  obtain ⟨-, hu⟩ | ⟨-, -, -, hu⟩ | ⟨-, hseven, hroom, hu⟩ | ⟨-, hseven, hu⟩ := wrbitBody_cases b t <;>
    rw [hu] at hbody <;> cases hbody
  · have hfull : bits.length % 8 = 7 := by
      rw [← hcnt, hseven]
      rfl
    have hbyte : (bits ++ [b]).length / 8 = bits.length / 8 + 1 := by omega
    have hnone : (bits ++ [b]).length % 8 = 0 := by omega
    refine ⟨hbyte ▸ hpacked.putByte (x := shiftIn t.bw.acc b) hroom fun r hr => ?_, hnone.symm, by omega⟩
    rw [h.getLsbD_shiftIn b (by omega)]
    congr 1
    omega
  · have hval := val_cnt_add_one hseven
    have hlt := (t.bw.cnt + 1).isLt
    have hbyte : (bits ++ [b]).length / 8 = bits.length / 8 := by omega
    refine ⟨hbyte ▸ ⟨hpacked.pos, hpacked.bit, hpacked.other⟩, hval.trans (by omega), fun j hj => ?_⟩
    rw [h.getLsbD_shiftIn b (by omega), hlen, Nat.add_sub_cancel]

/-- The byte FLUSH stores: the pending bits, then zeros (43_bitio.md R212). -/
theorem getLsbD_padByte (w : BitWriter) {r : Nat} (hr : r < 8) :
    (padByte w).getLsbD (7 - r) = (decide (r < w.cnt.val) && w.acc.getLsbD (w.cnt.val - 1 - r)) := by
  have hcnt := w.cnt.isLt
  rw [padByte, BitVec.getLsbD_shiftLeft]
  by_cases h : r < w.cnt.val
  · have hin : ¬ 7 - r < 8 - w.cnt.val := by omega
    simp [h, hin, show 7 - r < 8 by omega, show 7 - r - (8 - w.cnt.val) = w.cnt.val - 1 - r by omega]
  · have hout : 7 - r < 8 - w.cnt.val := by omega
    simp [h, hout]

/-- A successful FLUSH pads the last byte with 0. -/
theorem Written.flush (h : Written s bits t) (hbody : flushBody t = .done u) :
    Packed s bits (ceil8 bits.length) u ∧ u.bw.cnt = 0 := by
  have hcnt := h.cnt
  obtain ⟨-, hu⟩ | ⟨-, hzero, hu⟩ | ⟨-, -, -, hu⟩ | ⟨-, hne, hroom, hu⟩ := flushBody_cases t <;>
    rw [hu] at hbody <;> cases hbody
  · rw [hzero] at hcnt
    exact ⟨ceil8_of_mod_eq_zero hcnt.symm ▸ h.packed, hzero⟩
  · have hmod : bits.length % 8 ≠ 0 := hcnt ▸ Fin.val_ne_zero_iff.mpr hne
    refine ⟨ceil8_of_mod_ne_zero hmod ▸ h.packed.putByte (x := padByte t.bw) hroom fun r hr => ?_, rfl⟩
    rw [getLsbD_padByte _ hr, hcnt]
    by_cases hin : r < bits.length % 8
    · rw [decide_eq_true hin, Bool.true_and, h.acc _ (by omega)]
      congr 1
      omega
    · rw [decide_eq_false hin, Bool.false_and, List.getD_eq_default _ _ (by omega)]

/-- Successful WRBITs, one after another, write their bits. -/
theorem Written.execAll_wrbits {rest : List Instr} {n : Nat} {bs : List Bool} (h : Written s bits t)
    (htouched : t.outTouched = []) (hrun : execAll (bs.map Instr.wrbit ++ rest) t = some u)
    (hhistory : u.history = t.history ++ List.replicate (bs.length + n) (.complete none)) :
    ∃ v, Written s (bits ++ bs) v ∧ v.outTouched = [] ∧ execAll rest v = some u
      ∧ u.history = v.history ++ List.replicate n (.complete none) := by
  induction bs generalizing bits t with
  | nil =>
    rw [List.length_nil, Nat.zero_add] at hhistory
    exact ⟨t, by rwa [List.append_nil], htouched, hrun, hhistory⟩
  | cons b bs ih =>
    rw [List.length_cons, Nat.add_right_comm] at hhistory
    obtain ⟨v, hbody, hrun', hhistory'⟩ := execAll_cons_succeeds hrun hhistory
    have hframe : BodyFrame t v := by simpa [hbody] using bodyOf_frame (.wrbit b) t
    have hv := (h.wrbit hbody).completeOk (hframe.outTouched.trans htouched)
    simpa only [List.append_assoc, List.singleton_append] using ih hv rfl hrun' hhistory'

end

/-- Settles O42: every bit is kept in its place from its WRBIT on (`Written.execAll_wrbits`), and FLUSH stores those of
the last byte (`Written.flush`). -/
theorem writerBitStreamLaw : Obligations.WriterBitStreamLaw := by
  intro s t bits _ hcnt htouched hrun hhistory
  obtain ⟨v, hv, hvtouched, hflush, hlast⟩ := (written_nil hcnt).execAll_wrbits htouched hrun hhistory
  obtain ⟨u, hbody, hend, -⟩ := execAll_cons_succeeds hflush hlast
  cases hend
  have hframe : BodyFrame v u := by simpa [hbody] using bodyOf_frame .flush v
  obtain ⟨hpacked, hempty⟩ := hv.flush hbody
  have ht := hpacked.completeOk (hframe.outTouched.trans hvtouched)
  exact ⟨fun k hk => ht.bit k (Nat.lt_of_lt_of_le hk (le_eight_mul_ceil8 _)),
    fun k hle hlt => (ht.bit k hlt).trans (List.getD_eq_default _ _ hle), ht.pos, hempty, ht.other⟩

/-! ## The bit-stream law of the reader (43_bitio.md R217) -/

/-- The bit reader has read m bits since s, where REM was 0: CUR is the byte of the last of them. -/
structure HasRead (s : State) (m : Nat) (t : State) : Prop where
  params : t.params = s.params
  inLen : t.inLen = s.inLen
  view : coreRead t firstPass = coreRead s firstPass
  endPos : t.br.endPos = s.br.endPos
  pos : t.br.pos.toNat = s.br.pos.toNat + ceil8 m
  rem : t.br.rem.val + m = 8 * ceil8 m
  cur : ∀ k, k + 1 = m → t.br.cur = coreRead s firstPass (s.br.pos.toNat + k / 8)
  lastBit : ∀ k, k + 1 = m → t.br.lastBit = t.br.cur.getLsbD (7 - k % 8)

section
variable {s t : State} {m : Nat}

theorem hasRead_zero (hrem : s.br.rem = 0) : HasRead s 0 s where
  params := rfl
  inLen := rfl
  view := rfl
  endPos := rfl
  pos := rfl
  rem := by simp [hrem, ceil8]
  cur := nofun
  lastBit := nofun

theorem HasRead.completeOk (h : HasRead s m t) (hraces : t.inRaces = []) : HasRead s m (completeOk t) where
  params := h.params
  inLen := h.inLen
  view := by
    rw [← h.view, coreRead_no_races t _ hraces]
    exact coreRead_no_races _ _ rfl
  endPos := h.endPos
  pos := h.pos
  rem := h.rem
  cur := h.cur
  lastBit := h.lastBit

/-- The next bit taken is that of the stream, where the byte it is taken from is the one it lies in. -/
theorem HasRead.takeBit (h : HasRead s m t) {pos : Word} {cur : Byte} {k : Fin 8}
    (hpos : pos.toNat = s.br.pos.toNat + ceil8 (m + 1)) (hrem : k.val + (m + 1) = 8 * ceil8 (m + 1))
    (hcur : cur = coreRead s firstPass (s.br.pos.toNat + m / 8)) :
    HasRead s (m + 1) { t with br := takeBit t.br pos cur k } where
  params := h.params
  inLen := h.inLen
  view := h.view
  endPos := h.endPos
  pos := hpos
  rem := hrem
  cur := by
    rintro _ ⟨rfl⟩
    exact hcur
  lastBit := by
    rintro _ ⟨rfl⟩
    rw [ceil8_add_one] at hrem
    exact congrArg cur.getLsbD (by omega)

/-- With a bit left before BR_END, RDBIT succeeds and reads it: it loads the next byte where the last one is used up. -/
theorem HasRead.rdbit (h : HasRead s m t) (hend : s.br.endPos.toNat ≤ s.inLen.toNat)
    (hlen : s.inLen.toNat ≤ s.params.inSize) (hm : m < 8 * (s.br.endPos.toNat - s.br.pos.toNat)) :
    ∃ br, rdbitBody t = .done { t with br := br } ∧ HasRead s (m + 1) { t with br := br } := by
  have hpos := h.pos
  have hrem := h.rem
  unfold ceil8 at hpos hrem
  by_cases hzero : t.br.rem = 0
  · rw [hzero, Fin.val_zero] at hrem
    have hlt : t.br.pos.toNat < s.br.endPos.toNat := by omega
    have hload := rdbitBody_of_load hzero (h.endPos ▸ hlt) (by rwa [h.inLen, h.params])
      (by rw [h.inLen]; exact Nat.lt_of_lt_of_le hlt hend)
    refine ⟨_, hload, h.takeBit ?_ ?_ ?_⟩
    · rw [toNat_br_pos_add_one (h.endPos ▸ hlt), hpos, ceil8_add_one]
      omega
    · show 7 + (m + 1) = _
      rw [ceil8_add_one]
      omega
    · rw [h.view, hpos]
      congr 1
      omega
  · obtain ⟨k, hk⟩ := Fin.exists_succ_eq.mpr hzero
    rw [← hk, Fin.val_succ] at hrem
    refine ⟨_, rdbitBody_of_unread hk.symm, h.takeBit ?_ ?_ ?_⟩
    · rw [hpos, ceil8_add_one]
      omega
    · rw [ceil8_add_one]
      omega
    · rw [h.cur (m - 1) (by omega)]
      congr 1
      omega

/-- RDBITs before BR_END all succeed. -/
theorem execAll_rdbits (hrem : s.br.rem = 0) (hend : s.br.endPos.toNat ≤ s.inLen.toNat)
    (hlen : s.inLen.toNat ≤ s.params.inSize) (hraces : s.inRaces = [])
    (hm : m ≤ 8 * (s.br.endPos.toNat - s.br.pos.toNat)) :
    ∃ t, execAll (List.replicate m .rdbit) s = some t ∧ t.history = s.history ++ List.replicate m (.complete none)
      ∧ t.inRaces = [] ∧ HasRead s m t := by
  induction m with
  | zero => exact ⟨s, rfl, by simp, hraces, hasRead_zero hrem⟩
  | succ m ih =>
    obtain ⟨t, hrun, hhistory, htraces, ht⟩ := ih (by omega)
    obtain ⟨br, hbody, hread⟩ := ht.rdbit hend hlen (by omega)
    refine ⟨_, ?_, ?_, rfl, hread.completeOk htraces⟩
    · rw [List.replicate_succ', execAll_append, hrun]
      exact execAll_cons_of_done (i := .rdbit) hbody
    · rw [completeOk_history, List.replicate_succ', ← List.append_assoc, ← hhistory]

end

/-- Settles O45: every RDBIT reads the next bit (`HasRead.rdbit`), and behind the last no bit is left. -/
theorem readerBitStreamLaw : Obligations.ReaderBitStreamLaw := by
  intro s m hrem hend hlen hraces hm
  obtain ⟨t, hrun, hhistory, -, ht⟩ := execAll_rdbits hrem hend hlen hraces hm
  refine ⟨t, hrun, hhistory, fun k hk => ?_, fun hall => ?_⟩
  · rw [ht.lastBit k hk, ht.cur k hk, coreRead_no_races s _ hraces]
  · have hpos := ht.pos
    have hremt := ht.rem
    unfold ceil8 at hpos hremt
    have hzero : t.br.rem = 0 := Fin.val_eq_zero_iff.mp (by omega)
    have hempty : t.br.endPos.toNat ≤ t.br.pos.toNat := by
      rw [ht.endPos]
      omega
    exact ⟨_, exec_of_failed (i := .rdbit) (rdbitBody_of_empty hzero hempty), completeFailed_failure _ t⟩

end Sys2Proof.Machine
end

section
/-! PROOFS. Container formatting (44_container.md R240 to R244; layout 30_encoding.md R130 to R138): CWRITE stores the
header of the table, and CREAD takes exactly the legal headers, its checks in order. -/

namespace Sys2Proof.Machine

open Sys2Proof.Spec

/-! ## Signed fields (30_encoding.md R138) -/

/-- A k-byte field fits 8k bits. -/
theorem toNat_leField (view : Nat → Byte) (a k : Nat) :
    (BitVec.ofNat (8 * k) (leNat view a k)).toNat = leNat view a k := by
  rw [BitVec.toNat_ofNat, Nat.pow_mul]
  exact Nat.mod_eq_of_lt (leNat_lt view a k)

theorem leInt_neg_iff (view : Nat → Byte) (a k : Nat) : leInt view a k < 0 ↔ 256 ^ k ≤ 2 * leNat view a k := by
  rw [leInt, BitVec.toInt_neg_iff, toNat_leField, Nat.pow_mul]

theorem leInt_of_lt {view : Nat → Byte} {a k : Nat} (h : 2 * leNat view a k < 256 ^ k) :
    leInt view a k = leNat view a k := by
  rw [leInt, BitVec.toInt_eq_toNat_of_lt, toNat_leField]
  rwa [toNat_leField, Nat.pow_mul]

/-- A signed field is not positive where it is 0 or its top bit is 1. -/
theorem leInt_nonpos_iff (view : Nat → Byte) (a k : Nat) :
    leInt view a k ≤ 0 ↔ leNat view a k = 0 ∨ 256 ^ k ≤ 2 * leNat view a k := by
  rcases Nat.lt_or_ge (2 * leNat view a k) (256 ^ k) with h | h
  · rw [leInt_of_lt h]
    omega
  · have := (leInt_neg_iff view a k).mpr h
    omega

/-! ## The entries of a table, ascending (30_encoding.md R132) -/

theorem entries_pairwise (freq : SymTable Word) : (entries freq).Pairwise fun e e' => e.1.toNat < e'.1.toNat := by
  have hall : allSymbols.Pairwise fun a b => a.toNat < b.toNat := by
    rw [List.pairwise_iff_getElem]
    intro i j hi hj hij
    rw [length_allSymbols] at hi hj
    simpa only [getElem_allSymbols, BitVec.toNat_ofNat, Nat.mod_eq_of_lt hi, Nat.mod_eq_of_lt hj] using hij
  rw [entries_eq_map_filter, List.pairwise_map]
  exact hall.filter _

/-- A list of symbols with counts, ascending, is the table's where it has the table's entries. -/
theorem entries_eq_of_mem_iff {freq : SymTable Word} {es : List (Byte × Word)}
    (hes : es.Pairwise fun e e' => e.1.toNat < e'.1.toNat)
    (hmem : ∀ e, e ∈ es ↔ symGet freq e.1 = e.2 ∧ e.2 ≠ 0) : entries freq = es := by
  have hanti : Std.Antisymm fun e e' : Byte × Word => e.1.toNat < e'.1.toNat := ⟨fun _ _ h h' => by omega⟩
  have hirrefl : Std.Irrefl fun e e' : Byte × Word => e.1.toNat < e'.1.toNat := ⟨fun _ => Nat.lt_irrefl _⟩
  exact (entries_pairwise freq).eq_of_mem_iff hes fun e => (mem_entries freq e.1 e.2).trans (hmem e).symm

/-- A table is its entries: every other symbol's count is 0 (10_state.md R50). -/
theorem entries_injective : Function.Injective entries := by
  intro f g h
  have hsub {f g : SymTable Word} (h : entries f = entries g) (sym : Byte) (hne : symGet f sym ≠ 0) :
      symGet g sym = symGet f sym :=
    ((mem_entries g sym _).mp (h ▸ (mem_entries f sym _).mpr ⟨rfl, hne⟩)).1
  refine symTable_ext fun sym => ?_
  by_cases hf : symGet f sym = 0
  · by_cases hg : symGet g sym = 0
    · rw [hf, hg]
    · exact hsub h.symm sym hg
  · exact (hsub h sym hf).symm

/-! ## Field 2 as CREAD loads it -/

/-- Entry j of field 2 (30_encoding.md R130). -/
def entryAt (view : Nat → Byte) (j : Nat) : Byte × Word :=
  (view (4 + 9 * j), BitVec.ofNat 64 (leNat view (5 + 9 * j) 8))

/-- The temporaries F after the first k entries (44_container.md R241). -/
def loadEntries (view : Nat → Byte) : Nat → SymTable Word
  | 0 => symFill 0
  | k + 1 => symSet (loadEntries view k) (entryAt view k).1 (entryAt view k).2

/-- The symbol before entry k, -1 at first (44_container.md R241). -/
def lastSymbol (view : Nat → Byte) : Nat → Int
  | 0 => -1
  | k + 1 => (view (4 + 9 * k)).toNat

/-- Entry j passes every check of CREAD (44_container.md R241). -/
def goodEntry (view : Nat → Byte) (inLen j : Nat) : Prop :=
  13 + 9 * j ≤ inLen ∧ 0 < leNat view (5 + 9 * j) 8 ∧ leNat view (5 + 9 * j) 8 < 2 ^ 63
    ∧ ∀ i, i < j → (view (4 + 9 * i)).toNat < (view (4 + 9 * j)).toNat

section
variable {view : Nat → Byte} {inLen k n : Nat}

theorem toNat_entryAt_count (view : Nat → Byte) (j : Nat) : (entryAt view j).2.toNat = leNat view (5 + 9 * j) 8 :=
  toNat_leField view (5 + 9 * j) 8

theorem goodEntries_zero : goodEntries view inLen 0 := nofun

theorem goodEntries_succ : goodEntries view inLen (k + 1) ↔ goodEntries view inLen k ∧ goodEntry view inLen k :=
  Nat.forall_lt_succ_right

/-- A symbol is above the one before entry k where it is above all the earlier ones, which rise. -/
theorem le_lastSymbol_iff (hgood : goodEntries view inLen k) (sym : Byte) :
    (sym.toNat : Int) ≤ lastSymbol view k ↔ ∃ i, i < k ∧ sym.toNat ≤ (view (4 + 9 * i)).toNat := by
  cases k with
  | zero =>
    simp only [lastSymbol, Nat.not_lt_zero, false_and, exists_false, iff_false]
    omega
  | succ k =>
    obtain ⟨-, -, -, -, hrise⟩ := goodEntries_succ.mp hgood
    rw [lastSymbol, Int.ofNat_le]
    refine ⟨fun h => ⟨k, k.lt_succ_self, h⟩, fun ⟨i, hi, h⟩ => ?_⟩
    rcases Nat.lt_succ_iff_lt_or_eq.mp hi with hlt | rfl
    · exact h.trans (hrise i hlt).le
    · exact h

/-- Each entry's count is in the table: no later entry has its symbol. -/
theorem symGet_loadEntries_of_lt (hgood : goodEntries view inLen n) {j : Nat} (hj : j < n) :
    symGet (loadEntries view n) (entryAt view j).1 = (entryAt view j).2 := by
  induction n with
  | zero => omega
  | succ n ih =>
    obtain ⟨hgood, -, -, -, hrise⟩ := goodEntries_succ.mp hgood
    rw [loadEntries]
    rcases Nat.lt_succ_iff_lt_or_eq.mp hj with hlt | rfl
    · have hne : (entryAt view j).1 ≠ (entryAt view n).1 := fun he => (hrise j hlt).ne (congrArg BitVec.toNat he)
      rw [symGet_symSet_other _ _ hne]
      exact ih hgood hlt
    · exact symGet_symSet_same _ _ _

/-- A symbol of no entry has the count 0. -/
theorem symGet_loadEntries_of_ne {sym : Byte} (h : ∀ j, j < n → (entryAt view j).1 ≠ sym) :
    symGet (loadEntries view n) sym = 0 := by
  induction n with
  | zero => exact symGet_symFill 0 sym
  | succ n ih =>
    rw [loadEntries, symGet_symSet_other _ _ (h n n.lt_succ_self).symm]
    exact ih fun j hj => h j (hj.trans n.lt_succ_self)

/-- Good entries are the entries of the table they load. -/
theorem entries_loadEntries (hgood : goodEntries view inLen n) :
    entries (loadEntries view n) = (List.range n).map (entryAt view) := by
  refine entries_eq_of_mem_iff ?_ fun e => ?_
  · rw [List.pairwise_map]
    refine List.pairwise_lt_range.imp_of_mem fun _ hj hij => ?_
    obtain ⟨-, -, -, hrise⟩ := hgood _ (List.mem_range.mp hj)
    exact hrise _ hij
  · simp only [List.mem_map, List.mem_range]
    constructor
    · rintro ⟨j, hj, rfl⟩
      obtain ⟨-, hpos, -, -⟩ := hgood j hj
      refine ⟨symGet_loadEntries_of_lt hgood hj, fun hzero => ?_⟩
      rw [← toNat_entryAt_count, hzero] at hpos
      exact Nat.lt_irrefl 0 hpos
    · rintro ⟨hget, hne⟩
      by_contra hnone
      refine hne (hget ▸ symGet_loadEntries_of_ne fun j hj hsym => hnone ⟨j, hj, Prod.ext hsym ?_⟩)
      rw [← hget, ← hsym, symGet_loadEntries_of_lt hgood hj]

/-- The entries of a table of positive signed counts, laid out in the container, are good. -/
theorem goodEntries_of_entries {freq : SymTable Word} (hcounts : ∀ sym, (symGet freq sym).toNat < 2 ^ 63)
    (hentries : entries freq = (List.range n).map (entryAt view)) (hlen : 4 + 9 * n ≤ inLen) :
    goodEntries view inLen n := by
  intro j hj
  obtain ⟨hget, hne⟩ := (mem_entries freq (entryAt view j).1 (entryAt view j).2).mp
    (hentries ▸ List.mem_map_of_mem (List.mem_range.mpr hj))
  have hrise := hentries ▸ entries_pairwise freq
  rw [List.pairwise_map, List.pairwise_iff_getElem] at hrise
  rw [← toNat_entryAt_count]
  refine ⟨by omega, ?_, hget ▸ hcounts _, fun i hi => ?_⟩
  · exact Nat.pos_of_ne_zero fun hzero => hne (BitVec.eq_of_toNat_eq hzero)
  · have hjlt : j < (List.range n).length := by simpa using hj
    simpa only [List.getElem_range, entryAt] using hrise i j (hi.trans hjlt) hjlt hi

end

/-! ## CREAD's loop over the entries -/

/-- Field 2 from entry k on, `left` entries to go, where the earlier ones are loaded. -/
def readFrom (view : Nat → Byte) (inLen left k : Nat) : Except Cause (SymTable Word × Nat) :=
  readEntries view inLen left (4 + 9 * k) (lastSymbol view k) (loadEntries view k)

section
variable {view : Nat → Byte} {inLen k n left : Nat}

/-- After the last entry the loop answers what it has loaded. -/
theorem readFrom_zero : readFrom view inLen 0 k = .ok (loadEntries view k, 4 + 9 * k) := rfl

/-- The checks of one entry, in order. -/
theorem readFrom_succ : readFrom view inLen (left + 1) k =
    if inLen < 13 + 9 * k then .error .hdrShort
    else if leNat view (5 + 9 * k) 8 = 0 ∨ 2 ^ 63 ≤ leNat view (5 + 9 * k) 8 then .error .hdrBadCount
    else if ((view (4 + 9 * k)).toNat : Int) ≤ lastSymbol view k then .error .hdrSymbolOrder
    else readFrom view inLen left (k + 1) := by
  have hcount : leInt view (5 + 9 * k) 8 ≤ 0 ↔ leNat view (5 + 9 * k) 8 = 0 ∨ 2 ^ 63 ≤ leNat view (5 + 9 * k) 8 := by
    rw [leInt_nonpos_iff]
    omega
  have hoff : 4 + 9 * k + 1 = 5 + 9 * k := by omega
  by_cases hlen : inLen < 13 + 9 * k
  · simp only [readFrom, readEntries, if_pos hlen]
    split
    · rfl
    · exact if_pos (by omega)
  · rw [if_neg hlen, readFrom, readEntries, if_neg (by omega), if_neg (by omega), hoff, if_congr hcount rfl rfl]
    rfl

theorem readFrom_of_short (h : inLen < 13 + 9 * k) : readFrom view inLen (left + 1) k = .error .hdrShort := by
  rw [readFrom_succ, if_pos h]

theorem readFrom_of_bad_count (hlen : 13 + 9 * k ≤ inLen)
    (h : leNat view (5 + 9 * k) 8 = 0 ∨ 2 ^ 63 ≤ leNat view (5 + 9 * k) 8) :
    readFrom view inLen (left + 1) k = .error .hdrBadCount := by
  rw [readFrom_succ, if_neg (by omega), if_pos h]

theorem readFrom_of_symbol_order (hgood : goodEntries view inLen k) (hlen : 13 + 9 * k ≤ inLen)
    (hpos : 0 < leNat view (5 + 9 * k) 8) (hlt : leNat view (5 + 9 * k) 8 < 2 ^ 63)
    (h : ∃ i, i < k ∧ (view (4 + 9 * k)).toNat ≤ (view (4 + 9 * i)).toNat) :
    readFrom view inLen (left + 1) k = .error .hdrSymbolOrder := by
  rw [readFrom_succ, if_neg (by omega), if_neg (by omega), if_pos ((le_lastSymbol_iff hgood _).mpr h)]

theorem readFrom_of_goodEntry (hgood : goodEntries view inLen k) (h : goodEntry view inLen k) :
    readFrom view inLen (left + 1) k = readFrom view inLen left (k + 1) := by
  obtain ⟨hlen, hpos, hlt, hrise⟩ := h
  have hlast : ¬ ((view (4 + 9 * k)).toNat : Int) ≤ lastSymbol view k := by
    rw [le_lastSymbol_iff hgood]
    exact fun ⟨i, hi, hle⟩ => absurd (hrise i hi) (Nat.not_lt.mpr hle)
  rw [readFrom_succ, if_neg (by omega), if_neg (by omega), if_neg hlast]

/-- Good entries are loaded, and the loop is then at the next. -/
theorem readFrom_of_goodEntries (hgood : goodEntries view inLen k) :
    readFrom view inLen (k + left) 0 = readFrom view inLen left k := by
  induction k generalizing left with
  | zero => rw [Nat.zero_add]
  | succ k ih =>
    obtain ⟨hearlier, hentry⟩ := goodEntries_succ.mp hgood
    rw [Nat.add_assoc, Nat.add_comm 1, ih hearlier, readFrom_of_goodEntry hearlier hentry]

/-- The loop ends only where every entry passes its checks. -/
theorem goodEntries_of_readFrom_ok {r : SymTable Word × Nat} (hgood : goodEntries view inLen k)
    (h : readFrom view inLen left k = .ok r) : goodEntries view inLen (k + left) := by
  induction left generalizing k with
  | zero => exact hgood
  | succ left ih =>
    have hstep := h
    rw [readFrom_succ] at hstep
    split at hstep
    · cases hstep
    split at hstep
    · cases hstep
    split at hstep
    · cases hstep
    next hlen hcount hsym =>
      have hentry : goodEntry view inLen k := by
        refine ⟨by omega, by omega, by omega, fun i hi => ?_⟩
        by_contra hle
        exact hsym ((le_lastSymbol_iff hgood _).mpr ⟨i, hi, Nat.not_lt.mp hle⟩)
      rw [← Nat.add_assoc, Nat.add_right_comm]
      exact ih (goodEntries_succ.mpr ⟨hgood, hentry⟩) hstep

end

/-! ## The header as CREAD reads it -/

/-- The checks of fields 3, 4 and 5, in order, behind n entries. -/
theorem readLengths_eq (view : Nat → Byte) (inLen n : Nat) (f : SymTable Word) :
    readLengths view inLen f (4 + 9 * n) =
      if inLen < 12 + 9 * n then .error .hdrShort
      else if 2 ^ 63 ≤ leNat view (4 + 9 * n) 8 then .error .hdrNegOrigLen
      else if inLen < 16 + 9 * n then .error .hdrShort
      else if 2 ^ 31 ≤ leNat view (12 + 9 * n) 4 then .error .hdrPayloadLen
      else if inLen < 16 + 9 * n + leNat view (12 + 9 * n) 4 then .error .hdrShort
      else
        .ok
          { freq := f, origLen := leNat view (4 + 9 * n) 8, payloadLen := leNat view (12 + 9 * n) 4,
            pos := 16 + 9 * n } := by
  have horig : leInt view (4 + 9 * n) 8 < 0 ↔ 2 ^ 63 ≤ leNat view (4 + 9 * n) 8 := by
    rw [leInt_neg_iff]
    omega
  have hpay : leInt view (12 + 9 * n) 4 < 0 ↔ 2 ^ 31 ≤ leNat view (12 + 9 * n) 4 := by
    rw [leInt_neg_iff]
    omega
  have hoff : 4 + 9 * n + 8 = 12 + 9 * n := by omega
  have hend : 12 + 9 * n + 4 = 16 + 9 * n := by omega
  have hpos : 4 + 9 * n + 12 = 16 + 9 * n := by omega
  simp only [readLengths, hoff, hend, hpos, horig, hpay, gt_iff_lt]

section
variable {view : Nat → Byte} {inLen : Nat}

theorem readHeader_of_short (h : inLen < 4) : readHeader view inLen = .error .hdrShort := by
  rw [readHeader, if_pos h]

/-- A negative field 1 is past 256 as an unsigned number. -/
theorem entryCountField_bad_iff : leInt view 0 4 < 0 ∨ leInt view 0 4 > 256 ↔ 256 < leNat view 0 4 := by
  rcases Nat.lt_or_ge (2 * leNat view 0 4) (256 ^ 4) with h | h
  · rw [leInt_of_lt h]
    omega
  · have := (leInt_neg_iff view 0 4).mpr h
    omega

theorem readHeader_of_entry_count (hlen : 4 ≤ inLen) (h : 256 < leNat view 0 4) :
    readHeader view inLen = .error .hdrEntryCount := by
  rw [readHeader, if_neg (by omega), if_pos (entryCountField_bad_iff.mpr h)]

section
variable (hlen : 4 ≤ inLen) (hcount : leNat view 0 4 ≤ 256)
include hlen hcount

theorem readHeader_of_readFrom_error {c : Cause} (h : readFrom view inLen (leNat view 0 4) 0 = .error c) :
    readHeader view inLen = .error c := by
  have hfield := (not_congr entryCountField_bad_iff).mpr (Nat.not_lt.mpr hcount)
  have hread : readEntries view inLen (leNat view 0 4) 4 (-1) (symFill 0) = .error c := h
  rw [readHeader, if_neg (by omega), if_neg hfield, hread]

theorem readHeader_of_readFrom_ok {f : SymTable Word} {p : Nat}
    (h : readFrom view inLen (leNat view 0 4) 0 = .ok (f, p)) : readHeader view inLen = readLengths view inLen f p := by
  have hfield := (not_congr entryCountField_bad_iff).mpr (Nat.not_lt.mpr hcount)
  have hread : readEntries view inLen (leNat view 0 4) 4 (-1) (symFill 0) = .ok (f, p) := h
  rw [readHeader, if_neg (by omega), if_neg hfield, hread]

/-- The first entry to fail a check decides. -/
theorem readHeader_of_bad_entry {k : Nat} {c : Cause} (hk : k < leNat view 0 4) (hgood : goodEntries view inLen k)
    (h : ∀ left, readFrom view inLen (left + 1) k = .error c) : readHeader view inLen = .error c := by
  obtain ⟨left, hleft⟩ := Nat.exists_eq_add_of_lt hk
  refine readHeader_of_readFrom_error hlen hcount ?_
  rw [hleft, Nat.add_assoc, readFrom_of_goodEntries hgood, h]

theorem readHeader_of_goodEntries (hgood : goodEntries view inLen (leNat view 0 4)) :
    readHeader view inLen
      = readLengths view inLen (loadEntries view (leNat view 0 4)) (4 + 9 * leNat view 0 4) :=
  readHeader_of_readFrom_ok hlen hcount ((readFrom_of_goodEntries (left := 0) hgood).trans readFrom_zero)

end

/-- Every check of CREAD passes (44_container.md R241). -/
structure LegalHeader (view : Nat → Byte) (inLen : Nat) : Prop where
  count : leNat view 0 4 ≤ 256
  entries : goodEntries view inLen (leNat view 0 4)
  origLen : leNat view (4 + 9 * leNat view 0 4) 8 < 2 ^ 63
  payloadLen : leNat view (12 + 9 * leNat view 0 4) 4 < 2 ^ 31
  payload : 16 + 9 * leNat view 0 4 + leNat view (12 + 9 * leNat view 0 4) 4 ≤ inLen

/-- The header in a view. -/
def headerAt (view : Nat → Byte) : Header :=
  { freq := loadEntries view (leNat view 0 4)
    origLen := leNat view (4 + 9 * leNat view 0 4) 8
    payloadLen := leNat view (12 + 9 * leNat view 0 4) 4
    pos := 16 + 9 * leNat view 0 4 }

theorem readHeader_of_legal (h : LegalHeader view inLen) : readHeader view inLen = .ok (headerAt view) := by
  obtain ⟨hcount, hgood, horig, hpay, hpayload⟩ := h
  rw [readHeader_of_goodEntries (by omega) hcount hgood, readLengths_eq, if_neg (by omega), if_neg (by omega),
    if_neg (by omega), if_neg (by omega), if_neg (by omega)]
  rfl

theorem legal_of_readHeader_ok {h : Header} (hread : readHeader view inLen = .ok h) : LegalHeader view inLen := by
  have hlen : 4 ≤ inLen := by
    by_contra hshort
    rw [readHeader_of_short (by omega)] at hread
    cases hread
  have hcount : leNat view 0 4 ≤ 256 := by
    by_contra hbad
    rw [readHeader_of_entry_count hlen (by omega)] at hread
    cases hread
  have hgood : goodEntries view inLen (leNat view 0 4) := by
    cases hentries : readFrom view inLen (leNat view 0 4) 0 with
    | error c =>
      rw [readHeader_of_readFrom_error hlen hcount hentries] at hread
      cases hread
    | ok r => simpa only [Nat.zero_add] using goodEntries_of_readFrom_ok goodEntries_zero hentries
  rw [readHeader_of_goodEntries hlen hcount hgood, readLengths_eq] at hread
  split at hread
  · cases hread
  split at hread
  · cases hread
  split at hread
  · cases hread
  split at hread
  · cases hread
  split at hread
  · cases hread
  · exact ⟨hcount, hgood, by omega, by omega, by omega⟩

/-! ## The header of a table (30_encoding.md R130, R136) -/

/-- A view holds a table's entries where the table's list is the one the view shows. -/
theorem holdsHeader_iff {freq : SymTable Word} {origLen payloadLen : Nat} :
    holdsHeader view freq origLen payloadLen ↔
      leNat view 0 4 = entryCount freq ∧ entries freq = (List.range (entryCount freq)).map (entryAt view)
        ∧ leNat view (4 + 9 * entryCount freq) 8 = origLen ∧ leNat view (12 + 9 * entryCount freq) 4 = payloadLen := by
  refine and_congr_right fun _ => and_congr_left fun _ => ⟨fun h => ?_, fun h j sym count hj => ?_⟩
  · refine List.ext_getElem (by simp [entryCount]) fun j hj _ => ?_
    obtain ⟨hsym, hcount⟩ := h j _ _ (List.getElem?_eq_getElem hj)
    simp [entryAt, hsym, hcount]
  · obtain ⟨hlt, he⟩ := List.getElem?_eq_some_iff.mp hj
    have hat : entryAt view j = (sym, count) := by simpa [h] using he
    have hcount := toNat_entryAt_count view j
    rw [hat] at hcount
    exact ⟨congrArg Prod.fst hat, hcount.symm⟩

/-- The header of a table of positive signed counts, with its payload in the container, is legal, and is the one CREAD
reads. -/
theorem legal_of_holdsHeader {freq : SymTable Word} {origLen payloadLen : Nat}
    (h : holdsHeader view freq origLen payloadLen) (hcounts : ∀ sym, (symGet freq sym).toNat < 2 ^ 63)
    (horig : origLen < 2 ^ 63) (hpay : payloadLen < 2 ^ 31) (hlen : 16 + 9 * entryCount freq + payloadLen ≤ inLen) :
    LegalHeader view inLen ∧ headerAt view = ⟨freq, origLen, payloadLen, 16 + 9 * entryCount freq⟩ := by
  obtain ⟨hn, hentries, rfl, rfl⟩ := holdsHeader_iff.mp h
  rw [← hn] at hentries horig hpay hlen ⊢
  have hgood := goodEntries_of_entries (inLen := inLen) hcounts hentries (by omega)
  have hload : loadEntries view (leNat view 0 4) = freq :=
    entries_injective ((entries_loadEntries hgood).trans hentries.symm)
  exact ⟨⟨hn ▸ entryCount_le freq, hgood, horig, hpay, hlen⟩, by rw [headerAt, hload]⟩

/-- A legal header is that of the table it loads, whose counts are positive and signed. -/
theorem LegalHeader.holdsHeader (h : LegalHeader view inLen) :
    entryCount (headerAt view).freq = leNat view 0 4
      ∧ Spec.holdsHeader view (headerAt view).freq (headerAt view).origLen (headerAt view).payloadLen
      ∧ ∀ sym, (symGet (headerAt view).freq sym).toNat < 2 ^ 63 := by
  have hentries := entries_loadEntries h.entries
  have hn : entryCount (headerAt view).freq = leNat view 0 4 := by
    rw [headerAt, entryCount, hentries, List.length_map, List.length_range]
  refine ⟨hn, holdsHeader_iff.mpr ?_, fun sym => ?_⟩
  · rw [hn]
    exact ⟨rfl, hentries, rfl, rfl⟩
  · by_cases hsym : ∃ j, j < leNat view 0 4 ∧ (entryAt view j).1 = sym
    · obtain ⟨j, hj, rfl⟩ := hsym
      obtain ⟨-, -, hlt, -⟩ := h.entries j hj
      rw [headerAt, symGet_loadEntries_of_lt h.entries hj, toNat_entryAt_count]
      exact hlt
    · rw [headerAt, symGet_loadEntries_of_ne fun j hj he => hsym ⟨j, hj, he⟩]
      decide

end

/-! ## CREAD -/

section
variable {s : State}

/-- The state after CREAD's commit (44_container.md R241). -/
def loadHeader (h : Header) (s : State) : State :=
  { s with
    freq := h.freq
    origLen := BitVec.ofNat 64 h.origLen
    payloadLen := BitVec.ofNat 64 h.payloadLen
    br :=
      { pos := BitVec.ofNat 64 h.pos, endPos := BitVec.ofNat 64 (h.pos + h.payloadLen), cur := 0, rem := 0,
        lastBit := false, can := false } }

@[simp] theorem loadHeader_freq (h : Header) (s : State) : (loadHeader h s).freq = h.freq := rfl

/-- The loaded registers hold what the header says, where it lies below address 2^64. -/
theorem toNat_loadHeader {h : Header} (s : State) (horig : h.origLen < 2 ^ 64) (hend : h.pos + h.payloadLen < 2 ^ 64) :
    (loadHeader h s).origLen.toNat = h.origLen ∧ (loadHeader h s).payloadLen.toNat = h.payloadLen
      ∧ (loadHeader h s).br.pos.toNat = h.pos ∧ (loadHeader h s).br.endPos.toNat = h.pos + h.payloadLen :=
  ⟨Nat.mod_eq_of_lt horig, Nat.mod_eq_of_lt (by omega), Nat.mod_eq_of_lt (by omega), Nat.mod_eq_of_lt hend⟩

theorem creadBody_of_len_past (h : s.params.inSize < s.inLen.toNat) : creadBody s = .failed .badArg s := by
  have hbad : inLenBad s = true := decide_eq_true h
  rw [creadBody, if_pos hbad]

theorem creadBody_of_error (hlen : s.inLen.toNat ≤ s.params.inSize) {c : Cause}
    (h : readHeader (coreRead s firstPass) s.inLen.toNat = .error c) : creadBody s = .failed c s := by
  have hlegal : ¬ inLenBad s = true := by simpa [inLenBad] using hlen
  rw [creadBody, if_neg hlegal, h]

theorem creadBody_of_ok (hlen : s.inLen.toNat ≤ s.params.inSize) {h : Header}
    (hread : readHeader (coreRead s firstPass) s.inLen.toNat = .ok h) : creadBody s = .done (loadHeader h s) := by
  have hlegal : ¬ inLenBad s = true := by simpa [inLenBad] using hlen
  rw [creadBody, if_neg hlegal, hread]
  rfl

theorem creadFails_of_failed {c : Cause} (h : creadBody s = .failed c s) : creadFails s c :=
  ⟨_, exec_of_failed (i := .cread) h, completeFailed_failure c s⟩

/-- A CREAD that succeeds has read a legal header and loaded it. -/
theorem exec_cread_success {t : State} (hlen : s.inLen.toNat ≤ s.params.inSize) (hexec : exec .cread s = .next t)
    (hlast : t.history.getLast? = some (.complete none)) :
    LegalHeader (coreRead s firstPass) s.inLen.toNat
      ∧ t = completeOk (loadHeader (headerAt (coreRead s firstPass)) s) := by
  cases hread : readHeader (coreRead s firstPass) s.inLen.toNat with
  | error c =>
    rw [exec_of_failed (i := .cread) (creadBody_of_error hlen hread)] at hexec
    cases hexec
    simp at hlast
  | ok h =>
    have hlegal := legal_of_readHeader_ok hread
    rw [exec_of_done (i := .cread) (creadBody_of_ok hlen (readHeader_of_legal hlegal))] at hexec
    cases hexec
    exact ⟨hlegal, rfl⟩

end

/-- Settles O47: the header of a table is legal and is the one loaded (`legal_of_holdsHeader`), and a legal header is
that of the table loaded (`LegalHeader.holdsHeader`). -/
theorem creadLoadsExactlyHeaders : Obligations.CreadLoadsExactlyHeaders := by
  intro s hsize
  refine ⟨fun f len pay hholds hcounts hlen hpay hin => ?_, fun t hexec hlast => ?_⟩
  · obtain ⟨hlegal, hat⟩ := legal_of_holdsHeader hholds hcounts hlen hpay hin
    have hread := readHeader_of_legal hlegal
    rw [hat] at hread
    obtain ⟨horig, hpayload, hpos, hend⟩ := toNat_loadHeader (h := ⟨f, len, pay, 16 + 9 * entryCount f⟩) s
      (hlen.trans (by norm_num)) (hin.trans_lt s.inLen.isLt)
    exact ⟨_, exec_of_done (i := .cread) (creadBody_of_ok hsize hread), completeOk_success _, rfl, horig, hpayload,
      hpos, hend, rfl, rfl, rfl, rfl, ⟨rfl, rfl⟩, rfl, rfl, ⟨rfl, rfl⟩, rfl, completeOk_sameHost _, completeOk_sameIn _,
      completeOk_sameOut _⟩
  · obtain ⟨hlegal, rfl⟩ := exec_cread_success hsize hexec hlast
    obtain ⟨hn, hholds, hcounts⟩ := hlegal.holdsHeader
    have horig : (headerAt (coreRead s firstPass)).origLen < 2 ^ 63 := hlegal.origLen
    have hpayload : (headerAt (coreRead s firstPass)).payloadLen < 2 ^ 31 := hlegal.payloadLen
    obtain ⟨hloadOrig, hloadPayload, -, -⟩ := toNat_loadHeader s (horig.trans (by norm_num))
      (hlegal.payload.trans_lt s.inLen.isLt)
    rw [completeOk_freq, completeOk_origLen, completeOk_payloadLen, hloadOrig, hloadPayload, loadHeader_freq, hn]
    exact ⟨hholds, hcounts, horig, hpayload, hlegal.payload⟩

/-- Settles O48: each check by its place in the header (`readHeader_of_short` to `readLengths_eq`). -/
theorem creadChecksFieldsInOrder : Obligations.CreadChecksFieldsInOrder := by
  rintro s view len n rfl rfl rfl
  refine ⟨fun h => creadFails_of_failed (creadBody_of_len_past h), fun hsize => ?_⟩
  have hfails {c : Cause} (h : readHeader (coreRead s firstPass) s.inLen.toNat = .error c) : creadFails s c :=
    creadFails_of_failed (creadBody_of_error hsize h)
  refine ⟨fun h => hfails (readHeader_of_short h), fun hlen h => hfails (readHeader_of_entry_count hlen h),
    fun hlen hcount => ⟨fun k hk hgood => ?_, fun hgood => ?_⟩⟩
  · have hentry {c : Cause} (h : ∀ left, readFrom (coreRead s firstPass) s.inLen.toNat (left + 1) k = .error c) :
        creadFails s c := hfails (readHeader_of_bad_entry hlen hcount hk hgood h)
    exact ⟨fun h => hentry fun _ => readFrom_of_short h,
      fun hin => ⟨fun h => hentry fun _ => readFrom_of_bad_count hin h,
        fun hpos hlt h => hentry fun _ => readFrom_of_symbol_order hgood hin hpos hlt h⟩⟩
  · have hread := (readHeader_of_goodEntries hlen hcount hgood).trans (readLengths_eq ..)
    refine ⟨fun h => hfails ?_, fun horig h => hfails ?_, fun horig hnneg =>
      ⟨fun h => hfails ?_, fun hpay h => hfails ?_, fun hpay hpnneg h => hfails ?_⟩⟩ <;> rw [hread]
    · rw [if_pos h]
    · rw [if_neg (by omega), if_pos h]
    · rw [if_neg (by omega), if_neg (by omega), if_pos h]
    · rw [if_neg (by omega), if_neg (by omega), if_neg (by omega), if_pos h]
    · rw [if_neg (by omega), if_neg (by omega), if_neg (by omega), if_neg (by omega), if_pos h]

/-! ## The header's bytes in a view -/

/-- A view holds a list of bytes from an offset on. -/
def HoldsBytes (view : Nat → Byte) (a : Nat) (bs : List Byte) : Prop :=
  ∀ i, (hi : i < bs.length) → view (a + i) = bs[i]

section
variable {view : Nat → Byte} {a : Nat}

theorem HoldsBytes.of_append {bs cs : List Byte} (h : HoldsBytes view a (bs ++ cs)) :
    HoldsBytes view a bs ∧ HoldsBytes view (a + bs.length) cs := by
  refine ⟨fun i hi => ?_, fun i hi => ?_⟩
  · rw [h i (by rw [List.length_append]; omega), List.getElem_append_left hi]
  · rw [Nat.add_assoc, h (bs.length + i) (by rw [List.length_append]; omega), List.getElem_append_right (by omega)]
    simp only [Nat.add_sub_cancel_left]

/-- A field that holds a value's bytes reads as the value, where the field is wide enough. -/
theorem HoldsBytes.leNat {k v : Nat} (h : HoldsBytes view a (leBytes k v)) (hv : v < 256 ^ k) : leNat view a k = v := by
  rw [leNat_eq_of_bytes view a k v fun i hi => h i (by rwa [length_leBytes]), Nat.mod_eq_of_lt hv]

@[simp] theorem length_entryBytes (e : Byte × Word) : (entryBytes e).length = 9 := by simp [entryBytes]

theorem HoldsBytes.entryAt {j : Nat} {e : Byte × Word} (h : HoldsBytes view (4 + 9 * j) (entryBytes e)) :
    entryAt view j = e := by
  obtain ⟨hsym, hcount⟩ := HoldsBytes.of_append (bs := [e.1]) (cs := leBytes 8 e.2.toNat) h
  have hoff : 4 + 9 * j + [e.1].length = 5 + 9 * j := by rw [List.length_singleton]; omega
  rw [hoff] at hcount
  rw [Machine.entryAt, hcount.leNat (e.2.isLt.trans_eq (by norm_num)), BitVec.ofNat_toNat, BitVec.setWidth_eq]
  exact Prod.ext (hsym 0 (by simp)) rfl

/-- Entries written one after another are read back one after another. -/
theorem HoldsBytes.entries {k : Nat} {es : List (Byte × Word)}
    (h : HoldsBytes view (4 + 9 * k) (es.flatMap entryBytes)) :
    es = (List.range' k es.length).map (Machine.entryAt view) := by
  induction es generalizing k with
  | nil => rfl
  | cons e es ih =>
    rw [List.flatMap_cons] at h
    obtain ⟨hfirst, hrest⟩ := h.of_append
    have hoff : 4 + 9 * k + (entryBytes e).length = 4 + 9 * (k + 1) := by rw [length_entryBytes]; omega
    rw [hoff] at hrest
    rw [List.length_cons, List.range'_succ, List.map_cons, hfirst.entryAt, ← ih hrest]

/-- Fields 1 to 4, stored, are the table's header. -/
theorem holdsHeader_of_holdsBytes {freq : SymTable Word} {origLen payloadLen : Nat} (horig : origLen < 256 ^ 8)
    (hpay : payloadLen < 256 ^ 4) (h : HoldsBytes view 0 (headerBytes freq origLen payloadLen)) :
    holdsHeader view freq origLen payloadLen := by
  obtain ⟨h, hfour⟩ := h.of_append
  obtain ⟨h, hthree⟩ := h.of_append
  obtain ⟨hone, htwo⟩ := h.of_append
  have hlen : ((Machine.entries freq).flatMap entryBytes).length = 9 * entryCount freq := by
    simp [List.length_flatMap, entryCount, Nat.mul_comm]
  simp only [List.length_append, length_leBytes, hlen, Nat.zero_add] at htwo hthree hfour
  have hoff : 4 + 9 * entryCount freq + 8 = 12 + 9 * entryCount freq := by omega
  rw [hoff] at hfour
  refine holdsHeader_iff.mpr ⟨hone.leNat ?_, ?_, hthree.leNat horig, hfour.leNat hpay⟩
  · exact (entryCount_le freq).trans_lt (by norm_num)
  · rw [List.range_eq_range']
    exact HoldsBytes.entries (k := 0) htwo

end

/-- Bytes written to a buffer are there. -/
theorem holdsBytes_writeList (m : Memory) (a : Nat) (bs : List Byte) : HoldsBytes (m.writeList a bs).read a bs := by
  intro i hi
  have hin : a ≤ a + i ∧ a + i - a < bs.length := by omega
  rw [Memory.read_writeList, dif_pos hin]
  simp only [Nat.add_sub_cancel_left]

/-! ## CWRITE -/

section
variable {s : State}

/-- The state after CWRITE's stores (44_container.md R240). -/
def storeHeader (s : State) : State :=
  { storeOutList 0 (headerBytes s.freq s.origLen.toNat s.payloadLen.toNat) s with
    bw := { pos := BitVec.ofNat 64 (headerLen (entryCount s.freq)), acc := 0, cnt := 0 }
    outLen := BitVec.ofNat 64 (headerLen (entryCount s.freq)) }

/-- A value does not fit its signed field (44_container.md R240). -/
theorem cwriteUnfit_iff : cwriteUnfit s = true ↔
    2 ^ 63 ≤ s.origLen.toNat ∨ 2 ^ 31 ≤ s.payloadLen.toNat ∨ ∃ sym, 2 ^ 63 ≤ (symGet s.freq sym).toNat := by
  simp only [cwriteUnfit, toList_eq_map_symGet, List.any_map, Bool.or_eq_true, decide_eq_true_iff, List.any_eq_true,
    mem_allSymbols, true_and, Function.comp_apply, or_assoc]
  exact Iff.rfl

theorem cwriteBody_of_cap_past (hcap : s.params.outSize < s.outCap.toNat) : cwriteBody s = .failed .badArg s := by
  rw [cwriteBody, if_pos (outCapBad_eq_true hcap)]

section
variable (hcap : s.outCap.toNat ≤ s.params.outSize)
include hcap

theorem cwriteBody_of_unfit (hunfit : cwriteUnfit s = true) : cwriteBody s = .failed .badArg s := by
  simp [cwriteBody, outCapBad_eq_false hcap, hunfit]

theorem cwriteBody_of_no_room (hfit : ¬ cwriteUnfit s = true) (h : s.outCap.toNat < 16 + 9 * entryCount s.freq) :
    cwriteBody s = .failed .outCapacity s := by
  simp [cwriteBody, outCapBad_eq_false hcap, hfit, headerLen, h]

theorem cwriteBody_of_room (hfit : ¬ cwriteUnfit s = true) (h : 16 + 9 * entryCount s.freq ≤ s.outCap.toNat) :
    cwriteBody s = .done (storeHeader s) := by
  simp [cwriteBody, outCapBad_eq_false hcap, hfit, headerLen, Nat.not_lt.mpr h, storeHeader]

end

/-- After completion OUT holds the header, where HOST wrote no OUT byte while BUSY = 1 (20_memory.md R93). -/
theorem holdsHeader_completeOk_storeHeader (hpay : s.payloadLen.toNat < 2 ^ 31) (htouched : s.outTouched = []) :
    holdsHeader (completeOk (storeHeader s)).outMem.read s.freq s.origLen.toNat s.payloadLen.toNat := by
  have hmem : (completeOk (storeHeader s)).outMem
      = s.outMem.writeList 0 (headerBytes s.freq s.origLen.toNat s.payloadLen.toNat) := by
    rw [completeOk_outMem, show (storeHeader s).outTouched = [] from htouched]
    rfl
  rw [hmem]
  exact holdsHeader_of_holdsBytes (s.origLen.isLt.trans_eq (by norm_num)) (by omega) (holdsBytes_writeList _ _ _)

theorem toNat_headerLen (freq : SymTable Word) :
    (BitVec.ofNat 64 (headerLen (entryCount freq))).toNat = 16 + 9 * entryCount freq := by
  have hle := entryCount_le freq
  rw [BitVec.toNat_ofNat, headerLen, Nat.mod_eq_of_lt (by omega)]

/-- No OUT byte behind the header is stored to. -/
theorem completeOk_storeHeader_sameOutBut (s : State) :
    SameOutBut (fun a => a < 16 + 9 * entryCount s.freq) s (completeOk (storeHeader s)) := by
  intro a ha htouched
  refine (Memory.read_scrambleAt _ _ _ _ htouched).trans (Memory.read_writeList_outside _ _ (.inr ?_))
  rw [length_headerBytes, headerLen]
  omega

theorem exec_cwrite_of_failed {c : Cause} (h : cwriteBody s = .failed c s) :
    ∃ t, exec .cwrite s = .next t ∧ Failure c [] s t ∧ t.outLen = 0 :=
  ⟨_, exec_of_failed (i := .cwrite) h, completeFailed_failure c (failCwrite s), rfl⟩

end

/-- Settles O46: the four equations of CWRITE's body, the header by `holdsHeader_completeOk_storeHeader`. -/
theorem cwriteWritesTheHeader : Obligations.CwriteWritesTheHeader := by
  intro s
  refine ⟨fun hcap => exec_cwrite_of_failed (cwriteBody_of_cap_past hcap),
    fun hcap hunfit => exec_cwrite_of_failed (cwriteBody_of_unfit hcap (cwriteUnfit_iff.mpr hunfit)),
    fun hcap horig hpay hcounts => ?_⟩
  have hfit : ¬ cwriteUnfit s = true := by
    rw [cwriteUnfit_iff]
    rintro (h | h | ⟨sym, h⟩)
    · omega
    · omega
    · exact absurd (hcounts sym) (Nat.not_lt.mpr h)
  refine ⟨fun h => exec_cwrite_of_failed (cwriteBody_of_no_room hcap hfit h), fun h => ?_⟩
  exact ⟨_, exec_of_done (i := .cwrite) (cwriteBody_of_room hcap hfit h), completeOk_success _,
    holdsHeader_completeOk_storeHeader hpay, toNat_headerLen s.freq, rfl, rfl, toNat_headerLen s.freq,
    completeOk_storeHeader_sameOutBut s, rfl, ⟨rfl, rfl⟩, rfl, rfl, ⟨rfl, rfl⟩, rfl, rfl, completeOk_sameHost _,
    completeOk_sameIn _⟩

end Sys2Proof.Machine
end

section
/-! PROOFS. COMPRESS's encode loop (45_engine.md R270, R272, R276): the progress events it emits and the bits it
writes. -/

namespace Sys2Proof.Machine

open Sys2Proof.Spec

/-! ## Progress events one after another -/

/-- Emit the given events in order. -/
def emitAll (ps : List Nat) (s : State) : State := ps.foldl (fun t p => emitProgress p t) s

theorem emitAll_concat (ps : List Nat) (p : Nat) (s : State) :
    emitAll (ps ++ [p]) s = emitProgress p (emitAll ps s) :=
  List.foldl_concat ..

theorem emitAll_append (ps qs : List Nat) (s : State) : emitAll (ps ++ qs) s = emitAll qs (emitAll ps s) :=
  List.foldl_append

/-- PROGRESS after the given events, from its value before them. -/
def progressAfter (ps : List Nat) (before : Progress) : Progress :=
  (ps.getLast?.map fun p => { pct := BitVec.ofNat 8 p, pvalid := true }).getD before

/-- Events change the history, PROGRESS, PROG_PEND and the count of events seen, and nothing else. An event sets
PROG_PEND unless it has come before (log 19). -/
theorem emitAll_eq (ps : List Nat) (s : State) :
    emitAll ps s =
      { s with
        history := s.history ++ ps.map Event.progress
        progress := progressAfter ps s.progress
        status := { s.status with progPend := s.status.progPend || decide (s.eventsSeen < ps.length) }
        eventsSeen := s.eventsSeen - ps.length } := by
  induction ps using List.reverseRecOn with
  | nil => simp [emitAll, progressAfter]
  | append_singleton ps p ih =>
    have hpend : (decide (s.eventsSeen < ps.length) || decide (s.eventsSeen - ps.length = 0))
        = decide (s.eventsSeen ≤ ps.length) := by
      rw [← Bool.decide_or]
      exact decide_eq_decide.mpr (by omega)
    rw [emitAll_concat, emitProgress, ih]
    simp [hpend, Bool.or_assoc, Nat.sub_sub, progressAfter]

/-- The state with another bit writer and other bytes in OUT. -/
def withWriter (w : BitWriter) (m : Memory) (s : State) : State := { s with bw := w, outMem := m }

theorem emitAll_withWriter (ps : List Nat) (w : BitWriter) (m : Memory) (s : State) :
    emitAll ps (withWriter w m s) = withWriter w m (emitAll ps s) := by
  induction ps using List.reverseRecOn with
  | nil => rfl
  | append_singleton ps p ih =>
    rw [emitAll_concat, emitAll_concat, ih]
    rfl

/-! ## What the encode loop changes -/

theorem wrbitBody_done {b : Bool} {s u : State} (h : wrbitBody b s = .done u) :
    u = withWriter u.bw u.outMem s := by
  obtain ⟨-, hb⟩ | ⟨-, -, -, hb⟩ | ⟨-, -, -, hb⟩ | ⟨-, -, hb⟩ := wrbitBody_cases b s <;>
    rw [hb] at h <;> cases h <;> rfl

theorem flushBody_done {s u : State} (h : flushBody s = .done u) : u = withWriter u.bw u.outMem s := by
  obtain ⟨-, hb⟩ | ⟨-, -, hb⟩ | ⟨-, -, -, hb⟩ | ⟨-, -, -, hb⟩ := flushBody_cases s <;>
    rw [hb] at h <;> cases h <;> rfl

/-- Bits written change the bit writer and OUT alone. -/
theorem writeBits_done {bs : List Bool} {s u : State} (h : writeBits bs s = .done u) :
    u = withWriter u.bw u.outMem s := by
  induction bs generalizing s with
  | nil => cases h; rfl
  | cons b bs ih =>
    obtain ⟨t, ht, hu⟩ := CmdResult.bind_eq_done.mp h
    rw [ih hu, wrbitBody_done ht]
    rfl

/-! ## The percentages (45_engine.md R276) -/

/-- The percentages after 0 to i of n bytes, once each, ascending. -/
def Percentages (n i : Nat) (ps : List Nat) : Prop :=
  ps.Pairwise (· < ·) ∧ ∀ p, p ∈ ps ↔ ∃ j, j ≤ i ∧ p = percent j n

theorem percent_mono {i j : Nat} (n : Nat) (h : i ≤ j) : percent i n ≤ percent j n :=
  Nat.div_le_div_right (Nat.mul_le_mul_left 100 h)

/-- One byte on, the list grows by the new percentage where that is greater than the last. -/
theorem Percentages.succ {n i : Nat} {ps : List Nat} (h : Percentages n i ps) (s : State) :
    ∃ qs, emitIfGreater (percent (i + 1) n) (percent i n) s = emitAll qs s ∧ Percentages n (i + 1) (ps ++ qs) := by
  obtain ⟨hrise, hmem⟩ := h
  by_cases hgt : percent (i + 1) n > percent i n
  · refine ⟨[percent (i + 1) n], if_pos hgt, ?_, fun p => ?_⟩
    · refine List.pairwise_append.mpr ⟨hrise, List.pairwise_singleton _ _, fun p hp q hq => ?_⟩
      obtain ⟨j, hj, rfl⟩ := (hmem p).mp hp
      rw [List.mem_singleton.mp hq]
      exact (percent_mono n hj).trans_lt hgt
    · rw [List.mem_append, hmem, List.mem_singleton]
      constructor
      · rintro (⟨j, hj, rfl⟩ | rfl)
        · exact ⟨j, by omega, rfl⟩
        · exact ⟨i + 1, le_rfl, rfl⟩
      · rintro ⟨j, hj, rfl⟩
        rcases Nat.le_succ_iff.mp hj with hle | rfl
        · exact .inl ⟨j, hle, rfl⟩
        · exact .inr rfl
  · have hsame : percent (i + 1) n = percent i n := le_antisymm (Nat.not_lt.mp hgt) (percent_mono n i.le_succ)
    refine ⟨[], if_neg hgt, by rwa [List.append_nil], fun p => ?_⟩
    rw [List.append_nil, hmem]
    constructor
    · rintro ⟨j, hj, rfl⟩
      exact ⟨j, by omega, rfl⟩
    · rintro ⟨j, hj, rfl⟩
      rcases Nat.le_succ_iff.mp hj with hle | rfl
      · exact ⟨j, hle, rfl⟩
      · exact ⟨i, le_rfl, hsame⟩

theorem emitIfGreater_eq_emitAll (pct last : Nat) (s : State) : ∃ qs, emitIfGreater pct last s = emitAll qs s := by
  by_cases h : pct > last
  · exact ⟨[pct], if_pos h⟩
  · exact ⟨[], if_neg h⟩

theorem encodeFrom_done {n left i : Nat} {ps : List Nat} {s u : State} (hps : Percentages n i ps)
    (h : encodeFrom n left i (percent i n) s = .done u) :
    ∃ qs, u = withWriter u.bw u.outMem (emitAll qs s) ∧ Percentages n (i + left) (ps ++ qs) := by
  induction left generalizing i ps s with
  | zero =>
    cases h
    exact ⟨[], rfl, by rwa [List.append_nil]⟩
  | succ left ih =>
    obtain ⟨t, ht, hu⟩ := CmdResult.bind_eq_done.mp h
    obtain ⟨qs, hemit, hqs⟩ := hps.succ t
    rw [max_eq_left (percent_mono n i.le_succ), hemit] at hu
    obtain ⟨rs, hrs, hall⟩ := ih hqs hu
    refine ⟨qs ++ rs, ?_, by rwa [← List.append_assoc, Nat.add_comm left, ← Nat.add_assoc]⟩
    rw [hrs, writeBits_done ht, emitAll_withWriter, emitAll_withWriter, emitAll_append]
    rfl

/-- A completed encode loop, with the event before it, has emitted the percentages of all the bytes. -/
theorem encodeAll_done {n : Nat} {s u : State} (h : encodeFrom n n 0 0 (startProgress n s) = .done u) :
    ∃ ps, isProgressList n ps ∧ u = withWriter u.bw u.outMem (emitAll ps s) := by
  rcases Nat.eq_zero_or_pos n with rfl | hn
  · cases h
    exact ⟨[], ⟨.nil, by simp⟩, rfl⟩
  · have hzero : percent 0 n = 0 := Nat.zero_div n
    have hfirst : Percentages n 0 [0] := ⟨List.pairwise_singleton _ _, by simp [hzero]⟩
    have hloop : encodeFrom n n 0 (percent 0 n) (emitAll [0] s) = .done u := by
      rwa [hzero, ← show startProgress n s = emitAll [0] s from if_pos hn]
    obtain ⟨qs, hu, hrise, hmem⟩ := encodeFrom_done hfirst hloop
    rw [Nat.zero_add] at hmem
    exact ⟨0 :: qs, ⟨hrise, fun p => ⟨fun hp => ⟨hn, (hmem p).mp hp⟩, fun ⟨_, hp⟩ => (hmem p).mpr hp⟩⟩, hu⟩

/-! ## The bits the encode loop writes -/

/-- The codes of some bytes, in order, each from its first bit on (45_engine.md R272). -/
def codeBits (codes : SymTable Code) (bs : List Byte) : List Bool := bs.flatMap fun b => (symGet codes b).toBits

@[simp] theorem codeBits_cons (codes : SymTable Code) (b : Byte) (bs : List Byte) :
    codeBits codes (b :: bs) = (symGet codes b).toBits ++ codeBits codes bs := List.flatMap_cons

section
variable {s t : State} {bits : List Bool}

/-- What has been written is in OUT and the bit writer, so no other change of the state matters. -/
theorem Written.congr {u : State} (h : Written s bits t) (hbw : u.bw = t.bw) (hout : u.outMem = t.outMem) :
    Written s bits u := by
  obtain ⟨⟨hpos, hbit, hother⟩, hcnt, hacc⟩ := h
  exact ⟨⟨hbw ▸ hpos, hout ▸ hbit, hout ▸ hother⟩, hbw ▸ hcnt, hbw ▸ hacc⟩

variable (h : Written s bits t) (hcap : t.outCap.toNat ≤ t.params.outSize)
include h hcap

/-- With room for the byte it fills, if it fills one, a bit is written. -/
theorem Written.exists_wrbit (b : Bool)
    (hroom : s.bw.pos.toNat + (bits.length + 1) / 8 ≤ t.outCap.toNat) : ∃ u, wrbitBody b t = .done u := by
  by_cases hcnt : t.bw.cnt = 7
  · have hfull := h.cnt
    have hpos := h.packed.pos
    rw [hcnt] at hfull
    change 7 = _ at hfull
    exact ⟨_, wrbitBody_of_eighth b hcap hcnt (by omega)⟩
  · exact ⟨_, wrbitBody_of_partial b hcap hcnt⟩

theorem Written.exists_writeBits (bs : List Bool)
    (hroom : s.bw.pos.toNat + (bits.length + bs.length) / 8 ≤ t.outCap.toNat) :
    ∃ u, writeBits bs t = .done u ∧ Written s (bits ++ bs) u := by
  induction bs generalizing bits t with
  | nil => exact ⟨t, rfl, by rwa [List.append_nil]⟩
  | cons b bs ih =>
    rw [List.length_cons] at hroom
    obtain ⟨v, hv⟩ := h.exists_wrbit hcap b (by omega)
    have hsame := wrbitBody_done hv
    obtain ⟨u, hu, hwritten⟩ := ih (h.wrbit hv) (by rw [hsame]; exact hcap)
      (by rw [List.length_append, List.length_singleton, hsame]
          exact (Nat.add_le_add_left (Nat.div_le_div_right (by omega)) _).trans hroom)
    refine ⟨u, ?_, by simpa using hwritten⟩
    rw [writeBits, hv, CmdResult.bind_done, hu]

/-- With room for all the bits, the encode loop writes the codes of its bytes. -/
theorem Written.exists_encodeFrom {n left i : Nat} (last : Nat)
    (hroom : s.bw.pos.toNat
      + (bits.length + (codeBits t.codes ((List.range' i left).map (coreRead t encodePass))).length) / 8
        ≤ t.outCap.toNat) :
    ∃ u, encodeFrom n left i last t = .done u
      ∧ Written s (bits ++ codeBits t.codes ((List.range' i left).map (coreRead t encodePass))) u := by
  induction left generalizing bits t i last with
  | zero => exact ⟨t, rfl, by simpa [codeBits] using h⟩
  | succ left ih =>
    rw [List.range'_succ, List.map_cons, codeBits_cons] at hroom ⊢
    rw [List.length_append] at hroom
    obtain ⟨v, hv, hwritten⟩ := h.exists_writeBits hcap (symGet t.codes (coreRead t encodePass i)).toBits
      ((Nat.add_le_add_left (Nat.div_le_div_right (by omega)) _).trans hroom)
    obtain ⟨w, m, rfl⟩ : ∃ w m, v = withWriter w m t := ⟨_, _, writeBits_done hv⟩
    obtain ⟨qs, hqs⟩ := emitIfGreater_eq_emitAll (percent (i + 1) n) last (withWriter w m t)
    rw [emitAll_eq] at hqs
    obtain ⟨u, hu, hall⟩ := ih (t := emitIfGreater (percent (i + 1) n) last (withWriter w m t)) (by
      rw [hqs]
      exact hwritten.congr rfl rfl) (by rw [hqs]; exact hcap) (max (percent (i + 1) n) last) (by
      rw [hqs, List.length_append, Nat.add_assoc]
      exact hroom)
    refine ⟨u, ?_, ?_⟩
    · rw [encodeFrom, hv, CmdResult.bind_done, hu]
    · rw [hqs, List.append_assoc] at hall
      exact hall

/-- With room for the last byte, FLUSH pads it. -/
theorem Written.exists_flush (hroom : s.bw.pos.toNat + ceil8 bits.length ≤ t.outCap.toNat) :
    ∃ u, flushBody t = .done u ∧ Packed s bits (ceil8 bits.length) u ∧ u.bw.cnt = 0 := by
  by_cases hcnt : t.bw.cnt = 0
  · have hu := flushBody_of_empty hcap hcnt
    exact ⟨_, hu, h.flush hu⟩
  · have hpos := h.packed.pos
    have hmod : bits.length % 8 ≠ 0 := h.cnt ▸ Fin.val_ne_zero_iff.mpr hcnt
    rw [ceil8_of_mod_ne_zero hmod] at hroom
    have hu := flushBody_of_partial hcap hcnt (by omega)
    exact ⟨_, hu, h.flush hu⟩

end

end Sys2Proof.Machine
end

section
/-! PROOFS. COMPRESS's steps (45_engine.md R270 to R272): what each leaves, and the container in OUT at the end. -/

namespace Sys2Proof.Machine

open Sys2Proof.Spec

/-! ## The payload's bits (45_engine.md R271) -/

/-- Each byte of a list is counted once with its symbol. -/
theorem sum_count_mul_allSymbols (f : Byte → Nat) (bs : List Byte) :
    (allSymbols.map fun sym => bs.count sym * f sym).sum = (bs.map f).sum := by
  induction bs with
  | nil => simp only [List.count_nil, Nat.zero_mul, List.map_const', List.sum_replicate, smul_zero, List.map_nil,
      List.sum_nil]
  | cons b bs ih =>
    have hone : (allSymbols.map fun sym => if b = sym then f sym else 0).sum = f b := by
      rw [← List.sum_toFinset _ allSymbols_nodup, Finset.sum_ite_eq, if_pos (List.mem_toFinset.mpr (mem_allSymbols b))]
    have hsplit : (fun sym => (b :: bs).count sym * f sym)
        = fun sym => bs.count sym * f sym + if b = sym then f sym else 0 := by
      funext sym
      rw [List.count_cons, Nat.add_mul, beq_eq_decide]
      by_cases h : b = sym <;> simp [h]
    rw [hsplit, List.sum_map_add, ih, hone, List.map_cons, List.sum_cons, Nat.add_comm]

/-- The codes of the bytes that were counted have as many bits as the counts say. -/
theorem length_codeBits (codes : SymTable Code) (view : Nat → Byte) {n : Nat} (hn : n < 2 ^ 64) :
    (codeBits codes ((List.range n).map view)).length = payloadBits (countBytes view n) codes := by
  calc (codeBits codes ((List.range n).map view)).length
      = (((List.range n).map view).map fun sym => (symGet codes sym).len.toNat).sum := by
        simp [codeBits, List.length_flatMap, Function.comp_def]
    _ = (allSymbols.map fun sym => ((List.range n).map view).count sym * (symGet codes sym).len.toNat).sum :=
        (sum_count_mul_allSymbols _ _).symm
    _ = payloadBits (countBytes view n) codes := by
        rw [payloadBits, toList_eq_map_symGet, toList_eq_map_symGet, List.zipWith_map, List.zipWith_self]
        simp only [toNat_symGet_countBytes view hn]

/-! ## The steps of COMPRESS (45_engine.md R270) -/

/-- FREQ once a COMPRESS has counted the bytes. -/
def countedFreq (s : State) : SymTable Word := countBytes (coreRead s firstPass) s.inLen.toNat

/-- A COMPRESS's state once the bytes are counted, the tree is built and the codes are generated. -/
def coded (s : State) : State :=
  { s with
    progress := { pct := 0, pvalid := false }
    freq := countedFreq s
    origLen := s.inLen
    pool := (mergedForest (countedFreq s)).pool
    treeInfo := treeInfoOf (mergedForest (countedFreq s))
    codes := codesOf (countedFreq s) s.ctrl.ssm }

/-- P, from the tables of a state. -/
def payloadSize (s : State) : Nat := ceil8 (payloadBits s.freq s.codes)

/-- The state once PAYLOAD_LEN is written. -/
def sized (s : State) : State := { s with payloadLen := BitVec.ofNat 64 (payloadSize s) }

/-- The state once the header is stored, with the bit writer behind it. -/
def headed (s : State) : State :=
  { coded s with
    payloadLen := BitVec.ofNat 64 (payloadSize (coded s))
    outMem := s.outMem.writeList 0
      (headerBytes (countedFreq s) s.inLen.toNat (BitVec.ofNat 64 (payloadSize (coded s))).toNat)
    bw := { pos := BitVec.ofNat 64 (headerLen (entryCount (countedFreq s))), acc := 0, cnt := 0 }
    outLen := BitVec.ofNat 64 (headerLen (entryCount (countedFreq s))) }

theorem storeHeader_sized_coded (s : State) : storeHeader (sized (coded s)) = headed s := by
  simp only [storeHeader, storeOutList, sized, coded, headed]

/-- The encode loop and FLUSH of a COMPRESS behind its header, for a container of the given length. -/
def encodePayload (len : Nat) (s : State) : CmdResult :=
  (encodeFrom s.inLen.toNat s.inLen.toNat 0 0 (startProgress s.inLen.toNat s)).bind fun t =>
    (flushBody t).bind fun u => .done { u with outLen := BitVec.ofNat 64 len }

section
variable {s : State}

theorem compressBody_of_bad_length (h : s.params.inSize < s.inLen.toNat ∨ s.params.outSize < s.outCap.toNat) :
    compressBody s = .failed .badArg { s with progress := { pct := 0, pvalid := false } } := by
  have hbad : inLenBad s = true ∨ outCapBad s = true := h.imp decide_eq_true decide_eq_true
  exact if_pos hbad

theorem compressBody_of_legal_lengths (hlen : s.inLen.toNat ≤ s.params.inSize)
    (hcap : s.outCap.toNat ≤ s.params.outSize) : compressBody s = compressTail (coded s) := by
  have hlegal : inLenBad s = false := decide_eq_false (Nat.not_lt.mpr hlen)
  have hboth : ¬ (inLenBad s = true ∨ outCapBad s = true) := by simp [hlegal, outCapBad_eq_false hcap]
  have hin : ¬ inLenBad s = true := by simp [hlegal]
  exact (if_neg hboth).trans
    (congrArg (CmdResult.bind · fun t => compressTail (gencodeBody (buildBody t))) (if_neg hin))

theorem compressTail_of_large (h : 2 ^ 31 ≤ payloadSize s) : compressTail s = .failed .payloadTooLarge s := by
  have hlarge : ceil8 (payloadBits s.freq s.codes) > 2 ^ 31 - 1 := by
    unfold payloadSize at h
    omega
  exact if_pos hlarge

variable (hpay : payloadSize s < 2 ^ 31)
include hpay

theorem compressTail_of_no_room (h : s.outCap.toNat < 16 + 9 * entryCount s.freq + payloadSize s) :
    compressTail s = .failed .outCapacity (sized s) := by
  unfold payloadSize at h hpay
  simp only [compressTail]
  rw [if_neg (by omega), if_pos (by simpa [headerLen] using h)]
  rfl

theorem compressTail_of_room (h : 16 + 9 * entryCount s.freq + payloadSize s ≤ s.outCap.toNat) :
    compressTail s = (cwriteBody (sized s)).bind (encodePayload (16 + 9 * entryCount s.freq + payloadSize s)) := by
  unfold payloadSize at h hpay
  simp only [compressTail]
  rw [if_neg (by omega), if_neg (by simpa [headerLen] using h)]
  rfl

end

/-! ## A COMPRESS that succeeds -/

/-- What a successful COMPRESS leaves of a state, given its progress events, the bit writer and OUT. -/
def compressed (ps : List Nat) (w : BitWriter) (m : Memory) (s : State) : State :=
  { headed s with
    bw := w
    outMem := m
    outLen := BitVec.ofNat 64 (16 + 9 * entryCount (countedFreq s) + payloadSize (coded s))
    history := s.history ++ ps.map Event.progress
    progress := progressAfter ps { pct := 0, pvalid := false }
    status := { s.status with progPend := s.status.progPend || decide (s.eventsSeen < ps.length) }
    eventsSeen := s.eventsSeen - ps.length }

theorem cwriteBody_done {s u : State} (h : cwriteBody s = .done u) : u = storeHeader s := by
  unfold cwriteBody at h
  split at h
  · cases h
  split at h
  · cases h
  split at h
  · cases h
  · cases h
    rfl

theorem encodePayload_done {len : Nat} {s u : State} (h : encodePayload len s = .done u) :
    ∃ ps, isProgressList s.inLen.toNat ps
      ∧ u = { withWriter u.bw u.outMem (emitAll ps s) with outLen := BitVec.ofNat 64 len } := by
  obtain ⟨t, ht, hrest⟩ := CmdResult.bind_eq_done.mp h
  obtain ⟨v, hv, hu⟩ := CmdResult.bind_eq_done.mp hrest
  obtain ⟨ps, hps, hsame⟩ := encodeAll_done ht
  cases hu
  refine ⟨ps, hps, ?_⟩
  rw [flushBody_done hv, hsame]
  rfl

/-- All a COMPRESS that returns can do: it has emitted the percentages, and what is left open is OUT and the bit
writer. -/
theorem compressBody_done {s u : State} (h : compressBody s = .done u) :
    ∃ ps, isProgressList s.inLen.toNat ps ∧ u = compressed ps u.bw u.outMem s := by
  have hlegal : s.inLen.toNat ≤ s.params.inSize ∧ s.outCap.toNat ≤ s.params.outSize := by
    by_contra hbad
    rw [compressBody_of_bad_length (by omega)] at h
    cases h
  rw [compressBody_of_legal_lengths hlegal.1 hlegal.2] at h
  have hpay : payloadSize (coded s) < 2 ^ 31 := by
    by_contra hlarge
    rw [compressTail_of_large (Nat.not_lt.mp hlarge)] at h
    cases h
  have hroom : 16 + 9 * entryCount (coded s).freq + payloadSize (coded s) ≤ (coded s).outCap.toNat := by
    by_contra hshort
    rw [compressTail_of_no_room hpay (Nat.not_le.mp hshort)] at h
    cases h
  rw [compressTail_of_room hpay hroom] at h
  obtain ⟨t, ht, hu⟩ := CmdResult.bind_eq_done.mp h
  obtain ⟨ps, hps, hsame⟩ := encodePayload_done hu
  rw [cwriteBody_done ht, storeHeader_sized_coded, emitAll_eq] at hsame
  rw [cwriteBody_done ht, storeHeader_sized_coded] at hps
  exact ⟨ps, hps, hsame⟩

/-! ## The container (45_engine.md R271, R272) -/

/-- The codes of the bytes in IN, in order. -/
def inputBits (s : State) : List Bool :=
  codeBits (codesOf (compressFreq s) s.ctrl.ssm) ((List.range s.inLen.toNat).map s.inMem.read)

theorem ceil8_length_inputBits (s : State) : ceil8 (inputBits s).length = compressPayload s :=
  congrArg ceil8 (length_codeBits _ _ s.inLen.isLt)

/-- OUT holds the container of the bytes in IN, nothing behind it has changed, and the bit writer stands at its end. -/
structure HoldsContainer (s u : State) : Prop where
  header : HoldsBytes u.outMem.read 0 (headerBytes (compressFreq s) s.inLen.toNat (compressPayload s))
  payload : ∀ k, k < 8 * compressPayload s →
    streamBit u.outMem (16 + 9 * entryCount (compressFreq s)) k = (inputBits s).getD k false
  behind : ∀ a, containerLen s ≤ a → u.outMem.read a = s.outMem.read a
  pos : u.bw.pos.toNat = containerLen s
  acc : u.bw.acc = 0
  cnt : u.bw.cnt = 0

theorem bitWriterOk_keptByOps : KeptByOps fun s => s.bw.Ok where
  plain := fun _ _ _ _ _ _ _ h => h
  emptyWriter := fun pos _ _ => BitWriter.ok_empty pos
  shiftWriter := fun b _ hcnt h => h.shiftIn b hcnt
  noProgress := fun _ h => h
  emit := fun _ _ _ h => h
  build := fun _ h => h
  gencode := fun _ h => h
  clear := fun _ _ => BitWriter.ok_empty 0

theorem BitWriter.Ok.acc_eq_zero {w : BitWriter} (h : w.Ok) (hcnt : w.cnt = 0) : w.acc = 0 := by
  rw [BitWriter.Ok, hcnt] at h
  exact BitVec.eq_of_toNat_eq (Nat.lt_one_iff.mp h)

theorem KeptByOps.encodePayload {P : State → Prop} (hP : KeptByOps P) (len : Nat) {s : State} (hs : P s) :
    (encodePayload len s).Ends P :=
  (hP.encodeFrom 0 (by omega) (hP.startProgress _ hs)).bind fun _ ht =>
    (hP.flushBody ht).bind fun u hu => CmdResult.ends_done.mpr (hP.plain _ _ _ _ _ _ u hu)

theorem startProgress_eq_emitAll (n : Nat) (s : State) : ∃ qs, startProgress n s = emitAll qs s := by
  by_cases h : n > 0
  · exact ⟨[0], if_pos h⟩
  · exact ⟨[], if_neg h⟩

/-- With room for the payload behind an empty bit writer, the encode loop and FLUSH write it. -/
theorem exists_encodePayload {s : State} {bits : List Bool} (len : Nat) (hempty : s.bw.cnt = 0)
    (hcap : s.outCap.toNat ≤ s.params.outSize)
    (hbits : bits = codeBits s.codes ((List.range s.inLen.toNat).map (coreRead s encodePass)))
    (hroom : s.bw.pos.toNat + ceil8 bits.length ≤ s.outCap.toNat) :
    ∃ u, encodePayload len s = .done u ∧ Packed s bits (ceil8 bits.length) u ∧ u.bw.cnt = 0 := by
  subst hbits
  rw [List.range_eq_range'] at hroom ⊢
  obtain ⟨qs, hqs⟩ := startProgress_eq_emitAll s.inLen.toNat s
  rw [emitAll_eq] at hqs
  have hframe := (startProgress_frame s.inLen.toNat s).trans (encodeFrom_frame s.inLen.toNat s.inLen.toNat 0 0 _)
  have hstart : Written s [] (startProgress s.inLen.toNat s) := hqs ▸ (written_nil hempty).congr rfl rfl
  have hfit : s.bw.pos.toNat
      + (0 + (codeBits s.codes ((List.range' 0 s.inLen.toNat).map (coreRead s encodePass))).length) / 8
        ≤ s.outCap.toNat := by
    unfold ceil8 at hroom
    omega
  obtain ⟨t, ht, hwritten⟩ := hstart.exists_encodeFrom (n := s.inLen.toNat) (left := s.inLen.toNat) (i := 0)
    (by rw [hqs]; exact hcap) 0 (by rw [hqs]; exact hfit)
  rw [ht, CmdResult.final_done] at hframe
  rw [hqs] at hwritten
  obtain ⟨u, hu, hpacked, hcnt⟩ := hwritten.exists_flush (by rwa [hframe.outCap, hframe.params])
    (by rw [hframe.outCap]; exact hroom)
  refine ⟨{ u with outLen := BitVec.ofNat 64 len }, ?_, ⟨hpacked.pos, hpacked.bit, hpacked.other⟩, hcnt⟩
  rw [encodePayload, ht, CmdResult.bind_done, hu, CmdResult.bind_done]

section
variable {s : State} (hraces : s.inRaces = [])
include hraces

/-- Where HOST wrote no IN byte while BUSY = 1, the tables are those of the bytes in IN. -/
theorem countedFreq_of_no_races : countedFreq s = compressFreq s := by
  rw [countedFreq, coreRead_no_races s _ hraces, compressFreq]

theorem payloadSize_coded_of_no_races : payloadSize (coded s) = compressPayload s := by
  rw [payloadSize, coded, countedFreq_of_no_races hraces, compressPayload]

theorem toNat_payloadLen_coded (hpay : compressPayload s < 2 ^ 31) :
    (BitVec.ofNat 64 (payloadSize (coded s))).toNat = compressPayload s := by
  rw [payloadSize_coded_of_no_races hraces, BitVec.toNat_ofNat, Nat.mod_eq_of_lt (by omega)]

/-- CWRITE's check of the signed fields can fail for IN_LEN alone: no count is greater. -/
theorem cwriteUnfit_sized_coded_iff (hpay : compressPayload s < 2 ^ 31) :
    cwriteUnfit (sized (coded s)) = true ↔ 2 ^ 63 ≤ s.inLen.toNat := by
  have hlen : (sized (coded s)).payloadLen.toNat = compressPayload s := toNat_payloadLen_coded hraces hpay
  rw [cwriteUnfit_iff, hlen]
  refine ⟨?_, .inl⟩
  rintro (h | h | ⟨sym, h⟩)
  · exact h
  · omega
  · have hcount : (symGet (countedFreq s) sym).toNat ≤ s.inLen.toNat := by
      rw [countedFreq, toNat_symGet_countBytes _ s.inLen.isLt]
      simpa using List.count_le_length (l := (List.range s.inLen.toNat).map (coreRead s firstPass)) (a := sym)
    exact h.trans hcount

/-- The payload behind the stored header completes the container. -/
theorem holdsContainer_of_packed {u : State} (h : Packed (headed s) (inputBits s) (compressPayload s) u)
    (hpay : compressPayload s < 2 ^ 31) (hok : u.bw.Ok) (hcnt : u.bw.cnt = 0) : HoldsContainer s u := by
  have hpos : (headed s).bw.pos.toNat = 16 + 9 * entryCount (compressFreq s) := by
    rw [← countedFreq_of_no_races hraces]
    exact toNat_headerLen _
  have hmem : (headed s).outMem
      = s.outMem.writeList 0 (headerBytes (compressFreq s) s.inLen.toNat (compressPayload s)) := by
    rw [← toNat_payloadLen_coded hraces hpay, ← countedFreq_of_no_races hraces]
    rfl
  obtain ⟨hupos, hbit, hother⟩ := h
  rw [hpos] at hupos hbit hother
  rw [hmem] at hother
  have hlen : (headerBytes (compressFreq s) s.inLen.toNat (compressPayload s)).length
      = 16 + 9 * entryCount (compressFreq s) := length_headerBytes _ _ _
  refine ⟨fun i hi => ?_, hbit, fun a ha => ?_, hupos, hok.acc_eq_zero hcnt, hcnt⟩
  · rw [hother _ (.inl (by omega))]
    exact holdsBytes_writeList _ _ _ i hi
  · rw [containerLen] at ha
    rw [hother a (.inr ha)]
    exact Memory.read_writeList_outside _ _ (.inr (by omega))

/-- A COMPRESS whose container fits returns, with the container in OUT. -/
theorem exists_compressBody (hlen : s.inLen.toNat ≤ s.params.inSize) (hsigned : s.inLen.toNat < 2 ^ 63)
    (hcap : s.outCap.toNat ≤ s.params.outSize) (hpay : compressPayload s < 2 ^ 31)
    (hroom : containerLen s ≤ s.outCap.toNat) : ∃ u, compressBody s = .done u ∧ HoldsContainer s u := by
  have hunfit := (not_congr (cwriteUnfit_sized_coded_iff hraces hpay)).mpr (Nat.not_le.mpr hsigned)
  have hfreq := countedFreq_of_no_races hraces
  have hsize := payloadSize_coded_of_no_races hraces
  rw [containerLen, ← hfreq, ← hsize] at hroom
  have hheader : 16 + 9 * entryCount (countedFreq s) ≤ s.outCap.toNat := by omega
  have hbody : compressBody s
      = encodePayload (16 + 9 * entryCount (countedFreq s) + payloadSize (coded s)) (headed s) := by
    rw [compressBody_of_legal_lengths hlen hcap, compressTail_of_room (s := coded s) (hsize ▸ hpay) hroom,
      cwriteBody_of_room (s := sized (coded s)) hcap hunfit hheader, CmdResult.bind_done,
      storeHeader_sized_coded]
    rfl
  have hbits : inputBits s
      = codeBits (headed s).codes ((List.range (headed s).inLen.toNat).map (coreRead (headed s) encodePass)) := by
    rw [coreRead_no_races (headed s) _ hraces, inputBits, ← hfreq]
    rfl
  have hpos : (headed s).bw.pos.toNat = 16 + 9 * entryCount (countedFreq s) := toNat_headerLen _
  obtain ⟨u, hu, hpacked, hcnt⟩ := exists_encodePayload (s := headed s)
    (16 + 9 * entryCount (countedFreq s) + payloadSize (coded s)) rfl hcap hbits
    (by rw [hpos, ceil8_length_inputBits, ← hsize]; exact hroom)
  have hends := bitWriterOk_keptByOps.encodePayload (16 + 9 * entryCount (countedFreq s) + payloadSize (coded s))
    (s := headed s) (BitWriter.ok_empty _)
  rw [hu, CmdResult.ends_done] at hends
  rw [ceil8_length_inputBits] at hpacked
  exact ⟨u, hbody.trans hu, holdsContainer_of_packed hraces hpacked hpay hends hcnt⟩

end

end Sys2Proof.Machine
end

section
/-! PROOFS. COMPRESS (45_engine.md R270 to R272, R276, R280): the container it writes, its failures in order, its
progress events, and that it is a function of its input. -/

namespace Sys2Proof.Machine

open Sys2Proof.Spec

/-! ## A COMPRESS that succeeds -/

theorem HoldsContainer.completeOk {s u : State} (h : HoldsContainer s u) (htouched : u.outTouched = []) :
    HoldsContainer s (completeOk u) := by
  obtain ⟨hheader, hpayload, hbehind, hpos, hacc, hcnt⟩ := h
  have hout : (Machine.completeOk u).outMem = u.outMem := by rw [completeOk_outMem, htouched, Memory.scrambleAt]
  exact ⟨hout ▸ hheader, hout ▸ hpayload, hout ▸ hbehind, hpos, hacc, hcnt⟩

/-- Where HOST wrote no buffer byte meanwhile, a COMPRESS whose container fits succeeds, with the container in OUT. -/
theorem exec_compress_of_fits {s : State} (hraces : NoRaces s) (hlen : s.inLen.toNat ≤ s.params.inSize)
    (hsigned : s.inLen.toNat < 2 ^ 63) (hcap : s.outCap.toNat ≤ s.params.outSize) (hpay : compressPayload s < 2 ^ 31)
    (hroom : containerLen s ≤ s.outCap.toNat) :
    ∃ ps w m, isProgressList s.inLen.toNat ps ∧ exec .compress s = .next (completeOk (compressed ps w m s))
      ∧ HoldsContainer s (completeOk (compressed ps w m s)) := by
  obtain ⟨hin, hout⟩ := hraces
  obtain ⟨u, hu, hholds⟩ := exists_compressBody hin hlen hsigned hcap hpay hroom
  obtain ⟨ps, hps, hsame⟩ := compressBody_done hu
  rw [hsame] at hu hholds
  exact ⟨ps, u.bw, u.outMem, hps, exec_of_done (i := .compress) hu, hholds.completeOk hout⟩

/-- What a COMPRESS leaves in the registers, where HOST wrote no IN byte meanwhile. -/
theorem compressed_registers {s : State} (hin : s.inRaces = []) (hpay : compressPayload s < 2 ^ 31)
    (hroom : containerLen s < 2 ^ 64) (ps : List Nat) (w : BitWriter) (m : Memory) :
    (compressed ps w m s).freq = compressFreq s ∧ (compressed ps w m s).payloadLen.toNat = compressPayload s
      ∧ (compressed ps w m s).outLen.toNat = containerLen s := by
  have hfreq := countedFreq_of_no_races hin
  refine ⟨hfreq, toNat_payloadLen_coded hin hpay, ?_⟩
  rw [containerLen, ← hfreq, ← payloadSize_coded_of_no_races hin] at hroom ⊢
  exact Nat.mod_eq_of_lt hroom

theorem compressed_success (ps : List Nat) (w : BitWriter) (m : Memory) (s : State) :
    Success ps s (completeOk (compressed ps w m s)) := ⟨rfl, rfl, rfl, rfl, rfl⟩

/-- Settles O49: COMPRESS succeeds and OUT holds the container (`exec_compress_of_fits`), with the tables and lengths of
`compressed`. -/
theorem compressWritesTheContainer : Obligations.CompressWritesTheContainer := by
  intro s hraces hlen hsize hcap hpay hroom
  obtain ⟨ps, w, m, -, hexec, hholds⟩ := exec_compress_of_fits hraces hlen (hlen.trans_lt hsize) hcap hpay hroom
  obtain ⟨hfreq, hpayLen, houtLen⟩ := compressed_registers hraces.1 hpay (hroom.trans_lt s.outCap.isLt) ps w m
  obtain ⟨hheader, hpayload, hbehind, hpos, hacc, hcnt⟩ := hholds
  obtain ⟨hhost, hsameIn⟩ := commandsNeverWriteHostState .compress s _ hexec
  have hceil := ceil8_length_inputBits s
  have hcodes : (compressed ps w m s).codes = codesOf (compressed ps w m s).freq s.ctrl.ssm := rfl
  refine ⟨_, ps, inputBits s, hexec, compressed_success ps w m s, ?_⟩
  simp only [completeOk_freq, completeOk_codes, completeOk_payloadLen, completeOk_outLen, hcodes, hfreq, hpayLen,
    houtLen, hceil]
  refine ⟨List.flatMap_map .., length_codeBits _ _ s.inLen.isLt, trivial, trivial, hfreq ▸ rfl, hfreq ▸ rfl, rfl,
    trivial, rfl, BitVec.eq_of_toNat_eq (hpos.trans houtLen.symm), hacc, hcnt, ?_, hpayload,
    fun a ha _ => hbehind a (Nat.not_lt.mp ha), rfl, hhost, hsameIn⟩
  exact holdsHeader_of_holdsBytes (s.inLen.isLt.trans_eq (by norm_num)) (by omega) hheader

/-! ## The failures of COMPRESS (45_engine.md R270) -/

section
variable {s : State} (hraces : s.inRaces = []) (hlen : s.inLen.toNat ≤ s.params.inSize)
  (hcap : s.outCap.toNat ≤ s.params.outSize)
include hraces hlen hcap

theorem compressBody_of_large (h : 2 ^ 31 ≤ compressPayload s) :
    compressBody s = .failed .payloadTooLarge (coded s) := by
  rw [← payloadSize_coded_of_no_races hraces] at h
  rw [compressBody_of_legal_lengths hlen hcap, compressTail_of_large h]

theorem compressBody_of_no_room (hpay : compressPayload s < 2 ^ 31) (h : s.outCap.toNat < containerLen s) :
    compressBody s = .failed .outCapacity (sized (coded s)) := by
  rw [← payloadSize_coded_of_no_races hraces] at hpay
  rw [containerLen, ← countedFreq_of_no_races hraces, ← payloadSize_coded_of_no_races hraces] at h
  rw [compressBody_of_legal_lengths hlen hcap, compressTail_of_no_room (s := coded s) hpay h]

/-- A length past the signed field fails in CWRITE; no legal IN_SIZE admits one. -/
theorem compressBody_of_unsigned (hpay : compressPayload s < 2 ^ 31) (hroom : containerLen s ≤ s.outCap.toNat)
    (h : 2 ^ 63 ≤ s.inLen.toNat) :
    compressBody s = .failed .badArg (sized (coded s)) := by
  have hunfit := (cwriteUnfit_sized_coded_iff hraces hpay).mpr h
  rw [← payloadSize_coded_of_no_races hraces] at hpay
  rw [containerLen, ← countedFreq_of_no_races hraces, ← payloadSize_coded_of_no_races hraces] at hroom
  rw [compressBody_of_legal_lengths hlen hcap, compressTail_of_room (s := coded s) hpay hroom,
    cwriteBody_of_unfit (s := sized (coded s)) hcap hunfit, CmdResult.bind_failed]

/-- A container that does not fit fails with the tables made; PAYLOAD_LEN is written where its own check has passed. -/
theorem compressBody_of_not_fits (h : 2 ^ 31 ≤ compressPayload s ∨ s.outCap.toNat < containerLen s) :
    ∃ c pay, compressBody s = .failed c { coded s with payloadLen := pay }
      ∧ (2 ^ 31 ≤ compressPayload s → c = .payloadTooLarge ∧ pay = s.payloadLen)
      ∧ (compressPayload s < 2 ^ 31 → c = .outCapacity ∧ pay.toNat = compressPayload s) := by
  rcases Nat.lt_or_ge (compressPayload s) (2 ^ 31) with hpay | hlarge
  · exact ⟨.outCapacity, BitVec.ofNat 64 (payloadSize (coded s)),
      compressBody_of_no_room hraces hlen hcap hpay (h.resolve_left (Nat.not_le.mpr hpay)),
      fun hlarge => absurd hpay (Nat.not_lt.mpr hlarge), fun _ => ⟨rfl, toNat_payloadLen_coded hraces hpay⟩⟩
  · exact ⟨.payloadTooLarge, s.payloadLen, compressBody_of_large hraces hlen hcap hlarge, fun _ => ⟨rfl, rfl⟩,
      fun hpay => absurd hpay (Nat.not_lt.mpr hlarge)⟩

end

/-- Settles O51: the equations of COMPRESS's body where a check fails (`compressBody_of_bad_length`,
`compressBody_of_not_fits`). -/
theorem compressFailuresInOrder : Obligations.CompressFailuresInOrder := by
  intro s
  refine ⟨fun hbad => ?_, fun hraces hlen hcap hnofit => ?_⟩
  · have hexec := exec_of_failed (i := .compress) (compressBody_of_bad_length hbad)
    obtain ⟨hhost, hin⟩ := commandsNeverWriteHostState .compress s _ hexec
    exact ⟨_, hexec, completeFailed_failure _ (failEngine { s with progress := _ }), rfl, rfl, rfl, rfl, ⟨rfl, rfl⟩,
      rfl, rfl, rfl, rfl, rfl, hhost, hin⟩
  · obtain ⟨c, pay, hbody, hlarge, hsmall⟩ := compressBody_of_not_fits hraces hlen hcap hnofit
    have hexec := exec_of_failed (i := .compress) hbody
    obtain ⟨hhost, hin⟩ := commandsNeverWriteHostState .compress s _ hexec
    exact ⟨_, c, hexec, completeFailed_failure c (failEngine { coded s with payloadLen := pay }), rfl, hlarge, hsmall,
      countedFreq_of_no_races hraces, rfl, rfl, rfl, rfl, rfl, rfl, rfl, rfl, hhost, hin⟩

/-! ## The events of a COMPRESS that succeeds (45_engine.md R276) -/

/-- A COMPRESS that succeeds has emitted the percentages, and no other event. -/
theorem exec_compress_success {s t : State} {ps : List Nat} (hexec : exec .compress s = .next t)
    (hsuccess : Success ps s t) : isProgressList s.inLen.toNat ps ∧ ∃ w m, t = completeOk (compressed ps w m s) := by
  obtain ⟨-, -, -, -, hhistory⟩ := hsuccess
  cases hbody : compressBody s with
  | done u =>
    rw [exec_of_done (i := .compress) hbody] at hexec
    cases hexec
    obtain ⟨qs, hqs, hsame⟩ := compressBody_done hbody
    rw [hsame] at hhistory
    have hevents := List.append_cancel_left (List.append_cancel_right hhistory)
    obtain rfl : qs = ps := List.map_injective_iff.mpr (fun _ _ h => Event.progress.inj h) hevents
    exact ⟨hqs, u.bw, u.outMem, congrArg completeOk hsame⟩
  | failed c u =>
    rw [exec_of_failed (i := .compress) hbody] at hexec
    cases hexec
    simpa using List.append_inj_right' hhistory rfl

section
variable {n : Nat} {ps : List Nat} (h : isProgressList n ps)
include h

theorem isProgressList_le {p : Nat} (hp : p ∈ ps) : p ≤ 100 := by
  obtain ⟨-, i, hi, rfl⟩ := (h.2 p).mp hp
  exact percent_le hi

theorem isProgressList_length_le : ps.length ≤ 101 := by
  have hsub : ps ⊆ List.range 101 := fun p hp => List.mem_range.mpr (Nat.lt_succ_of_le (isProgressList_le h hp))
  simpa using (List.subperm_of_subset (h.1.imp Nat.ne_of_lt) hsub).length_le

theorem isProgressList_eq_nil (hn : n = 0) : ps = [] :=
  List.eq_nil_iff_forall_not_mem.mpr fun p hp => absurd hn ((h.2 p).mp hp).1.ne'

variable (hn : 0 < n)
include hn

theorem isProgressList_head? : ps.head? = some 0 := by
  have hzero : 0 ∈ ps := (h.2 0).mpr ⟨hn, 0, n.zero_le, by simp⟩
  cases ps with
  | nil => cases hzero
  | cons p qs =>
    rcases List.mem_cons.mp hzero with rfl | hlater
    · rfl
    · exact absurd (List.rel_of_pairwise_cons h.1 hlater) p.not_lt_zero

theorem isProgressList_getLast? : ps.getLast? = some 100 := by
  have hall : 100 ∈ ps := (h.2 100).mpr ⟨hn, n, le_rfl, (Nat.mul_div_cancel 100 hn).symm⟩
  rcases List.eq_nil_or_concat' ps with rfl | ⟨qs, p, rfl⟩
  · cases hall
  · rw [List.getLast?_append, List.getLast?_singleton]
    rcases List.mem_append.mp hall with hearlier | hlast
    · have hlt := (List.pairwise_append.mp h.1).2.2 100 hearlier p (List.mem_singleton_self p)
      have hle := isProgressList_le h (List.mem_append_right qs (List.mem_singleton_self p))
      omega
    · rw [List.mem_singleton.mp hlast]
      rfl

end

/-- Settles O50: the events are the percentages (`exec_compress_success`), which begin at 0 and end at 100
(`isProgressList_head?`, `isProgressList_getLast?`), and PROGRESS and PROG_PEND are those of the last of them. -/
theorem compressEmitsEachPercentageOnce : Obligations.CompressEmitsEachPercentageOnce := by
  intro s t ps hexec hsuccess
  obtain ⟨hps, w, m, rfl⟩ := exec_compress_success hexec hsuccess
  have hpend : (completeOk (compressed ps w m s)).status.progPend = true
      ↔ s.status.progPend = true ∨ s.eventsSeen < ps.length := by
    show (s.status.progPend || decide (s.eventsSeen < ps.length)) = true ↔ _
    rw [Bool.or_eq_true, decide_eq_true_iff]
  have hprogress : (completeOk (compressed ps w m s)).progress = progressAfter ps { pct := 0, pvalid := false } := rfl
  refine ⟨hps, fun hn => ?_, fun hn => ?_, isProgressList_length_le hps⟩
  · have hlast := isProgressList_getLast? hps hn
    refine ⟨isProgressList_head? hps hn, hlast, ?_, hpend, fun hseen => hpend.mpr (.inr ?_)⟩
    · rw [hprogress, progressAfter, hlast]
      rfl
    · rw [hseen, List.length_pos_iff]
      rintro rfl
      cases hlast
  · obtain rfl := isProgressList_eq_nil hps hn
    exact ⟨rfl, rfl, Bool.or_false _⟩

/-! ## COMPRESS as a function (45_engine.md R280) -/

/-- The first check a COMPRESS fails, if any, where HOST wrote no IN byte meanwhile (45_engine.md R270). -/
def compressCause (s : State) : Option Cause :=
  if s.params.inSize < s.inLen.toNat ∨ s.params.outSize < s.outCap.toNat then some .badArg
  else if 2 ^ 31 ≤ compressPayload s then some .payloadTooLarge
  else if s.outCap.toNat < containerLen s then some .outCapacity
  else if 2 ^ 63 ≤ s.inLen.toNat then some .badArg
  else none

/-- That check decides how the command ends. -/
theorem exec_compress_of_cause {s : State} {c : Cause} (hraces : s.inRaces = []) (h : compressCause s = some c) :
    ∃ t, exec .compress s = .next t ∧ Failure c [] s t ∧ t.outLen = 0 := by
  have hfails : ∃ u, compressBody s = .failed c u ∧ u.history = s.history := by
    unfold compressCause at h
    split at h
    · next hbad =>
      cases h
      exact ⟨_, compressBody_of_bad_length hbad, rfl⟩
    · next hlegal =>
      split at h
      · next hlarge =>
        cases h
        exact ⟨_, compressBody_of_large hraces (by omega) (by omega) hlarge, rfl⟩
      split at h
      · next hroom =>
        cases h
        exact ⟨_, compressBody_of_no_room hraces (by omega) (by omega) (by omega) hroom, rfl⟩
      split at h
      · next hunsigned =>
        cases h
        exact ⟨_, compressBody_of_unsigned hraces (by omega) (by omega) (by omega) (by omega) hunsigned, rfl⟩
      · cases h
  obtain ⟨u, hu, hhistory⟩ := hfails
  exact ⟨_, exec_of_failed (i := .compress) hu, ⟨rfl, rfl, rfl, rfl, by simp [failRuleOf, hhistory]⟩, rfl⟩

theorem fits_of_compressCause {s : State} (h : compressCause s = none) :
    s.inLen.toNat ≤ s.params.inSize ∧ s.inLen.toNat < 2 ^ 63 ∧ s.outCap.toNat ≤ s.params.outSize
      ∧ compressPayload s < 2 ^ 31 ∧ containerLen s ≤ s.outCap.toNat := by
  unfold compressCause at h
  split at h
  · cases h
  split at h
  · cases h
  split at h
  · cases h
  split at h
  · cases h
  · omega

section
variable {s s' : State} (hlen : s.inLen = s'.inLen) (hssm : s.ctrl.ssm = s'.ctrl.ssm)
  (hbytes : ∀ a, a < s.inLen.toNat → s.inMem.read a = s'.inMem.read a)
include hlen hssm hbytes

/-- The container is made of the bytes, their number and the mode. -/
theorem container_congr : compressFreq s = compressFreq s' ∧ compressPayload s = compressPayload s'
    ∧ inputBits s = inputBits s' := by
  have hinput : (List.range s.inLen.toNat).map s.inMem.read = (List.range s'.inLen.toNat).map s'.inMem.read := by
    rw [← hlen]
    exact List.map_congr_left fun a ha => hbytes a (List.mem_range.mp ha)
  have hfreq : compressFreq s = compressFreq s' := countBytes_eq_of_perm (.of_eq hinput)
  exact ⟨hfreq, by rw [compressPayload, hfreq, hssm, compressPayload],
    by rw [inputBits, hfreq, hssm, hinput, inputBits]⟩

theorem compressCause_congr (hparams : s.params = s'.params) (hcap : s.outCap = s'.outCap) :
    compressCause s = compressCause s' := by
  obtain ⟨hfreq, hpay, -⟩ := container_congr hlen hssm hbytes
  rw [compressCause, containerLen, hparams, hlen, hcap, hpay, hfreq]
  rfl

/-- Where OUT holds the containers of the same bytes, its bytes agree. -/
theorem HoldsContainer.read_eq {u u' : State} (h : HoldsContainer s u) (h' : HoldsContainer s' u') {a : Nat}
    (ha : a < containerLen s) : u.outMem.read a = u'.outMem.read a := by
  obtain ⟨hfreq, hpay, hbits⟩ := container_congr hlen hssm hbytes
  have hheader' := h'.header
  have hpayload' := h'.payload
  rw [← hfreq, ← hlen, ← hpay] at hheader'
  rw [← hfreq, ← hpay, ← hbits] at hpayload'
  rcases Nat.lt_or_ge a (16 + 9 * entryCount (compressFreq s)) with hlow | hhigh
  · have hin : a < (headerBytes (compressFreq s) s.inLen.toNat (compressPayload s)).length := by
      rwa [length_headerBytes]
    have hbyte := h.header a hin
    rwa [← hheader' a hin, Nat.zero_add] at hbyte
  · rw [containerLen] at ha
    refine BitVec.eq_of_getLsbD_eq fun j hj => ?_
    have hk : 8 * (a - (16 + 9 * entryCount (compressFreq s))) + (7 - j) < 8 * compressPayload s := by omega
    have hbit := (h.payload _ hk).trans (hpayload' _ hk).symm
    have hbyte : 16 + 9 * entryCount (compressFreq s)
        + (8 * (a - (16 + 9 * entryCount (compressFreq s))) + (7 - j)) / 8 = a := by omega
    have hplace : 7 - (8 * (a - (16 + 9 * entryCount (compressFreq s))) + (7 - j)) % 8 = j := by omega
    rwa [streamBit, streamBit, hbyte, hplace] at hbit

end

theorem isProgressList_unique {n : Nat} {ps qs : List Nat} (hps : isProgressList n ps) (hqs : isProgressList n qs) :
    ps = qs := by
  have hanti : Std.Antisymm fun p q : Nat => p < q := ⟨fun _ _ h h' => by omega⟩
  have hirrefl : Std.Irrefl fun p q : Nat => p < q := ⟨Nat.lt_irrefl⟩
  exact hps.1.eq_of_mem_iff hqs.1 fun p => (hps.2 p).trans (hqs.2 p).symm

/-- Settles O52: the first check to fail is that of the input (`compressCause_congr`), and so is the container where
none fails (`HoldsContainer.read_eq`). -/
theorem compressIsDeterministic : Obligations.CompressIsDeterministic := by
  intro s s' t t' hraces hraces' hparams hlen hcap hssm hbytes hexec hexec'
  have hcause := compressCause_congr hlen hssm hbytes hparams hcap
  cases hc : compressCause s with
  | some c =>
    obtain ⟨u, hu, ⟨-, -, -, -, hhistory⟩, hnone⟩ := exec_compress_of_cause hraces.1 hc
    obtain ⟨u', hu', ⟨-, -, -, -, hhistory'⟩, hnone'⟩ := exec_compress_of_cause hraces'.1 (hcause ▸ hc)
    rw [hu] at hexec
    rw [hu'] at hexec'
    cases hexec
    cases hexec'
    refine ⟨hnone.trans hnone'.symm, fun a ha => ?_, [.complete (some c)], by simpa using hhistory,
      by simpa using hhistory'⟩
    rw [hnone] at ha
    exact absurd ha a.not_lt_zero
  | none =>
    obtain ⟨hin, hsigned, hout, hpay, hroom⟩ := fits_of_compressCause hc
    obtain ⟨hin', hsigned', hout', hpay', hroom'⟩ := fits_of_compressCause (hcause ▸ hc)
    obtain ⟨ps, w, m, hps, hu, hholds⟩ := exec_compress_of_fits hraces hin hsigned hout hpay hroom
    obtain ⟨ps', w', m', hps', hu', hholds'⟩ := exec_compress_of_fits hraces' hin' hsigned' hout' hpay' hroom'
    obtain ⟨-, -, hoLen⟩ := compressed_registers hraces.1 hpay (hroom.trans_lt s.outCap.isLt) ps w m
    obtain ⟨-, -, hoLen'⟩ := compressed_registers hraces'.1 hpay' (hroom'.trans_lt s'.outCap.isLt) ps' w' m'
    obtain rfl := isProgressList_unique hps (hlen ▸ hps')
    rw [hu] at hexec
    rw [hu'] at hexec'
    cases hexec
    cases hexec'
    obtain ⟨hfreq, hpayload, -⟩ := container_congr hlen hssm hbytes
    refine ⟨BitVec.eq_of_toNat_eq ?_, fun a ha => hholds.read_eq hlen hssm hbytes hholds' (ha.trans_eq hoLen),
      ps.map Event.progress ++ [.complete none], by simp [compressed], by simp [compressed]⟩
    rw [completeOk_outLen, completeOk_outLen, hoLen, hoLen', containerLen, hfreq, hpayload, containerLen]

end Sys2Proof.Machine
end

section
/-! PROOFS. DECOMPRESS's decoding (45_engine.md R274, R275): the payload's bits as it reads them, the walk of the
tree and the single symbol. -/

namespace Sys2Proof.Machine

open Sys2Proof.Spec

/-! ## The bit reader in a payload -/

/-- The bit reader stands at the first of some bits, with none loaded, and all of them lie in IN. -/
structure Readable (s : State) (bits : List Bool) : Prop where
  rem : s.br.rem = 0
  endPos : s.br.endPos.toNat ≤ s.inLen.toNat
  inLen : s.inLen.toNat ≤ s.params.inSize
  bits_eq : bits = bitsOf (coreRead s firstPass) s.br.pos.toNat (s.br.endPos.toNat - s.br.pos.toNat)

/-- The state once some symbols are out, from OUT[0] on, and the bit reader has moved on. -/
def decoded (s : State) (out : List Byte) (br : BitReader) : State :=
  { s with br := br, outMem := s.outMem.writeList 0 out }

@[simp] theorem decoded_pool (s : State) (out : List Byte) (br : BitReader) : (decoded s out br).pool = s.pool := rfl
@[simp] theorem decoded_br (s : State) (out : List Byte) (br : BitReader) : (decoded s out br).br = br := rfl

/-- The bit reader has read m bits since s, and CAN is as it was. -/
structure AtBit (s : State) (m : Nat) (br : BitReader) : Prop where
  read : HasRead s m (decoded s [] br)
  can : br.can = s.br.can

/-- Where the bit reader stands, in terms of the bits read. -/
theorem AtBit.place {s : State} {m : Nat} {br : BitReader} (h : AtBit s m br) :
    br.pos.toNat = s.br.pos.toNat + ceil8 m ∧ br.rem.val = 8 * ceil8 m - m :=
  ⟨h.read.pos, Nat.eq_sub_of_add_eq h.read.rem⟩

theorem Memory.writeList_concat (m : Memory) (a : Nat) (bs : List Byte) (b : Byte) :
    m.writeList a (bs ++ [b]) = (m.writeList a bs).write (a + bs.length) b := by
  induction bs generalizing m a with
  | nil => rfl
  | cons c bs ih =>
    rw [List.cons_append, Memory.writeList, ih, Memory.writeList, List.length_cons, Nat.add_assoc, Nat.add_comm 1]

/-- The next symbol goes behind the others. -/
theorem storeOut_decoded (s : State) (out : List Byte) (br : BitReader) (sym : Byte) :
    storeOut out.length sym (decoded s out br) = decoded s (out ++ [sym]) br := by
  simp only [decoded, Memory.writeList_concat, Nat.zero_add, storeOut]

@[simp] theorem length_bitsOf (view : Nat → Byte) (pos len : Nat) : (bitsOf view pos len).length = 8 * len := by
  simp [bitsOf]

theorem rdbitBody_can {s u : State} (h : rdbitBody s = .done u) : u.br.can = s.br.can := by
  obtain ⟨-, -, hb⟩ | ⟨-, -, -, hb⟩ | ⟨-, -, -, -, hb⟩ | ⟨k, -, hb⟩ := rdbitBody_cases s <;>
    rw [hb] at h <;> cases h <;> rfl

section
variable {s : State} {bits : List Bool} {m : Nat} {br : BitReader} (hs : Readable s bits)
include hs

theorem Readable.atBit_zero : AtBit s 0 s.br where
  read := hasRead_zero hs.rem
  can := rfl

theorem Readable.length : bits.length = 8 * (s.br.endPos.toNat - s.br.pos.toNat) := by
  rw [hs.bits_eq, length_bitsOf]

variable (h : AtBit s m br) (out : List Byte)
include h

/-- A bit can be read exactly while one is left. -/
theorem AtBit.canRead_iff (hm : m ≤ bits.length) : canRead (decoded s out br) = true ↔ m < bits.length := by
  have hlen := hs.length
  have hpos : br.pos.toNat = s.br.pos.toNat + ceil8 m := h.read.pos
  have hend : br.endPos = s.br.endPos := h.read.endPos
  have hrem : br.rem.val + m = 8 * ceil8 m := h.read.rem
  show decide (0 < br.rem.val ∨ br.pos.toNat < br.endPos.toNat) = true ↔ _
  rw [decide_eq_true_iff, hend, hpos]
  unfold ceil8 at *
  omega

/-- Behind the last bit the bit reader stands at BR_END with no bit left. -/
theorem AtBit.at_end (hm : m = bits.length) (hle : s.br.pos.toNat ≤ s.br.endPos.toNat) :
    br.rem = 0 ∧ br.pos = br.endPos := by
  obtain ⟨hpos, hrem⟩ := h.place
  have hend : br.endPos = s.br.endPos := h.read.endPos
  have hlen := hs.length
  unfold ceil8 at hpos hrem
  exact ⟨Fin.val_eq_zero_iff.mp (by omega), BitVec.eq_of_toNat_eq (by rw [hend]; omega)⟩

end

section
variable {s : State} {bits : List Bool} {m : Nat} {br : BitReader} (hs : Readable s bits)
include hs

/-- LAST_BIT is the last of the bits read. -/
theorem AtBit.lastBit (h : AtBit s (m + 1) br) (hm : m < bits.length) : br.lastBit = bits[m] := by
  have hbit : br.lastBit = br.cur.getLsbD (7 - m % 8) := h.read.lastBit m rfl
  have hcur : br.cur = coreRead s firstPass (s.br.pos.toNat + m / 8) := h.read.cur m rfl
  simp only [hs.bits_eq, bitsOf, List.getElem_map, List.getElem_range, hbit, hcur]

/-- While a bit is left RDBIT reads it. -/
theorem AtBit.rdbit (h : AtBit s m br) (out : List Byte) (hm : m < bits.length) :
    ∃ next, rdbitBody (decoded s out br) = .done (decoded s out next) ∧ AtBit s (m + 1) next := by
  have hlen := hs.length
  have hread : HasRead s m (decoded s out br) :=
    ⟨rfl, rfl, rfl, h.read.endPos, h.read.pos, h.read.rem, h.read.cur, h.read.lastBit⟩
  obtain ⟨next, hbody, hnext⟩ := hread.rdbit hs.endPos hs.inLen (by omega)
  exact ⟨next, hbody, ⟨rfl, rfl, rfl, hnext.endPos, hnext.pos, hnext.rem, hnext.cur, hnext.lastBit⟩,
    (rdbitBody_can hbody).trans h.can⟩

end

/-! ## The walk of the tree (45_engine.md R274) -/

@[simp] theorem decodeSyms_zero (p : Pool) (root : Nat) (bs : List Bool) (node : Nat) :
    decodeSyms p root bs node 0 = some [] := by
  cases bs <;> rfl

/-- One bit leads to a child; at a leaf its symbol is out and the walk begins again at the root. -/
theorem decodeSyms_cons (p : Pool) (root : Nat) (b : Bool) (bs : List Bool) (node n : Nat) :
    decodeSyms p root (b :: bs) node (n + 1) =
      if (nodeAt p (descend p node [b])).isLeaf then
        (decodeSyms p root bs root n).map ((nodeAt p (descend p node [b])).symbol :: ·)
      else decodeSyms p root bs (descend p node [b]) (n + 1) := rfl

theorem length_decodeSyms {p : Pool} {root node n : Nat} {bs : List Bool} {out : List Byte}
    (h : decodeSyms p root bs node n = some out) : out.length = n := by
  induction bs generalizing node n out with
  | nil =>
    cases n with
    | zero => rw [← Option.some.inj h, List.length_nil]
    | succ n => cases h
  | cons b bs ih =>
    cases n with
    | zero => rw [← Option.some.inj h, List.length_nil]
    | succ n =>
      rw [decodeSyms_cons] at h
      split at h
      · obtain ⟨later, hlater, rfl⟩ := Option.map_eq_some_iff.mp h
        rw [List.length_cons, ih hlater]
      · exact ih h

/-- How a walk ends once some symbols are out: the bits spell the others, or they run out. -/
inductive WalkEnds (s : State) (bits : List Bool) (out : List Byte) : Option (List Byte) → CmdResult → Prop
  | spelt {m : Nat} {br : BitReader} (syms : List Byte) (h : AtBit s m br) :
      WalkEnds s bits out (some syms) (.done (decoded s (out ++ syms) br))
  | short {br : BitReader} (more : List Byte) (h : AtBit s bits.length br) :
      WalkEnds s bits out none (.failed .truncated (decoded s more br))

theorem WalkEnds.cons {s : State} {bits : List Bool} {out : List Byte} {sym : Byte} {syms : Option (List Byte)}
    {r : CmdResult} (h : WalkEnds s bits (out ++ [sym]) syms r) : WalkEnds s bits out (syms.map (sym :: ·)) r := by
  cases h with
  | spelt syms h =>
    rw [List.append_assoc]
    exact .spelt (sym :: syms) h
  | short more h => exact .short more h

/-- While a bit is left it leads to a child; at a leaf its symbol goes out and the walk begins again at the root. -/
theorem decodeWalk_of_canRead {root total fuel out node : Nat} {s t : State} (hout : out < total)
    (hcan : canRead s = true) (hbody : rdbitBody s = .done t) :
    decodeWalk root total (fuel + 1) out node s =
      if (nodeAt t.pool (descend t.pool node [t.br.lastBit])).isLeaf then
        decodeWalk root total fuel (out + 1) root
          (storeOut out (nodeAt t.pool (descend t.pool node [t.br.lastBit])).symbol t)
      else decodeWalk root total fuel out (descend t.pool node [t.br.lastBit]) t := by
  rw [decodeWalk, if_pos hout, if_pos hcan, hbody]
  rfl

/-- With all the symbols out the walk ends. -/
theorem walkEnds_of_full {s : State} {bits rest : List Bool} {root total m node fuel : Nat} {br : BitReader}
    {out : List Byte} (h : AtBit s m br) (hfull : out.length = total) :
    WalkEnds s bits out (decodeSyms s.pool root rest node 0)
      (decodeWalk root total (fuel + 1) out.length node (decoded s out br)) := by
  rw [decodeSyms_zero, decodeWalk, if_neg (by omega)]
  simpa using WalkEnds.spelt (bits := bits) (out := out) [] h

section
variable {s : State} {bits : List Bool} (hs : Readable s bits)
include hs

/-- DECOMPRESS's walk is that of the bits that are left. -/
theorem decodeWalk_ends {root total m node n : Nat} {br : BitReader} {out : List Byte} (rest : List Bool)
    (h : AtBit s m br) (hm : m + rest.length = bits.length) (hrest : bits.drop m = rest)
    (htotal : out.length + n = total) :
    WalkEnds s bits out (decodeSyms s.pool root rest node n)
      (decodeWalk root total (rest.length + 1) out.length node (decoded s out br)) := by
  induction rest generalizing m br out node n with
  | nil =>
    cases n with
    | zero => exact walkEnds_of_full h htotal
    | succ n =>
      rw [List.length_nil, Nat.add_zero] at hm
      rw [decodeWalk, if_pos (by omega), if_neg ((not_congr (h.canRead_iff hs out hm.le)).mpr (by omega))]
      exact .short out (hm ▸ h)
  | cons b rest ih =>
    cases n with
    | zero => exact walkEnds_of_full h htotal
    | succ n =>
      rw [List.length_cons] at hm ⊢
      have hlt : m < bits.length := by omega
      obtain ⟨hb, hdrop⟩ := List.cons.inj ((List.drop_eq_getElem_cons hlt).symm.trans hrest)
      obtain ⟨next, hbody, hnext⟩ := h.rdbit hs out hlt
      have hlast : next.lastBit = b := (hnext.lastBit hs hlt).trans hb
      rw [decodeWalk_of_canRead (by omega) ((h.canRead_iff hs out hlt.le).mpr hlt) hbody, decoded_br, decoded_pool,
        hlast, decodeSyms_cons, storeOut_decoded]
      split
      · have hlen (sym : Byte) : (out ++ [sym]).length = out.length + 1 := List.length_append
        have hrun := ih (out := out ++ [(nodeAt s.pool (descend s.pool node [b])).symbol]) (node := root) (n := n) hnext
          (by omega) hdrop (by rw [hlen]; omega)
        rw [hlen] at hrun
        exact hrun.cons
      · exact ih hnext (by omega) hdrop htotal

/-! ## The single symbol (45_engine.md R275) -/

/-- In mode ONE_BIT each bit 0 brings the symbol out once more. -/
theorem decodeOneBit_zeros (sym : Byte) (left : Nat) {k : Nat} (hzeros : ∀ j, j < k → bits[j]? = some false) :
    ∃ next, AtBit s k next
      ∧ decodeOneBit sym (k + left) 0 s = decodeOneBit sym left k (decoded s (List.replicate k sym) next) := by
  induction k generalizing left with
  | zero => exact ⟨s.br, hs.atBit_zero, by rw [Nat.zero_add]; rfl⟩
  | succ k ih =>
    obtain ⟨br, hat, hrun⟩ := ih (left + 1) fun j hj => hzeros j (by omega)
    obtain ⟨hlt, hbit⟩ := List.getElem?_eq_some_iff.mp (hzeros k k.lt_succ_self)
    obtain ⟨next, hbody, hnext⟩ := hat.rdbit hs (List.replicate k sym) hlt
    refine ⟨next, hnext, ?_⟩
    rw [Nat.add_right_comm, Nat.add_assoc, hrun, decodeOneBit, if_pos ((hat.canRead_iff hs _ hlt.le).mpr hlt), hbody,
      CmdResult.bind_done, decoded_br, hnext.lastBit hs hlt, hbit, if_neg Bool.false_ne_true]
    have hstore := storeOut_decoded s (List.replicate k sym) next sym
    rw [List.length_replicate] at hstore
    rw [hstore, List.replicate_succ']

/-- As many bits 0 as symbols bring them all out. -/
theorem decodeOneBit_of_zeros (sym : Byte) {n : Nat} (hzeros : ∀ j, j < n → bits[j]? = some false) :
    ∃ next, AtBit s n next ∧ decodeOneBit sym n 0 s = .done (decoded s (List.replicate n sym) next) :=
  decodeOneBit_zeros hs sym 0 hzeros

/-- Where the bits run out before, the decoding is cut short. -/
theorem decodeOneBit_of_short (sym : Byte) {n : Nat} (hlen : bits.length < n)
    (hzeros : ∀ j, j < bits.length → bits[j]? = some false) :
    ∃ out next, AtBit s bits.length next ∧ decodeOneBit sym n 0 s = .failed .truncated (decoded s out next) := by
  obtain ⟨left, rfl⟩ := Nat.exists_eq_add_of_lt hlen
  obtain ⟨next, hat, hrun⟩ := decodeOneBit_zeros hs sym (left + 1) hzeros
  refine ⟨List.replicate bits.length sym, next, hat, hrun.trans ?_⟩
  rw [decodeOneBit, if_neg ((not_congr (hat.canRead_iff hs _ le_rfl)).mpr (Nat.lt_irrefl _))]

/-- A bit 1 before is no code. -/
theorem decodeOneBit_of_one (sym : Byte) {n k : Nat} (hk : k < n) (hone : bits[k]? = some true)
    (hzeros : ∀ j, j < k → bits[j]? = some false) :
    ∃ out next, AtBit s (k + 1) next ∧ next.lastBit = true
      ∧ decodeOneBit sym n 0 s = .failed .badCode (decoded s out next) := by
  obtain ⟨left, rfl⟩ := Nat.exists_eq_add_of_lt hk
  obtain ⟨br, hat, hrun⟩ := decodeOneBit_zeros hs sym (left + 1) hzeros
  obtain ⟨hlt, hbit⟩ := List.getElem?_eq_some_iff.mp hone
  obtain ⟨next, hbody, hnext⟩ := hat.rdbit hs (List.replicate k sym) hlt
  have hlast := (hnext.lastBit hs hlt).trans hbit
  refine ⟨List.replicate k sym, next, hnext, hlast, hrun.trans ?_⟩
  rw [decodeOneBit, if_pos ((hat.canRead_iff hs _ hlt.le).mpr hlt), hbody, CmdResult.bind_done,
    decoded_br, hlast, if_pos rfl]

end

/-- In mode EMPTY the symbol is brought out over and over, and no bit read. -/
theorem repeatSymbol_eq (sym : Byte) (left : Nat) (out : List Byte) (s : State) (br : BitReader) :
    repeatSymbol sym left out.length (decoded s out br) = decoded s (out ++ List.replicate left sym) br := by
  induction left generalizing out with
  | zero => rw [List.replicate_zero, List.append_nil, repeatSymbol]
  | succ left ih =>
    rw [repeatSymbol, storeOut_decoded, ← List.length_concat, List.concat_eq_append, ih, List.append_assoc]
    rfl

end Sys2Proof.Machine
end

section
/-! PROOFS. DECOMPRESS (45_engine.md R273 to R275): the tables it loads, and how it ends for each table. -/

namespace Sys2Proof.Machine

open Sys2Proof.Spec

/-! ## Before the decoding -/

theorem decompressBody_of_bad_length {s : State}
    (h : s.params.inSize < s.inLen.toNat ∨ s.params.outSize < s.outCap.toNat) :
    decompressBody s = .failed .badArg s := by
  have hbad : inLenBad s = true ∨ outCapBad s = true := h.imp decide_eq_true decide_eq_true
  exact if_pos hbad

/-- A CREAD fails as its body does, and changes nothing. -/
theorem creadBody_of_creadFails {s : State} {c : Cause} (h : creadFails s c) : creadBody s = .failed c s := by
  obtain ⟨t, hexec, -, -, -, -, hhistory⟩ := h
  have hends : ∀ c', creadBody s = .failed c' s → creadBody s = .failed c s := by
    intro c' hbody
    rw [exec_of_failed (i := .cread) hbody] at hexec
    cases hexec
    have hcause : c' = c := by simpa [failRuleOf, failComponent] using hhistory
    exact hcause ▸ hbody
  rcases Nat.lt_or_ge s.params.inSize s.inLen.toNat with hlen | hlen
  · exact hends _ (creadBody_of_len_past hlen)
  · cases hread : readHeader (coreRead s firstPass) s.inLen.toNat with
    | error c' => exact hends c' (creadBody_of_error hlen hread)
    | ok h =>
      rw [exec_of_done (i := .cread) (creadBody_of_ok hlen hread)] at hexec
      cases hexec
      simp [loadHeader] at hhistory

theorem decompressBody_of_creadBody_failed {s : State} {c : Cause} (hcap : s.outCap.toNat ≤ s.params.outSize)
    (h : creadBody s = .failed c s) : decompressBody s = .failed c s := by
  rcases Nat.lt_or_ge s.params.inSize s.inLen.toNat with hlen | hlen
  · rw [creadBody_of_len_past hlen] at h
    cases h
    exact decompressBody_of_bad_length (.inl hlen)
  · have hlegal : ¬ (inLenBad s = true ∨ outCapBad s = true) := by
      simp [inLenBad, outCapBad_eq_false hcap, hlen]
    rw [decompressBody, if_neg hlegal, h, CmdResult.bind_failed]

/-- The state after DECOMPRESS's CREAD and BUILD (45_engine.md R273). -/
def loaded (h : Header) (s : State) : State :=
  { s with
    freq := h.freq
    origLen := BitVec.ofNat 64 h.origLen
    payloadLen := BitVec.ofNat 64 h.payloadLen
    br :=
      { pos := BitVec.ofNat 64 h.pos, endPos := BitVec.ofNat 64 (h.pos + h.payloadLen), cur := 0, rem := 0,
        lastBit := false, can := false }
    codes := symFill Code.absent
    pool := (mergedForest h.freq).pool
    treeInfo := treeInfoOf (mergedForest h.freq) }

/-- The lengths are legal and IN holds a container with the header. -/
structure Container (h : Header) (s : State) : Prop where
  inLen : s.inLen.toNat ≤ s.params.inSize
  outCap : s.outCap.toNat ≤ s.params.outSize
  read : readHeader (coreRead s firstPass) s.inLen.toNat = .ok h

section
variable {h : Header} {s : State} (hs : Container h s)
include hs

/-- The container lies in IN. -/
theorem Container.bounds : h.origLen < 2 ^ 63 ∧ h.pos + h.payloadLen ≤ s.inLen.toNat := by
  have hlegal := legal_of_readHeader_ok hs.read
  obtain rfl := Except.ok.inj ((readHeader_of_legal hlegal).symm.trans hs.read)
  exact ⟨hlegal.origLen, hlegal.payload⟩

/-- No register is too short for what the header says. -/
theorem Container.toNat_loaded :
    (loaded h s).origLen.toNat = h.origLen ∧ (loaded h s).payloadLen.toNat = h.payloadLen
      ∧ (loaded h s).br.pos.toNat = h.pos ∧ (loaded h s).br.endPos.toNat = h.pos + h.payloadLen := by
  obtain ⟨horig, hend⟩ := hs.bounds
  exact toNat_loadHeader s (horig.trans (by norm_num)) (hend.trans_lt s.inLen.isLt)

theorem decompressBody_of_container : decompressBody s = decompressTail (loaded h s) := by
  have hlegal : ¬ (inLenBad s = true ∨ outCapBad s = true) := by
    simp [inLenBad, outCapBad_eq_false hs.outCap, hs.inLen]
  rw [decompressBody, if_neg hlegal, creadBody_of_ok hs.inLen hs.read, CmdResult.bind_done]
  rfl

theorem decompressBody_of_past_cap (hcap : s.outCap.toNat < h.origLen) :
    decompressBody s = .failed .outCapacity (loaded h s) := by
  obtain ⟨horig, -⟩ := hs.toNat_loaded
  rw [decompressBody_of_container hs]
  exact if_pos (horig.symm ▸ hcap)

theorem decompressBody_of_no_symbol (hzero : h.origLen = 0) :
    decompressBody s = .done { loaded h s with outLen := 0 } := by
  obtain ⟨horig, -⟩ := hs.toNat_loaded
  rw [hzero] at horig
  rw [decompressBody_of_container hs, decompressTail, horig]
  rfl

theorem decompressBody_of_symbols (hpos : 0 < h.origLen) (hcap : h.origLen ≤ s.outCap.toNat) :
    decompressBody s
      = (decodeSymbols h.origLen (loaded h s)).bind fun t => .done { t with outLen := BitVec.ofNat 64 h.origLen } := by
  obtain ⟨horig, -⟩ := hs.toNat_loaded
  have hroom : ¬ h.origLen > (loaded h s).outCap.toNat := Nat.not_lt.mpr hcap
  rw [decompressBody_of_container hs, decompressTail, horig, if_neg hroom, if_neg hpos.ne']

/-- The bit reader stands at the payload's first bit. -/
theorem Container.readable : Readable (loaded h s) (bitsOf (coreRead s firstPass) h.pos h.payloadLen) := by
  obtain ⟨-, -, hpos, hend⟩ := hs.toNat_loaded
  refine ⟨rfl, hend.trans_le hs.bounds.2, hs.inLen, ?_⟩
  rw [hpos, hend, Nat.add_sub_cancel_left]
  rfl

/-! ## What a DECOMPRESS leaves -/

variable {m : Nat} {br : BitReader} (hat : AtBit (loaded h s) m br) (out : List Byte)
include hat

/-- The decoding changes neither the tables nor the lengths. -/
theorem Container.loaded_decoded : Loaded h s (decoded (loaded h s) out br) := by
  obtain ⟨horig, hpay, -, hend⟩ := hs.toNat_loaded
  exact ⟨rfl, rfl, rfl, fun sym => symGet_symFill _ sym, horig, hpay, hat.read.endPos ▸ hend, hat.can, rfl, ⟨rfl, rfl⟩,
    ⟨rfl, rfl, rfl, rfl, rfl, rfl, rfl, rfl⟩, fun _ => rfl⟩

theorem Container.exec_of_failed {c : Cause} (hbody : decompressBody s = .failed c (decoded (loaded h s) out br)) :
    ∃ t, exec .decompress s = .next t ∧ Failure c [] s t ∧ t.outLen = 0 ∧ Loaded h s t ∧ t.br = br :=
  ⟨_, Machine.exec_of_failed (i := .decompress) hbody,
    completeFailed_failure c (failEngine (decoded (loaded h s) out br)), rfl, hs.loaded_decoded hat out, rfl⟩

theorem Container.exec_of_done (hlen : out.length = h.origLen)
    (hbody : decompressBody s
      = .done { decoded (loaded h s) out br with outLen := BitVec.ofNat 64 h.origLen }) :
    ∃ t, exec .decompress s = .next t ∧ Success [] s t ∧ t.outLen.toNat = h.origLen ∧ Loaded h s t ∧ t.br = br
      ∧ (∀ k, k < h.origLen → k ∉ s.outTouched → some (t.outMem.read k) = out[k]?)
      ∧ SameOutBut (fun a => a < h.origLen) s t := by
  have hread (k : Nat) (htouched : k ∉ s.outTouched) :
      (completeOk { decoded (loaded h s) out br with outLen := BitVec.ofNat 64 h.origLen }).outMem.read k
        = (s.outMem.writeList 0 out).read k := Memory.read_scrambleAt _ _ _ _ htouched
  refine ⟨_, Machine.exec_of_done (i := .decompress) hbody,
    completeOk_success { decoded (loaded h s) out br with outLen := BitVec.ofNat 64 h.origLen },
    hs.toNat_loaded.1, hs.loaded_decoded hat out, rfl, fun k hk htouched => ?_, fun a ha htouched => ?_⟩
  · have hin : k < out.length := hlen ▸ hk
    rw [hread k htouched, List.getElem?_eq_getElem hin, ← holdsBytes_writeList s.outMem 0 out k hin, Nat.zero_add]
  · rw [hread a htouched, Memory.read_writeList_outside _ _ (.inr (by omega))]

end

/-! ## The trees of small tables, and of the others -/

/-- A table of one entry has the one leaf as its tree. -/
theorem mergedForest_of_single {freq : SymTable Word} {sym : Byte} {count : Word} (h : entries freq = [(sym, count)]) :
    (treeInfoOf (mergedForest freq)).rootValid = true ∧ (treeInfoOf (mergedForest freq)).root.toNat = 0
      ∧ nodeAt (mergedForest freq).pool 0 = leafNode (sym, count) := by
  have hcount : entryCount freq = 1 := by rw [entryCount, h, List.length_singleton]
  have hpos : 0 < entryCount freq := by omega
  refine ⟨(rootValid_mergedForest freq).mpr hpos, ?_, ?_⟩
  · rw [treeInfoOf_mergedForest hpos, hcount]
    rfl
  · rw [nodeAt_mergedForest hpos]
    simp only [h, List.getElem_cons_zero]

/-- The root of a table of two entries or more joins two nodes. -/
theorem mergedForest_of_two_le {freq : SymTable Word} (h : 2 ≤ entryCount freq) :
    (treeInfoOf (mergedForest freq)).rootValid = true
      ∧ (nodeAt (mergedForest freq).pool (treeInfoOf (mergedForest freq)).root.toNat).isLeaf = false := by
  have hpos : 0 < entryCount freq := by omega
  have hle := entryCount_le freq
  have hroot : (treeInfoOf (mergedForest freq)).root.toNat = 2 * entryCount freq - 2 := by
    rw [treeInfoOf_mergedForest hpos]
    exact Nat.mod_eq_of_lt (by omega)
  refine ⟨(rootValid_mergedForest freq).mpr hpos, Bool.eq_false_iff.mpr ?_⟩
  rw [hroot, ne_eq, isLeaf_mergedForest_iff (by rw [length_pool_mergedForest hpos]; omega)]
  omega

section
variable {h : Header} {s : State} {total : Nat}

theorem decodeSymbols_of_no_entry (hnone : entryCount h.freq = 0) :
    decodeSymbols total (loaded h s) = .failed .noTree (loaded h s) := by
  have hroot : ¬ (treeInfoOf (mergedForest h.freq)).rootValid = true := by
    rw [rootValid_mergedForest, hnone]
    exact Nat.lt_irrefl 0
  exact if_neg hroot

theorem decodeSymbols_of_single {sym : Byte} {count : Word} (hone : entries h.freq = [(sym, count)]) :
    decodeSymbols total (loaded h s) =
      if s.ctrl.ssm then decodeOneBit sym total 0 (loaded h s)
      else .done (decoded (loaded h s) (List.replicate total sym) (loaded h s).br) := by
  obtain ⟨hvalid, hroot, hnode⟩ := mergedForest_of_single hone
  have hvalid' : (loaded h s).treeInfo.rootValid = true := hvalid
  have hroot' : (loaded h s).treeInfo.root.toNat = 0 := hroot
  have hnode' : nodeAt (loaded h s).pool 0 = leafNode (sym, count) := hnode
  have hrepeat := repeatSymbol_eq sym total [] (loaded h s) (loaded h s).br
  rw [List.nil_append] at hrepeat
  rw [decodeSymbols, if_pos hvalid', hroot', hnode', ← hrepeat]
  rfl

theorem decodeSymbols_of_two_le (htwo : 2 ≤ entryCount h.freq) :
    decodeSymbols total (loaded h s)
      = decodeWalk (treeInfoOf (mergedForest h.freq)).root.toNat total (unreadBits (loaded h s) + 1) 0
          (treeInfoOf (mergedForest h.freq)).root.toNat (loaded h s) := by
  obtain ⟨hvalid, hinner⟩ := mergedForest_of_two_le htwo
  have hvalid' : (loaded h s).treeInfo.rootValid = true := hvalid
  have hinner' : ¬ (nodeAt (loaded h s).pool (loaded h s).treeInfo.root.toNat).isLeaf = true :=
    Bool.eq_false_iff.mp hinner
  rw [decodeSymbols, if_pos hvalid', if_neg hinner']
  rfl

end

/-! ## The outcomes of the decoding -/

section
variable {h : Header} {s : State} (hs : Container h s) (hpos : 0 < h.origLen) (hcap : h.origLen ≤ s.outCap.toNat)
  {m : Nat} {br : BitReader} (hat : AtBit (loaded h s) m br) {out : List Byte}
include hs hpos hcap hat

theorem Container.exec_of_decoded (hlen : out.length = h.origLen)
    (hdec : decodeSymbols h.origLen (loaded h s) = .done (decoded (loaded h s) out br)) :
    ∃ t, exec .decompress s = .next t ∧ Success [] s t ∧ t.outLen.toNat = h.origLen ∧ Loaded h s t ∧ t.br = br
      ∧ (∀ k, k < h.origLen → k ∉ s.outTouched → some (t.outMem.read k) = out[k]?)
      ∧ SameOutBut (fun a => a < h.origLen) s t :=
  hs.exec_of_done hat out hlen (by rw [decompressBody_of_symbols hs hpos hcap, hdec, CmdResult.bind_done])

theorem Container.exec_of_undecodable {c : Cause}
    (hdec : decodeSymbols h.origLen (loaded h s) = .failed c (decoded (loaded h s) out br)) :
    ∃ t, exec .decompress s = .next t ∧ Failure c [] s t ∧ t.outLen = 0 ∧ Loaded h s t ∧ t.br = br :=
  hs.exec_of_failed hat out (by rw [decompressBody_of_symbols hs hpos hcap, hdec, CmdResult.bind_failed])

end

section
variable {h : Header} {s : State} (hs : Container h s)
include hs

theorem Container.unreadPayload {t : State} (ht : t.br = (loaded h s).br) : UnreadPayload h t := by
  obtain ⟨-, -, hpos, -⟩ := hs.toNat_loaded
  rw [UnreadPayload, ht]
  exact ⟨hpos, rfl, rfl, rfl⟩

theorem Container.pos_le_endPos : (loaded h s).br.pos.toNat ≤ (loaded h s).br.endPos.toNat := by
  obtain ⟨-, -, hpos, hend⟩ := hs.toNat_loaded
  omega

/-- Before any bit is read the bit reader is as CREAD left it. -/
theorem Container.atBit_zero : AtBit (loaded h s) 0 (loaded h s).br := hs.readable.atBit_zero

end

/-! ## The command for each table and payload -/

section
variable {h : Header} {s : State} (hs : Container h s)
include hs

theorem exec_decompress_of_past_cap (hcap : s.outCap.toNat < h.origLen) :
    ∃ t, exec .decompress s = .next t ∧ Failure .outCapacity [] s t ∧ t.outLen = 0 ∧ Loaded h s t
      ∧ UnreadPayload h t := by
  obtain ⟨t, hexec, hfail, hlen, hload, hbr⟩ :=
    hs.exec_of_failed hs.atBit_zero [] (decompressBody_of_past_cap hs hcap)
  exact ⟨t, hexec, hfail, hlen, hload, hs.unreadPayload hbr⟩

theorem exec_decompress_of_no_symbol (hzero : h.origLen = 0) :
    ∃ t, exec .decompress s = .next t ∧ Success [] s t ∧ t.outLen = 0 ∧ Loaded h s t ∧ UnreadPayload h t
      ∧ SameOut s t := by
  have hbody : decompressBody s
      = .done { decoded (loaded h s) [] (loaded h s).br with outLen := BitVec.ofNat 64 h.origLen } := by
    rw [decompressBody_of_no_symbol hs hzero, hzero]
    rfl
  obtain ⟨t, hexec, hsuccess, hlen, hload, hbr, -, hout⟩ := hs.exec_of_done hs.atBit_zero [] hzero.symm hbody
  rw [hzero] at hlen
  exact ⟨t, hexec, hsuccess, BitVec.eq_of_toNat_eq hlen, hload, hs.unreadPayload hbr,
    fun a _ htouched => hout a (by omega) htouched⟩

variable (hpos : 0 < h.origLen) (hcap : h.origLen ≤ s.outCap.toNat)
include hpos hcap

theorem exec_decompress_of_no_entry (hnone : entryCount h.freq = 0) :
    ∃ t, exec .decompress s = .next t ∧ Failure .noTree [] s t ∧ t.outLen = 0 ∧ Loaded h s t ∧ UnreadPayload h t := by
  obtain ⟨t, hexec, hfail, hlen, hload, hbr⟩ :=
    hs.exec_of_undecodable hpos hcap hs.atBit_zero (out := []) (decodeSymbols_of_no_entry hnone)
  exact ⟨t, hexec, hfail, hlen, hload, hs.unreadPayload hbr⟩

variable {sym : Byte} {count : Word} (hone : entries h.freq = [(sym, count)])
include hone

theorem exec_decompress_empty (hssm : s.ctrl.ssm = false) :
    ∃ t, exec .decompress s = .next t ∧ Success [] s t ∧ t.outLen.toNat = h.origLen ∧ Loaded h s t
      ∧ UnreadPayload h t ∧ (∀ k, k < h.origLen → k ∉ s.outTouched → t.outMem.read k = sym)
      ∧ SameOutBut (fun a => a < h.origLen) s t := by
  have hdec := decodeSymbols_of_single (s := s) (total := h.origLen) hone
  rw [hssm, if_neg Bool.false_ne_true] at hdec
  obtain ⟨t, hexec, hsuccess, hlen, hload, hbr, hread, hout⟩ :=
    hs.exec_of_decoded hpos hcap hs.atBit_zero List.length_replicate hdec
  refine ⟨t, hexec, hsuccess, hlen, hload, hs.unreadPayload hbr, fun k hk htouched => ?_, hout⟩
  simpa [hk] using hread k hk htouched

variable (hssm : s.ctrl.ssm = true)
include hssm

theorem exec_decompress_of_zeros
    (hzeros : ∀ k, k < h.origLen → (bitsOf (coreRead s firstPass) h.pos h.payloadLen)[k]? = some false) :
    ∃ t, exec .decompress s = .next t ∧ Success [] s t ∧ t.outLen.toNat = h.origLen ∧ Loaded h s t
      ∧ t.br.pos.toNat = h.pos + ceil8 h.origLen ∧ t.br.rem.val = 8 * ceil8 h.origLen - h.origLen
      ∧ t.br.lastBit = false ∧ (∀ k, k < h.origLen → k ∉ s.outTouched → t.outMem.read k = sym)
      ∧ SameOutBut (fun a => a < h.origLen) s t := by
  have hsingle := decodeSymbols_of_single (s := s) (total := h.origLen) hone
  obtain ⟨next, hat, hdec⟩ := decodeOneBit_of_zeros hs.readable sym hzeros
  rw [if_pos hssm, hdec] at hsingle
  obtain ⟨t, hexec, hsuccess, houtLen, hload, rfl, hread, hout⟩ :=
    hs.exec_of_decoded hpos hcap hat List.length_replicate hsingle
  obtain ⟨hbrPos, hrem⟩ := hat.place
  obtain ⟨-, -, hstart, -⟩ := hs.toNat_loaded
  obtain ⟨k, hk⟩ := Nat.exists_eq_add_one.mpr hpos
  obtain ⟨hlt, hbit⟩ := List.getElem?_eq_some_iff.mp (hzeros k (by omega))
  refine ⟨t, hexec, hsuccess, houtLen, hload, hstart ▸ hbrPos, hrem, ?_, fun k hk htouched => ?_, hout⟩
  · rw [hk] at hat
    exact (hat.lastBit hs.readable hlt).trans hbit
  · simpa [hk] using hread k hk htouched

theorem exec_decompress_of_short (hlen : 8 * h.payloadLen < h.origLen)
    (hzeros : ∀ k, k < 8 * h.payloadLen → (bitsOf (coreRead s firstPass) h.pos h.payloadLen)[k]? = some false) :
    ∃ t, exec .decompress s = .next t ∧ Failure .truncated [] s t ∧ t.outLen = 0 ∧ Loaded h s t
      ∧ t.br.pos = t.br.endPos ∧ t.br.rem = 0 := by
  have hsingle := decodeSymbols_of_single (s := s) (total := h.origLen) hone
  rw [← length_bitsOf (coreRead s firstPass) h.pos h.payloadLen] at hlen hzeros
  obtain ⟨out, next, hat, hdec⟩ := decodeOneBit_of_short hs.readable sym hlen hzeros
  rw [if_pos hssm, hdec] at hsingle
  obtain ⟨t, hexec, hfail, houtLen, hload, rfl⟩ := hs.exec_of_undecodable hpos hcap hat hsingle
  obtain ⟨hrem, hend⟩ := hat.at_end hs.readable rfl hs.pos_le_endPos
  exact ⟨t, hexec, hfail, houtLen, hload, hend, hrem⟩

theorem exec_decompress_of_one {k : Nat} (hk : k < h.origLen)
    (hbit : (bitsOf (coreRead s firstPass) h.pos h.payloadLen)[k]? = some true)
    (hzeros : ∀ j, j < k → (bitsOf (coreRead s firstPass) h.pos h.payloadLen)[j]? = some false) :
    ∃ t, exec .decompress s = .next t ∧ Failure .badCode [] s t ∧ t.outLen = 0 ∧ Loaded h s t
      ∧ t.br.pos.toNat = h.pos + k / 8 + 1 ∧ t.br.rem.val = 7 - k % 8 ∧ t.br.lastBit = true := by
  have hsingle := decodeSymbols_of_single (s := s) (total := h.origLen) hone
  obtain ⟨out, next, hat, hlast, hdec⟩ := decodeOneBit_of_one hs.readable sym hk hbit hzeros
  rw [if_pos hssm, hdec] at hsingle
  obtain ⟨t, hexec, hfail, houtLen, hload, rfl⟩ := hs.exec_of_undecodable hpos hcap hat hsingle
  obtain ⟨hbrPos, hrem⟩ := hat.place
  obtain ⟨-, -, hstart, -⟩ := hs.toNat_loaded
  rw [ceil8_add_one] at hbrPos hrem
  exact ⟨t, hexec, hfail, houtLen, hload, by omega, by omega, hlast⟩

end

/-- Settles O54: DECOMPRESS's checks before the decoding (`decompressBody_of_bad_length`,
`decompressBody_of_creadBody_failed`), and then a lemma for each table and payload. -/
theorem decompressOfSmallTables : Obligations.DecompressOfSmallTables := by
  intro s
  have hfails {c : Cause} (hbody : decompressBody s = .failed c s) :
      ∃ t, exec .decompress s = .next t ∧ Failure c [] s t ∧ t.outLen = 0 ∧ SameCodecButOutLen s t ∧ SameHost s t
        ∧ SameIn s t :=
    ⟨_, exec_of_failed (i := .decompress) hbody, completeFailed_failure c (failEngine s), rfl,
      (completeFailed_sameCodec c (failEngine s)).1, completeFailed_sameHost c (failEngine s), fun _ => rfl⟩
  refine ⟨fun hbad => hfails (decompressBody_of_bad_length hbad),
    fun hcap c hc => hfails (decompressBody_of_creadBody_failed hcap (creadBody_of_creadFails hc)),
    fun h hlen hcap hread => ?_⟩
  have hs : Container h s := ⟨hlen, hcap, hread⟩
  exact ⟨exec_decompress_of_past_cap hs, exec_decompress_of_no_symbol hs, exec_decompress_of_no_entry hs,
    fun _ _ hpos hroom hone => ⟨exec_decompress_empty hs hpos hroom hone,
      fun hssm _ => exec_decompress_of_zeros hs hpos hroom hone hssm, exec_decompress_of_short hs hpos hroom hone,
      fun hssm _ => exec_decompress_of_one hs hpos hroom hone hssm⟩⟩

/-- With two entries or more the decoding is the walk by the payload's bits. -/
theorem Container.decodeSymbols_ends {h : Header} {s : State} (hs : Container h s) (htwo : 2 ≤ entryCount h.freq) :
    WalkEnds (loaded h s) (bitsOf (coreRead s firstPass) h.pos h.payloadLen) []
      (decodeSyms (mergedForest h.freq).pool (treeInfoOf (mergedForest h.freq)).root.toNat
        (bitsOf (coreRead s firstPass) h.pos h.payloadLen) (treeInfoOf (mergedForest h.freq)).root.toNat h.origLen)
      (decodeSymbols h.origLen (loaded h s)) := by
  have hunread : unreadBits (loaded h s) = (bitsOf (coreRead s firstPass) h.pos h.payloadLen).length :=
    (Nat.zero_add _).trans hs.readable.length.symm
  rw [decodeSymbols_of_two_le htwo, hunread]
  exact decodeWalk_ends hs.readable _ hs.atBit_zero (Nat.zero_add _) rfl (Nat.zero_add _)

/-- Settles O53: DECOMPRESS's walk is that of the payload's bits (`Container.decodeSymbols_ends`). -/
theorem decompressWalksTheTree : Obligations.DecompressWalksTheTree := by
  rintro s h f r hlen hcap hread rfl htwo hpos hroom hr
  have hs : Container h s := ⟨hlen, hcap, hread⟩
  have hends := hs.decodeSymbols_ends htwo
  rw [← hr] at hends
  generalize hdec : decodeSymbols h.origLen (loaded h s) = d at hends
  cases hends with
  | spelt syms hat =>
    obtain ⟨t, hexec, hsuccess, houtLen, hload, -, hout, hother⟩ :=
      hs.exec_of_decoded hpos hroom hat (length_decodeSyms hr.symm) hdec
    obtain ⟨hfreq, hpool, htree, hcodes, horig, hpay, -, -, hwriter, hprogress, hhost, hin⟩ := hload
    refine ⟨t, hexec, hfreq, hpool, htree, hcodes, horig, hpay, hwriter, hprogress, hhost, hin, ?_, nofun⟩
    rintro out ⟨rfl⟩
    exact ⟨hsuccess, houtLen, hout, hother⟩
  | short more hat =>
    obtain ⟨t, hexec, hfail, houtLen, hload, rfl⟩ := hs.exec_of_undecodable hpos hroom hat hdec
    obtain ⟨hfreq, hpool, htree, hcodes, horig, hpay, -, -, hwriter, hprogress, hhost, hin⟩ := hload
    exact ⟨t, hexec, hfreq, hpool, htree, hcodes, horig, hpay, hwriter, hprogress, hhost, hin, nofun,
      fun _ => ⟨hfail, houtLen, hat.at_end hs.readable rfl hs.pos_le_endPos⟩⟩

end Sys2Proof.Machine
end

section
/-! PROOFS. DECOMPRESS of what COMPRESS wrote (45_engine.md R279). -/

namespace Sys2Proof.Machine

open Sys2Proof.Spec

/-! ## Decoding the codes of some symbols -/

/-- The walk along what is left of a leaf's path brings out its symbol. -/
theorem decodeSyms_append_leafPath {p : Pool} {root n : Nat} {path bs : List Bool} {sym : Byte}
    (h : IsLeafPath p root (path ++ bs) sym) (hne : bs ≠ []) (rest : List Bool) :
    decodeSyms p root (bs ++ rest) (descend p root path) (n + 1) = (decodeSyms p root rest root n).map (sym :: ·) := by
  induction bs generalizing path with
  | nil => exact absurd rfl hne
  | cons b bs ih =>
    rw [List.append_cons] at h
    rw [List.cons_append, decodeSyms_cons, ← descend_append]
    rcases List.eq_nil_or_concat' bs with rfl | ⟨init, last, hbs⟩
    · rw [List.append_nil] at h
      obtain ⟨-, hleaf, hsym⟩ := h
      rw [if_pos hleaf, hsym, List.nil_append]
    · have hinner : ¬ (nodeAt p (descend p root (path ++ [b]))).isLeaf = true := by
        intro hleaf
        have hend := h.1.eq_of_prefix_of_isLeaf (List.prefix_append _ _) hleaf
        simp [hbs] at hend
      rw [if_neg hinner, ih h (by simp [hbs])]

/-- Where every symbol's code is the path to its leaf, the codes of some symbols spell them. -/
theorem decodeSyms_codeBits {p : Pool} {root : Nat} {codes : SymTable Code} {bs : List Byte}
    (hinner : (nodeAt p root).isLeaf = false) (hcodes : ∀ b ∈ bs, IsLeafPath p root (symGet codes b).toBits b)
    (rest : List Bool) : decodeSyms p root (codeBits codes bs ++ rest) root bs.length = some bs := by
  induction bs with
  | nil => exact decodeSyms_zero ..
  | cons b bs ih =>
    obtain ⟨hb, hbs⟩ := List.forall_mem_cons.mp hcodes
    have hne : (symGet codes b).toBits ≠ [] := by
      intro hnil
      rw [hnil] at hb
      exact Bool.false_ne_true (hinner.symm.trans hb.2.1)
    have hwalk := decodeSyms_append_leafPath (path := []) (bs := (symGet codes b).toBits) (n := bs.length) hb hne
      (codeBits codes bs ++ rest)
    rw [descend_nil] at hwalk
    rw [codeBits_cons, List.append_assoc, List.length_cons, hwalk, ih hbs, Option.map_some]

/-! ## The codes of a table's tree -/

section
variable {freq : SymTable Word} {sym : Byte}

theorem rooted_mergedForest (h : 0 < entryCount freq) :
    Rooted (mergedForest freq).pool (treeInfoOf (mergedForest freq)).root.toNat :=
  State.TreeOk.rooted (s := buildBody { State.reset with freq := freq }) (treeOk_mergedForest freq)
    ((rootValid_mergedForest freq).mpr h)

theorem hasLeaf_mergedForest (h : symGet freq sym ≠ 0) : hasLeaf (mergedForest freq).pool sym := by
  have hpos := entryCount_pos_iff.mpr ⟨sym, h⟩
  obtain ⟨e, he, rfl⟩ := List.mem_map.mp (mem_entries_symbols.mpr h)
  obtain ⟨i, hi, rfl⟩ := List.getElem_of_mem he
  have hlt : i < entryCount freq := hi
  refine ⟨i, by rw [length_pool_mergedForest hpos]; omega, ?_, ?_⟩ <;> rw [nodeAt_mergedForest hi] <;> rfl

/-- With two entries or more, the code of a symbol that occurs is the path to its leaf. -/
theorem leafPath_codesOf (htwo : 2 ≤ entryCount freq) (ssm : Bool) (h : symGet freq sym ≠ 0) :
    IsLeafPath (mergedForest freq).pool (treeInfoOf (mergedForest freq)).root.toNat
      (symGet (codesOf freq ssm) sym).toBits sym := by
  obtain ⟨hroot, hinner⟩ := mergedForest_of_two_le htwo
  have hrooted := rooted_mergedForest (freq := freq) (by omega)
  rw [codesOf, genCodes_of_internal hroot hinner]
  exact (hrooted.isPathTo_iff.mp (hrooted.codesOf_walk.1 sym (hasLeaf_mergedForest h))).2

/-- In mode ONE_BIT the code of the one symbol is the bit 0. -/
theorem toBits_codesOf_of_single {count : Word} (hone : entries freq = [(sym, count)]) :
    (symGet (codesOf freq true) sym).toBits = [false] := by
  obtain ⟨hvalid, hroot, hnode⟩ := mergedForest_of_single hone
  have hleaf : (nodeAt (mergedForest freq).pool (treeInfoOf (mergedForest freq)).root.toNat).isLeaf = true := by
    rw [hroot, hnode]
    rfl
  rw [codesOf, genCodes_of_isLeaf hvalid hleaf, hroot, hnode]
  exact (congrArg Code.toBits (symGet_symSet_same ..)).trans (toBits_ofBits [false] (by decide))

end

/-! ## The container of an input -/

/-- The first bits of a payload that holds some bits are those. -/
theorem bitsOf_eq_append {m : Memory} {pos len : Nat} {bits : List Bool} (hlen : bits.length ≤ 8 * len)
    (h : ∀ k, k < 8 * len → streamBit m pos k = bits.getD k false) :
    ∃ rest, bitsOf m.read pos len = bits ++ rest := by
  refine ⟨(bitsOf m.read pos len).drop bits.length, ?_⟩
  have htake : (bitsOf m.read pos len).take bits.length = bits := by
    refine List.ext_getElem (by simpa using hlen) fun k _ hk => ?_
    have hbit := h k (by omega)
    rw [List.getD_eq_getElem _ _ hk] at hbit
    simpa [bitsOf, streamBit] using hbit
  have hsplit := List.take_append_drop bits.length (bitsOf m.read pos len)
  rw [htake] at hsplit
  exact hsplit.symm

/-- The header of an input's container. -/
def inputHeader (s : State) : Header :=
  { freq := compressFreq s
    origLen := s.inLen.toNat
    payloadLen := compressPayload s
    pos := 16 + 9 * entryCount (compressFreq s) }

theorem symGet_compressFreq_ne_zero_iff (s : State) (sym : Byte) :
    symGet (compressFreq s) sym ≠ 0 ↔ sym ∈ (List.range s.inLen.toNat).map s.inMem.read :=
  symGet_countBytes_ne_zero_iff _ s.inLen.isLt sym

theorem symGet_compressFreq_le (s : State) (sym : Byte) : (symGet (compressFreq s) sym).toNat ≤ s.inLen.toNat := by
  rw [compressFreq, toNat_symGet_countBytes _ s.inLen.isLt]
  simpa using List.count_le_length (l := (List.range s.inLen.toNat).map s.inMem.read) (a := sym)

section
variable {s t u : State} (hsigned : s.inLen.toNat < 2 ^ 63) (hpay : compressPayload s < 2 ^ 31)
  (hholds : HoldsContainer s t) (hraces : u.inRaces = [])
  (hbytes : ∀ a, a < containerLen s → u.inMem.read a = t.outMem.read a)
include hholds hraces hbytes

/-- Where IN holds the container, the payload begins with the codes of the input. -/
theorem payload_eq_append :
    ∃ rest, bitsOf (coreRead u firstPass) (inputHeader s).pos (inputHeader s).payloadLen = inputBits s ++ rest := by
  rw [coreRead_no_races u _ hraces]
  refine bitsOf_eq_append ?_ fun k hk => ?_
  · exact (le_eight_mul_ceil8 _).trans_eq (congrArg (8 * ·) (ceil8_length_inputBits s))
  · have hin : 16 + 9 * entryCount (compressFreq s) + k / 8 < containerLen s := by
      have hk' : k < 8 * compressPayload s := hk
      rw [containerLen]
      omega
    rw [← hholds.payload k hk, streamBit, streamBit, inputHeader, hbytes _ hin]

include hsigned hpay

/-- Where IN holds the container, CREAD reads its header. -/
theorem container_of_holdsContainer (hlen : u.inLen.toNat = containerLen s) (hin : u.inLen.toNat ≤ u.params.inSize)
    (hcap : u.outCap.toNat ≤ u.params.outSize) : Container (inputHeader s) u := by
  refine ⟨hin, hcap, ?_⟩
  rw [coreRead_no_races u _ hraces]
  have hheader : HoldsBytes u.inMem.read 0 (headerBytes (compressFreq s) s.inLen.toNat (compressPayload s)) := by
    intro i hi
    rw [hbytes, hholds.header i hi]
    rw [length_headerBytes, headerLen] at hi
    rw [containerLen]
    omega
  obtain ⟨hlegal, hat⟩ := legal_of_holdsHeader (inLen := u.inLen.toNat)
    (holdsHeader_of_holdsBytes (s.inLen.isLt.trans_eq (by norm_num)) (by omega) hheader)
    (fun sym => (symGet_compressFreq_le s sym).trans_lt hsigned) hsigned hpay hlen.ge
  rw [readHeader_of_legal hlegal, hat]
  rfl

end

/-! ## DECOMPRESS of the container -/

/-- DECOMPRESS succeeds, with the lengths and the table of the container, and gives the input of s back. -/
def GivesBack (s u : State) : Prop :=
  ∃ w, exec .decompress u = .next w ∧ Success [] u w ∧ w.outLen.toNat = s.inLen.toNat ∧ w.freq = compressFreq s
    ∧ w.origLen.toNat = s.inLen.toNat ∧ w.payloadLen.toNat = compressPayload s
    ∧ ∀ a, a < s.inLen.toNat → w.outMem.read a = s.inMem.read a

section
variable {s u : State} (hs : Container (inputHeader s) u)
include hs

theorem givesBack_of_empty (hzero : s.inLen.toNat = 0) : GivesBack s u := by
  obtain ⟨w, hexec, hsuccess, hlen, ⟨hfreq, -, -, -, horig, hpay, -⟩, -⟩ := exec_decompress_of_no_symbol hs hzero
  exact ⟨w, hexec, hsuccess, by rw [hlen, hzero]; rfl, hfreq, horig, hpay, fun a ha => by omega⟩

variable (htouched : u.outTouched = []) (hpos : 0 < s.inLen.toNat) (hcap : s.inLen.toNat ≤ u.outCap.toNat)
  {rest : List Bool}
  (hbits : bitsOf (coreRead u firstPass) (inputHeader s).pos (inputHeader s).payloadLen = inputBits s ++ rest)
include htouched hpos hcap hbits

/-- Two symbols or more: the codes in the payload spell the input. -/
theorem givesBack_of_two_le (htwo : 2 ≤ entryCount (compressFreq s)) : GivesBack s u := by
  have hspells := decodeSyms_codeBits (bs := (List.range s.inLen.toNat).map s.inMem.read)
    (mergedForest_of_two_le htwo).2
    (fun b hb => leafPath_codesOf htwo s.ctrl.ssm ((symGet_compressFreq_ne_zero_iff s b).mpr hb)) rest
  rw [List.length_map, List.length_range, ← inputBits, ← hbits] at hspells
  obtain ⟨w, hexec, hfreq, -, -, -, horig, hpay, -, -, -, -, hdone, -⟩ := decompressWalksTheTree u (inputHeader s) _ _
    hs.inLen hs.outCap hs.read rfl htwo hpos hcap rfl
  obtain ⟨hsuccess, hlen, hread, -⟩ := hdone _ hspells
  refine ⟨w, hexec, hsuccess, hlen, hfreq, horig, hpay, fun a ha => ?_⟩
  simpa [ha] using hread a ha (by simp [htouched])

/-- One symbol: every byte of the input is it, and in mode ONE_BIT the payload holds a bit 0 for each. -/
theorem givesBack_of_single {sym : Byte} {count : Word} (hone : entries (compressFreq s) = [(sym, count)])
    (hssm : u.ctrl.ssm = s.ctrl.ssm) : GivesBack s u := by
  have hall (b : Byte) (hb : b ∈ (List.range s.inLen.toNat).map s.inMem.read) : b = sym := by
    have hmem := mem_entries_symbols.mpr ((symGet_compressFreq_ne_zero_iff s b).mpr hb)
    simpa [hone] using hmem
  have hinput : (List.range s.inLen.toNat).map s.inMem.read = List.replicate s.inLen.toNat sym :=
    List.eq_replicate_iff.mpr ⟨by simp, hall⟩
  have hback {w : State} (hexec : exec .decompress u = .next w) (hsuccess : Success [] u w)
      (hlen : w.outLen.toNat = s.inLen.toNat) (hload : Loaded (inputHeader s) u w)
      (hread : ∀ k, k < s.inLen.toNat → k ∉ u.outTouched → w.outMem.read k = sym) : GivesBack s u := by
    obtain ⟨hfreq, -, -, -, horig, hpay, -⟩ := hload
    refine ⟨w, hexec, hsuccess, hlen, hfreq, horig, hpay, fun a ha => ?_⟩
    rw [hread a ha (by simp [htouched]), hall _ (List.mem_map_of_mem (List.mem_range.mpr ha))]
  cases hmode : u.ctrl.ssm with
  | false =>
    obtain ⟨w, hexec, hsuccess, hlen, hload, -, hread, -⟩ := exec_decompress_empty hs hpos hcap hone hmode
    exact hback hexec hsuccess hlen hload hread
  | true =>
    have hzeros : inputBits s = List.replicate s.inLen.toNat false := by
      rw [inputBits, hinput, ← hssm, hmode, codeBits, List.flatMap_replicate, toBits_codesOf_of_single hone]
      simp
    have hzero : ∀ k, k < s.inLen.toNat →
        (bitsOf (coreRead u firstPass) (inputHeader s).pos (inputHeader s).payloadLen)[k]? = some false := by
      intro k hk
      rw [hbits, hzeros, List.getElem?_append_left (by simpa using hk), List.getElem?_replicate_of_lt hk]
    obtain ⟨w, hexec, hsuccess, hlen, hload, -, -, -, hread, -⟩ :=
      exec_decompress_of_zeros hs hpos hcap hone hmode hzero
    exact hback hexec hsuccess hlen hload hread

end

/-- A COMPRESS that succeeds has passed every check. -/
theorem compressCause_of_success {s t : State} {ps : List Nat} (hraces : s.inRaces = [])
    (hexec : exec .compress s = .next t) (hsuccess : Success ps s t) : compressCause s = none := by
  cases hcause : compressCause s with
  | none => rfl
  | some c =>
    obtain ⟨t', hexec', ⟨-, -, -, -, hfailed⟩, -⟩ := exec_compress_of_cause hraces hcause
    rw [hexec'] at hexec
    cases hexec
    obtain ⟨-, -, -, -, hdone⟩ := hsuccess
    simpa using List.append_inj_right' (hfailed.symm.trans hdone) rfl

/-- Settles O55: CREAD reads the container's header (`container_of_holdsContainer`), the payload begins with the codes
of the input (`payload_eq_append`), and DECOMPRESS gives it back, whether it is empty, of one symbol or of more. -/
theorem compressThenDecompressRoundTrips : Obligations.CompressThenDecompressRoundTrips := by
  intro s t u ps hraces _ hexec hsuccess hraces' hssm hlen hin hout hcap hbytes
  obtain ⟨hsin, hsigned, hsout, hpay, hroom⟩ :=
    fits_of_compressCause (compressCause_of_success hraces.1 hexec hsuccess)
  obtain ⟨ps', w, m, -, hexec', hholds⟩ := exec_compress_of_fits hraces hsin hsigned hsout hpay hroom
  rw [hexec'] at hexec
  cases hexec
  obtain ⟨hfreq, hpayLen, houtLen⟩ := compressed_registers hraces.1 hpay (hroom.trans_lt s.outCap.isLt) ps' w m
  have hbytes' : ∀ a, a < containerLen s → u.inMem.read a = (completeOk (compressed ps' w m s)).outMem.read a :=
    fun a ha => hbytes a (ha.trans_eq houtLen.symm)
  have hs := container_of_holdsContainer hsigned hpay hholds hraces'.1 hbytes'
    ((congrArg BitVec.toNat hlen).trans houtLen) hin hout
  obtain ⟨rest, hbits⟩ := payload_eq_append hholds hraces'.1 hbytes'
  have hback : GivesBack s u := by
    rcases Nat.eq_zero_or_pos s.inLen.toNat with hzero | hpos
    · exact givesBack_of_empty hs hzero
    · have hsome : 0 < entryCount (compressFreq s) := entryCount_pos_iff.mpr
        ⟨s.inMem.read 0, (symGet_compressFreq_ne_zero_iff s _).mpr (List.mem_map_of_mem (List.mem_range.mpr hpos))⟩
      rcases Nat.lt_or_ge (entryCount (compressFreq s)) 2 with hone | htwo
      · obtain ⟨⟨sym, count⟩, hentries⟩ := List.length_eq_one_iff.mp (show entryCount (compressFreq s) = 1 by omega)
        exact givesBack_of_single hs hraces'.2 hpos hcap hbits hentries hssm
      · exact givesBack_of_two_le hs hraces'.2 hpos hcap hbits htwo
  obtain ⟨v, hv, hvsuccess, hvlen, hvfreq, hvorig, hvpay, hvout⟩ := hback
  exact ⟨v, hv, hvsuccess, BitVec.eq_of_toNat_eq hvlen, hvfreq.trans hfreq.symm, BitVec.eq_of_toNat_eq hvorig,
    BitVec.eq_of_toNat_eq (hvpay.trans hpayLen.symm), hvout⟩

end Sys2Proof.Machine
end

section
/-! PROOFS. Command control (46_control.md R300 to R303): acceptance, completion, NOP and CLEAR. -/

namespace Sys2Proof.Machine

open Sys2Proof.Spec

/-! ## Acceptance -/

/-- Settles O12: the write is the `writeIdle` of `accept`, which acts in an idle block. -/
theorem cmdWriteAccepted : Obligations.CmdWriteAccepted := by
  intro s v rest hidle hissues
  have haccept : csrWrite (csrAt 0x010) v { s with agenda := rest }
      = writeIdle { s with agenda := rest } (accept v { s with agenda := rest }) := rfl
  exact step_csrWr_idle hidle hissues (by decide) rfl haccept

/-! ## Completion -/

section
variable {s t : State} (h : BodyFrame s t)
include h

/-- Completion adds its one event to the progress events of the body. -/
theorem BodyFrame.success : ∃ ps, Success ps s (completeOk t) := by
  obtain ⟨ps, hps⟩ := h.history
  exact ⟨ps, rfl, rfl, h.errBit, h.err, by rw [completeOk_history, hps]⟩

/-- A failure taken adds its one event to the progress events of the body. -/
theorem BodyFrame.failure (c : Cause) : ∃ ps, Failure c ps s (completeFailed c t) := by
  obtain ⟨ps, hps⟩ := h.history
  exact ⟨ps, rfl, rfl, rfl, rfl, by rw [completeFailed_history, hps]⟩

end

/-- Settles O7: every command completes or fails after a body that has recorded progress events alone
(`exec_next`). -/
theorem everyCommandCompletesOnce : Obligations.EveryCommandCompletesOnce := by
  intro i s
  have hexec := exec_eq_complete i s
  obtain ⟨t, hframe, hdone | ⟨c, hfailed⟩⟩ := exec_next hexec
  · obtain ⟨ps, hsuccess⟩ := hframe.success
    exact ⟨completeOk t, ps, hdone ▸ hexec, .inl hsuccess⟩
  · obtain ⟨ps, hfailure⟩ := hframe.failure c
    exact ⟨completeFailed c t, ps, hfailed ▸ hexec, .inr ⟨c, hfailure⟩⟩

/-! ## NOP and CLEAR -/

/-- Completion changes no codec state. -/
theorem completeOk_sameCodec (s : State) : SameCodec s (completeOk s) :=
  ⟨⟨rfl, ⟨rfl, rfl⟩, rfl, rfl, rfl, ⟨rfl, rfl⟩, rfl, rfl⟩, rfl⟩

/-- Settles O27: NOP has no body, and completion leaves everything else alone. -/
theorem nopOnlyCompletes : Obligations.NopOnlyCompletes := fun s =>
  ⟨completeOk s, exec_of_done (i := .nop) rfl, completeOk_success s, completeOk_sameCodec s, completeOk_sameHost s,
    completeOk_sameIn s, completeOk_sameOut s⟩

/-- Settles O28: `clearBody` gives each of these fields its reset value, and writes no other. -/
theorem clearResetsCodecState : Obligations.ClearResetsCodecState := fun s =>
  ⟨completeOk (clearBody s), exec_of_done (i := .clear) rfl, completeOk_success (clearBody s),
    completeOk_sameHost (clearBody s), completeOk_sameIn (clearBody s), completeOk_sameOut (clearBody s),
    rfl, rfl, rfl, rfl, rfl, rfl, rfl, rfl, rfl, rfl, rfl⟩

end Sys2Proof.Machine
end

section
/-! PROOFS. Whole runs (60_exceptions.md R341; 93_implementation_defined.md section 1): where HOST's accesses all have a
meaning, every step gives a next state. -/

namespace Sys2Proof.Machine

open Sys2Proof.Spec

/-! ## What a move leaves of HOST's turns -/

/-- The parameters and the turns to come, by which HOST's accesses are judged, are as before. -/
def SameTurns (s t : State) : Prop := t.params = s.params ∧ t.agenda = s.agenda

theorem nextEvent_sameTurns (s : State) : SameTurns s (nextEvent s) := by
  obtain ⟨-, -, he⟩ | ⟨-, he⟩ := nextEvent_cases s <;> rw [he]
  · exact ⟨rfl, rfl⟩
  · exact ⟨rfl, rfl⟩

theorem csrWrite_sameTurns (r : Csr) (v : Word) (s : State) : SameTurns s (csrWrite r v s) := by
  cases r
  case status => exact ⟨rfl, rfl⟩
  case id | err | outLen | entryCount | progress | bwState | brState | treeInfo | reserved | node | code =>
    exact ⟨rfl, rfl⟩
  case ctrl | cmd | inLen | outCap | origLen | payloadLen | bwPos | brPos | brEnd | freq =>
    exact writeIdle_of (P := SameTurns s) ⟨rfl, rfl⟩ ⟨rfl, rfl⟩

theorem byteAccess_sameTurns (x : Access) (s : State) : SameTurns s (byteAccess x s) := by
  match x with
  | .reading addr b off left got =>
    obtain ⟨draws, access, reads, he⟩ := byteAccess_reading addr off left b got s
    rw [he]
    exact ⟨rfl, rfl⟩
  | .writing .input off bytes =>
    obtain ⟨inMem, inRaces, access, he⟩ := byteAccess_writing_input off bytes s
    rw [he]
    exact ⟨rfl, rfl⟩
  | .writing .output off bytes =>
    obtain ⟨outMem, outTouched, access, he⟩ := byteAccess_writing_output off bytes s
    rw [he]
    exact ⟨rfl, rfl⟩

theorem hostGoesOn_sameTurns (s : State) : SameTurns s (hostGoesOn s) := by
  cases hx : s.access with
  | none => simp [hostGoesOn, hx, SameTurns]
  | some x => exact hostGoesOn_of_access hx ▸ byteAccess_sameTurns x s

theorem coreStep_sameTurns (s : State) : ∃ t, coreStep s = .next t ∧ SameTurns s t := by
  obtain ⟨t, hstep, hparams, -, -, -, -, hagenda, -⟩ := coreStep_sameHost s
  exact ⟨t, hstep, hparams, hagenda⟩

/-! ## Accesses with a meaning -/

/-- An access of a form with a meaning, in the CSR space or inside a buffer, gives a next state. -/
theorem hostAct_of_allowed {a : HostAction} {s : State} (h : a.allowed s.params = true) :
    ∃ t, hostAct a s = .next t := by
  cases a with
  | read addr width =>
    rcases hloc : locate s.params addr with _ | ⟨_ | b, off⟩ <;>
      simp only [HostAction.allowed, hostAct, hostRead, hloc] at h ⊢
    · cases h
    · exact ⟨_, if_pos h⟩
    · exact ⟨_, if_pos (of_decide_eq_true h)⟩
  | write addr width value =>
    rcases hloc : locate s.params addr with _ | ⟨_ | b, off⟩ <;>
      simp only [HostAction.allowed, hostAct, hostWrite, hloc] at h ⊢
    · cases h
    · exact ⟨_, if_pos h⟩
    · exact ⟨_, if_pos (of_decide_eq_true h)⟩

theorem hostAct_sameTurns {a : HostAction} {s t : State} (h : hostAct a s = .next t) : SameTurns s t := by
  obtain ⟨addr, width, value, rfl⟩ | ⟨r, v, rfl⟩ | ⟨x, -, rfl⟩ := hostAct_next h
  · exact ⟨rfl, rfl⟩
  · exact csrWrite_sameTurns r v s
  · exact byteAccess_sameTurns x s

/-! ## Every step and every run -/

/-- Each access HOST has still to issue has a meaning. -/
def State.HostAllowed (s : State) : Prop := ∀ a, Turn.host a ∈ s.agenda → a.allowed s.params = true

theorem State.HostAllowed.of_sameTurns {s t : State} (h : s.HostAllowed) (hsame : SameTurns s t) : t.HostAllowed := by
  rwa [State.HostAllowed, hsame.1, hsame.2]

/-- A turn taken off the agenda leaves the others. -/
theorem State.HostAllowed.tail {s : State} {turn : Turn} {rest : List Turn} (h : s.HostAllowed)
    (hagenda : s.agenda = turn :: rest) : State.HostAllowed { s with agenda := rest } :=
  fun a ha => h a (hagenda ▸ List.mem_cons_of_mem turn ha)

/-- No turn ends the run, and none adds a turn or moves a space of HOST's. -/
theorem State.HostAllowed.step {s : State} (h : s.HostAllowed) : ∃ t, step s = .next t ∧ t.HostAllowed := by
  obtain ⟨rest, hagenda, hs⟩ | ⟨-, -, hs⟩ | ⟨rest, hagenda, hs⟩ | ⟨rest, hagenda, hs⟩ | ⟨rest, hagenda, hs⟩ |
    ⟨a, rest, hagenda, -, hs⟩ | ⟨x, -, -, hs⟩ := step_cases s <;> rw [hs]
  · obtain ⟨t, hcore, hsame⟩ := coreStep_sameTurns { s with agenda := rest }
    exact ⟨t, hcore, (h.tail hagenda).of_sameTurns hsame⟩
  · obtain ⟨t, hcore, hsame⟩ := coreStep_sameTurns s
    exact ⟨t, hcore, h.of_sameTurns hsame⟩
  · exact ⟨_, rfl, (h.tail hagenda).of_sameTurns ⟨rfl, rfl⟩⟩
  · exact ⟨_, rfl, (h.tail hagenda).of_sameTurns (nextEvent_sameTurns _)⟩
  · exact ⟨_, rfl, (h.tail hagenda).of_sameTurns (hostGoesOn_sameTurns _)⟩
  · have hmem : Turn.host a ∈ s.agenda := hagenda ▸ List.mem_cons_self
    obtain ⟨t, hact⟩ := hostAct_of_allowed (s := { s with agenda := rest }) (h a hmem)
    exact ⟨t, hact, (h.tail hagenda).of_sameTurns (hostAct_sameTurns hact)⟩
  · exact ⟨_, rfl, h.of_sameTurns (byteAccess_sameTurns x s)⟩

/-- Settles O60, by induction on the number of steps: every step gives a next state and keeps the accesses to come
allowed (`State.HostAllowed.step`). -/
theorem allowedHostNeverStops : Obligations.AllowedHostNeverStops := by
  intro s hallowed k
  replace hallowed : s.HostAllowed := hallowed
  induction k generalizing s with
  | zero => exact ⟨s, rfl⟩
  | succ k ih =>
    obtain ⟨t, hstep, ht⟩ := hallowed.step
    rw [run_succ hstep]
    exact ih t ht

end Sys2Proof.Machine
end

section
/-! PROOFS. Exceptions (60_exceptions.md R324 to R328): the causes each command raises, and what a failed command
leaves. -/

namespace Sys2Proof.Machine

open Sys2Proof.Spec

/-! ## From a failed command to its body -/

/-- A command whose history ends in a failure is one whose body raised that cause. -/
theorem bodyOf_failed_of_exec {i : Instr} {s t : State} {c : Cause} (h : exec i s = .next t)
    (hlast : t.history.getLast? = some (.complete (some c))) :
    ∃ u, bodyOf i s = .failed c u ∧ t = completeFailed c (failRuleOf i u) := by
  cases hbody : bodyOf i s with
  | done u =>
    rw [exec_of_done hbody] at h
    cases h
    simp at hlast
  | failed c' u =>
    rw [exec_of_failed hbody] at h
    cases h
    obtain rfl : c' = c := by simpa using hlast
    exact ⟨u, rfl, rfl⟩

/-! ## The bodies of the component commands: one that raises has changed nothing (60_exceptions.md R327) -/

section
variable {s t : State} {c : Cause}

theorem countBody_failed (h : countBody s = .failed c t) : t = s ∧ c ∈ causesOf .count := by
  unfold countBody at h
  split at h
  · cases h; exact ⟨rfl, by decide⟩
  · cases h

theorem wrbitBody_failed {b : Bool} (h : wrbitBody b s = .failed c t) : t = s ∧ c ∈ causesOf (.wrbit b) := by
  obtain ⟨-, hb⟩ | ⟨-, -, -, hb⟩ | ⟨-, -, -, hb⟩ | ⟨-, -, hb⟩ := wrbitBody_cases b s <;> rw [hb] at h <;> cases h
  · exact ⟨rfl, by simp [causesOf]⟩
  · exact ⟨rfl, by simp [causesOf]⟩

theorem flushBody_failed (h : flushBody s = .failed c t) : t = s ∧ c ∈ causesOf .flush := by
  obtain ⟨-, hb⟩ | ⟨-, -, hb⟩ | ⟨-, -, -, hb⟩ | ⟨-, -, -, hb⟩ := flushBody_cases s <;> rw [hb] at h <;> cases h
  · exact ⟨rfl, by decide⟩
  · exact ⟨rfl, by decide⟩

theorem rdbitBody_failed (h : rdbitBody s = .failed c t) :
    t = s ∧ (c = .readEmpty ∧ s.br.rem = 0 ∧ s.br.endPos.toNat ≤ s.br.pos.toNat ∨ c = .badArg) := by
  obtain ⟨hrem, hpos, hb⟩ | ⟨-, -, -, hb⟩ | ⟨-, -, -, -, hb⟩ | ⟨k, -, hb⟩ := rdbitBody_cases s <;>
    rw [hb] at h <;> cases h
  · exact ⟨rfl, .inl ⟨rfl, hrem, hpos⟩⟩
  · exact ⟨rfl, .inr rfl⟩

theorem cwriteBody_failed (h : cwriteBody s = .failed c t) : t = s ∧ c ∈ causesOf .cwrite := by
  unfold cwriteBody at h
  split at h
  · cases h; exact ⟨rfl, by decide⟩
  split at h
  · cases h; exact ⟨rfl, by decide⟩
  split at h
  · cases h; exact ⟨rfl, by decide⟩
  · cases h

end

section
variable {view : Nat → Byte} {inLen p : Nat} {c : Cause}

theorem readEntries_error {left : Nat} {prev : Int} {f : SymTable Word}
    (h : readEntries view inLen left p prev f = .error c) : c ∈ [.hdrShort, .hdrBadCount, .hdrSymbolOrder] := by
  induction left generalizing p prev f with
  | zero => cases h
  | succ left ih =>
    unfold readEntries at h
    split at h
    · cases h; decide
    split at h
    · cases h; decide
    split at h
    · cases h; decide
    split at h
    · cases h; decide
    · exact ih h

theorem readLengths_error {f : SymTable Word} (h : readLengths view inLen f p = .error c) :
    c ∈ [.hdrShort, .hdrNegOrigLen, .hdrPayloadLen] := by
  unfold readLengths at h
  split at h
  · cases h; decide
  split at h
  · cases h; decide
  split at h
  · cases h; decide
  split at h
  · cases h; decide
  split at h
  · cases h; decide
  · cases h

theorem readHeader_error (h : readHeader view inLen = .error c) : c ∈ causesOf .cread := by
  unfold readHeader at h
  split at h
  · cases h; decide
  split at h
  · cases h; decide
  split at h
  · rename_i c' hread
    cases h
    exact (by decide : ∀ x ∈ [Cause.hdrShort, .hdrBadCount, .hdrSymbolOrder], x ∈ causesOf .cread) c
      (readEntries_error hread)
  · exact (by decide : ∀ x ∈ [Cause.hdrShort, .hdrNegOrigLen, .hdrPayloadLen], x ∈ causesOf .cread) c
      (readLengths_error h)

end

theorem creadBody_failed {s t : State} {c : Cause} (h : creadBody s = .failed c t) : t = s ∧ c ∈ causesOf .cread := by
  unfold creadBody at h
  split at h
  · cases h; exact ⟨rfl, by decide⟩
  split at h
  · rename_i c' hread
    cases h
    exact ⟨rfl, readHeader_error hread⟩
  · cases h

/-- A command but COMPRESS and DECOMPRESS that raises has changed nothing, and raises a cause listed for it. -/
theorem bodyOf_failed {i : Instr} {s t : State} {c : Cause} (hi : i ∉ [Instr.compress, .decompress])
    (h : bodyOf i s = .failed c t) : t = s ∧ c ∈ causesOf i := by
  cases i
  case nop | build | gencode | canrd | clear => cases h
  case count => exact countBody_failed h
  case wrbit b => exact wrbitBody_failed h
  case flush => exact flushBody_failed h
  case rdbit =>
    obtain ⟨rfl, ⟨rfl, -⟩ | rfl⟩ := rdbitBody_failed h
    · exact ⟨rfl, by decide⟩
    · exact ⟨rfl, by decide⟩
  case cwrite => exact cwriteBody_failed h
  case cread => exact creadBody_failed h
  case compress | decompress => exact absurd hi (by decide)

/-- Settles O9: a component command's body that raises has changed nothing (`bodyOf_failed`), nor does taking the
failure, but for CWRITE's rule. -/
theorem failedComponentChangesNothing : Obligations.FailedComponentChangesNothing := by
  refine ⟨fun i s t c hi hexec hlast => ?_, fun s t c hexec hlast => ?_, fun s => ?_⟩
  · obtain ⟨u, hbody, rfl⟩ := bodyOf_failed_of_exec hexec hlast
    obtain ⟨hengine, hrule⟩ : i ∉ [Instr.compress, .decompress] ∧ failRuleOf i = failComponent := by
      simp only [List.mem_cons, List.not_mem_nil, or_false] at hi
      rcases hi with (rfl | rfl | rfl | rfl) | ⟨b, rfl⟩ <;> exact ⟨by simp, rfl⟩
    obtain ⟨rfl, -⟩ := bodyOf_failed hengine hbody
    rw [hrule]
    exact ⟨completeFailed_failure c u, completeFailed_sameCodec c u, completeFailed_sameHost c u,
      completeFailed_sameIn c u, completeFailed_sameOut c u⟩
  · obtain ⟨u, hbody, rfl⟩ := bodyOf_failed_of_exec hexec hlast
    obtain ⟨rfl, -⟩ := cwriteBody_failed hbody
    exact ⟨completeFailed_failure c (failCwrite u), (completeFailed_sameCodec c (failCwrite u)).1, rfl,
      completeFailed_sameHost c (failCwrite u), completeFailed_sameIn c (failCwrite u),
      completeFailed_sameOut c (failCwrite u)⟩
  · exact ⟨completeFailed_failure .illegalCmd s, completeFailed_sameCodec .illegalCmd s,
      completeFailed_sameHost .illegalCmd s, completeFailed_sameIn .illegalCmd s, completeFailed_sameOut .illegalCmd s⟩

/-! ## The causes of COMPRESS and DECOMPRESS (60_exceptions.md R324) -/

/-- A body raises none but the given causes. -/
def CmdResult.Raises (cs : List Cause) (r : CmdResult) : Prop := ∀ c t, r = .failed c t → c ∈ cs

section
variable {cs : List Cause}

@[simp] theorem CmdResult.raises_done {s : State} : (CmdResult.done s).Raises cs := by
  simp [CmdResult.Raises]

@[simp] theorem CmdResult.raises_failed {c : Cause} {s : State} : (CmdResult.failed c s).Raises cs ↔ c ∈ cs := by
  simp [CmdResult.Raises]

theorem CmdResult.Raises.bind {r : CmdResult} {f : State → CmdResult} (hr : r.Raises cs)
    (hf : ∀ t, (f t).Raises cs) : (r.bind f).Raises cs := by
  cases r with
  | done t => exact hf t
  | failed c t => exact hr

end

section
variable (s : State)

theorem writeBits_raises (bits : List Bool) : (writeBits bits s).Raises (causesOf (.wrbit true)) := by
  induction bits generalizing s with
  | nil => exact CmdResult.raises_done
  | cons b bs ih => exact CmdResult.Raises.bind (fun _ _ h => (wrbitBody_failed h).2) fun t => ih t

theorem encodeFrom_raises (n left i last : Nat) : (encodeFrom n left i last s).Raises (causesOf (.wrbit true)) := by
  induction left generalizing i last s with
  | zero => exact CmdResult.raises_done
  | succ left ih => exact (writeBits_raises s _).bind fun _ => ih _ _ _

/-- The encode loop and FLUSH raise what WRBIT and FLUSH do, which is the same. -/
theorem encodePayload_raises (len : Nat) : (encodePayload len s).Raises (causesOf (.wrbit true)) :=
  (encodeFrom_raises _ _ _ _ _).bind fun _ =>
    CmdResult.Raises.bind (fun _ _ h => (flushBody_failed h).2) fun _ => CmdResult.raises_done

theorem compressBody_raises : (compressBody s).Raises (causesOf .compress) := by
  by_cases hbad : s.params.inSize < s.inLen.toNat ∨ s.params.outSize < s.outCap.toNat
  · rw [compressBody_of_bad_length hbad, CmdResult.raises_failed]
    decide
  rw [compressBody_of_legal_lengths (by omega) (by omega)]
  by_cases hpay : payloadSize (coded s) < 2 ^ 31
  case neg =>
    rw [compressTail_of_large (Nat.not_lt.mp hpay), CmdResult.raises_failed]
    decide
  by_cases hroom : (coded s).outCap.toNat < 16 + 9 * entryCount (coded s).freq + payloadSize (coded s)
  · rw [compressTail_of_no_room hpay hroom, CmdResult.raises_failed]
    decide
  · rw [compressTail_of_room hpay (Nat.not_lt.mp hroom)]
    have hstores : ∀ c ∈ causesOf (.wrbit true), c ∈ causesOf .compress := by decide
    exact CmdResult.Raises.bind (fun c _ h => hstores c (cwriteBody_failed h).2)
      fun t c u h => hstores c (encodePayload_raises t _ c u h)

variable {s}

/-- An RDBIT that CANRD allows does not run out of bits (43_bitio.md R214, R215). -/
theorem rdbitBody_raises (hcan : canRead s = true) : (rdbitBody s).Raises (causesOf .decompress) := by
  intro c t h
  obtain ⟨-, ⟨-, hrem, hpos⟩ | rfl⟩ := rdbitBody_failed h
  · have hread : 0 < s.br.rem.val ∨ s.br.pos.toNat < s.br.endPos.toNat := of_decide_eq_true hcan
    rw [hrem, Fin.val_zero] at hread
    omega
  · decide

variable (s)

theorem decodeWalk_raises (root total fuel out node : Nat) :
    (decodeWalk root total fuel out node s).Raises (causesOf .decompress) := by
  induction fuel generalizing out node s with
  | zero =>
    unfold decodeWalk
    split
    · exact CmdResult.raises_failed.mpr (by decide)
    · exact CmdResult.raises_done
  | succ fuel ih =>
    unfold decodeWalk
    split
    · split
      · refine (rdbitBody_raises ‹_›).bind fun t => ?_
        extract_lets child
        split
        · exact ih _ _ _
        · exact ih _ _ _
      · exact CmdResult.raises_failed.mpr (by decide)
    · exact CmdResult.raises_done

theorem decodeOneBit_raises (sym : Byte) (left out : Nat) :
    (decodeOneBit sym left out s).Raises (causesOf .decompress) := by
  induction left generalizing out s with
  | zero => exact CmdResult.raises_done
  | succ left ih =>
    unfold decodeOneBit
    split
    · refine (rdbitBody_raises ‹_›).bind fun t => ?_
      split
      · exact CmdResult.raises_failed.mpr (by decide)
      · exact ih _ _
    · exact CmdResult.raises_failed.mpr (by decide)

theorem decodeSymbols_raises (total : Nat) : (decodeSymbols total s).Raises (causesOf .decompress) := by
  unfold decodeSymbols
  extract_lets root
  split
  · split
    · split
      · exact decodeOneBit_raises s _ _ _
      · exact CmdResult.raises_done
    · exact decodeWalk_raises s _ _ _ _ _
  · exact CmdResult.raises_failed.mpr (by decide)

theorem decompressTail_raises : (decompressTail s).Raises (causesOf .decompress) := by
  unfold decompressTail
  extract_lets total
  split
  · exact CmdResult.raises_failed.mpr (by decide)
  split
  · exact CmdResult.raises_done
  · exact (decodeSymbols_raises s total).bind fun _ => CmdResult.raises_done

theorem decompressBody_raises : (decompressBody s).Raises (causesOf .decompress) := by
  unfold decompressBody
  split
  · exact CmdResult.raises_failed.mpr (by decide)
  · have hcread : ∀ c ∈ causesOf .cread, c ∈ causesOf .decompress := by decide
    exact CmdResult.Raises.bind (fun c _ h => hcread c (creadBody_failed h).2) fun _ => decompressTail_raises _

end

/-- No command's body raises a cause that is not listed for it. -/
theorem bodyOf_raises (i : Instr) (s : State) : (bodyOf i s).Raises (causesOf i) := by
  by_cases hi : i ∈ [Instr.compress, .decompress]
  · simp only [List.mem_cons, List.not_mem_nil, or_false] at hi
    obtain rfl | rfl := hi
    · exact compressBody_raises s
    · exact decompressBody_raises s
  · exact fun _ _ h => (bodyOf_failed hi h).2

/-- Settles O8: the failure is the body's (`bodyOf_failed_of_exec`), and `bodyOf_raises` says what a body raises. -/
theorem causesPerCommand : Obligations.CausesPerCommand := by
  refine ⟨fun i s t c hexec hlast => ?_, fun s c hlast => ?_⟩
  · obtain ⟨u, hbody, -⟩ := bodyOf_failed_of_exec hexec hlast
    exact bodyOf_raises i s c u hbody
  · have hcause : Cause.illegalCmd = c := by simpa [runIllegal, failComponent] using hlast
    exact hcause.symm

/-! ## A failed COMPRESS or DECOMPRESS (60_exceptions.md R328) -/

/-- Settles O10: the body stores below OUT_CAP alone (`bodyOf_outStored`), and the failure rule frees the bytes there
alone. -/
theorem failedEngineDiscardsOutput : Obligations.FailedEngineDiscardsOutput := by
  intro i s t c hi hexec hlast
  obtain ⟨hhost, hin⟩ := commandsNeverWriteHostState i s t hexec
  obtain ⟨u, hbody, rfl⟩ := bodyOf_failed_of_exec hexec hlast
  have hrule : failRuleOf i = failEngine := by
    simp only [List.mem_cons, List.not_mem_nil, or_false] at hi
    rcases hi with rfl | rfl <;> rfl
  rw [hrule] at hhost hin ⊢
  have hframe : BodyFrame s u := by simpa [hbody] using bodyOf_frame i s
  have hstored : OutStored s u := by simpa [hbody] using bodyOf_outStored i s
  refine ⟨rfl, rfl, rfl, hhost, hin, fun a ha htouched => ?_⟩
  have hkept : u.outMem.read a = s.outMem.read a := by
    refine hstored.keeps (Q := fun m => m.read a = s.outMem.read a) (fun m x b hroom hm => ?_) rfl
    have hne : a ≠ x := by have := hroom.1; omega
    rw [Memory.read_write_other m b hne, hm]
  have hcap : u.outCap.toNat ≤ a := by rw [hframe.outCap]; omega
  calc (completeFailed c (failEngine u)).outMem.read a
      = (failEngine u).outMem.read a := completeFailed_sameOut c (failEngine u) a id (hframe.outTouched ▸ htouched)
    _ = u.outMem.read a := Memory.read_scramble _ _ _ _ hcap
    _ = s.outMem.read a := hkept

end Sys2Proof.Machine
end

section
/-! PROOFS. Exceptions and reset (60_exceptions.md R330, R340; 70_reset_and_hazards.md R360, R361): the idle block, the
interrupt line, and the reset input. -/

namespace Sys2Proof.Machine

open Sys2Proof.Spec

/-! ## The idle block -/

/-- Settles O6: with no command accepted CORE's turn is no change. -/
theorem idleStateSurvives : Obligations.IdleStateSurvives := by
  intro s rest hidle hmoves
  have hnone : s.pending = none := Option.isNone_iff_eq_none.mp (by simpa [State.busy] using hidle)
  rw [step_of_coreMoves hmoves, coreStep, hnone]

/-! ## The reset input -/

/-- After the reset input HOST reads what it reads right after reset, whatever the state before. -/
theorem csrValue_hardReset (s : State) (r : Csr) : csrValue (hardReset s) r = csrValue State.reset r := by
  cases r <;> rfl

theorem csrValue_reset_of_ne_id {r : Csr} (h : r ≠ .id) : csrValue State.reset r = 0 := by
  obtain ⟨-, hregisters, hfreq, hnode, hcode, -⟩ := resetStateReadsAsListed
  cases r
  case id => exact absurd rfl h
  case cmd | reserved => rfl
  case freq sym => exact hfreq sym
  case node i high => exact hnode i high
  case code sym k => exact hcode sym k
  all_goals exact hregisters _ (by decide)

theorem csrLow_ne_id {off : Nat} (h : off ≠ 0) : csrLow off ≠ .id := by
  unfold csrLow
  split
  case h_1 => exact absurd rfl h
  all_goals exact nofun

/-- ID stands at offset 0 alone. -/
theorem csrAt_ne_id {off : Nat} (h : off ≠ 0) : csrAt off ≠ .id := by
  unfold csrAt
  split_ifs
  · exact csrLow_ne_id h
  all_goals exact nofun

/-- Settles O23: HOST reads the reset values (`csrValue_hardReset`), and the other fields are given their values by
`hardReset`. -/
theorem resetInputGivesResetValues : Obligations.ResetInputGivesResetValues := by
  intro s rest hagenda
  refine ⟨hardReset { s with agenda := rest }, by simp only [step, hagenda], fun off _ _ hoff => ?_, ?_, rfl, rfl,
    rfl, rfl, rfl, rfl, rfl, rfl, rfl⟩
  · rw [csrValue_hardReset, csrValue_reset_of_ne_id (csrAt_ne_id hoff)]
  · exact (csrValue_hardReset _ _).trans resetStateReadsAsListed.1

/-! ## The interrupt line -/

theorem irq_iff (s : State) : irq s = true ↔
    (s.status.done = true ∧ s.ctrl.ieDone = true) ∨ (s.status.err = true ∧ s.ctrl.ieErr = true)
      ∨ (s.status.progPend = true ∧ s.ctrl.ieProg = true) := by
  simp [irq, or_assoc]

theorem irq_w1cStatus_sources (s : State) : irq (w1cStatus 0xE s) = false := by
  simp [irq, w1cStatus]

theorem irq_accept (v : Word) (s : State) : irq (accept v s) = false := by
  simp [irq]

/-- While BUSY = 1 neither DONE nor STATUS.ERR is 1, and PROG_PEND is so only where a COMPRESS runs. -/
theorem irq_of_busy {s : State} (hok : s.StatusOk) (hbusy : s.busy = true) (hirq : irq s = true) :
    s.pending = some (encode .compress) ∧ s.status.progPend = true ∧ s.ctrl.ieProg = true := by
  obtain ⟨-, -, hrunning, hother, -⟩ := hok
  obtain ⟨hdone, herr⟩ := hrunning hbusy
  obtain ⟨hprog, hie⟩ : s.status.progPend = true ∧ s.ctrl.ieProg = true := by simpa [irq_iff, hdone, herr] using hirq
  refine ⟨by_contra fun hne => ?_, hprog, hie⟩
  rw [(hother hbusy hne).1] at hprog
  cases hprog

/-! ## Progress events before completion (45_engine.md R276) -/

/-- Completion adds one event to what the body has recorded. -/
theorem complete_history (i : Instr) (r : CmdResult) :
    ∃ e, (complete (failRuleOf i) r).history = r.final.history ++ [e] := by
  cases r with
  | done t => exact ⟨_, completeOk_history t⟩
  | failed c t =>
    have hrule : (failRuleOf i t).history = t.history := by cases i <;> rfl
    exact ⟨_, by rw [complete_failed, completeFailed_history, hrule, CmdResult.final_failed]⟩

/-- The progress events of a command are those its body has recorded. -/
theorem bodyOf_history_of_exec {i : Instr} {s u : State} {ps : List Nat} (hexec : exec i s = .next u)
    (hends : Success ps s u ∨ ∃ c, Failure c ps s u) :
    (bodyOf i s).final.history = s.history ++ ps.map Event.progress := by
  obtain ⟨outcome, hhistory⟩ : ∃ o, u.history = s.history ++ ps.map Event.progress ++ [Event.complete o] := by
    obtain ⟨-, -, -, -, h⟩ | ⟨c, -, -, -, -, h⟩ := hends
    · exact ⟨none, h⟩
    · exact ⟨some c, h⟩
  rw [exec_eq_complete] at hexec
  cases hexec
  obtain ⟨e, he⟩ := complete_history i (bodyOf i s)
  exact (List.append_inj' (he.symm.trans hhistory) rfl).1

theorem step_event {s : State} {rest : List Turn} (h : s.agenda = .event :: rest) :
    step s = .next (nextEvent { s with agenda := rest }) := by
  simp only [step, h]

/-- Settles O25: the line by the bits of the two words, what deasserts it and what can assert it while BUSY = 1
(`irq_of_busy`), and an event's turn by the count of events the command's body records. -/
theorem irqFollowsStatusAndCtrl : Obligations.IrqFollowsStatusAndCtrl := by
  refine ⟨fun s => ⟨?_, irq_w1cStatus_sources s, fun v => irq_accept v s, irq_of_busy⟩, fun s rest hagenda => ?_⟩
  · simp only [statusWord, getLsbD_statusBits, getLsbD_ctrl_word]
    exact irq_iff s
  · rw [step_event hagenda]
    refine ⟨fun hother => ?_, fun u ps hpending hexec hends => ?_⟩
    · exact congrArg _ (if_neg fun h => hother h.1)
    · have hcount : compressEvents { s with agenda := rest } = ps.length :=
        compressEvents_eq _ ps (bodyOf_history_of_exec hexec hends)
      refine ⟨fun hmore => ?_, fun hnone => ?_⟩
      · exact congrArg _ (if_pos ⟨hpending, hcount ▸ hmore⟩)
      · exact congrArg _ (if_neg fun h => Nat.not_lt.mpr hnone (hcount ▸ h.2))

end Sys2Proof.Machine
end
